-- ==== Sys2Proof/Word.lean ====
section
/-! DEFINITION. The word types of VQIPC: the u8, u16, u32 and u64 of rule R11 (00_scope.md). Counts, sizes and memory
keys are `Nat`; what software or the protocol sees as a word is a `BitVec`. -/

namespace Sys2Proof

/-- u8 (R11): one byte of memory. -/
abbrev Byte := BitVec 8

/-- u16 (R11, R12): an index, a cursor, a descriptor id as the avail ring holds it. -/
abbrev Half := BitVec 16

/-- u32 (R11): a block register, a descriptor length, an endpoint address. -/
abbrev Word := BitVec 32

/-- u64 (R11): the descriptor's address field. -/
abbrev Dword := BitVec 64

/-- N, the number of descriptor slots of a ring (R7). -/
abbrev ringN : Nat := 8

/-- ENV_SIZE, the size of the transport envelope (R8). -/
abbrev envSize : Nat := 16

/-- u16(x) = x mod 2^16 (R12). -/
abbrev u16 (x : Nat) : Half := BitVec.ofNat 16 x

/-- u32(x) = x mod 2^32 (R12). -/
abbrev u32 (x : Nat) : Word := BitVec.ofNat 32 x

end Sys2Proof
end

