-- ==== Sys2Proof/Config.lean ====
section
/-! DEFINITION. The configuration of rule R9 (00_scope.md): the parameters the spec leaves OPEN, fixed for one machine; and
the free value of the log's entry 4. Whether a configuration meets R9's constraints is `Config.ok` (WellFormed.lean). -/

namespace Sys2Proof

/-- A region of an address space: a base and a size in bytes (R9: `SHM_WIN[w]`, `PRIV`). -/
structure Region where
  base : Word
  size : Word
  deriving DecidableEq, Repr

/-- `RX_USED_LEN_POLICY` (R9, R243): which length an RX used entry carries. -/
inductive RxLenPolicy where
  | descLen
  | frameLen
  deriving DecidableEq, Repr

/-- The configuration (R9). `N` and `DEV_ADDR_WIDTH` are fixed by the spec (8 and 32) and so are no fields. -/
structure Config where
  /-- `SHM_WIN[0]` -/
  win0 : Region
  /-- `SHM_WIN[1]` -/
  win1 : Region
  /-- `TX_BASE` -/
  txBase : Word
  /-- `RX_BASE` -/
  rxBase : Word
  /-- `PRIV`, the device-private memory FRAME_SEND reads from (R70, R74) -/
  priv : Region
  /-- `INIT_BUDGET` (R292) -/
  initBudget : Nat
  /-- `LOCAL_ADDR` (R293, R300) -/
  localAddr : Word
  /-- `NS_ADDR` (R293) -/
  nsAddr : Word
  /-- `SERVICE_NAME`, at most 32 bytes (R116) -/
  serviceName : List Byte
  /-- `RX_USED_LEN_POLICY` (R243) -/
  rxLenPolicy : RxLenPolicy
  /-- `REG_BASE`, the client's address of the register space (R48) -/
  regBase : Word
  deriving DecidableEq, Repr

/-- The example configuration E of 95_test_vectors.md section 0. DESIGN CHOICE (log 1): `State.reset` carries it, since the
spec leaves every parameter open; every statement about all states ranges over all configurations. Unsafe for a claim
about the reset state only. -/
def Config.example : Config where
  win0 := ⟨0x10040000, 0x00010000⟩
  win1 := ⟨0x10100000, 0x00100000⟩
  txBase := 0x10040000
  rxBase := 0x10040400
  priv := ⟨0x20000000, 0x00001000⟩
  initBudget := 100
  localAddr := 0x400
  nsAddr := 0x35
  serviceName := [0x76, 0x71, 0x69, 0x70, 0x63, 0x2D, 0x64, 0x65, 0x6D, 0x6F]
  rxLenPolicy := .descLen
  regBase := 0x30000000

/-- The free value (log 4): what a hidden register that R55 calls unspecified holds after a hardware reset. It has no body,
so nothing can evaluate it; the machine applies it to a counter it advances. -/
opaque Config.freeNat : Nat → Nat

end Sys2Proof
end

