-- ==== Sys2Proof/Syntax.lean ====
section
/-! DEFINITION. The commands of VQIPC: one constructor per row of spec/opcode_table.json (30_encoding.md R121). Operands
are not in the command word: they are read from ARG0-ARG3 (R120, R123), so no constructor carries any. -/

namespace Sys2Proof

/-- The eight commands of the opcode map (R121). -/
inductive Instr where
  /-- INIT (R291) -/
  | init
  /-- SHUTDOWN (R296) -/
  | shutdown
  /-- ACQUIRE_TX (R163) -/
  | acquireTx
  /-- PUBLISH_TX (R167) -/
  | publishTx
  /-- FRAME_SEND (R204) -/
  | frameSend
  /-- POLL_RX (R240) -/
  | pollRx
  /-- RX_RELEASE (R246) -/
  | rxRelease
  /-- QUERY (R297) -/
  | query
  deriving DecidableEq, Repr

end Sys2Proof
end

