-- ==== Sys2Proof/Machine/State.lean ====
section
/-! DEFINITION. The state of VQIPC as plain data (10_state.md R30 to R55, 20_memory.md R89, 44_host_agent.md R53), the two
agents' work in progress, and the reasons a step can stop. INVENTORY.md lists every field with its rule and reset value. -/

namespace Sys2Proof.Machine

/-- The two rings (R51). -/
inductive Ring where
  | tx
  | rx
  deriving DecidableEq, Repr

/-- The two agents that touch shared memory (R3). The device is the block and its client. -/
inductive Agent where
  | device
  | host
  deriving DecidableEq, Repr

/-- STATE.CH, the channel state (R32, R290). -/
inductive Channel where
  | uninitialized
  | waitingForHostBuffers
  | announcing
  | ready
  deriving DecidableEq, Repr

/-- STATE.SUB, the sequencer state (R32). The value 3 is never produced. -/
inductive Sub where
  | idle
  | busy
  | delivering
  deriving DecidableEq, Repr

/-- The status codes (R125). Codes 8-255 are never produced. -/
inductive Status where
  | ok
  | notInitialized
  | noBufferAvailable
  | payloadTooLarge
  | initTimeout
  | illegalCommand
  | faulted
  | frameDelivered
  deriving DecidableEq, Repr

/-- The subcodes of a BOUNDS fault (R126). -/
inductive BufKind where
  | txBuf
  | rxBuf
  | privSrc
  deriving DecidableEq, Repr

/-- The subcodes of a CLIENT_PROTOCOL fault (R126). -/
inductive ClientError where
  | publishNotHeld
  | publishLenGtCap
  | nestedPoll
  | controlDuringDelivery
  | releaseNotDelivering
  | unwrittenArg
  | argRange
  deriving DecidableEq, Repr

/-- FAULT.CODE with FAULT.SUBC (R126, R381). `none` is CODE 0. Its numbers are in Flags.lean. -/
inductive FaultCause where
  | none
  | desync (r : Ring)
  | badDescId (r : Ring)
  | bounds (b : BufKind)
  | clientProtocol (e : ClientError)
  | doubleGrant
  deriving DecidableEq, Repr

/-- Memory: address and byte pairs in one canonical form (`Memory.wf`, Ops.lean): addresses strictly rising, no entry equal
to what an unlisted address reads as. -/
abbrev Memory := List Host.Cell

/-- One entry of a pending-write set (R89). Its place in the set, a list with the oldest first, is its program order (log 10). -/
structure PendingWrite where
  addr  : Nat
  bytes : List Byte
  deriving DecidableEq, Repr

/-- One shared-memory event (R84): a read of n bytes, a write of some bytes, or a barrier. -/
inductive Event where
  | read (a n : Nat)
  | write (a : Nat) (bs : List Byte)
  | barrier
  deriving DecidableEq, Repr

/-- Who runs FrameSendCore (R211): FRAME_SEND, or INIT's announcement (R293). -/
inductive Origin where
  | frameSend
  | announce
  deriving DecidableEq, Repr

/-- The operands of a running FrameSendCore (R211). L is the payload's length. -/
structure Frame where
  origin  : Origin
  src     : Word
  dst     : Word
  payload : List Byte
  deriving DecidableEq, Repr

/-- Which command walks an avail ring (R160 to R162): ACQUIRE_TX, a FrameSendCore, POLL_RX. -/
inductive Walk where
  | acquire
  | send (f : Frame)
  | poll
  deriving DecidableEq, Repr

/-- Which command runs UsedPush (R166), and what it does after it. POLL_RX keeps its local cursor c. -/
inductive PushKind where
  | publish
  | send (f : Frame)
  | poll (c : Half)
  deriving DecidableEq, Repr

/-- The five events of UsedPush (R166), in order. -/
inductive PushPhase where
  | id
  | len
  | barrier1
  | idx
  | barrier2
  deriving DecidableEq, Repr

/-- The operands of a running UsedPush (R166): id, n and the local u. -/
structure PushJob where
  kind : PushKind
  id   : Fin 8
  len  : Word
  u    : Half
  deriving DecidableEq, Repr

/-- The position in the running command (R33): the next event to perform, with the pseudocode's local values
(log 23). -/
inductive Pos where
  /-- INIT's wait (R292): the next read of TX avail.idx -/
  | initPeek
  /-- AvailPeek (R160): read avail.idx against the cursor c -/
  | peek (w : Walk) (c : Half)
  /-- TakeSlot (R161): read avail.ring[c mod N] -/
  | slot (w : Walk) (c : Half)
  /-- ReadDesc (R162): read desc[id].addr -/
  | descAddr (w : Walk) (c : Half) (id : Fin 8)
  /-- ReadDesc (R162): read desc[id].len -/
  | descLen (w : Walk) (c : Half) (id : Fin 8) (addr : Dword)
  /-- MemWriteBytes (R86, R211): write byte b at addr, then the rest -/
  | txByte (f : Frame) (id : Fin 8) (addr : Nat) (b : Byte) (rest : List Byte)
  /-- MemReadBytes(addr, 16) (R86, R240): the envelope bytes read so far are `got` -/
  | rxEnv (c : Half) (id : Fin 8) (addr : Word) (dlen : Word) (got : List Byte)
  /-- UsedPush (R166) -/
  | push (ph : PushPhase) (j : PushJob)
  deriving DecidableEq, Repr

/-- A POLL_RX suspended in its Deliver (R252): its local values c and id. -/
structure Suspended where
  cursor : Half
  id     : Fin 8
  deriving DecidableEq, Repr

/-- The sequencer (R33): no command runs; a command runs at a position, with the POLL_RX it is nested in, if any (R247,
R384); or a POLL_RX waits for RX_RELEASE. The return state recorded at acceptance (R371) is whether one is suspended. -/
inductive Seq where
  | idle
  | busy (p : Pos) (outer : Option Suspended)
  | delivering (k : Suspended)
  deriving DecidableEq, Repr

/-- The host's private state of one ring (R53): H_AVAIL, H_LAST_USED and H_OWNED. -/
structure HostRing where
  avail    : Half
  lastUsed : Half
  owned    : Vector Bool 8
  deriving DecidableEq, Repr

/-- One entry of an H_GRANT (R332). `extra` is the optional write of the descriptor's flags and next; `frame` is bs. -/
structure GrantEntry where
  id    : Half
  addr  : Dword
  len   : Word
  extra : Option (Half × Half)
  frame : List Byte
  deriving DecidableEq, Repr

/-- What a straight host procedure does to the host's private state after its last event (R332, R339). -/
inductive HostEffect where
  | nothing
  /-- H_CREATE: H_OWNED is every id, H_AVAIL and H_LAST_USED are 0 (R339) -/
  | created
  /-- H_GRANT: H_AVAIL advances by `count`, the ids leave H_OWNED (R332) -/
  | granted (r : Ring) (count : Nat) (ids : List Half)
  /-- a broken duty: the host wrote v to avail.idx (R337) -/
  | wroteIdx (r : Ring) (v : Half)
  deriving DecidableEq, Repr

/-- The host's position in its own procedure (R330): the events left of a straight one, or the next read of H_REAP (R333),
which stops after at most `left` entries. -/
inductive HostPos where
  | script (todo : List Event) (fin : HostEffect)
  | reapIdx (r : Ring) (left : Nat)
  | reapId (r : Ring) (u : Half) (left : Nat)
  | reapLen (r : Ring) (u : Half) (left : Nat) (id : Word)
  | reapByte (r : Ring) (u : Half) (left : Nat) (id : Word) (addr : Nat) (n : Nat)
  deriving DecidableEq, Repr

/-- What the client does, besides waiting (R127): register accesses of any width, SHM accesses, writes to PRIV. -/
inductive ClientOp where
  | regWrite (addr width : Nat) (v : Word)
  | regRead (addr width : Nat)
  | shmWrite (addr n v : Nat)
  | shmRead (addr n : Nat)
  | privWrite (addr : Nat) (bs : List Byte)
  deriving DecidableEq, Repr

/-- What the host can begin (R330, R332, R333, R336, R338, R339), the duty violations the block detects among it (R337). -/
inductive HostOp where
  | create
  | grant (r : Ring) (es : List GrantEntry)
  | reap (r : Ring) (max : Nat)
  | read (a n : Nat)
  | availFlags (r : Ring) (v : Half)
  | usedEvent (r : Ring) (v : Half)
  | descExtra (r : Ring) (id : Fin 8) (flags next : Half)
  /-- address and length of an owned descriptor, written outside a grant (R331, R338) -/
  | descWrite (r : Ring) (id : Fin 8) (addr : Dword) (len : Word)
  /-- bytes of an owned buffer, from offset `off` of it, written outside a grant (R331, R338) -/
  | bufferWrite (r : Ring) (id : Fin 8) (off : Nat) (bs : List Byte)
  | badIndex (r : Ring) (v : Half)
  deriving DecidableEq, Repr

/-- One move of the interleaving (R84, R90, R330, R410), as plain data: which agent, or which agent's memory system, moves
next. The spec leaves the order free; a state's lists `acts` and `cycle` fix one order (log 5). -/
inductive Act where
  /-- the block takes one step: one event of the running command, or the acceptance of the word waiting in CMD -/
  | block
  /-- an agent's memory system commits the k-th oldest entry of its pending-write set (R90) -/
  | commit (a : Agent) (k : Nat)
  /-- an agent's memory system commits its oldest entry, if it has one (R90's weak fairness; log 32) -/
  | drain (a : Agent)
  | client (op : ClientOp)
  /-- the host begins a procedure -/
  | hostBegin (op : HostOp)
  /-- the host performs the next event of its procedure -/
  | hostStep
  /-- a hardware reset (R410) -/
  | reset
  deriving DecidableEq, Repr

/-- The whole machine. -/
structure State where
  /-- the configuration (R9); no step changes it -/
  cfg : Config
  /-- STATE.CH (R32) -/
  ch : Channel
  /-- the sequencer and the return state; STATE.SUB is `Seq.sub` of it (R32, R33) -/
  seq : Seq
  /-- STATUS (R41) -/
  status : Status
  /-- FAULT.CODE and FAULT.SUBC (R42) -/
  fault : FaultCause
  /-- FAULT_INFO (R43) -/
  faultInfo : Word
  /-- TX_LAST (R34) -/
  txLast : Half
  /-- TX_USED (R35) -/
  txUsed : Half
  /-- RX_LAST (R36) -/
  rxLast : Half
  /-- RX_USED (R37) -/
  rxUsed : Half
  /-- TX_HELD (R39) -/
  txHeld : BitVec 8
  /-- HELD_ADDR (R40) -/
  heldAddr : Vector Word 8
  /-- HELD_CAP (R40) -/
  heldCap : Vector Word 8
  /-- ARG0-ARG3 (R44) -/
  args : Vector Word 4
  /-- written(ARGn) (R44) -/
  argWritten : Vector Bool 4
  /-- RES0-RES3 (R45) -/
  res : Vector Word 4
  /-- DLV_SRC (R46) -/
  dlvSrc : Word
  /-- DLV_DST (R46) -/
  dlvDst : Word
  /-- DLV_ADDR (R46) -/
  dlvAddr : Word
  /-- DLV_LEN (R46) -/
  dlvLen : Word
  /-- WAIT_CNT (R50) -/
  waitCnt : Nat
  /-- RX_CUR_ID (R50) -/
  rxCurId : Half
  /-- RX_CUR_DLEN (R50) -/
  rxCurDlen : Word
  /-- RX_CUR_FLEN (R50) -/
  rxCurFlen : Word
  /-- RX_PROCESSED (R50) -/
  rxProcessed : Word
  /-- RX_DELIVERED (R50) -/
  rxDelivered : Word
  /-- shared memory (R70, R71) -/
  shm : Memory
  /-- device-private memory (R70, R74) -/
  priv : Memory
  /-- PW[device], oldest first (R89) -/
  pwDevice : List PendingWrite
  /-- PW[host], oldest first (R89, R94) -/
  pwHost : List PendingWrite
  /-- H_AVAIL, H_LAST_USED, H_OWNED of the TX ring (R53) -/
  hostTx : HostRing
  /-- H_AVAIL, H_LAST_USED, H_OWNED of the RX ring (R53) -/
  hostRx : HostRing
  /-- the host's procedure in progress (R330) -/
  hostRun : Option HostPos
  /-- a command word the client has written to CMD and the block has not accepted yet (R47, R372): where commands come from -/
  cmd : Option Word
  /-- MODEL's own: the moves still to come, in order (log 5) -/
  acts : List Act
  /-- MODEL's own: the moves that repeat for ever once `acts` is used up; with none the block runs alone (logs 5, 6, 32) -/
  cycle : List Act
  /-- MODEL's own: an INIT has begun since the host last began an H_CREATE (R335 item 1; log 28) -/
  initSeen : Bool
  /-- MODEL's own: the held TX ids that PAYLOAD_TOO_LARGE has leaked, which no PUBLISH_TX returns (R205, R331; log 30) -/
  txLeaked : BitVec 8
  /-- MODEL's own: the values the client's reads returned, latest first (log 13) -/
  clientReads : List Nat
  /-- MODEL's own: the values the host's reads returned, latest first (log 13) -/
  hostReads : List Nat
  /-- MODEL's own: how many free values have been drawn (log 4) -/
  freeCount : Nat
  deriving DecidableEq, Repr

/-- Why the machine stops with a fault of the model. (A fault of the block, R380, is no stop: it is a next state.) -/
inductive Fault where
  /-- Raised by the block's event and by the host's event (Ops.lean `shmEvent`): an access to an address outside both SHM
  windows, which R70 says does not exist. No run with a legal configuration reaches it (log 20). Safe. -/
  | shmUnmapped
  deriving DecidableEq, Repr

/-- Why a step has no meaning. Every one but `notModelled` is a refusal the spec itself asks for (R394) or an act that is no
possible move. All are safe: the run is excluded. -/
inductive Refusal where
  /-- Raised by exec for an instruction that has no meaning yet. Safe. -/
  | notModelled (mnemonic : String)
  /-- Raised by step: the configuration breaks a constraint of R9 (R414). Safe. -/
  | badConfiguration
  /-- Raised by a client register access that is misaligned, not 32 bits wide or outside 0x00-0x4F (R49). Safe. -/
  | regAccess
  /-- Raised by a client read of an ARGn never written: R44 of 10_state.md, "A client read of an unwritten `ARGn` returns no
  value; the model refuses it", and R394 of 60_exceptions.md. Safe. -/
  | unwrittenArgRead
  /-- Raised by a client SHM write outside the buffers it acquired, into an RX buffer, or while Busy (R248, R417). Safe. -/
  | clientShmWrite
  /-- Raised by a client or host read outside the windows (R70). Safe. -/
  | shmReadUnmapped
  /-- Raised by a client write outside PRIV (R70, R74). Safe. -/
  | privUnmapped
  /-- Raised by a client move while the client is stalled on a held CMD write (R372). Safe. -/
  | clientStalled
  /-- Raised by a host move, or a commit of a host write, that breaks a duty in a way the block does not detect (R337). Safe. -/
  | hostDuty
  /-- Raised by a host move begun while the host is inside another procedure (R330). Safe. -/
  | hostInProcedure
  /-- Raised by a commit of an entry that is not there or that an older entry overlaps (R90). Safe. -/
  | commitNotAllowed
  deriving DecidableEq, Repr

/-- The three outcomes of a step, with this machine's reasons. -/
abbrev Result := Host.Outcome State Fault Refusal

/-- The host's private state of a ring just created (R339). -/
def HostRing.created : HostRing := ⟨0, 0, Vector.replicate 8 true⟩

/-- The machine right after reset (R55), in a boot of R413 steps 1 to 3: the example configuration (log 1), memory with
nothing listed (log 2), rings created and nothing granted (R339, log 19). The registers R55 calls unspecified hold 0 (log 3). -/
def State.reset : State where
  cfg := Config.example
  ch := .uninitialized
  seq := .idle
  status := .ok
  fault := .none
  faultInfo := 0
  txLast := 0
  txUsed := 0
  rxLast := 0
  rxUsed := 0
  txHeld := 0
  heldAddr := Vector.replicate 8 0
  heldCap := Vector.replicate 8 0
  args := Vector.replicate 4 0
  argWritten := Vector.replicate 4 false
  res := Vector.replicate 4 0
  dlvSrc := 0
  dlvDst := 0
  dlvAddr := 0
  dlvLen := 0
  waitCnt := 0
  rxCurId := 0
  rxCurDlen := 0
  rxCurFlen := 0
  rxProcessed := 0
  rxDelivered := 0
  shm := []
  priv := []
  pwDevice := []
  pwHost := []
  hostTx := HostRing.created
  hostRx := HostRing.created
  hostRun := none
  cmd := none
  acts := []
  cycle := []
  initSeen := false
  txLeaked := 0
  clientReads := []
  hostReads := []
  freeCount := 0

end Sys2Proof.Machine
end

