-- ==== Sys2Proof/Machine/Windows.lean ====
section
/-! DEFINITION. Ranges of an address space and the window test InWindow of rule R16 (00_scope.md), on mathematical integers. -/

namespace Sys2Proof

/-- One past the region's last byte, on mathematical integers (R12). -/
def Region.limit (r : Region) : Nat := r.base.toNat + r.size.toNat

/-- The n bytes at a lie wholly inside the region (R16, R74). -/
def Region.contains (r : Region) (a n : Nat) : Bool := r.base.toNat ≤ a && a + n ≤ r.limit

/-- InWindow(a, n) (R16): the access lies wholly inside one SHM window. -/
def Config.inWindow (c : Config) (a n : Nat) : Bool := c.win0.contains a n || c.win1.contains a n

/-- The n bytes at a and the m bytes at b share no byte. -/
def disjointRanges (a n b m : Nat) : Bool := n == 0 || m == 0 || a + n ≤ b || b + m ≤ a

end Sys2Proof
end

