-- ==== Sys2Proof/Machine/Ops.lean ====
section
/-! DEFINITION. The shared operations: byte order, memory, pending writes and shared-memory events (20_memory.md), the
registers' writes, ending a command (`finish`, R15), taking a fault (`raise`, R380), and the hardware reset (R410), which is
the only way out of a fault (R383). -/

namespace Sys2Proof.Machine

/-! ### Byte order (R76) -/

/-- bytes(v, n) (R11): the n-byte little-endian encoding of v mod 2^(8n). -/
def bytesOf (v : Nat) : Nat → List Byte
  | 0 => []
  | n + 1 => BitVec.ofNat 8 v :: bytesOf (v / 256) n

/-- le(b) (R11): the value of a little-endian byte sequence. -/
def leValue : List Byte → Nat
  | [] => 0
  | b :: bs => b.toNat + 256 * leValue bs

/-! ### Memory (R71) -/

/-- One byte of memory; a byte that nothing has written reads as 0 (log 2). -/
def Memory.read : Memory → Nat → Byte
  | [], _ => 0
  | (x, y) :: m, a => if x = a then y else Memory.read m a

/-- A listed byte, put in its place. -/
def Memory.insert : Memory → Nat → Byte → Memory
  | [], a, b => [(a, b)]
  | (x, y) :: m, a, b => if a < x then (a, b) :: (x, y) :: m else (x, y) :: Memory.insert m a b

/-- Memory without an entry at a. -/
def Memory.erase : Memory → Nat → Memory
  | [], _ => []
  | (x, y) :: m, a => if x = a then Memory.erase m a else (x, y) :: Memory.erase m a

/-- One byte written; a byte that equals what an unlisted address reads as is not listed. -/
def Memory.write (m : Memory) (a : Nat) (b : Byte) : Memory :=
  if b = 0 then m.erase a else (m.erase a).insert a b

/-- Bytes written at a, a+1, ... -/
def Memory.writeBytes (m : Memory) (a : Nat) : List Byte → Memory
  | [] => m
  | b :: bs => Memory.writeBytes (m.write a b) (a + 1) bs

/-- Every address of the list is above a, rising, and no byte is 0. -/
def Memory.wfAbove : Option Nat → Memory → Bool
  | _, [] => true
  | lo, (x, y) :: m => (match lo with | none => true | some a => a < x) && y != 0 && Memory.wfAbove (some x) m

/-- The canonical form: addresses strictly rising, no entry equal to what an unlisted address reads as. -/
def Memory.wf (m : Memory) : Bool := Memory.wfAbove none m

/-- The n bytes at a. -/
def Memory.readBytes (m : Memory) (a n : Nat) : List Byte := (List.range n).map fun k => m.read (a + k)

/-! ### Pending writes and what an agent sees (R89 to R94) -/

/-- The byte the entry holds for address x, if it covers x. -/
def PendingWrite.byteAt (w : PendingWrite) (x : Nat) : Option Byte :=
  if w.addr ≤ x then w.bytes[x - w.addr]? else none

/-- The two entries share a byte (R90). -/
def PendingWrite.overlaps (v w : PendingWrite) : Bool :=
  !disjointRanges v.addr v.bytes.length w.addr w.bytes.length

/-- The entry's bytes, written into memory. -/
def PendingWrite.commitTo (w : PendingWrite) (m : Memory) : Memory := m.writeBytes w.addr w.bytes

/-- The byte of the youngest entry covering x, if one exists (R93); the list has the oldest first. -/
def pendingByte : List PendingWrite → Nat → Option Byte
  | [], _ => none
  | w :: ws, x => (pendingByte ws x).or (w.byteAt x)

/-- PW[A] (R89). -/
def State.pending (s : State) : Agent → List PendingWrite
  | .device => s.pwDevice
  | .host => s.pwHost

/-- PW[A] set. -/
def State.setPending (s : State) (a : Agent) (ws : List PendingWrite) : State :=
  match a with
  | .device => { s with pwDevice := ws }
  | .host => { s with pwHost := ws }

/-- One byte as agent A sees it (R93). -/
def State.byteSeen (s : State) (a : Agent) (x : Nat) : Byte := (pendingByte (s.pending a) x).getD (s.shm.read x)

/-- The n bytes at x as agent A sees them. -/
def State.bytesSeen (s : State) (a : Agent) (x n : Nat) : List Byte := (List.range n).map fun k => s.byteSeen a (x + k)

/-- MemRead(x, n) by agent A (R14, R76, R93): the little-endian value of the bytes it sees. -/
def State.valueSeen (s : State) (a : Agent) (x n : Nat) : Nat := leValue (s.bytesSeen a x n)

/-- A write by agent A enters PW[A] as its youngest entry and changes nothing else (R89). -/
def State.issueWrite (s : State) (a : Agent) (x : Nat) (bs : List Byte) : State :=
  s.setPending a (s.pending a ++ [⟨x, bs⟩])

/-- A commit of the k-th oldest entry of PW[A] (R90): none if there is no such entry, or an older entry overlaps it. -/
def State.commit (s : State) (a : Agent) (k : Nat) : Option State :=
  match (s.pending a)[k]? with
  | none => none
  | some w =>
    if ((s.pending a).take k).any (fun v => v.overlaps w) then none
    else some ({ s with shm := w.commitTo s.shm }.setPending a ((s.pending a).eraseIdx k))

/-- Every entry of a pending-write set committed, oldest first: the end of R410 step 1. -/
def commitAll (m : Memory) (ws : List PendingWrite) : Memory := ws.foldl (fun m w => w.commitTo m) m

/-- One shared-memory event of agent A (R84), and what A does with the value it returns (0 for a write or a barrier). A
barrier holds until PW[A] is empty (R92): until then the event does not happen and the state is unchanged (log 21). An
access outside the windows has no SHM to reach (R70; log 20). -/
def shmEvent (a : Agent) (e : Event) (k : Nat → State → State) (s : State) : Result :=
  match e with
  | .read x n => if s.cfg.inWindow x n then .next (k (s.valueSeen a x n) s) else .fault .shmUnmapped
  | .write x bs => if s.cfg.inWindow x bs.length then .next (k 0 (s.issueWrite a x bs)) else .fault .shmUnmapped
  | .barrier => if (s.pending a).isEmpty then .next (k 0 s) else .next s

/-! ### The sequencer (R15, R33, R371) -/

/-- The POLL_RX suspended at this point, if any: the return state of a command accepted here (R371 step 6). -/
def Seq.outer : Seq → Option Suspended
  | .idle => none
  | .busy _ k => k
  | .delivering k => some k

/-- STATE.SUB (R32). -/
def Seq.sub : Seq → Sub
  | .idle => .idle
  | .busy _ _ => .busy
  | .delivering _ => .delivering

/-- The sequencer when the running command has ended: Idle, or Delivering for a nested command (R15, R247). -/
def Seq.returned (q : Seq) : Seq :=
  match q.outer with
  | none => .idle
  | some k => .delivering k

/-- SUB is Busy. -/
def Seq.isBusy : Seq → Bool
  | .busy _ _ => true
  | _ => false

/-- The running command goes on at position p. -/
def State.goto (s : State) (p : Pos) : State := { s with seq := .busy p s.seq.outer }

/-- finish(S) (R15): STATUS is S and SUB is what it was when the command was accepted. -/
def State.finish (s : State) (st : Status) : State := { s with status := st, seq := s.seq.returned }

/-- raise Fault(code, sub, info) (R380), as one effect: the first fault is recorded, STATUS is FAULTED, SUB is Idle, the
running command and a suspended POLL_RX are abandoned. Nothing is rolled back and no other state changes. -/
def State.raise (s : State) (c : FaultCause) (info : Word) : State :=
  { s with
    fault := if s.fault = .none then c else s.fault
    faultInfo := if s.fault = .none then info else s.faultInfo
    status := .faulted
    seq := .idle }

/-! ### Registers by ring and by index -/

/-- The device's avail cursor of a ring (R34, R36). -/
def State.cursor (s : State) : Ring → Half
  | .tx => s.txLast
  | .rx => s.rxLast

/-- x[USED(r)] (R35, R37). -/
def State.used (s : State) : Ring → Half
  | .tx => s.txUsed
  | .rx => s.rxUsed

/-- x[USED(r)] written. -/
def State.setUsed (s : State) (r : Ring) (u : Half) : State :=
  match r with
  | .tx => { s with txUsed := u }
  | .rx => { s with rxUsed := u }

/-- The host owns id i of the ring (R53, R331). -/
def HostRing.owns (h : HostRing) (i : Fin 8) : Bool := h.owned[i]

/-- TX_HELD[id] is 1 (R39). -/
def State.isHeld (s : State) (id : Fin 8) : Bool := s.txHeld.getLsbD id.val

/-- The held bitmap with bit id set. -/
def setBit (b : BitVec 8) (id : Fin 8) : BitVec 8 := b ||| BitVec.twoPow 8 id.val

/-- The held bitmap with bit id clear. -/
def clearBit (b : BitVec 8) (id : Fin 8) : BitVec 8 := b &&& ~~~ (BitVec.twoPow 8 id.val)

/-- TX_HELD[id] <- 1 with HELD_ADDR[id] and HELD_CAP[id] latched (R40, R163, R211). -/
def State.hold (s : State) (id : Fin 8) (addr cap : Word) : State :=
  { s with
    txHeld := setBit s.txHeld id
    heldAddr := s.heldAddr.set id.val addr
    heldCap := s.heldCap.set id.val cap }

/-- The held id was leaked by PAYLOAD_TOO_LARGE (R205). -/
def State.isLeaked (s : State) (id : Fin 8) : Bool := s.txLeaked.getLsbD id.val

/-- The held id is leaked (R205): noted, so that it stays held until the next INIT or reset (log 30). -/
def State.leak (s : State) (id : Fin 8) : State := { s with txLeaked := setBit s.txLeaked id }

/-- The id is held by an ACQUIRE_TX: held, and not leaked (R40, R205, R417; log 30). -/
def State.acquired (s : State) (id : Fin 8) : Bool := s.isHeld id && !s.isLeaked id

/-- TX_HELD[id] <- 0 (R167, R211). HELD_ADDR[id] and HELD_CAP[id], then "any value" (V1 of 93_implementation_defined.md), keep what
they hold (DESIGN CHOICE, log 36). -/
def State.unhold (s : State) (id : Fin 8) : State := { s with txHeld := clearBit s.txHeld id }

/-- x[RESn] <- v (R45). -/
def State.setRes (s : State) (n : Fin 4) (v : Word) : State := { s with res := s.res.set n.val v }

/-- gap(p, c) (R12). -/
def gap (p c : Half) : Nat := (p - c).toNat

/-- idx mod N (R12, R164): the slot of an index. -/
def slotOf (i : Half) : Nat := i.toNat % ringN

/-! ### Hardware reset (R410, R411, R55) -/

/-- The k-th free value of a hardware reset, as a word (log 4). -/
def freeWord (n k : Nat) : Word := u32 (Config.freeNat (n + k))

/-- A hardware reset (R410): PW[device] drains (log 9), the command and a suspended POLL_RX are abandoned, every register
takes its R55 value, and every register that R55 calls unspecified takes a free value (log 4). Apart from that drain SHM is not
touched, nor are PRIV and the configuration (R411); the host is another agent; a held CMD write stays held (log 8). -/
def hardwareReset (s : State) : State :=
  { s with
    shm := commitAll s.shm s.pwDevice
    pwDevice := []
    ch := .uninitialized
    seq := .idle
    status := .ok
    fault := .none
    faultInfo := 0
    txLast := 0
    txUsed := 0
    rxLast := 0
    rxUsed := 0
    txHeld := 0
    txLeaked := 0
    heldAddr := Vector.ofFn fun i => freeWord s.freeCount i.val
    heldCap := Vector.ofFn fun i => freeWord s.freeCount (8 + i.val)
    args := Vector.ofFn fun i => freeWord s.freeCount (16 + i.val)
    argWritten := Vector.replicate 4 false
    res := Vector.replicate 4 0
    dlvSrc := 0
    dlvDst := 0
    dlvAddr := 0
    dlvLen := 0
    waitCnt := Config.freeNat (s.freeCount + 20)
    rxCurId := u16 (Config.freeNat (s.freeCount + 21))
    rxCurDlen := freeWord s.freeCount 22
    rxCurFlen := freeWord s.freeCount 23
    rxProcessed := freeWord s.freeCount 24
    rxDelivered := freeWord s.freeCount 25
    freeCount := s.freeCount + 26 }

end Sys2Proof.Machine
end

