-- ==== Sys2Proof/Machine/Flags.lean ====
section
/-! DEFINITION. The numbers of the status, fault and state registers (30_encoding.md R125, R126, R131; 10_state.md R32, R41,
R42, R48). The block has no condition flags: STATUS is its one condition register (R31). -/

namespace Sys2Proof.Machine

/-- The status codes (R125). -/
def Status.code : Status → Nat
  | .ok => 0
  | .notInitialized => 1
  | .noBufferAvailable => 2
  | .payloadTooLarge => 3
  | .initTimeout => 4
  | .illegalCommand => 5
  | .faulted => 6
  | .frameDelivered => 7

/-- STATE.CH (R32). -/
def Channel.code : Channel → Nat
  | .uninitialized => 0
  | .waitingForHostBuffers => 1
  | .announcing => 2
  | .ready => 3

/-- STATE.SUB (R32). -/
def Sub.code : Sub → Nat
  | .idle => 0
  | .busy => 1
  | .delivering => 2

/-- ring(r) (40_transport_tx.md): the subcode of DESYNC and BAD_DESC_ID (R126). -/
def Ring.code : Ring → Nat
  | .tx => 0
  | .rx => 1

/-- The subcodes of BOUNDS (R126). -/
def BufKind.code : BufKind → Nat
  | .txBuf => 0
  | .rxBuf => 1
  | .privSrc => 2

/-- bufsub(r) (40_transport_tx.md). -/
def Ring.bufKind : Ring → BufKind
  | .tx => .txBuf
  | .rx => .rxBuf

/-- The subcodes of CLIENT_PROTOCOL (R126). -/
def ClientError.code : ClientError → Nat
  | .publishNotHeld => 1
  | .publishLenGtCap => 2
  | .nestedPoll => 3
  | .controlDuringDelivery => 4
  | .releaseNotDelivering => 5
  | .unwrittenArg => 6
  | .argRange => 7

/-- FAULT.CODE (R126). -/
def FaultCause.code : FaultCause → Nat
  | .none => 0
  | .desync _ => 1
  | .badDescId _ => 2
  | .bounds _ => 3
  | .clientProtocol _ => 4
  | .doubleGrant => 5

/-- FAULT.SUBC (R126). -/
def FaultCause.subcode : FaultCause → Nat
  | .none => 0
  | .desync r => r.code
  | .badDescId r => r.code
  | .bounds b => b.code
  | .clientProtocol e => e.code
  | .doubleGrant => 0

/-- The STATUS register (R41): bits [31:8] read 0. -/
def State.statusReg (s : State) : Word := u32 s.status.code

/-- The STATE register (R32, R131): CH in [1:0], SUB in [3:2], bits [31:4] read 0. -/
def State.stateReg (s : State) : Word := u32 (s.ch.code + 4 * s.seq.sub.code)

/-- The FAULT register (R42): CODE in [7:0], SUBC in [15:8], bits [31:16] read 0. -/
def State.faultReg (s : State) : Word := u32 (s.fault.code + 256 * s.fault.subcode)

/-- The TX_CUR register (R48, R131): TX_LAST in [15:0], TX_USED in [31:16]. -/
def State.txCurReg (s : State) : Word := s.txUsed ++ s.txLast

/-- The RX_CUR register (R48, R131): RX_LAST in [15:0], RX_USED in [31:16]. -/
def State.rxCurReg (s : State) : Word := s.rxUsed ++ s.rxLast

/-- The TX_HELD register (R39): bits [31:N] read 0. -/
def State.txHeldReg (s : State) : Word := s.txHeld.setWidth 32

end Sys2Proof.Machine
end

