-- ==== Sys2Proof/Machine/Layout.lean ====
section
/-! DEFINITION. The shared-memory layout: the ring address functions (30_encoding.md R112 to R114, R119), a descriptor as
the device reads it, and the layout for a general N (R118), which the tests compare with the constants. -/

namespace Sys2Proof.Machine

/-- BASE(r) (R119). -/
def ringBase (c : Config) : Ring → Nat
  | .tx => c.txBase.toNat
  | .rx => c.rxBase.toNat

/-- DESC_ADDR(r, i) (R112, R119). -/
def descAddrAt (c : Config) (r : Ring) (i : Nat) : Nat := ringBase c r + 16 * i

/-- DESC_LEN(r, i) (R112, R119). -/
def descLenAt (c : Config) (r : Ring) (i : Nat) : Nat := ringBase c r + 16 * i + 8

/-- DESC_FLAGS(r, i) (R112, R119): never accessed by the block (R133). -/
def descFlagsAt (c : Config) (r : Ring) (i : Nat) : Nat := ringBase c r + 16 * i + 12

/-- DESC_NEXT(r, i) (R112, R119): never accessed by the block (R133). -/
def descNextAt (c : Config) (r : Ring) (i : Nat) : Nat := ringBase c r + 16 * i + 14

/-- AVAIL_FLAGS(r) (R113, R119): never accessed by the block (R133). -/
def availFlagsAt (c : Config) (r : Ring) : Nat := ringBase c r + 0x80

/-- AVAIL_IDX(r) (R113, R119). -/
def availIdxAt (c : Config) (r : Ring) : Nat := ringBase c r + 0x82

/-- AVAIL_RING(r, i) (R113, R119). -/
def availRingAt (c : Config) (r : Ring) (i : Nat) : Nat := ringBase c r + 0x84 + 2 * i

/-- USED_EVENT(r) (R113, R119): never accessed by the block (R133). -/
def usedEventAt (c : Config) (r : Ring) : Nat := ringBase c r + 0x94

/-- USED_FLAGS(r) (R114, R119): never accessed by the block (R133). -/
def usedFlagsAt (c : Config) (r : Ring) : Nat := ringBase c r + 0xA0

/-- USED_IDX(r) (R114, R119). -/
def usedIdxAt (c : Config) (r : Ring) : Nat := ringBase c r + 0xA2

/-- USED_ID(r, i) (R114, R119). -/
def usedIdAt (c : Config) (r : Ring) (i : Nat) : Nat := ringBase c r + 0xA4 + 8 * i

/-- USED_LEN(r, i) (R114, R119). -/
def usedLenAt (c : Config) (r : Ring) (i : Nat) : Nat := ringBase c r + 0xA8 + 8 * i

/-- AVAIL_EVENT(r) (R114, R119): never accessed by the block (R133). -/
def availEventAt (c : Config) (r : Ring) : Nat := ringBase c r + 0xE4

/-- desc[r][id].addr as the device reads it (R162). -/
def State.descAddrSeen (s : State) (r : Ring) (id : Fin 8) : Dword :=
  BitVec.ofNat 64 (s.valueSeen .device (descAddrAt s.cfg r id.val) 8)

/-- desc[r][id].len as the device reads it (R162). -/
def State.descLenSeen (s : State) (r : Ring) (id : Fin 8) : Word := u32 (s.valueSeen .device (descLenAt s.cfg r id.val) 4)

/-- AVAIL_OFF for n slots (R118). -/
def layoutAvailOff (n : Nat) : Nat := 16 * n

/-- USED_OFF for n slots (R118). -/
def layoutUsedOff (n : Nat) : Nat := 16 * ((16 * n + 6 + 2 * n + 15) / 16)

/-- RING_BYTES for n slots (R118). -/
def layoutRingBytes (n : Nat) : Nat := layoutUsedOff n + 6 + 8 * n

end Sys2Proof.Machine
end

