-- ==== Sys2Proof/Machine/Walker.lean ====
section
/-! DEFINITION. The shared procedures of the descriptor walker (40_transport_tx.md R160 to R162, R166, R176), each as what
follows the value of its event. `k` is what the command does next when no check fires. -/

namespace Sys2Proof.Machine

/-- AvailPeek(r, c) after its read returned a (R160): the desync check, FAULT_INFO = avail.idx * 2^16 + cursor. -/
def availPeek (r : Ring) (c a : Half) (k : State → State) (s : State) : State :=
  if a ≠ c ∧ gap a c > ringN then s.raise (.desync r) (a ++ c) else k s

/-- TakeSlot(r, c) after its read returned v (R161): BAD_DESC_ID, then DOUBLE_GRANT on the TX ring. -/
def takeSlot (r : Ring) (v : Half) (k : Fin 8 → State → State) (s : State) : State :=
  if h : v.toNat < 8 then
    if r = .tx ∧ s.isHeld ⟨v.toNat, h⟩ then s.raise .doubleGrant (v.setWidth 32) else k ⟨v.toNat, h⟩ s
  else s.raise (.badDescId r) (v.setWidth 32)

/-- The descriptor's buffer is one the device can reach: inside one window, and not at 2^32 or above (R78, R72, R381; log 24). -/
def bufferInWindow (c : Config) (addr : Dword) (len : Word) : Bool :=
  addr.toNat < 2 ^ 32 && c.inWindow addr.toNat len.toNat

/-- ReadDesc(r, id) after its two reads returned addr and len (R162): the bounds check of the whole buffer (R78). -/
def readDesc (r : Ring) (addr : Dword) (len : Word) (k : Word → State → State) (s : State) : State :=
  if bufferInWindow s.cfg addr len then k (addr.setWidth 32) s
  else s.raise (.bounds r.bufKind) (addr.setWidth 32)

/-- The ring a command walks (R163, R211, R240). -/
def Walk.ring : Walk → Ring
  | .acquire => .tx
  | .send _ => .tx
  | .poll => .rx

/-- The ring a command returns a descriptor on (R167, R211, R240). -/
def PushKind.ring : PushKind → Ring
  | .publish => .tx
  | .send _ => .tx
  | .poll _ => .rx

/-- UsedPush(r, id, n) begun (R166): u is taken from the block's own register. -/
def usedPush (k : PushKind) (id : Fin 8) (n : Word) (s : State) : State :=
  s.goto (.push .id ⟨k, id, n, s.used k.ring⟩)

/-- The events of UsedPush (R166). -/
def pushEvent (c : Config) (ph : PushPhase) (j : PushJob) : Event :=
  match ph with
  | .id => .write (usedIdAt c j.kind.ring (slotOf j.u)) (bytesOf j.id.val 4)
  | .len => .write (usedLenAt c j.kind.ring (slotOf j.u)) (bytesOf j.len.toNat 4)
  | .barrier1 => .barrier
  | .idx => .write (usedIdxAt c j.kind.ring) (bytesOf (j.u + 1).toNat 2)
  | .barrier2 => .barrier

/-- Notify() (R176, R341): the disabled host-notification hook performs no event and changes no state. -/
def notify (s : State) : State := s

/-- What follows each event of UsedPush (R166): x[USED(r)] advances with the used.idx write; after the second barrier comes
Notify(), then `done`. -/
def pushAfter (ph : PushPhase) (j : PushJob) (done : State → State) (s : State) : State :=
  match ph with
  | .id => s.goto (.push .len j)
  | .len => s.goto (.push .barrier1 j)
  | .barrier1 => s.goto (.push .idx j)
  | .idx => (s.setUsed j.kind.ring (j.u + 1)).goto (.push .barrier2 j)
  | .barrier2 => done (notify s)

end Sys2Proof.Machine
end

