-- ==== Sys2Proof/WellFormed.lean ====
section
/-! DEFINITION. Well-formedness: of a command word (R120, R122), of a command (every one is: it has no operand field), and
of a configuration (R9, R414), check by check. Sys2Proof/Tests/Slice0.lean has an ill-formed term for each check. -/

namespace Sys2Proof

/-- MBZ, bits [31:8] of a command word, is zero (R120). -/
def mbzClear (w : Word) : Bool := w >>> 8 == 0

/-- OP, bits [7:0] of a command word, is one of 0x01 to 0x08 (R121, R122). -/
def opAssigned (w : Word) : Bool := 1 ≤ (w &&& 0xFF).toNat && (w &&& 0xFF).toNat ≤ 8

/-- A legal command word: not illegal in the sense of R122. -/
def wordLegal (w : Word) : Bool := mbzClear w && opAssigned w

/-- OP of a command (R121). -/
def Instr.opcode : Instr → Nat
  | .init => 1
  | .shutdown => 2
  | .acquireTx => 3
  | .publishTx => 4
  | .frameSend => 5
  | .pollRx => 6
  | .rxRelease => 7
  | .query => 8

/-- A well-formed command: its word is legal. Every constructor is, since none carries an operand (R120). -/
def Instr.wellFormed (i : Instr) : Bool := wordLegal (u32 i.opcode)

/-- RING_BYTES (R10, R114). -/
def ringBytes : Nat := 0xE6

/-- A window fits below 2^32 (R9). -/
def Region.below4G (r : Region) : Bool := r.limit ≤ 2 ^ 32

/-- Both ring bases are 16-byte aligned (R9, R79, R414). -/
def Config.ringsAligned (c : Config) : Bool := c.txBase.toNat % 16 == 0 && c.rxBase.toNat % 16 == 0

/-- Each ring instance lies wholly inside one window (R9, R414). -/
def Config.ringsInWindow (c : Config) : Bool :=
  c.inWindow c.txBase.toNat ringBytes && c.inWindow c.rxBase.toNat ringBytes

/-- The two ring instances do not overlap (R9, R414). -/
def Config.ringsDisjoint (c : Config) : Bool :=
  c.txBase.toNat + ringBytes ≤ c.rxBase.toNat || c.rxBase.toNat + ringBytes ≤ c.txBase.toNat

/-- INIT_BUDGET is at least 1 (R9). -/
def Config.budgetPositive (c : Config) : Bool := 1 ≤ c.initBudget

/-- SERVICE_NAME has at most 32 bytes (R9). -/
def Config.nameFits (c : Config) : Bool := c.serviceName.length ≤ 32

/-- The configuration meets every constraint of R9 (R414). A machine whose configuration does not has no run. -/
def Config.ok (c : Config) : Bool :=
  c.win0.below4G && c.win1.below4G && c.ringsAligned && c.ringsInWindow && c.ringsDisjoint && c.budgetPositive && c.nameFits

end Sys2Proof
end

