-- ==== Sys2Proof/Machine/Buffers.lean ====
section
/-! DEFINITION. The buffers in the device's hands (44_host_agent.md R331, 20_memory.md R100): those of the TX ids taken and not
yet returned, and that of the RX id in process. -/

namespace Sys2Proof.Machine

/-- The id of ring r that the block has just returned, its UsedPush still at the second barrier: in a used entry that a committed
used.idx covers (R331, R338; log 29). -/
def State.returning (s : State) (r : Ring) : Option (Fin 8) :=
  match s.seq with
  | .busy (.push .barrier2 j) _ => if j.kind.ring = r ∧ s.pwDevice = [] then some j.id else none
  | _ => none

/-- The device has TX id i (R331): taken and not yet returned; a leaked one too. -/
def State.txTaken (s : State) (i : Fin 8) : Bool := s.isHeld i && s.returning .tx != some i

/-- The n bytes at a share a byte with the buffer of a TX id that the device has (R39, R40). -/
def State.touchesTxTaken (s : State) (a n : Nat) : Bool :=
  (List.finRange 8).any fun i => s.txTaken i && !disjointRanges a n s.heldAddr[i].toNat s.heldCap[i].toNat

/-- The RX id that a position has in process (R331), if any. -/
def Pos.rxTaken : Pos → Option (Fin 8)
  | .initPeek => none
  | .peek _ _ => none
  | .slot _ _ => none
  | .descAddr w _ id => if w.ring = .rx then some id else none
  | .descLen w _ id _ => if w.ring = .rx then some id else none
  | .txByte _ _ _ _ _ => none
  | .rxEnv _ id _ _ _ => some id
  | .push _ j => if j.kind.ring = .rx then some j.id else none

/-- The RX id in process (R331): the suspended POLL_RX's, or the running one's until it is returned. -/
def State.rxTaken (s : State) : Option (Fin 8) :=
  match s.seq with
  | .idle => none
  | .busy p none => if (s.returning .rx).isSome then none else p.rxTaken
  | .busy _ (some k) => some k.id
  | .delivering k => some k.id

/-- The buffer of the RX id in process: the delivered one as it was delivered, whatever its descriptor holds since (R210, R248), or
the running iteration's as the device reads its descriptor. -/
def State.rxTakenBuffer (s : State) : Option (Nat × Nat) :=
  match s.seq.outer with
  | some _ => some ((s.dlvAddr - 16).toNat, s.rxCurDlen.toNat)
  | none => s.rxTaken.map fun id => ((s.descAddrSeen .rx id).toNat, (s.descLenSeen .rx id).toNat)

/-- The n bytes at a share a byte with the buffer of the RX id in process. -/
def State.touchesRxTaken (s : State) (a n : Nat) : Bool := s.rxTakenBuffer.any fun b => !disjointRanges a n b.1 b.2

/-- The n bytes at a touch a buffer that the device has (R331). -/
def State.touchesTaken (s : State) (a n : Nat) : Bool := s.touchesTxTaken a n || s.touchesRxTaken a n

/-- The index of the avail entry of ring r that the device takes next (R331): an INIT begins at 0; the RX cursor advances only after
the return of an id long taken (R240). -/
def State.nextEntry (s : State) (r : Ring) : Half :=
  if s.ch = .uninitialized then 0
  else match r with
    | .tx => s.txLast
    | .rx => if s.rxTaken.isSome || (s.returning .rx).isSome then s.rxLast + 1 else s.rxLast

end Sys2Proof.Machine
end

