-- ==== Sys2Proof/Decode.lean ====
section
/-! DEFINITION. The decoder of a command word (30_encoding.md R120 to R122), total on any 32-bit word and rejecting by name,
and the encoder written from the same table. -/

namespace Sys2Proof

/-- Why a word is illegal (R122). -/
inductive DecodeError where
  /-- MBZ, bits [31:8], is not 0. -/
  | reservedBits
  /-- OP is 0x00 or 0x09-0xFF. -/
  | unassignedOpcode
  deriving DecidableEq, Repr

/-- The opcode map (R121). -/
def opcodeMap : Nat → Option Instr
  | 1 => some .init
  | 2 => some .shutdown
  | 3 => some .acquireTx
  | 4 => some .publishTx
  | 5 => some .frameSend
  | 6 => some .pollRx
  | 7 => some .rxRelease
  | 8 => some .query
  | _ => none

/-- OP, bits [7:0] (R120). -/
def opField (w : Word) : Nat := (w.extractLsb' 0 8).toNat

/-- MBZ, bits [31:8] (R120). -/
def mbzField (w : Word) : Nat := (w.extractLsb' 8 24).toNat

/-- The command a word stands for, or why it is illegal (R120 to R122). No mode changes decoding (R129). -/
def decodeWord (w : Word) : Except DecodeError Instr :=
  if mbzField w = 0 then
    match opcodeMap (opField w) with
    | some i => .ok i
    | none => .error .unassignedOpcode
  else .error .reservedBits

/-- The command word of a command (R121, R127). -/
def encode : Instr → Word
  | .init => 0x00000001
  | .shutdown => 0x00000002
  | .acquireTx => 0x00000003
  | .publishTx => 0x00000004
  | .frameSend => 0x00000005
  | .pollRx => 0x00000006
  | .rxRelease => 0x00000007
  | .query => 0x00000008

/-- The decoder on a word as spec/opcode_table.json numbers its bits: the low `nbits` bits of `w`, the rest zero. A command
is exactly one 32-bit register word (R129), so bits above 31 belong to no command. -/
def decodeTableWord (nbits w : Nat) : Option Instr :=
  if w % 2 ^ nbits < 2 ^ 32 then (decodeWord (u32 (w % 2 ^ nbits))).toOption else none

end Sys2Proof
end

