-- ==== Sys2Proof/Machine/Operands.lean ====
section
/-! DEFINITION. The operand forms: the ARG registers a command consumes and their written bits (30_encoding.md R123,
10_state.md R44), payload bytes from PRIV (20_memory.md R74), and the register space as the client sees it (10_state.md R48,
R49). -/

namespace Sys2Proof.Machine

/-- x[ARGn] (R44). -/
def State.arg (s : State) (n : Fin 4) : Word := s.args[n]

/-- written(ARGn) (R44). -/
def State.written (s : State) (n : Fin 4) : Bool := s.argWritten[n]

/-- A client write of ARGn (R44): the value, and its written bit set. -/
def State.writeArg (s : State) (n : Fin 4) (v : Word) : State :=
  { s with args := s.args.set n.val v, argWritten := s.argWritten.set n.val true }

/-- The operand registers a command consumes, in increasing n (R123). -/
def operandsOf : Instr → List (Fin 4)
  | .publishTx => [0, 1]
  | .frameSend => [0, 1, 2, 3]
  | .init => []
  | .shutdown => []
  | .acquireTx => []
  | .pollRx => []
  | .rxRelease => []
  | .query => []

/-- The first operand register of the command that was never written (R371 step 5). -/
def State.firstUnwritten (s : State) (i : Instr) : Option (Fin 4) := (operandsOf i).find? fun n => !s.written n

/-- The payload source lies outside PRIV: the condition of BOUNDS PRIV_SRC (R74, R204). -/
def State.privOutside (s : State) (p : Word) (l : Nat) : Bool := l != 0 && !s.cfg.priv.contains p.toNat l

/-- PrivRead(p, n) (R74). -/
def State.privRead (s : State) (p n : Nat) : List Byte := s.priv.readBytes p n

/-- The registers the client can read, by offset (R48). CMD reads 0 (R47). An ARGn never written returns no value (R44).
`none` is an offset that is no register. -/
inductive RegValue where
  | value (v : Word)
  | unwritten
  | noRegister
  deriving DecidableEq, Repr

/-- ARGn as a client read returns it (R44). -/
def State.argValue (s : State) (n : Fin 4) : RegValue := if s.written n then .value (s.arg n) else .unwritten

/-- The register map, read (R48, R49). -/
def State.regValue (s : State) : Nat → RegValue
  | 0x00 => .value 0
  | 0x04 => .value s.statusReg
  | 0x08 => .value s.stateReg
  | 0x0C => .value s.faultReg
  | 0x10 => .value s.faultInfo
  | 0x14 => .value s.txCurReg
  | 0x18 => .value s.rxCurReg
  | 0x1C => .value s.txHeldReg
  | 0x20 => s.argValue 0
  | 0x24 => s.argValue 1
  | 0x28 => s.argValue 2
  | 0x2C => s.argValue 3
  | 0x30 => .value s.res[0]
  | 0x34 => .value s.res[1]
  | 0x38 => .value s.res[2]
  | 0x3C => .value s.res[3]
  | 0x40 => .value s.dlvSrc
  | 0x44 => .value s.dlvDst
  | 0x48 => .value s.dlvAddr
  | 0x4C => .value s.dlvLen
  | _ => .noRegister

/-- The register map, written by the client (R48, R49): a word to CMD waits there for the block (R47, R372), an ARGn takes its
value, a write to a read-only register is ignored. -/
def State.regWrite (s : State) (off : Nat) (v : Word) : State :=
  match off with
  | 0x00 => { s with cmd := some v }
  | 0x20 => s.writeArg 0 v
  | 0x24 => s.writeArg 1 v
  | 0x28 => s.writeArg 2 v
  | 0x2C => s.writeArg 3 v
  | _ => s

/-- The offset of a client register access, if the access has a meaning (R49): a whole aligned 32-bit word at an offset in
0x00-0x4F of REG_BASE (log 25). -/
def State.regOffset (s : State) (addr width : Nat) : Option Nat :=
  if width = 4 ∧ addr % 4 = 0 ∧ s.cfg.regBase.toNat ≤ addr ∧ addr < s.cfg.regBase.toNat + 0x50 ∧
      (addr - s.cfg.regBase.toNat) % 4 = 0 then
    some (addr - s.cfg.regBase.toNat)
  else none

end Sys2Proof.Machine
end

