-- ==== Sys2Proof/Machine/Client.lean ====
section
/-! DEFINITION. The client's moves (30_encoding.md R127): register accesses (10_state.md R48, R49), SHM accesses under R417
(70_reset_and_hazards.md), and writes to PRIV. The client is single-threaded: it makes no move while its CMD write is held
(60_exceptions.md R372; log 12). -/

namespace Sys2Proof.Machine

/-- A value a client's read returned, noted (log 13). -/
def State.noteClientRead (s : State) (v : Nat) : State := { s with clientReads := v :: s.clientReads }

/-- The n bytes at a lie inside the buffer of a TX id that the client has by an ACQUIRE_TX (R417). That it still has the id after a
PUBLISH_TX of it that returned nothing (NOT_INITIALIZED, a fault) is the model's choice (DESIGN CHOICE, log 37). -/
def State.inHeldBuffer (s : State) (a n : Nat) : Bool :=
  (List.finRange 8).any fun i =>
    s.acquired i && s.heldAddr[i].toNat ≤ a && a + n ≤ s.heldAddr[i].toNat + s.heldCap[i].toNat

/-- The n bytes at a touch an RX buffer (R248): that of the RX id in process, the delivered frame's, or that of an id the host has
granted and not reaped since, as its descriptor reads (log 31). -/
def State.touchesRxBuffer (s : State) (a n : Nat) : Bool :=
  s.touchesRxTaken a n ||
  (List.finRange 8).any fun i =>
    !s.hostRx.owns i && !disjointRanges a n (s.descAddrSeen .rx i).toNat (s.descLenSeen .rx i).toNat

/-- A client SHM write is legal (R248, R417): not while Busy, inside a held buffer, and in no byte of an RX buffer, even where
the two overlap (R248: "at any time"); any length (log 17), over ring fields too where the host has granted the
buffer there (R52, R336; log 35). -/
def State.clientMayWrite (s : State) (a n : Nat) : Bool :=
  !s.seq.isBusy && s.inHeldBuffer a n && s.cfg.inWindow a n && !s.touchesRxBuffer a n

/-- A client register write (R49): refused where the access has no meaning. -/
def clientRegWrite (addr width : Nat) (v : Word) (s : State) : Result :=
  match s.regOffset addr width with
  | some off => .next (s.regWrite off v)
  | none => .refused .regAccess

/-- A client register read (R49): no side effect on the block. -/
def clientRegRead (addr width : Nat) (s : State) : Result :=
  match s.regOffset addr width with
  | some off => match s.regValue off with
    | .value v => .next (s.noteClientRead v.toNat)
    | .unwritten => .refused .unwrittenArgRead
    | .noRegister => .refused .regAccess
  | none => .refused .regAccess

/-- A client SHM write (R127, R417): a device MemWrite; one of no byte performs no event (R86; DESIGN CHOICE, log 17). -/
def clientShmWrite (a n v : Nat) (s : State) : Result :=
  if s.clientMayWrite a n then .next (if n = 0 then s else s.issueWrite .device a (bytesOf v n)) else .refused .clientShmWrite

/-- A client SHM read (R127): a device MemRead of n bytes, for any n one event (DESIGN CHOICE, log 26), at any time, a running
command and its barriers included (DESIGN CHOICE, log 27); outside the windows there is no SHM (R70; log 18). -/
def clientShmRead (a n : Nat) (s : State) : Result :=
  if s.cfg.inWindow a n then .next (s.noteClientRead (s.valueSeen .device a n)) else .refused .shmReadUnmapped

/-- A client write into PRIV (R127, R413); no ordering event (R74); outside PRIV it has no meaning (log 18). -/
def clientPrivWrite (a : Nat) (bs : List Byte) (s : State) : Result :=
  if s.cfg.priv.contains a bs.length then .next { s with priv := s.priv.writeBytes a bs } else .refused .privUnmapped

/-- One move of the client. -/
def clientMove (op : ClientOp) (s : State) : Result :=
  if s.cmd.isSome then .refused .clientStalled
  else match op with
    | .regWrite addr width v => clientRegWrite addr width v s
    | .regRead addr width => clientRegRead addr width s
    | .shmWrite a n v => clientShmWrite a n v s
    | .shmRead a n => clientShmRead a n s
    | .privWrite a bs => clientPrivWrite a bs s

end Sys2Proof.Machine
end

