-- ==== Sys2Proof/Machine/Envelope.lean ====
section
/-! DEFINITION. The serializer and deserializer of the transport envelope (41_framing.md R200 to R203, R209; 30_encoding.md
R115) and the name-service payload (R116, 43_channel_control.md R293). -/

namespace Sys2Proof.Machine

/-- EnvEncode(src, dst, L) (R200): src, dst, reserved = 0, len, flags = 0 (R203). -/
def envEncode (src dst : Word) (l : Nat) : List Byte :=
  bytesOf src.toNat 4 ++ bytesOf dst.toNat 4 ++ bytesOf 0 4 ++ bytesOf l 2 ++ bytesOf 0 2

/-- The fields of an envelope (R115). -/
structure Envelope where
  src      : Word
  dst      : Word
  reserved : Word
  len      : Half
  flags    : Half
  deriving DecidableEq, Repr

/-- EnvDecode(b) (R201), total. -/
def envDecode (b : List Byte) : Envelope where
  src := u32 (leValue (b.take 4))
  dst := u32 (leValue ((b.drop 4).take 4))
  reserved := u32 (leValue ((b.drop 8).take 4))
  len := u16 (leValue ((b.drop 12).take 2))
  flags := u16 (leValue ((b.drop 14).take 2))

/-- The frame is well-formed in a buffer of length dlen whose envelope is e, dlen >= 16 (R209). -/
def envFits (e : Envelope) (dlen : Word) : Bool := envSize + e.len.toNat ≤ dlen.toNat

/-- NsPayload() (R116, R293): the name padded with 0x00 to 32 bytes, LOCAL_ADDR, flags = 0 (create). -/
def nsPayload (c : Config) : List Byte :=
  (c.serviceName ++ List.replicate (32 - c.serviceName.length) 0) ++ bytesOf c.localAddr.toNat 4 ++ bytesOf 0 4

/-- INIT's announcement (R293): envelope src LOCAL_ADDR, dst NS_ADDR. -/
def announcement (c : Config) : Frame := ⟨.announce, c.localAddr, c.nsAddr, nsPayload c⟩

/-- The bytes of a frame (R202, R211): the envelope, then the payload. -/
def Frame.bytes (f : Frame) : List Byte := envEncode f.src f.dst f.payload.length ++ f.payload

/-- The length of a frame: 16 + L (R202). -/
def Frame.size (f : Frame) : Nat := envSize + f.payload.length

end Sys2Proof.Machine
end

