-- ==== Sys2Proof/Machine/Sequencer.lean ====
section
/-! DEFINITION. The sequencer (10_state.md R33): for each position its event, and the register updates that follow the event up
to the next one (20_memory.md R84). One block step is `blockStep`; `drive` is the block running alone (log 6). -/

namespace Sys2Proof.Machine

/-! ### The ends of the procedures -/

/-- INIT after its announcement returned st (R291, R293, R294): RES1 = WAIT_CNT, and Ready only on OK. -/
def announceEnd (st : Status) (s : State) : State :=
  let s := s.setRes 1 (u32 s.waitCnt)
  if st = .ok then { s with ch := .ready }.finish .ok else { s with ch := .uninitialized }.finish st

/-- FrameSendCore returned st to its caller (R204, R291). -/
def sendEnd (f : Frame) (st : Status) (s : State) : State :=
  match f.origin with
  | .frameSend => s.finish st
  | .announce => announceEnd st s

/-- The avail ring is empty: a = c (R163, R211, R240). -/
def ringEmpty (w : Walk) (s : State) : State :=
  match w with
  | .acquire => s.finish .noBufferAvailable
  | .send f => sendEnd f .noBufferAvailable s
  | .poll => ((s.setRes 0 s.rxProcessed).setRes 1 s.rxDelivered).finish .ok

/-- The cursor advance between TakeSlot and ReadDesc (R163, R211). POLL_RX advances its cursor later (R240). -/
def advanceOnTake (w : Walk) (c : Half) (s : State) : State :=
  match w.ring with
  | .tx => { s with txLast := c + 1 }
  | .rx => s

/-- POLL_RX's loop head (R240, R241): the next read of RX avail.idx. -/
def pollLoop (s : State) : State := s.goto (.peek .poll s.rxLast)

/-- RxUsedLen() (R243). -/
def State.rxUsedLen (s : State) : Word :=
  match s.cfg.rxLenPolicy with
  | .descLen => s.rxCurDlen
  | .frameLen => s.rxCurFlen

/-- POLL_RX's UsedPush of the descriptor in process (R240, R242). -/
def pollReturn (c : Half) (id : Fin 8) (s : State) : State := usedPush (.poll c) id s.rxUsedLen s

/-- A malformed frame (R209, R242): RX_CUR_FLEN is 0, nothing is delivered, the descriptor is returned. -/
def dropFrame (c : Half) (id : Fin 8) (s : State) : State := pollReturn c id { s with rxCurFlen := 0 }

/-- Deliver(src, dst, addr + 16, len) (R252): the delivery registers, FRAME_DELIVERED, and SUB Delivering until an RX_RELEASE. -/
def deliver (c : Half) (id : Fin 8) (addr : Word) (e : Envelope) (s : State) : State :=
  { s with
    rxCurFlen := u32 (envSize + e.len.toNat)
    dlvSrc := e.src
    dlvDst := e.dst
    dlvAddr := u32 (addr.toNat + envSize)
    dlvLen := e.len.setWidth 32
    status := .frameDelivered
    seq := .delivering ⟨c, id⟩ }

/-- POLL_RX after RX_RELEASE (R240, R246, R252): SUB is Busy, the frame counts as delivered, the descriptor is returned. -/
def afterDeliver (k : Suspended) (s : State) : State :=
  pollReturn k.cursor k.id { s with seq := .idle, rxDelivered := s.rxDelivered + 1 }

/-- The 16 envelope bytes have been read (R240): deliver a well-formed frame, drop a malformed one (R209). -/
def envelopeRead (c : Half) (id : Fin 8) (addr dlen : Word) (b : List Byte) (s : State) : State :=
  if envFits (envDecode b) dlen then deliver c id addr (envDecode b) s else dropFrame c id s

/-- FrameSendCore's write of the bytes, then its UsedPush (R211, R86). A zero-length write performs no event. -/
def sendBytes (f : Frame) (id : Fin 8) (addr : Nat) (bs : List Byte) (s : State) : State :=
  match bs with
  | [] => usedPush (.send f) id (u32 f.size) s
  | b :: rest => s.goto (.txByte f id addr b rest)

/-- The buffer is taken and inside a window: the rest of ACQUIRE_TX (R163), FrameSendCore (R211) or an iteration of POLL_RX
(R240) up to the next event. A frame that does not fit leaks the buffer (R205). -/
def bufferTaken (w : Walk) (c : Half) (id : Fin 8) (cap : Word) (addr : Word) (s : State) : State :=
  match w with
  | .acquire =>
    ((((s.hold id addr cap).setRes 0 (u32 id.val)).setRes 1 addr).setRes 2 cap).finish .ok
  | .send f =>
    let s := ((s.hold id addr cap).setRes 0 (u32 id.val)).setRes 1 (u32 f.size)
    if f.payload.length > 0xFFFF ∨ f.size > cap.toNat then sendEnd f .payloadTooLarge (s.leak id)
    else sendBytes f id addr.toNat f.bytes s
  | .poll =>
    let s := { s with rxCurId := u16 id.val, rxCurDlen := cap }
    if cap.toNat ≥ envSize then s.goto (.rxEnv c id addr cap []) else dropFrame c id s

/-- The rest of PUBLISH_TX (R167), FrameSendCore (R211) or an iteration of POLL_RX (R240) after UsedPush. -/
def pushDone (j : PushJob) (s : State) : State :=
  match j.kind with
  | .publish => (s.unhold j.id).finish .ok
  | .send f => sendEnd f .ok (s.unhold j.id)
  | .poll c => pollLoop { s with rxLast := c + 1, rxProcessed := s.rxProcessed + 1 }

/-! ### INIT's wait -/

/-- INIT's announcement begins (R291, R293): FrameSendCore from its first line. -/
def announceStart (s : State) : State :=
  { s with ch := .announcing }.goto (.peek (.send (announcement s.cfg)) s.txLast)

/-- The head of INIT's wait loop (R291, R292): another read, or INIT_TIMEOUT (R377). -/
def waitLoop (s : State) : State :=
  if s.waitCnt < s.cfg.initBudget then s.goto .initPeek
  else { (s.setRes 1 (u32 s.waitCnt)) with ch := .uninitialized }.finish .initTimeout

/-- INIT's wait after a read returned a (R291): WAIT_CNT counts it, and the first read that differs from TX_LAST ends the wait. -/
def initPeeked (a : Half) (s : State) : State :=
  availPeek .tx s.txLast a (fun s =>
    let s := { s with waitCnt := s.waitCnt + 1 }
    if a ≠ s.txLast then announceStart s else waitLoop s) s

/-! ### Positions -/

/-- The event of a position (R33), with the widths of R82. -/
def Pos.event (c : Config) : Pos → Event
  | .initPeek => .read (availIdxAt c .tx) 2
  | .peek w _ => .read (availIdxAt c w.ring) 2
  | .slot w cur => .read (availRingAt c w.ring (slotOf cur)) 2
  | .descAddr w _ id => .read (descAddrAt c w.ring id.val) 8
  | .descLen w _ id _ => .read (descLenAt c w.ring id.val) 4
  | .txByte _ _ addr b _ => .write addr [b]
  | .rxEnv _ _ addr _ got => .read (addr.toNat + got.length) 1
  | .push ph j => pushEvent c ph j

/-- The register updates after the position's event returned v, up to the next event (R33, R84). -/
def Pos.resume (p : Pos) (v : Nat) (s : State) : State :=
  match p with
  | .initPeek => initPeeked (u16 v) s
  | .peek w c => availPeek w.ring c (u16 v) (fun s => if u16 v = c then ringEmpty w s else s.goto (.slot w c)) s
  | .slot w c => takeSlot w.ring (u16 v) (fun id s => (advanceOnTake w c s).goto (.descAddr w c id)) s
  | .descAddr w c id => s.goto (.descLen w c id (BitVec.ofNat 64 v))
  | .descLen w c id addr => readDesc w.ring addr (u32 v) (bufferTaken w c id (u32 v)) s
  | .txByte f id addr _ rest => sendBytes f id (addr + 1) rest s
  | .rxEnv c id addr dlen got =>
    if got.length + 1 < envSize then s.goto (.rxEnv c id addr dlen (got ++ [BitVec.ofNat 8 v]))
    else envelopeRead c id addr dlen (got ++ [BitVec.ofNat 8 v]) s
  | .push ph j => pushAfter ph j (pushDone j) s

/-- One block step (R33, R84): exactly one event of the running command and the register updates that follow it. A block that
runs no command has nothing to do. -/
def blockStep (s : State) : Result :=
  match s.seq with
  | .busy p _ => shmEvent .device (p.event s.cfg) p.resume s
  | _ => .next s

/-- The next thing that happens while the block runs alone (log 6): at a barrier that still waits, the device's memory system
commits its oldest entry (R90, R92); else the block takes a step. -/
def soloStep (s : State) : Result :=
  match s.seq with
  | .busy p _ =>
    match p.event s.cfg with
    | .barrier => match s.commit .device 0 with
      | some s' => .next s'
      | none => blockStep s
    | _ => blockStep s
  | _ => .next s

/-- The block runs alone until its command has ended or delivers, for at most n steps. -/
def drive : Nat → State → Result
  | 0, s => .next s
  | n + 1, s =>
    if s.seq.isBusy then
      match soloStep s with
      | .next s' => drive n s'
      | .fault r => .fault r
      | .refused r => .refused r
    else .next s

/-- Enough steps for any command that runs alone (R424): INIT's reads, the commits of what is pending, and at most 65551 byte
writes with as many commits. A command that were not done would go on with the next step. -/
def soloBound (s : State) : Nat := s.cfg.initBudget + s.pwDevice.length + 200000

/-- The running command to its end, alone. -/
def runAlone (s : State) : Result := drive (soloBound s) s

/-! ### Command acceptance (60_exceptions.md R371) -/

/-- Step 4 of R371 while SUB is Idle. -/
def idleError : Instr → Option ClientError
  | .rxRelease => some .releaseNotDelivering
  | .init => none
  | .shutdown => none
  | .acquireTx => none
  | .publishTx => none
  | .frameSend => none
  | .pollRx => none
  | .query => none

/-- Step 4 of R371 while SUB is Delivering (R247). -/
def deliveringError : Instr → Option ClientError
  | .pollRx => some .nestedPoll
  | .init => some .controlDuringDelivery
  | .shutdown => some .controlDuringDelivery
  | .acquireTx => none
  | .publishTx => none
  | .frameSend => none
  | .rxRelease => none
  | .query => none

/-- Step 4 of R371: the nesting faults. -/
def nestingError (q : Sub) (i : Instr) : Option ClientError :=
  match q with
  | .idle => idleError i
  | .busy => none
  | .delivering => deliveringError i

/-- Steps 2, 4, 5 and 6 of R371 for command i (step 1 is `runCommand`'s, step 3 the decoder's): FAULTED, the nesting faults, an
unwritten operand, else the command's pseudocode up to its first event (R84; log 22). -/
def accept (i : Instr) (start : State → State) (s : State) : State :=
  if s.fault ≠ .none then { s with status := .faulted }
  else match nestingError s.seq.sub i with
    | some e => s.raise (.clientProtocol e) (u32 i.opcode)
    | none => match s.firstUnwritten i with
      | some n => s.raise (.clientProtocol .unwrittenArg) (u32 n.val)
      | none => start s

/-- A command written while nothing runs: accepted, and run to its end alone (log 6). While Busy the write holds (R371 step 1,
R372): the word waits in CMD. -/
def runCommand (i : Instr) (start : State → State) (s : State) : Result :=
  if s.seq.isBusy then .next { s with cmd := some (encode i) } else runAlone (accept i start s)

end Sys2Proof.Machine
end

