-- ==== Sys2Proof/Machine/Channel.lean ====
section
/-! DEFINITION. Channel control: INIT, SHUTDOWN and QUERY (43_channel_control.md). -/

namespace Sys2Proof.Machine

/-- INIT (R291, R295) up to its first event: nothing but OK unless Uninitialized; else the cursors and TX_HELD are 0
(and so no id is leaked, R205; HELD_ADDR and HELD_CAP keep what they hold, log 36), CH is WaitingForHostBuffers, and the wait
begins. That an INIT has begun is noted (log 28). -/
def startInit (s : State) : State :=
  if s.ch = .uninitialized then
    waitLoop { s with
      txLast := 0
      txUsed := 0
      rxLast := 0
      rxUsed := 0
      txHeld := 0
      txLeaked := 0
      ch := .waitingForHostBuffers
      waitCnt := 0
      initSeen := true }
  else s.finish .ok

/-- SHUTDOWN (R296): Ready to Uninitialized; no event, no other state. -/
def startShutdown (s : State) : State :=
  if s.ch = .ready then { s with ch := .uninitialized }.finish .ok else s.finish .notInitialized

/-- QUERY (R297): RES0 is 1 iff Ready. -/
def startQuery (s : State) : State :=
  (s.setRes 0 (if s.ch = .ready then 1 else 0)).finish .ok

/-- INIT: create the local channel state, wait for the first TX grant, announce the endpoint (R291 to R294). -/
def execInit (s : State) : Result := runCommand .init startInit s

/-- SHUTDOWN: leave the Ready state (R296). -/
def execShutdown (s : State) : Result := runCommand .shutdown startShutdown s

/-- QUERY: report readiness (R297). -/
def execQuery (s : State) : Result := runCommand .query startQuery s

end Sys2Proof.Machine
end

