-- ==== Sys2Proof/Machine/Framing.lean ====
section
/-! DEFINITION. Message framing: FRAME_SEND (41_framing.md). -/

namespace Sys2Proof.Machine

/-- The operands of a FRAME_SEND (R204): src, dst and the payload bytes read from PRIV (R74). -/
def frameOfArgs (s : State) : Frame := ⟨.frameSend, s.arg 0, s.arg 1, s.privRead (s.arg 2).toNat (s.arg 3).toNat⟩

/-- FRAME_SEND (R204) up to its first event: the Ready gate, BOUNDS PRIV_SRC, the payload read, then FrameSendCore (R211). -/
def startFrameSend (s : State) : State :=
  if s.ch = .ready then
    if s.privOutside (s.arg 2) (s.arg 3).toNat then s.raise (.bounds .privSrc) (s.arg 2)
    else s.goto (.peek (.send (frameOfArgs s)) s.txLast)
  else s.finish .notInitialized

/-- FRAME_SEND: frame payload bytes from PRIV and send them on the TX ring (R204, R211). -/
def execFrameSend (s : State) : Result := runCommand .frameSend startFrameSend s

end Sys2Proof.Machine
end

