-- ==== Sys2Proof/Machine/RxRing.lean ====
section
/-! DEFINITION. The RX ring commands: POLL_RX and RX_RELEASE (42_transport_rx.md). -/

namespace Sys2Proof.Machine

/-- POLL_RX (R240) up to its first event: the Ready gate, the counts at 0, then the loop. -/
def startPollRx (s : State) : State :=
  if s.ch = .ready then pollLoop { s with rxProcessed := 0, rxDelivered := 0 } else s.finish .notInitialized

/-- RX_RELEASE (R246): the suspended POLL_RX goes on after its Deliver. Acceptance has checked that SUB is Delivering (R371). -/
def startRxRelease (s : State) : State :=
  match s.seq with
  | .delivering k => afterDeliver k s
  | _ => s

/-- POLL_RX: drain the RX ring, one hand-off per well-formed frame (R240 to R243, R252). -/
def execPollRx (s : State) : Result := runCommand .pollRx startPollRx s

/-- RX_RELEASE: end the current payload hand-off and let POLL_RX go on (R246). -/
def execRxRelease (s : State) : Result := runCommand .rxRelease startRxRelease s

end Sys2Proof.Machine
end

