-- ==== Sys2Proof/Machine/TxRing.lean ====
section
/-! DEFINITION. The TX ring commands: ACQUIRE_TX and PUBLISH_TX (40_transport_tx.md). -/

namespace Sys2Proof.Machine

/-- ACQUIRE_TX (R163) up to its first event: the Ready gate, then AvailPeek. -/
def startAcquireTx (s : State) : State :=
  if s.ch = .ready then s.goto (.peek .acquire s.txLast) else s.finish .notInitialized

/-- PUBLISH_TX (R167) up to its first event: the Ready gate, ARG_RANGE, PUBLISH_NOT_HELD, PUBLISH_LEN_GT_CAP, then UsedPush.
Only the return itself of a leaked id, which no rule returns (R40, R205, R419, U4 of 93_implementation_defined.md), faults in its
place, PUBLISH_NOT_HELD (DEDUCED, log 30). -/
def startPublishTx (s : State) : State :=
  if s.ch = .ready then
    if h : (s.arg 0).toNat < 8 then
      if s.isHeld ⟨(s.arg 0).toNat, h⟩ then
        if (s.arg 1).toNat > (s.heldCap[(s.arg 0).toNat]).toNat then
          s.raise (.clientProtocol .publishLenGtCap) (s.arg 1)
        else if s.isLeaked ⟨(s.arg 0).toNat, h⟩ then s.raise (.clientProtocol .publishNotHeld) (s.arg 0)
        else usedPush .publish ⟨(s.arg 0).toNat, h⟩ (s.arg 1) s
      else s.raise (.clientProtocol .publishNotHeld) (s.arg 0)
    else s.raise (.clientProtocol .argRange) (s.arg 0)
  else s.finish .notInitialized

/-- ACQUIRE_TX: take one host-granted TX buffer (R163, with R160 to R162). -/
def execAcquireTx (s : State) : Result := runCommand .acquireTx startAcquireTx s

/-- PUBLISH_TX: return a held TX buffer with the number of bytes written (R167, with R166). -/
def execPublishTx (s : State) : Result := runCommand .publishTx startPublishTx s

end Sys2Proof.Machine
end

