-- ==== Sys2Proof/Machine/Dispatch.lean ====
section
/-! DEFINITION. exec: one arm per command (30_encoding.md R121). -/

namespace Sys2Proof.Machine

def exec (i : Instr) (s : State) : Host.Outcome State Fault Refusal :=
  match i with
  | .init => Sys2Proof.Machine.execInit s
  | .shutdown => Sys2Proof.Machine.execShutdown s
  | .acquireTx => Sys2Proof.Machine.execAcquireTx s
  | .publishTx => Sys2Proof.Machine.execPublishTx s
  | .frameSend => Sys2Proof.Machine.execFrameSend s
  | .pollRx => Sys2Proof.Machine.execPollRx s
  | .rxRelease => Sys2Proof.Machine.execRxRelease s
  | .query => Sys2Proof.Machine.execQuery s

end Sys2Proof.Machine
end

