-- ==== Sys2Proof/Machine/Fetch.lean ====
section
/-! DEFINITION. Where a command comes from: the word waiting in CMD (10_state.md R47, 60_exceptions.md R371, R372), accepted and
run by the block. -/

namespace Sys2Proof.Machine

/-- An illegal command word (R122, R298, R371 steps 2 and 3): STATUS only, FAULTED if a fault is recorded. -/
def illegalWord (s : State) : State :=
  { s with status := if s.fault = .none then .illegalCommand else .faulted }

/-- Each command's pseudocode up to its first event. -/
def startOf : Instr → State → State
  | .init => startInit
  | .shutdown => startShutdown
  | .acquireTx => startAcquireTx
  | .publishTx => startPublishTx
  | .frameSend => startFrameSend
  | .pollRx => startPollRx
  | .rxRelease => startRxRelease
  | .query => startQuery

/-- The acceptance of a word alone (R371): the command has begun, and its events are still to come. -/
def acceptWord (w : Word) (s : State) : State :=
  match decodeWord w with
  | .ok i => accept i (startOf i) s
  | .error _ => illegalWord s

/-- A word accepted while no act is scheduled: the command runs to its end alone. -/
def runWord (w : Word) (s : State) : Result :=
  match decodeWord w with
  | .ok i => exec i s
  | .error _ => .next (illegalWord s)

/-- The block's turn (R33, R84, R371): one event of the running command; else the acceptance of the word waiting in CMD; else
nothing. -/
def blockTurn (s : State) : Result :=
  if s.seq.isBusy then blockStep s
  else match s.cmd with
    | some w => .next (acceptWord w { s with cmd := none })
    | none => .next s

end Sys2Proof.Machine
end

