-- ==== Sys2Proof/Machine/HostAgent.lean ====
section
/-! DEFINITION. The host agent (44_host_agent.md R330 to R341): H_CREATE, H_GRANT, H_REAP, reads, the writes of fields the block
ignores (R336), of owned descriptors and buffers (R338; log 33), and the duty violations the block detects (R337). A procedure
is a sequence of events through PW[host] (R94), one a host step. A move that breaks a duty in a way the block does not detect is
refused (R337; log 15). -/

namespace Sys2Proof.Machine

/-- The host's private state of a ring (R53). -/
def State.hostRing (s : State) : Ring → HostRing
  | .tx => s.hostTx
  | .rx => s.hostRx

/-- The host's private state of a ring, written. -/
def State.setHostRing (s : State) (r : Ring) (h : HostRing) : State :=
  match r with
  | .tx => { s with hostTx := h }
  | .rx => { s with hostRx := h }

/-- The committed address and length of a descriptor (R112). -/
def State.descBuffer (s : State) (r : Ring) (i : Fin 8) : Nat × Nat :=
  (leValue (s.shm.readBytes (descAddrAt s.cfg r i.val) 8), leValue (s.shm.readBytes (descLenAt s.cfg r i.val) 4))

/-- Slot j of ring r is posted (R331): its entry lies before H_AVAIL and the device has not taken it. -/
def State.postedSlot (s : State) (r : Ring) (j : Nat) : Bool :=
  slotOf (u16 j - s.nextEntry r) < gap (s.hostRing r).avail (s.nextEntry r)

/-- The ring fields that the bytes of a frame may not touch: any used field (R335 item 6), avail.idx (items 4 and 5), a posted slot
(items 2 and 3), a descriptor that the host does not own (item 7). The others are the host's to write, as frame bytes too (R332;
log 35). -/
def State.ringsSpared (s : State) (a n : Nat) : Bool :=
  [Ring.tx, Ring.rx].all fun r =>
    disjointRanges a n (usedFlagsAt s.cfg r) 70 && disjointRanges a n (availIdxAt s.cfg r) 2 &&
    (List.range ringN).all (fun j => !s.postedSlot r j || disjointRanges a n (availRingAt s.cfg r j) 2) &&
    (List.finRange 8).all fun i => (s.hostRing r).owns i || disjointRanges a n (descAddrAt s.cfg r i.val) 16

/-- The bytes touch no buffer whose descriptor the host does not own (R331, R335 item 7). (`Event.breaksDuty` looks at what the
device has when each byte is written.) -/
def State.buffersSpared (s : State) (a n : Nat) : Bool :=
  [Ring.tx, Ring.rx].all fun r => (List.finRange 8).all fun i =>
    (s.hostRing r).owns i || disjointRanges a n (s.descBuffer r i).1 (s.descBuffer r i).2

/-- The frame bytes of a grant are legal (R332, R335): none on TX; on RX they fit the buffer, lie in one window, and touch nothing
that is not the host's, with h its ring after the earlier entries of the same grant, whose buffers are no longer its own either
(R332: "the same as a sequence of single grants"). -/
def State.frameOk (s : State) (r : Ring) (h : HostRing) (earlier : List GrantEntry) (e : GrantEntry) : Bool :=
  let n := e.frame.length
  n == 0 || (r == .rx && n ≤ e.len.toNat && s.cfg.inWindow e.addr.toNat n &&
    (s.setHostRing r h).ringsSpared e.addr.toNat n && s.buffersSpared e.addr.toNat n &&
    earlier.all fun d => disjointRanges e.addr.toNat n d.addr.toNat d.len.toNat)

/-- A grant entry that writes the avail entry only: a posting the block will detect (R337). -/
def GrantEntry.bare (e : GrantEntry) : Bool := e.frame.isEmpty && e.extra.isNone

/-- Byte k of bs written at a + k, as host events (R332, R86). -/
def hostBytes (a : Nat) (bs : List Byte) : List Event := bs.mapIdx fun k b => .write (a + k) [b]

/-- A descriptor's address and length written, as host events (R332). -/
def descWrites (c : Config) (r : Ring) (id : Nat) (addr : Dword) (len : Word) : List Event :=
  [.write (descAddrAt c r id) (bytesOf addr.toNat 8), .write (descLenAt c r id) (bytesOf len.toNat 4)]

/-- A descriptor's flags and next written, as host events (R332, R336). -/
def extraWrites (c : Config) (r : Ring) (id : Nat) (flags next : Half) : List Event :=
  [.write (descFlagsAt c r id) (bytesOf flags.toNat 2), .write (descNextAt c r id) (bytesOf next.toNat 2)]

/-- The bytes of a grant entry's descriptor and frame, as host events (R332). -/
def grantWrites (c : Config) (r : Ring) (e : GrantEntry) : List Event :=
  descWrites c r e.id.toNat e.addr e.len ++
  (match e.extra with
    | some (f, n) => extraWrites c r e.id.toNat f n
    | none => []) ++
  hostBytes e.addr.toNat e.frame

/-- One entry of an H_GRANT (R332), with the host's ring and the owned ids' entries before it: its events and both after it, or
none where the entry breaks a duty undetected (R337). An id the host owns is posted with its descriptor; an id of N or more
(BAD_DESC_ID) or a TX id the device holds (DOUBLE_GRANT) is posted bare. -/
def grantEntry (s : State) (r : Ring) (h : HostRing) (earlier : List GrantEntry) (e : GrantEntry) :
    Option (List Event × HostRing × List GrantEntry) :=
  let post : List Event := [.write (availRingAt s.cfg r (slotOf h.avail)) (bytesOf e.id.toNat 2)]
  let posted : HostRing := { h with avail := h.avail + 1 }
  if hid : e.id.toNat < 8 then
    if h.owns ⟨e.id.toNat, hid⟩ then
      if s.frameOk r h earlier e then
        some (grantWrites s.cfg r e ++ post, { posted with owned := h.owned.set e.id.toNat false }, e :: earlier)
      else none
    else if r = .tx ∧ s.isHeld ⟨e.id.toNat, hid⟩ ∧ e.bare then some (post, posted, earlier) else none
  else if e.bare then some (post, posted, earlier) else none

/-- The entries of an H_GRANT in order (R332). -/
def grantEntries (s : State) (r : Ring) : HostRing → List GrantEntry → List GrantEntry → Option (List Event)
  | _, _, [] => some []
  | h, earlier, e :: es =>
    match grantEntry s r h earlier e with
    | none => none
    | some (evs, h', earlier') => match grantEntries s r h' earlier' es with
      | none => none
      | some rest => some (evs ++ rest)

/-- H_GRANT of some entries (R332): descriptors, frames and avail entries, one barrier, one avail.idx write, advanced by their
count. -/
def grantScript (s : State) (r : Ring) (es : List GrantEntry) : Option HostPos :=
  match grantEntries s r (s.hostRing r) [] es with
  | none => none
  | some evs =>
    some (.script
      (evs ++ [.barrier, .write (availIdxAt s.cfg r) (bytesOf ((s.hostRing r).avail + u16 es.length).toNat 2)])
      (.granted r es.length (es.map (·.id))))

/-- H_CREATE (R339): all four indices are set to 0; every other ring field keeps what it holds. -/
def createScript (c : Config) : HostPos :=
  .script
    [.write (availIdxAt c .tx) (bytesOf 0 2), .write (usedIdxAt c .tx) (bytesOf 0 2),
     .write (availIdxAt c .rx) (bytesOf 0 2), .write (usedIdxAt c .rx) (bytesOf 0 2), .barrier]
    .created

/-- The rings may be created (R335 items 1 and 9, R420): no channel runs on the device. TX ids still held after a SHUTDOWN or a
failed INIT do not hinder it: until the next INIT or reset their buffers are the device's all the same (DEDUCED, log 29). -/
def State.mayCreate (s : State) : Bool := s.ch == .uninitialized && s.seq == .idle

/-- H_CREATE in progress (R339). -/
def HostPos.creating : HostPos → Bool
  | .script _ .created => true
  | _ => false

/-- The host broke R335 item 1: an INIT began before its H_CREATE was done, or a channel runs under it (R337: undetected, so no
move; log 28). -/
def State.creationBroken (s : State) : Bool :=
  s.hostRun.any HostPos.creating && !(s.mayCreate && !s.initSeen)

/-- An avail.idx value the block detects, or that looks empty to it (R337): more than N ahead of the cursor, or equal to it.
The cursor is the one at the time the host begins (log 16). -/
def State.badIndexDetected (s : State) (r : Ring) (v : Half) : Bool := v == s.cursor r || gap v (s.cursor r) > ringN

/-- The host may write these bytes of a descriptor's buffer (R331, R335 items 6 to 8, R338): it owns the id, the bytes lie in the
buffer as it sees the descriptor and in one window, and in nothing that is not its own. -/
def State.hostMayFill (s : State) (r : Ring) (id : Fin 8) (off n : Nat) : Bool :=
  (s.hostRing r).owns id && off + n ≤ s.valueSeen .host (descLenAt s.cfg r id.val) 4 &&
  let a := s.valueSeen .host (descAddrAt s.cfg r id.val) 8 + off
  s.cfg.inWindow a n && s.ringsSpared a n && s.buffersSpared a n

/-- The procedure a host operation begins, if the host may begin it (R330, R335 to R338). A read takes any number of bytes in
one event (DESIGN CHOICE, log 26). -/
def hostProcedure (s : State) : HostOp → Option HostPos
  | .create => if s.mayCreate then some (createScript s.cfg) else none
  | .grant r es => grantScript s r es
  | .reap r max => some (.reapIdx r max)
  | .read a n => some (.script [.read a n] .nothing)
  | .availFlags r v => some (.script [.write (availFlagsAt s.cfg r) (bytesOf v.toNat 2)] .nothing)
  | .usedEvent r v => some (.script [.write (usedEventAt s.cfg r) (bytesOf v.toNat 2)] .nothing)
  | .descExtra r id f n =>
    if (s.hostRing r).owns id then some (.script (extraWrites s.cfg r id.val f n) .nothing) else none
  | .descWrite r id addr len =>
    if (s.hostRing r).owns id then some (.script (descWrites s.cfg r id.val addr len) .nothing) else none
  | .bufferWrite r id off bs =>
    if s.hostMayFill r id off bs.length then
      some (.script (hostBytes (s.valueSeen .host (descAddrAt s.cfg r id.val) 8 + off) bs) .nothing)
    else none
  | .badIndex r v =>
    if s.badIndexDetected r v then
      some (.script [.write (availIdxAt s.cfg r) (bytesOf v.toNat 2)] (.wroteIdx r v))
    else none

/-- The host begins a procedure (R330); an H_CREATE begun has seen no INIT yet (log 28). -/
def hostBegin (op : HostOp) (s : State) : Result :=
  match s.hostRun with
  | some _ => .refused .hostInProcedure
  | none => match hostProcedure s op with
    | some p => .next { s with hostRun := some p, initSeen := s.initSeen && !p.creating }
    | none => .refused .hostDuty

/-- A set of ids without the given ones. -/
def disown (o : Vector Bool 8) (ids : List Half) : Vector Bool 8 :=
  ids.foldl (fun o id => o.setIfInBounds id.toNat false) o

/-- What a straight procedure does to the host's private state at its end (R332, R339). -/
def hostEffect (e : HostEffect) (s : State) : State :=
  match e with
  | .nothing => s
  | .created => { s with hostTx := HostRing.created, hostRx := HostRing.created }
  | .granted r n ids =>
    s.setHostRing r
      { s.hostRing r with avail := (s.hostRing r).avail + u16 n, owned := disown (s.hostRing r).owned ids }
  | .wroteIdx r v => s.setHostRing r { s.hostRing r with avail := v }

/-- A value a host's read returned, noted (log 13). -/
def State.noteHostRead (s : State) (v : Nat) : State := { s with hostReads := v :: s.hostReads }

/-- H_REAP's entry done (R333): the id is owned again, the cursor advances; another entry, or the end. -/
def reapNext (r : Ring) (u : Half) (left : Nat) (id : Word) (s : State) : State :=
  let s := s.setHostRing r
    { s.hostRing r with
      owned := (s.hostRing r).owned.setIfInBounds id.toNat true
      lastUsed := (s.hostRing r).lastUsed + 1 }
  if (s.hostRing r).lastUsed = u ∨ left ≤ 1 then { s with hostRun := none }
  else { s with hostRun := some (.reapId r u (left - 1)) }

/-- The event of the host's position (R332, R333). `none`: a straight procedure with no event left. -/
def HostPos.event (s : State) : HostPos → Option Event
  | .script [] _ => none
  | .script (e :: _) _ => some e
  | .reapIdx r _ => some (.read (usedIdxAt s.cfg r) 2)
  | .reapId r _ _ => some (.read (usedIdAt s.cfg r (slotOf (s.hostRing r).lastUsed)) 4)
  | .reapLen r _ _ _ => some (.read (usedLenAt s.cfg r (slotOf (s.hostRing r).lastUsed)) 4)
  | .reapByte _ _ _ _ a _ => some (.read a 1)

/-- The value a host event returned is noted if the event was a read. -/
def noteIfRead (e : Event) (v : Nat) (s : State) : State :=
  match e with
  | .read _ _ => s.noteHostRead v
  | .write _ _ => s
  | .barrier => s

/-- What follows the host's event (R332, R333). H_REAP reads the n bytes of a TX frame at the descriptor's address (log 14). -/
def HostPos.resume (p : HostPos) (v : Nat) (s : State) : State :=
  match p with
  | .script [] fin => hostEffect fin { s with hostRun := none }
  | .script (e :: rest) fin =>
    let s := noteIfRead e v s
    if rest.isEmpty then hostEffect fin { s with hostRun := none } else { s with hostRun := some (.script rest fin) }
  | .reapIdx r left =>
    let s := s.noteHostRead v
    if (s.hostRing r).lastUsed = u16 v ∨ left = 0 then { s with hostRun := none }
    else { s with hostRun := some (.reapId r (u16 v) left) }
  | .reapId r u left => { s.noteHostRead v with hostRun := some (.reapLen r u left (u32 v)) }
  | .reapLen r u left id =>
    let s := s.noteHostRead v
    if r = .tx ∧ v ≠ 0 then
      { s with hostRun := some (.reapByte r u left id (s.valueSeen .host (descAddrAt s.cfg r id.toNat) 8) v) }
    else reapNext r u left id s
  | .reapByte r u left id a n =>
    let s := s.noteHostRead v
    if n ≤ 1 then reapNext r u left id s else { s with hostRun := some (.reapByte r u left id (a + 1) (n - 1)) }

/-- The event is a read outside the windows (R70). -/
def Event.readsUnmapped (c : Config) : Event → Bool
  | .read a n => !c.inWindow a n
  | .write _ _ => false
  | .barrier => false

/-- The event is a write that breaks R335 item 7 undetected (R337): of any byte of a buffer that the device has, whatever H_OWNED says
(R100, R331, S4 of 93_implementation_defined.md; log 29) and whether it is a ring field or not (log 35), or of the descriptor of
the RX id in process. Ring fields inside a buffer that is posted, or returned and not reaped, the host goes on writing (DESIGN
CHOICE, log 38). -/
def Event.breaksDuty (s : State) : Event → Bool
  | .read _ _ => false
  | .write a bs =>
    s.touchesTaken a bs.length ||
    s.rxTaken.any fun id => !disjointRanges a bs.length (descAddrAt s.cfg .rx id.val) 16
  | .barrier => false

/-- The host performs the next event of its procedure (R330, R94). An H_CREATE that an INIT overtook goes no further (R335 item
1; log 28), a write of what the device has is no move (R337), and a read outside the windows has no meaning (R70). -/
def hostStep (s : State) : Result :=
  match s.hostRun with
  | none => .next s
  | some p =>
    if s.creationBroken then .refused .hostDuty
    else match p.event s with
      | none => .next (p.resume 0 s)
      | some e =>
        if e.breaksDuty s then .refused .hostDuty
        else if e.readsUnmapped s.cfg then .refused .shmReadUnmapped
        else shmEvent .host e p.resume s

end Sys2Proof.Machine
end

