-- ==== Sys2Proof/Machine/Agents.lean ====
section
/-! DEFINITION. One scheduled move (20_memory.md R84, R90; 44_host_agent.md R330; 70_reset_and_hazards.md R410): the block, a
memory system, the client, the host, or a hardware reset. -/

namespace Sys2Proof.Machine

/-- A commit by an agent's memory system (R90). The writes of an H_CREATE that an INIT overtook do not land (log 28). -/
def commitMove (a : Agent) (k : Nat) (s : State) : Result :=
  if a = .host ∧ s.creationBroken then .refused .hostDuty
  else match s.commit a k with
    | some s' => .next s'
    | none => .refused .commitNotAllowed

/-- The agent's memory system commits its oldest entry, if there is one (R90's weak fairness; log 32). -/
def drain (a : Agent) (s : State) : Result := if (s.pending a).isEmpty then .next s else commitMove a 0 s

/-- One move of the interleaving (log 5). -/
def performAct (m : Act) (s : State) : Result :=
  match m with
  | .block => blockTurn s
  | .commit a k => commitMove a k s
  | .drain a => drain a s
  | .client op => clientMove op s
  | .hostBegin op => hostBegin op s
  | .hostStep => hostStep s
  | .reset => .next (hardwareReset s)

/-- A step with nothing scheduled (log 6): a running command goes on alone to its end; else the word waiting in CMD is accepted
and run; else one pending write commits, the device's oldest or else the host's; else nothing happens (R412: the block waits for
a CMD write). -/
def quietStep (s : State) : Result :=
  if s.seq.isBusy then runAlone s
  else match s.cmd with
    | some w => runWord w { s with cmd := none }
    | none => if s.pwDevice.isEmpty then drain .host s else drain .device s

/-- One round of an endless schedule (R425; log 32): each memory system commits its oldest entry, the block takes a turn, and the
repeating moves follow. The host need not move at all (R336). -/
def State.round (s : State) : List Act := .drain .device :: .drain .host :: .block :: s.cycle

/-- The moves still to come (log 5): `acts`, and once it is used up another round of `cycle`, if that is not empty. -/
def State.schedule (s : State) : List Act :=
  match s.acts with
  | [] => if s.cycle.isEmpty then [] else s.round
  | as => as

/-- The word as the client leaves it in CMD: the low nbits bits of w, the rest zero, as far as a command word reaches. -/
def fetchWord (nbits w : Nat) : Word := u32 (w % 2 ^ nbits)

/-- The state with the word waiting in CMD, nothing else scheduled and no command running, so that the next step accepts it. -/
def placeWord (s : State) (w : Word) : State :=
  { s with cmd := some w, acts := [], cycle := [], seq := if s.seq.isBusy then s.seq.returned else s.seq }

/-- One step: the next scheduled move, or a step of the block alone (logs 5 and 6). A configuration that breaks R9 has no run
(R414). -/
def machineStep (s : State) : Result :=
  if s.cfg.ok then
    match s.schedule with
    | m :: rest => performAct m { s with acts := rest }
    | [] => quietStep s
  else .refused .badConfiguration

end Sys2Proof.Machine
end

