-- ==== Sys2Proof/Machine/Step.lean ====
section
/-! DEFINITION. The step function, and the state in which the next step fetches a given word. -/

namespace Sys2Proof.Machine

/-- One step of the machine. -/
def step (s : State) : Host.Outcome State Fault Refusal := machineStep s

/-- The state whose next step accepts and runs the given word (log 7). -/
def State.withFetchWord (s : State) (nbits w : Nat) : State := placeWord s (fetchWord nbits w)

end Sys2Proof.Machine
end

