-- ==== Sys2Proof/Safety.lean ====
section
/-! DEFINITION. What counts as a safe and as an ended run (60_exceptions.md R393), what the device sees in the rings, and the
invariants of the machine, in the terms the statements use. -/

namespace Sys2Proof.Machine

/-! ### The end of a run (R393) -/

/-- The move issues a command: a client write of CMD (R47). A write of an ARGn is none. -/
def State.issuesCommand (s : State) : Act → Bool
  | .client (.regWrite addr width _) => s.regOffset addr width == some 0
  | .client (.regRead _ _) => false
  | .client (.shmWrite _ _ _) => false
  | .client (.shmRead _ _) => false
  | .client (.privWrite _ _) => false
  | .block => false
  | .commit _ _ => false
  | .drain _ => false
  | .hostBegin _ => false
  | .hostStep => false
  | .reset => false

/-- The three things of R393: the client has issued its last command and that command has ended, PW[device] is empty, PW[host] is
empty. -/
def State.commandsDone (s : State) : Prop :=
  s.cmd = none ∧ (s.acts ++ s.cycle).any s.issuesCommand = false ∧ s.seq = .idle ∧ s.pwDevice = [] ∧ s.pwHost = []

/-- n steps, one after the other. -/
def stepN : Nat → State → Result
  | 0, s => .next s
  | n + 1, s => match step s with
    | .next t => stepN n t
    | .fault r => .fault r
    | .refused r => .refused r

/-- The run of n steps from s reaches a state with a fault (R383, R393). A fault outlives the step that raises it. -/
def faultReached : Nat → State → Bool
  | 0, s => s.fault != .none
  | n + 1, s => s.fault != .none || match step s with
    | .next t => faultReached n t
    | .fault _ => false
    | .refused _ => false

/-- The run of n steps from s to t has ended (R393): the three things hold at t, or it reached a fault, which ends it
unsuccessfully whatever follows. -/
def RunEnded (s : State) (n : Nat) (t : State) : Prop :=
  stepN n s = .next t ∧ (t.commandsDone ∨ faultReached n s = true)

/-- The run of n steps from s to t has ended and succeeded (R393): no state of it had a fault, one cleared by a reset included. -/
def RunSucceeded (s : State) (n : Nat) (t : State) : Prop :=
  stepN n s = .next t ∧ t.commandsDone ∧ faultReached n s = false

/-! ### What the device sees in the rings -/

/-- avail[r].idx as the device reads it (R160, R93). -/
def State.availIdxSeen (s : State) (r : Ring) : Half := u16 (s.valueSeen .device (availIdxAt s.cfg r) 2)

/-- avail[r].ring[c mod N] as the device reads it (R161). -/
def State.slotSeen (s : State) (r : Ring) (c : Half) : Half :=
  u16 (s.valueSeen .device (availRingAt s.cfg r (slotOf c)) 2)

/-- The descriptor's buffer lies in a window (R78). -/
def State.bufferOk (s : State) (r : Ring) (id : Fin 8) : Bool :=
  bufferInWindow s.cfg (s.descAddrSeen r id) (s.descLenSeen r id)

/-- The envelope at the start of a buffer as the device reads it (R201, R240). -/
def State.envelopeSeen (s : State) (addr : Nat) : Envelope := envDecode (s.bytesSeen .device addr 16)

/-- Nothing in acceptance stops command i (R371): not Busy, no fault, no nesting error, its operands written. -/
def State.accepts (s : State) (i : Instr) : Prop :=
  s.seq.isBusy = false ∧ s.fault = .none ∧ nestingError s.seq.sub i = none ∧ s.firstUnwritten i = none

/-- The next entry of ring r at cursor c is there, with no desync, and holds id (R160, R161). -/
def State.offers (s : State) (r : Ring) (c : Half) (id : Fin 8) : Prop :=
  s.availIdxSeen r ≠ c ∧ gap (s.availIdxSeen r) c ≤ ringN ∧ (s.slotSeen r c).toNat = id.val

/-- The block stopped by a fault (R380): the fault recorded, STATUS FAULTED, what ran or was suspended abandoned. -/
def State.stopped (s : State) (c : FaultCause) (info : Word) : State :=
  { s with fault := c, faultInfo := info, status := .faulted, seq := .idle }

/-! ### What the device writes -/

/-- The three writes of a UsedPush of {id, n} at used index u (R166), oldest first. -/
def usedWrites (c : Config) (r : Ring) (u : Half) (id : Fin 8) (n : Word) : List PendingWrite :=
  [⟨usedIdAt c r (slotOf u), bytesOf id.val 4⟩, ⟨usedLenAt c r (slotOf u), bytesOf n.toNat 4⟩,
   ⟨usedIdxAt c r, bytesOf (u + 1).toNat 2⟩]

/-- The byte writes of MemWriteBytes(a, bs) (R86), oldest first. -/
def byteWrites (a : Nat) : List Byte → List PendingWrite
  | [] => []
  | b :: bs => ⟨a, [b]⟩ :: byteWrites (a + 1) bs

/-- Address x is outside the n bytes at a. -/
def outside (x a n : Nat) : Prop := x < a ∨ a + n ≤ x

/-- Address x is outside what a UsedPush at index u of ring r stores to (R166). -/
def outsideUsed (c : Config) (r : Ring) (u : Half) (x : Nat) : Prop :=
  outside x (usedIdAt c r (slotOf u)) 4 ∧ outside x (usedLenAt c r (slotOf u)) 4 ∧ outside x (usedIdxAt c r) 2

/-- What no command ever changes: the configuration, the operand registers (R44: "the block never writes them"), PRIV (R411),
the host's state (R53), and the model's own fields but `initSeen` and `txLeaked`. -/
structure untouched (s t : State) : Prop where
  cfg : t.cfg = s.cfg
  args : t.args = s.args
  argWritten : t.argWritten = s.argWritten
  priv : t.priv = s.priv
  pwHost : t.pwHost = s.pwHost
  hostTx : t.hostTx = s.hostTx
  hostRx : t.hostRx = s.hostRx
  hostRun : t.hostRun = s.hostRun
  acts : t.acts = s.acts
  cycle : t.cycle = s.cycle
  clientReads : t.clientReads = s.clientReads
  hostReads : t.hostReads = s.hostReads
  freeCount : t.freeCount = s.freeCount

/-- No byte of memory changes: nothing is stored, nothing pending is committed or added (R163, R296, R297). -/
def sameMemory (s t : State) : Prop := t.shm = s.shm ∧ t.pwDevice = s.pwDevice

/-- The TX side's registers are unchanged: TX_LAST, TX_USED, TX_HELD, HELD_ADDR, HELD_CAP; and so are the leaked ids. -/
def sameTx (s t : State) : Prop :=
  t.txLast = s.txLast ∧ t.txUsed = s.txUsed ∧ t.txHeld = s.txHeld ∧ t.heldAddr = s.heldAddr ∧ t.heldCap = s.heldCap ∧
  t.txLeaked = s.txLeaked

/-- The RX side's registers are unchanged: RX_LAST, RX_USED and POLL_RX's internal registers (R50). -/
def sameRx (s t : State) : Prop :=
  t.rxLast = s.rxLast ∧ t.rxUsed = s.rxUsed ∧ t.rxCurId = s.rxCurId ∧ t.rxCurDlen = s.rxCurDlen ∧
  t.rxCurFlen = s.rxCurFlen ∧ t.rxProcessed = s.rxProcessed ∧ t.rxDelivered = s.rxDelivered

/-- The delivery registers are unchanged (R46). -/
def sameDlv (s t : State) : Prop :=
  t.dlvSrc = s.dlvSrc ∧ t.dlvDst = s.dlvDst ∧ t.dlvAddr = s.dlvAddr ∧ t.dlvLen = s.dlvLen

/-! ### Invariants -/

/-- Both memories are in canonical form. -/
def State.memoryCanonical (s : State) : Prop := s.shm.wf = true ∧ s.priv.wf = true

/-- The FrameSendCore a walk belongs to, if any. -/
def Walk.frame? : Walk → Option Frame
  | .acquire => none
  | .send f => some f
  | .poll => none

/-- The FrameSendCore a position belongs to, if any. -/
def Pos.frame? : Pos → Option Frame
  | .initPeek => none
  | .peek w _ => w.frame?
  | .slot w _ => w.frame?
  | .descAddr w _ _ => w.frame?
  | .descLen w _ _ _ => w.frame?
  | .txByte f _ _ _ _ => some f
  | .rxEnv _ _ _ _ _ => none
  | .push _ j => match j.kind with
    | .publish => none
    | .send f => some f
    | .poll _ => none

/-- The position is in INIT's announcement (R293). -/
def Pos.announces (p : Pos) : Bool :=
  match p.frame? with
  | some f => f.origin == .announce
  | none => false

/-- The cursor c of the POLL_RX a position belongs to, if any. -/
def Pos.pollCursor : Pos → Option Half
  | .initPeek => none
  | .peek w c => if w = .poll then some c else none
  | .slot w c => if w = .poll then some c else none
  | .descAddr w c _ => if w = .poll then some c else none
  | .descLen w c _ _ => if w = .poll then some c else none
  | .txByte _ _ _ _ _ => none
  | .rxEnv c _ _ _ _ => some c
  | .push _ j => match j.kind with
    | .publish => none
    | .send _ => none
    | .poll c => some c

/-- The sequencer and the channel state fit (R247, R290, R372, R380, R384): a faulted block runs nothing; without a fault CH is
WaitingForHostBuffers exactly in INIT's wait and Announcing exactly in INIT's announcement; every other command runs in
Ready, a POLL_RX is suspended only in Ready; and what runs nested is neither INIT nor POLL_RX. -/
structure State.sequencerFits (s : State) : Prop where
  faulted : s.fault ≠ .none → s.seq = .idle
  idle : s.fault = .none → s.seq = .idle → s.ch = .uninitialized ∨ s.ch = .ready
  delivering : ∀ k, s.seq = .delivering k → s.ch = .ready
  waiting : ∀ o, s.seq = .busy .initPeek o → s.ch = .waitingForHostBuffers
  announcing : ∀ p o, s.seq = .busy p o → p.announces = true → s.ch = .announcing
  ready : ∀ p o, s.seq = .busy p o → p ≠ .initPeek → p.announces = false → s.ch = .ready
  nested : ∀ p k, s.seq = .busy p (some k) → p ≠ .initPeek ∧ p.announces = false ∧ p.pollCursor = none

/-- The number of 1 bits in TX_HELD (R38). -/
def heldCount (b : BitVec 8) : Nat := ((List.finRange 8).filter fun i => b.getLsbD i.val).length

/-- TX ids taken and not yet marked held, at this position (R163, R211: the cursor advances before the hold). -/
def Pos.takenUnheld : Pos → Nat
  | .initPeek => 0
  | .peek _ _ => 0
  | .slot _ _ => 0
  | .descAddr w _ _ => if w.ring = .tx then 1 else 0
  | .descLen w _ _ _ => if w.ring = .tx then 1 else 0
  | .txByte _ _ _ _ _ => 0
  | .rxEnv _ _ _ _ _ => 0
  | .push _ _ => 0

/-- Ids already counted in USED(r) and not yet released by the device, at this position (R166: between the used.idx write and
the end of the second barrier). -/
def Pos.pushedUnreleased (r : Ring) : Pos → Nat
  | .initPeek => 0
  | .peek _ _ => 0
  | .slot _ _ => 0
  | .descAddr _ _ _ => 0
  | .descLen _ _ _ _ => 0
  | .txByte _ _ _ _ _ => 0
  | .rxEnv _ _ _ _ _ => 0
  | .push ph j => if ph = .barrier2 ∧ j.kind.ring = r then 1 else 0

/-- What the local values of a position have to do with the registers: the cursor c is the register's, an id being taken is
not held, an id being sent or returned is held, and u is the used index. -/
def Pos.localsFit (s : State) : Pos → Prop
  | .initPeek => True
  | .peek w c => c = s.cursor w.ring
  | .slot w c => c = s.cursor w.ring
  | .descAddr w c id => match w.ring with
    | .tx => s.isHeld id = false
    | .rx => c = s.rxLast
  | .descLen w c id _ => match w.ring with
    | .tx => s.isHeld id = false
    | .rx => c = s.rxLast
  | .txByte _ id _ _ _ => s.isHeld id = true
  | .rxEnv c _ _ _ _ => c = s.rxLast
  | .push ph j =>
    (if ph = .barrier2 then s.used j.kind.ring = j.u + 1 else s.used j.kind.ring = j.u) ∧
    match j.kind with
    | .publish => s.isHeld j.id = true
    | .send _ => s.isHeld j.id = true
    | .poll c => c = s.rxLast

/-- The cursors agree (R38), at every point of a run without a fault: TX_LAST - TX_USED counts the held ids, up to an id in the
middle of being taken or returned; RX_LAST = RX_USED but in the middle of a return. -/
structure State.cursorsFit (s : State) : Prop where
  between : s.fault = .none → s.seq.isBusy = false →
    s.txLast = s.txUsed + u16 (heldCount s.txHeld) ∧ s.rxLast = s.rxUsed
  running : ∀ p o, s.seq = .busy p o →
    s.txLast + u16 (p.pushedUnreleased .tx) = s.txUsed + u16 (heldCount s.txHeld) + u16 p.takenUnheld ∧
    s.rxLast + u16 (p.pushedUnreleased .rx) = s.rxUsed
  locals : ∀ p o, s.seq = .busy p o → p.localsFit s
  suspended : ∀ k, s.seq.outer = some k → k.cursor = s.rxLast

/-- The TX id a position takes, fills or returns, if any. -/
def Pos.txId : Pos → Option (Fin 8)
  | .initPeek => none
  | .peek _ _ => none
  | .slot _ _ => none
  | .descAddr w _ id => if w.ring = .tx then some id else none
  | .descLen w _ id _ => if w.ring = .tx then some id else none
  | .txByte _ id _ _ _ => some id
  | .rxEnv _ _ _ _ _ => none
  | .push _ j => if j.kind.ring = .tx then some j.id else none

/-- A leaked id is held (R205), and the running command does not work on it. -/
structure State.leaksFit (s : State) : Prop where
  held : ∀ id, s.isLeaked id = true → s.isHeld id = true
  running : ∀ p o, s.seq = .busy p o → ∀ id, p.txId = some id → s.isLeaked id = false

/-- The buffer a position works on (R78, R211, R240): a byte to be written, and all that follow it, lie in the held buffer; the
envelope being read lies in the RX buffer; a frame being returned fits its buffer. -/
def Pos.bufferFits (s : State) : Pos → Prop
  | .initPeek => True
  | .peek _ _ => True
  | .slot _ _ => True
  | .descAddr _ _ _ => True
  | .descLen _ _ _ _ => True
  | .txByte _ id addr _ rest =>
    s.isHeld id = true ∧ s.heldAddr[id].toNat ≤ addr ∧
    addr + 1 + rest.length ≤ s.heldAddr[id].toNat + s.heldCap[id].toNat
  | .rxEnv _ _ addr dlen got => s.cfg.inWindow addr.toNat dlen.toNat = true ∧ envSize ≤ dlen.toNat ∧ got.length < envSize
  | .push _ _ => True

/-- An event that writes lies in a window (R70). -/
def Event.writeFits (c : Config) : Event → Prop
  | .read _ _ => True
  | .write a bs => c.inWindow a bs.length = true
  | .barrier => True

/-- Every buffer the device works on lies in a window (R78, R417), and so does every write left in the host's procedure. -/
structure State.buffersFit (s : State) : Prop where
  held : ∀ id, s.isHeld id = true → s.cfg.inWindow s.heldAddr[id].toNat s.heldCap[id].toNat = true
  running : ∀ p o, s.seq = .busy p o → p.bufferFits s
  host : ∀ todo fin, s.hostRun = some (.script todo fin) → ∀ e ∈ todo, e.writeFits s.cfg

/-- The publication order of the used ring (R92, R95, R166): when used.idx is about to be written, no device write is pending;
and until the second barrier has passed, the used.idx write is the only one that can be. -/
def State.publicationOrdered (s : State) : Prop :=
  (∀ j o, s.seq = .busy (.push .idx j) o → s.pwDevice = []) ∧
  (∀ j o, s.seq = .busy (.push .barrier2 j) o →
    s.pwDevice = [] ∨ s.pwDevice = [⟨usedIdxAt s.cfg j.kind.ring, bytesOf (j.u + 1).toNat 2⟩])

/-! ### Several moves -/

/-- Some moves of the interleaving, one after the other; `acts` plays no part. -/
def performActs : List Act → State → Result
  | [], s => .next s
  | m :: ms, s => match performAct m s with
    | .next s' => performActs ms s'
    | .fault r => .fault r
    | .refused r => .refused r

/-- The block steps, and the commits of the device's oldest pending write: the moves of a block that runs alone. -/
def Act.solo : Act → Bool
  | .block => true
  | .commit .device 0 => true
  | .commit .device (_ + 1) => false
  | .commit .host _ => false
  | .drain _ => false
  | .client _ => false
  | .hostBegin _ => false
  | .hostStep => false
  | .reset => false

/-- The host's own events and the commits of its writes: the moves of a host while nobody else moves. -/
def Act.hostOnly : Act → Bool
  | .hostStep => true
  | .commit .host _ => true
  | .commit .device _ => false
  | .drain _ => false
  | .block => false
  | .client _ => false
  | .hostBegin _ => false
  | .reset => false

/-- A client that releases each delivered frame at once, at most n times (R246, R249). -/
def releaseAll : Nat → State → Result
  | 0, s => .next s
  | n + 1, s =>
    if s.seq.sub = .delivering then
      match exec .rxRelease s with
      | .next s' => releaseAll n s'
      | .fault r => .fault r
      | .refused r => .refused r
    else .next s

/-- The edges of the channel state machine (R290), and staying where it is. -/
def channelEdge : Channel → Channel → Bool
  | .uninitialized, .waitingForHostBuffers => true
  | .waitingForHostBuffers, .announcing => true
  | .waitingForHostBuffers, .uninitialized => true
  | .announcing, .ready => true
  | .announcing, .uninitialized => true
  | .ready, .uninitialized => true
  | a, b => a == b

end Sys2Proof.Machine
end

