-- ==== Sys2Proof/Certificates/Slice0/Obligations.lean ====
section
/-! DEFINITION. The statements about the model, each from a rule of spec/ (OBLIGATIONS.json says which). They range over every
state, every configuration included, and over every memory. -/

open Sys2Proof Sys2Proof.Machine

/-! ### The command word (R120 to R122) -/

/-- R121: a word decodes to a command exactly when it is that command's word of the opcode map, bit for bit. -/
def Obligations.DecodeInvertsEncode : Prop :=
  ∀ (i : Instr) (w : Word), decodeWord w = .ok i ↔ w = encode i

/-- R122: a word is rejected for its reserved bits iff MBZ is not 0, and for its opcode iff MBZ is 0 and OP is 0x00 or
0x09-0xFF. -/
def Obligations.IllegalWordsAreNamed : Prop :=
  ∀ w : Word,
    (decodeWord w = .error .reservedBits ↔ w.toNat / 256 ≠ 0) ∧
    (decodeWord w = .error .unassignedOpcode ↔ w.toNat / 256 = 0 ∧ (w.toNat % 256 = 0 ∨ 9 ≤ w.toNat % 256))

/-- R121, 95_test_vectors.md section 2.1: the eight words of the table, and five illegal ones. -/
def Obligations.TableWordsDecode : Prop :=
  [1, 2, 3, 4, 5, 6, 7, 8].map (decodeTableWord 32) =
    [some .init, some .shutdown, some .acquireTx, some .publishTx, some .frameSend, some .pollRx, some .rxRelease,
      some .query] ∧
  [0x00000000, 0x00000009, 0x000000FF, 0x00000103, 0x80000003].map (decodeTableWord 32) = [none, none, none, none, none]

/-! ### The step -/

/-- With nothing scheduled and no command running, the step on a word waiting in CMD that decodes to i is exec of i, the word
taken out of CMD; `withFetchWord` places such a word; with an act scheduled the step performs that act, and with an endless
schedule the next round of it begins when no act is left (R84, R425; logs 5, 6, 7, 32); and R414: a configuration that breaks a
constraint has no run. -/
def Obligations.StepRunsTheDecodedCommand : Prop :=
  (∀ (s : State) (w : Word) (i : Instr), s.cfg.ok = true → s.acts = [] → s.cycle = [] → s.seq.isBusy = false →
    s.cmd = some w → decodeWord w = .ok i →
    step s = exec i { s with cmd := none }) ∧
  (∀ (s : State) (i : Instr), s.cfg.ok = true →
    step (s.withFetchWord 32 (encode i).toNat) = exec i { s with
      cmd := none, acts := [], cycle := [], seq := if s.seq.isBusy then s.seq.returned else s.seq }) ∧
  (∀ (s : State) (m : Act) (rest : List Act), s.cfg.ok = true → s.acts = m :: rest →
    step s = performAct m { s with acts := rest }) ∧
  (∀ s : State, s.cfg.ok = true → s.acts = [] → s.cycle ≠ [] →
    step s = performAct (.drain .device) { s with acts := .drain .host :: .block :: s.cycle }) ∧
  (∀ s : State, s.cfg.ok = false → step s = .refused .badConfiguration)

/-- R298: an illegal word changes STATUS only, whether the block runs alone or takes its scheduled turn; and R371 step 2 comes
first: with a fault recorded the status is FAULTED. -/
def Obligations.IllegalWordChangesStatusOnly : Prop :=
  ∀ (s : State) (w : Word) (e : DecodeError), s.cfg.ok = true → s.seq.isBusy = false → s.cmd = some w →
    decodeWord w = .error e →
    (s.acts = [] → s.cycle = [] →
      step s = .next { s with cmd := none, status := if s.fault = .none then .illegalCommand else .faulted }) ∧
    (∀ rest, s.acts = .block :: rest →
      step s = .next { s with
        cmd := none, acts := rest, status := if s.fault = .none then .illegalCommand else .faulted })

/-! ### Acceptance (R371) -/

/-- R371 steps 1 and 2, R372, R383: a CMD write made while Busy is not performed until SUB leaves Busy: the command only waits in
CMD, and it stays there through every event of the running command; and a faulted block answers every command with FAULTED
and changes nothing else. -/
def Obligations.BusyHoldsAndFaultedAnswersFaulted : Prop :=
  (∀ (i : Instr) (s : State), s.seq.isBusy = true → exec i s = .next { s with cmd := some (encode i) }) ∧
  (∀ (s t : State), s.seq.isBusy = true → performAct .block s = .next t → t.cmd = s.cmd) ∧
  (∀ (i : Instr) (s : State), s.seq.isBusy = false → s.fault ≠ .none → exec i s = .next { s with status := .faulted })

/-- R371 step 4: the nesting faults, each with its OP in FAULT_INFO. -/
def Obligations.NestingErrorsFault : Prop :=
  ∀ s : State, s.fault = .none →
    (∀ k, s.seq = .delivering k →
      exec .pollRx s = .next { s with
        fault := .clientProtocol .nestedPoll, faultInfo := 6, status := .faulted, seq := .idle } ∧
      exec .init s = .next { s with
        fault := .clientProtocol .controlDuringDelivery, faultInfo := 1, status := .faulted, seq := .idle } ∧
      exec .shutdown s = .next { s with
        fault := .clientProtocol .controlDuringDelivery, faultInfo := 2, status := .faulted, seq := .idle }) ∧
    (s.seq = .idle →
      exec .rxRelease s = .next { s with
        fault := .clientProtocol .releaseNotDelivering, faultInfo := 7, status := .faulted, seq := .idle })

/-- R371 step 5, R44: PUBLISH_TX and FRAME_SEND fault on the lowest operand register never written, whatever CH is. -/
def Obligations.UnwrittenOperandFaults : Prop :=
  ∀ (s : State) (i : Instr) (n : Fin 4), s.seq.isBusy = false → s.fault = .none →
    (i = .publishTx ∧ n.val < 2 ∨ i = .frameSend) →
    (∀ m : Fin 4, m < n → s.written m = true) → s.written n = false →
    exec i s = .next { s with
      fault := .clientProtocol .unwrittenArg, faultInfo := u32 n.val, status := .faulted, seq := .idle }

/-- R374: outside Ready the five gated commands end NOT_INITIALIZED with no event and no other change. -/
def Obligations.NotReadyEndsNotInitialized : Prop :=
  ∀ (s : State) (i : Instr), i ∈ [Instr.shutdown, .acquireTx, .publishTx, .frameSend, .pollRx] → s.accepts i →
    s.ch ≠ .ready → exec i s = .next { s with status := .notInitialized }

/-! ### Channel control -/

/-- R296: SHUTDOWN, accepted: in Ready it leaves Ready, else it ends NOT_INITIALIZED, and nothing else changes; while Delivering
it faults instead. -/
def Obligations.ShutdownLeavesReady : Prop :=
  ∀ s : State,
    (s.accepts .shutdown →
      exec .shutdown s = .next (if s.ch = .ready then { s with ch := .uninitialized, status := .ok }
        else { s with status := .notInitialized })) ∧
    (s.fault = .none → s.seq.sub = .delivering →
      exec .shutdown s = .next { s with
        fault := .clientProtocol .controlDuringDelivery, faultInfo := 2, status := .faulted, seq := .idle })

/-- R297: QUERY, in every channel state and during Delivering too: always OK. -/
def Obligations.QueryReportsReadiness : Prop :=
  ∀ s : State, s.seq.isBusy = false → s.fault = .none →
    exec .query s = .next { s with res := s.res.set 0 (if s.ch = .ready then 1 else 0), status := .ok }

/-- R295: INIT when CH is not Uninitialized. -/
def Obligations.InitOfARunningChannelDoesNothing : Prop :=
  ∀ s : State, s.accepts .init → s.ch ≠ .uninitialized → exec .init s = .next { s with status := .ok }

/-- R377, R292, R299: INIT alone with no TX grant: INIT_BUDGET reads, no byte written. (RES1 is 32 bits: log 11; that an INIT has
begun, and that no id is leaked any more, is noted in the model's own fields: logs 28 and 30, here and in the next two
statements. That HELD_ADDR and HELD_CAP keep what they hold while TX_HELD is 0, here and wherever an id is held no more, is the
model's choice, log 36.) -/
def Obligations.InitTimesOutWithoutAGrant : Prop :=
  ∀ s : State, s.cfg.ok = true → s.accepts .init → s.ch = .uninitialized → s.availIdxSeen .tx = 0 →
    exec .init s = .next { s with
      txLast := 0, txUsed := 0, rxLast := 0, rxUsed := 0, txHeld := 0, txLeaked := 0
      waitCnt := s.cfg.initBudget, initSeen := true
      res := s.res.set 1 (u32 s.cfg.initBudget), status := .initTimeout }

/-- R291, R293, R116, R211: INIT alone with a TX grant whose buffer takes the 56-byte announcement: envelope LOCAL_ADDR to NS_ADDR
with len 40, the name padded with zeros to 32 bytes, LOCAL_ADDR, flags 0. -/
def Obligations.InitAnnouncesTheEndpoint : Prop :=
  ∀ (s : State) (id : Fin 8), s.cfg.ok = true → s.accepts .init → s.ch = .uninitialized →
    s.offers .tx 0 id → s.bufferOk .tx id = true → 56 ≤ (s.descLenSeen .tx id).toNat →
    exec .init s = .next { s with
      ch := .ready, status := .ok
      txLast := 1, txUsed := 1, rxLast := 0, rxUsed := 0, txHeld := 0, txLeaked := 0
      waitCnt := 1, initSeen := true
      heldAddr := s.heldAddr.set id.val ((s.descAddrSeen .tx id).setWidth 32)
      heldCap := s.heldCap.set id.val (s.descLenSeen .tx id)
      res := (s.res.set 0 (u32 id.val)).set 1 1
      shm := commitAll s.shm
        (s.pwDevice ++ byteWrites (s.descAddrSeen .tx id).toNat
          (bytesOf s.cfg.localAddr.toNat 4 ++ bytesOf s.cfg.nsAddr.toNat 4 ++ [0, 0, 0, 0] ++ [40, 0] ++ [0, 0] ++
            (s.cfg.serviceName ++ List.replicate (32 - s.cfg.serviceName.length) 0 ++ bytesOf s.cfg.localAddr.toNat 4 ++
              [0, 0, 0, 0])) ++
          usedWrites s.cfg .tx 0 id 56)
      pwDevice := [] }

/-- R294, R205, R160, R290, R420: INIT alone without success. An announcement that does not fit the first buffer: CH is
Uninitialized again, the id stays held, no byte is written. A TX avail.idx more than N ahead of 0 (old rings): DESYNC at the
first read, and the fault leaves CH where the wait had put it. -/
def Obligations.InitFailsWithoutAnnouncing : Prop :=
  ∀ s : State, s.cfg.ok = true → s.accepts .init → s.ch = .uninitialized →
    (∀ id : Fin 8, s.offers .tx 0 id → s.bufferOk .tx id = true → (s.descLenSeen .tx id).toNat < 56 →
      exec .init s = .next { s with
        status := .payloadTooLarge
        txLast := 1, txUsed := 0, rxLast := 0, rxUsed := 0, txHeld := setBit 0 id, txLeaked := setBit 0 id
        waitCnt := 1, initSeen := true
        heldAddr := s.heldAddr.set id.val ((s.descAddrSeen .tx id).setWidth 32)
        heldCap := s.heldCap.set id.val (s.descLenSeen .tx id)
        res := (s.res.set 0 (u32 id.val)).set 1 1 }) ∧
    (ringN < gap (s.availIdxSeen .tx) 0 →
      exec .init s = .next { s with
        txLast := 0, txUsed := 0, rxLast := 0, rxUsed := 0, txHeld := 0, txLeaked := 0
        waitCnt := 0, initSeen := true
        ch := .waitingForHostBuffers
        fault := .desync .tx, faultInfo := u32 ((s.availIdxSeen .tx).toNat * 65536), status := .faulted, seq := .idle })

/-- R290: CH moves only along the edges of the state machine, and only the block's own steps (and a reset) move it. -/
def Obligations.ChannelMovesAlongItsEdges : Prop :=
  (∀ s t : State, s.sequencerFits → performAct .block s = .next t → channelEdge s.ch t.ch = true) ∧
  (∀ (s t : State) (m : Act), m ≠ .block → m ≠ .reset → performAct m s = .next t → t.ch = s.ch)

/-! ### The TX ring -/

/-- R163: ACQUIRE_TX takes the next granted buffer, nested in a delivery or not. -/
def Obligations.AcquireTakesTheNextBuffer : Prop :=
  ∀ (s : State) (id : Fin 8), s.cfg.ok = true → s.accepts .acquireTx → s.ch = .ready →
    s.offers .tx s.txLast id → s.isHeld id = false → s.bufferOk .tx id = true →
    exec .acquireTx s = .next { s with
      txLast := s.txLast + 1
      txHeld := setBit s.txHeld id
      heldAddr := s.heldAddr.set id.val ((s.descAddrSeen .tx id).setWidth 32)
      heldCap := s.heldCap.set id.val (s.descLenSeen .tx id)
      res := ((s.res.set 0 (u32 id.val)).set 1 ((s.descAddrSeen .tx id).setWidth 32)).set 2 (s.descLenSeen .tx id)
      status := .ok }

/-- R165, R375, R240: on an empty TX ring ACQUIRE_TX and FRAME_SEND change STATUS only, and never wait; on an empty RX ring POLL_RX
ends OK with counts 0. -/
def Obligations.EmptyRingsEndAtOnce : Prop :=
  ∀ s : State, s.cfg.ok = true → s.ch = .ready →
    (s.availIdxSeen .tx = s.txLast → s.accepts .acquireTx →
      exec .acquireTx s = .next { s with status := .noBufferAvailable }) ∧
    (s.availIdxSeen .tx = s.txLast → s.accepts .frameSend → s.privOutside (s.arg 2) (s.arg 3).toNat = false →
      exec .frameSend s = .next { s with status := .noBufferAvailable }) ∧
    (s.availIdxSeen .rx = s.rxLast → s.accepts .pollRx →
      exec .pollRx s = .next { s with
        rxProcessed := 0, rxDelivered := 0, res := (s.res.set 0 0).set 1 0, status := .ok })

/-- R160, R161, R162, R163, R204, R291, R381, R382: the walker's faults in ACQUIRE_TX and FRAME_SEND, in their order, with what
each leaves changed: only BOUNDS comes after the cursor's advance; and in INIT's announcement, after INIT's own updates, where no
id is held (INIT's DESYNC is in InitFailsWithoutAnnouncing). -/
def Obligations.AcquireFaults : Prop :=
  (∀ (s : State) (i : Instr), s.cfg.ok = true →
    (i = .acquireTx ∨ i = .frameSend ∧ s.privOutside (s.arg 2) (s.arg 3).toNat = false) →
    s.accepts i → s.ch = .ready → s.availIdxSeen .tx ≠ s.txLast →
    (ringN < gap (s.availIdxSeen .tx) s.txLast →
      exec i s = .next (s.stopped (.desync .tx) (u32 ((s.availIdxSeen .tx).toNat * 65536 + s.txLast.toNat)))) ∧
    (gap (s.availIdxSeen .tx) s.txLast ≤ ringN → 8 ≤ (s.slotSeen .tx s.txLast).toNat →
      exec i s = .next (s.stopped (.badDescId .tx) (u32 (s.slotSeen .tx s.txLast).toNat))) ∧
    (∀ id, s.offers .tx s.txLast id → s.isHeld id = true →
      exec i s = .next (s.stopped .doubleGrant (u32 id.val))) ∧
    (∀ id, s.offers .tx s.txLast id → s.isHeld id = false → s.bufferOk .tx id = false →
      exec i s = .next ({ s with txLast := s.txLast + 1 }.stopped (.bounds .txBuf) (u32 (s.descAddrSeen .tx id).toNat)))) ∧
  (∀ s : State, s.cfg.ok = true → s.accepts .init → s.ch = .uninitialized →
    s.availIdxSeen .tx ≠ 0 → gap (s.availIdxSeen .tx) 0 ≤ ringN →
    let begun := { s with
      txLast := 0, txUsed := 0, rxLast := 0, rxUsed := 0, txHeld := 0, txLeaked := 0
      waitCnt := 1, initSeen := true, ch := .announcing }
    (8 ≤ (s.slotSeen .tx 0).toNat →
      exec .init s = .next (begun.stopped (.badDescId .tx) (u32 (s.slotSeen .tx 0).toNat))) ∧
    (∀ id, s.offers .tx 0 id → s.bufferOk .tx id = false →
      exec .init s = .next ({ begun with txLast := 1 }.stopped (.bounds .txBuf) (u32 (s.descAddrSeen .tx id).toNat))))

/-- R167, R166: PUBLISH_TX alone of a held id that is not leaked: everything pending, then id, len and used.idx are committed, in
that order. (Log 36 for HELD_ADDR and HELD_CAP.) -/
def Obligations.PublishReturnsTheBuffer : Prop :=
  ∀ (s : State) (id : Fin 8), s.cfg.ok = true → s.accepts .publishTx → s.ch = .ready →
    (s.arg 0).toNat = id.val → s.isHeld id = true → s.isLeaked id = false → (s.arg 1).toNat ≤ s.heldCap[id].toNat →
    exec .publishTx s = .next { s with
      txUsed := s.txUsed + 1
      txHeld := clearBit s.txHeld id
      status := .ok
      shm := commitAll s.shm (s.pwDevice ++ usedWrites s.cfg .tx s.txUsed id (s.arg 1))
      pwDevice := [] }

/-- R167, R381: PUBLISH_TX's operand faults, in their order, before any event; and in the place of a leaked id's return the fault of
an id not held (the model's choice: DEDUCED, log 30). -/
def Obligations.PublishFaults : Prop :=
  ∀ s : State, s.accepts .publishTx → s.ch = .ready →
    (8 ≤ (s.arg 0).toNat →
      exec .publishTx s = .next { s with
        fault := .clientProtocol .argRange, faultInfo := s.arg 0, status := .faulted, seq := .idle }) ∧
    (∀ id : Fin 8, (s.arg 0).toNat = id.val → s.isHeld id = false →
      exec .publishTx s = .next { s with
        fault := .clientProtocol .publishNotHeld, faultInfo := s.arg 0, status := .faulted, seq := .idle }) ∧
    (∀ id : Fin 8, (s.arg 0).toNat = id.val → s.isHeld id = true → s.heldCap[id].toNat < (s.arg 1).toNat →
      exec .publishTx s = .next { s with
        fault := .clientProtocol .publishLenGtCap, faultInfo := s.arg 1, status := .faulted, seq := .idle }) ∧
    (∀ id : Fin 8, (s.arg 0).toNat = id.val → s.isHeld id = true → (s.arg 1).toNat ≤ s.heldCap[id].toNat →
      s.isLeaked id = true →
      exec .publishTx s = .next { s with
        fault := .clientProtocol .publishNotHeld, faultInfo := s.arg 0, status := .faulted, seq := .idle })

/-- R169, R166: after a PUBLISH_TX that ends OK nothing is pending, shared used.idx is TX_USED, one ahead of before, and the used
entry at the old index's slot holds the id and the length. -/
def Obligations.PublishedEntryIsInMemory : Prop :=
  ∀ (s t : State), s.cfg.ok = true → s.accepts .publishTx → exec .publishTx s = .next t → t.status = .ok →
    t.pwDevice = [] ∧ t.txUsed = s.txUsed + 1 ∧
    leValue (t.shm.readBytes (usedIdxAt s.cfg .tx) 2) = t.txUsed.toNat ∧
    leValue (t.shm.readBytes (usedIdAt s.cfg .tx (slotOf s.txUsed)) 4) = (s.arg 0).toNat ∧
    leValue (t.shm.readBytes (usedLenAt s.cfg .tx (slotOf s.txUsed)) 4) = (s.arg 1).toNat

/-! ### Framing -/

/-- R200, R201, R203: a decoded envelope is what was encoded, reserved and flags 0, in 16 bytes. -/
def Obligations.EnvelopeRoundTrip : Prop :=
  ∀ (src dst : Word) (l : Nat), l ≤ 0xFFFF →
    envDecode (envEncode src dst l) = ⟨src, dst, 0, u16 l, 0⟩ ∧ (envEncode src dst l).length = 16

/-- R204, R211: FRAME_SEND alone, on a granted buffer that takes the frame: the envelope and payload bytes, then the used entry,
committed in order; RES0 the id and RES1 the frame length; the id no longer held. -/
def Obligations.FrameSendPublishesTheFrame : Prop :=
  ∀ (s : State) (id : Fin 8), s.cfg.ok = true → s.accepts .frameSend → s.ch = .ready →
    s.privOutside (s.arg 2) (s.arg 3).toNat = false →
    s.offers .tx s.txLast id → s.isHeld id = false → s.bufferOk .tx id = true →
    (s.arg 3).toNat ≤ 0xFFFF → 16 + (s.arg 3).toNat ≤ (s.descLenSeen .tx id).toNat →
    exec .frameSend s = .next { s with
      txLast := s.txLast + 1
      txUsed := s.txUsed + 1
      heldAddr := s.heldAddr.set id.val ((s.descAddrSeen .tx id).setWidth 32)
      heldCap := s.heldCap.set id.val (s.descLenSeen .tx id)
      res := (s.res.set 0 (u32 id.val)).set 1 (u32 (16 + (s.arg 3).toNat))
      status := .ok
      shm := commitAll s.shm
        (s.pwDevice ++
          byteWrites (s.descAddrSeen .tx id).toNat
            (envEncode (s.arg 0) (s.arg 1) (s.arg 3).toNat ++ s.priv.readBytes (s.arg 2).toNat (s.arg 3).toNat) ++
          usedWrites s.cfg .tx s.txUsed id (u32 (16 + (s.arg 3).toNat)))
      pwDevice := [] }

/-- R205, R206, R376: a frame that does not fit, or whose L exceeds 0xFFFF: the buffer is taken and stays held, no byte is
written and no used entry is published. R205, R40, R419, U4: and it stays held: no step returns a leaked id before an INIT begins
or the hardware is reset (log 30). -/
def Obligations.OversizeFrameLeaksTheBuffer : Prop :=
  (∀ (s : State) (id : Fin 8), s.cfg.ok = true → s.accepts .frameSend → s.ch = .ready →
    s.privOutside (s.arg 2) (s.arg 3).toNat = false →
    s.offers .tx s.txLast id → s.isHeld id = false → s.bufferOk .tx id = true →
    (0xFFFF < (s.arg 3).toNat ∨ (s.descLenSeen .tx id).toNat < 16 + (s.arg 3).toNat) →
    exec .frameSend s = .next { s with
      txLast := s.txLast + 1
      txHeld := setBit s.txHeld id
      txLeaked := setBit s.txLeaked id
      heldAddr := s.heldAddr.set id.val ((s.descAddrSeen .tx id).setWidth 32)
      heldCap := s.heldCap.set id.val (s.descLenSeen .tx id)
      res := (s.res.set 0 (u32 id.val)).set 1 (u32 (16 + (s.arg 3).toNat))
      status := .payloadTooLarge }) ∧
  (∀ s t : State, s.leaksFit → step s = .next t →
    t.leaksFit ∧
    ((∀ rest, s.acts ≠ .reset :: rest) → (s.cmd = some (encode .init) → s.ch ≠ .uninitialized) →
      ∀ id, s.isLeaked id = true → t.isLeaked id = true ∧ t.isHeld id = true))

/-- R204, R382: FRAME_SEND's BOUNDS PRIV_SRC fault, before any event and before the ring is looked at. -/
def Obligations.FrameSendOutsidePrivFaults : Prop :=
  ∀ s : State, s.accepts .frameSend → s.ch = .ready → 0 < (s.arg 3).toNat →
    ¬ (s.cfg.priv.base.toNat ≤ (s.arg 2).toNat ∧
        (s.arg 2).toNat + (s.arg 3).toNat ≤ s.cfg.priv.base.toNat + s.cfg.priv.size.toNat) →
    exec .frameSend s = .next { s with
      fault := .bounds .privSrc, faultInfo := s.arg 2, status := .faulted, seq := .idle }

/-- R207: the round trip: after a FRAME_SEND that ends OK on a buffer that does not overlap the TX ring instance, the buffer holds
the envelope and the payload, and the one new used entry, at the slot before TX_USED's, holds the id and 16 + L: all of it in
shared memory. -/
def Obligations.SentFrameIsInTheBuffer : Prop :=
  ∀ (s t : State), s.cfg.ok = true → s.accepts .frameSend → exec .frameSend s = .next t → t.status = .ok →
    ∀ id : Fin 8, id.val = (s.slotSeen .tx s.txLast).toNat →
    disjointRanges (s.descAddrSeen .tx id).toNat (16 + (s.arg 3).toNat) s.cfg.txBase.toNat ringBytes = true →
    t.shm.readBytes (s.descAddrSeen .tx id).toNat (16 + (s.arg 3).toNat) =
      envEncode (s.arg 0) (s.arg 1) (s.arg 3).toNat ++ s.priv.readBytes (s.arg 2).toNat (s.arg 3).toNat ∧
    leValue (t.shm.readBytes (usedIdAt s.cfg .tx (slotOf (t.txUsed - 1))) 4) = id.val ∧
    leValue (t.shm.readBytes (usedLenAt s.cfg .tx (slotOf (t.txUsed - 1))) 4) = 16 + (s.arg 3).toNat ∧
    leValue (t.shm.readBytes (usedIdxAt s.cfg .tx) 2) = t.txUsed.toNat ∧
    t.pwDevice = [] ∧ t.txUsed = s.txUsed + 1 ∧ t.txLast = s.txLast + 1 ∧ t.isHeld id = false

/-! ### The RX ring -/

/-- R240, R252, R208, R209: POLL_RX delivers a well-formed frame whatever its dst, and waits in Delivering; nothing is written to
shared memory. -/
def Obligations.PollDeliversAWellFormedFrame : Prop :=
  ∀ (s : State) (id : Fin 8), s.cfg.ok = true → s.accepts .pollRx → s.ch = .ready →
    s.offers .rx s.rxLast id → s.bufferOk .rx id = true → 16 ≤ (s.descLenSeen .rx id).toNat →
    16 + (s.envelopeSeen (s.descAddrSeen .rx id).toNat).len.toNat ≤ (s.descLenSeen .rx id).toNat →
    exec .pollRx s = .next { s with
      rxProcessed := 0, rxDelivered := 0
      rxCurId := u16 id.val, rxCurDlen := s.descLenSeen .rx id
      rxCurFlen := u32 (16 + (s.envelopeSeen (s.descAddrSeen .rx id).toNat).len.toNat)
      dlvSrc := (s.envelopeSeen (s.descAddrSeen .rx id).toNat).src
      dlvDst := (s.envelopeSeen (s.descAddrSeen .rx id).toNat).dst
      dlvAddr := u32 ((s.descAddrSeen .rx id).toNat + 16)
      dlvLen := u32 (s.envelopeSeen (s.descAddrSeen .rx id).toNat).len.toNat
      status := .frameDelivered
      seq := .delivering ⟨s.rxLast, id⟩ }

/-- R242, R209, R243: POLL_RX drops a malformed frame and returns its descriptor; the ring is then empty. -/
def Obligations.PollDropsAMalformedFrame : Prop :=
  ∀ (s : State) (id : Fin 8), s.cfg.ok = true → s.accepts .pollRx → s.ch = .ready →
    s.offers .rx s.rxLast id → s.availIdxSeen .rx = s.rxLast + 1 → s.bufferOk .rx id = true →
    ((s.descLenSeen .rx id).toNat < 16 ∨
      (s.descLenSeen .rx id).toNat < 16 + (s.envelopeSeen (s.descAddrSeen .rx id).toNat).len.toNat) →
    exec .pollRx s = .next { s with
      rxProcessed := 1, rxDelivered := 0, rxLast := s.rxLast + 1, rxUsed := s.rxUsed + 1
      rxCurId := u16 id.val, rxCurDlen := s.descLenSeen .rx id, rxCurFlen := 0
      res := (s.res.set 0 1).set 1 0, status := .ok
      shm := commitAll s.shm
        (s.pwDevice ++ usedWrites s.cfg .rx s.rxUsed id
          (match s.cfg.rxLenPolicy with
            | .descLen => s.descLenSeen .rx id
            | .frameLen => 0))
      pwDevice := [] }

/-- R246, R240, R243: RX_RELEASE returns the delivered frame's descriptor and, the ring then empty, ends the POLL_RX with its
counts. -/
def Obligations.ReleaseReturnsTheDescriptor : Prop :=
  ∀ (s : State) (k : Suspended), s.cfg.ok = true → s.accepts .rxRelease → s.seq = .delivering k →
    s.availIdxSeen .rx = k.cursor + 1 →
    exec .rxRelease s = .next { s with
      seq := .idle, status := .ok
      rxDelivered := s.rxDelivered + 1, rxProcessed := s.rxProcessed + 1
      rxLast := k.cursor + 1, rxUsed := s.rxUsed + 1
      res := (s.res.set 0 (s.rxProcessed + 1)).set 1 (s.rxDelivered + 1)
      shm := commitAll s.shm
        (s.pwDevice ++ usedWrites s.cfg .rx s.rxUsed k.id
          (match s.cfg.rxLenPolicy with
            | .descLen => s.rxCurDlen
            | .frameLen => s.rxCurFlen))
      pwDevice := [] }

/-- R160, R161, R162, R240, R381: the walker's faults of POLL_RX, before the iteration writes anything: in its first iteration; in
the iteration that follows an RX_RELEASE, after the released descriptor's return; and, event by event, in every iteration. -/
def Obligations.PollFaults : Prop :=
  (∀ s : State, s.cfg.ok = true → s.accepts .pollRx → s.ch = .ready → s.availIdxSeen .rx ≠ s.rxLast →
    let begun := { s with rxProcessed := 0, rxDelivered := 0 }
    (ringN < gap (s.availIdxSeen .rx) s.rxLast →
      exec .pollRx s = .next (begun.stopped (.desync .rx) (u32 ((s.availIdxSeen .rx).toNat * 65536 + s.rxLast.toNat)))) ∧
    (gap (s.availIdxSeen .rx) s.rxLast ≤ ringN → 8 ≤ (s.slotSeen .rx s.rxLast).toNat →
      exec .pollRx s = .next (begun.stopped (.badDescId .rx) (u32 (s.slotSeen .rx s.rxLast).toNat))) ∧
    (∀ id, s.offers .rx s.rxLast id → s.bufferOk .rx id = false →
      exec .pollRx s = .next (begun.stopped (.bounds .rxBuf) (u32 (s.descAddrSeen .rx id).toNat)))) ∧
  (∀ (s : State) (k : Suspended), s.cfg.ok = true → s.accepts .rxRelease → s.seq = .delivering k →
    s.availIdxSeen .rx ≠ k.cursor + 1 →
    let returned := { s with
      rxDelivered := s.rxDelivered + 1, rxProcessed := s.rxProcessed + 1
      rxLast := k.cursor + 1, rxUsed := s.rxUsed + 1
      shm := commitAll s.shm
        (s.pwDevice ++ usedWrites s.cfg .rx s.rxUsed k.id
          (match s.cfg.rxLenPolicy with
            | .descLen => s.rxCurDlen
            | .frameLen => s.rxCurFlen))
      pwDevice := [] }
    (ringN < gap (s.availIdxSeen .rx) (k.cursor + 1) →
      exec .rxRelease s = .next (returned.stopped (.desync .rx)
        (u32 ((s.availIdxSeen .rx).toNat * 65536 + (k.cursor + 1).toNat)))) ∧
    (gap (s.availIdxSeen .rx) (k.cursor + 1) ≤ ringN → 8 ≤ (s.slotSeen .rx (k.cursor + 1)).toNat →
      exec .rxRelease s = .next (returned.stopped (.badDescId .rx) (u32 (s.slotSeen .rx (k.cursor + 1)).toNat))) ∧
    (∀ id, s.offers .rx (k.cursor + 1) id → s.bufferOk .rx id = false →
      exec .rxRelease s = .next (returned.stopped (.bounds .rxBuf) (u32 (s.descAddrSeen .rx id).toNat)))) ∧
  (∀ (s : State) (c : Half) (o : Option Suspended), s.cfg.ok = true → s.fault = .none →
    (s.seq = .busy (.peek .poll c) o → s.availIdxSeen .rx ≠ c → ringN < gap (s.availIdxSeen .rx) c →
      performAct .block s = .next (s.stopped (.desync .rx) (u32 ((s.availIdxSeen .rx).toNat * 65536 + c.toNat)))) ∧
    (s.seq = .busy (.slot .poll c) o → 8 ≤ (s.slotSeen .rx c).toNat →
      performAct .block s = .next (s.stopped (.badDescId .rx) (u32 (s.slotSeen .rx c).toNat))) ∧
    (∀ id addr, s.seq = .busy (.descLen .poll c id addr) o → bufferInWindow s.cfg addr (s.descLenSeen .rx id) = false →
      performAct .block s = .next (s.stopped (.bounds .rxBuf) (u32 addr.toNat))))

/-- R249, R241, R242: receive draining. With K entries posted, all of legal ids and buffers, and the host silent, a POLL_RX whose
client releases every delivery ends OK after exactly K iterations, with K used entries in avail order. -/
def Obligations.ReceiveDrainsExactlyTheRing : Prop :=
  ∀ (s : State) (n : Nat), s.cfg.ok = true → s.accepts .pollRx → s.ch = .ready →
    gap (s.availIdxSeen .rx) s.rxLast = n → n ≤ 8 →
    (∀ j < n, ∃ id : Fin 8, (s.slotSeen .rx (s.rxLast + u16 j)).toNat = id.val ∧ s.bufferOk .rx id = true) →
    ∃ t0 t, exec .pollRx s = .next t0 ∧ releaseAll n t0 = .next t ∧
      t.seq = .idle ∧ t.status = .ok ∧ t.fault = .none ∧
      t.rxLast = s.rxLast + u16 n ∧ t.rxUsed = s.rxUsed + u16 n ∧ t.res[0] = u32 n ∧
      (0 < n → leValue (t.shm.readBytes (usedIdxAt s.cfg .rx) 2) = t.rxUsed.toNat) ∧
      ∀ j < n, leValue (t.shm.readBytes (usedIdAt s.cfg .rx (slotOf (s.rxUsed + u16 j))) 4) =
        (s.slotSeen .rx (s.rxLast + u16 j)).toNat

/-! ### Every command -/

/-- R372, R78, R425: alone, every command is answered, never leaves the windows, and ends or delivers: after exec the block is not
Busy, from every state in which it was not Busy. -/
def Obligations.EveryCommandEndsOrDelivers : Prop :=
  ∀ (i : Instr) (s : State), s.cfg.ok = true →
    ∃ t, exec i s = .next t ∧ (s.seq.isBusy = false → t.seq.isBusy = false)

/-- R84, R33, R90 (log 6): what exec answers is what the event-by-event machine comes to: accepting the command, then block steps
and commits of the device's oldest pending write, one at a time. -/
def Obligations.ExecIsMadeOfEvents : Prop :=
  ∀ (i : Instr) (s t : State), s.seq.isBusy = false → exec i s = .next t →
    ∃ ms : List Act, ms.all Act.solo = true ∧
      performActs (.block :: ms) { s with cmd := some (encode i) } = .next { t with cmd := none }

/-- R42, R380: FAULT and FAULT_INFO are sticky: nothing but a hardware reset changes them once a fault is recorded. R383, R393: a
run that reaches a fault has ended, and no run that goes on from there has succeeded, whatever follows, a reset included. -/
def Obligations.FaultIsSticky : Prop :=
  (∀ (s t : State), s.fault ≠ .none → (∀ rest, s.acts ≠ .reset :: rest) → step s = .next t →
    t.fault = s.fault ∧ t.faultInfo = s.faultInfo) ∧
  (∀ (s t u : State) (n m : Nat), stepN n s = .next t → t.fault ≠ .none →
    RunEnded s n t ∧ (stepN (n + m) s = .next u → RunEnded s (n + m) u ∧ ¬ RunSucceeded s (n + m) u))

/-- R9, R30: no step changes the configuration. -/
def Obligations.ConfigurationIsFixed : Prop :=
  ∀ s t : State, step s = .next t → t.cfg = s.cfg

/-! ### Frames -/

/-- R296, R297, R163: SHUTDOWN, QUERY and ACQUIRE_TX store nothing; SHUTDOWN changes CH only, QUERY RES0 only, ACQUIRE_TX the TX
cursor, the held set and RES0-RES2 only, besides STATUS, the fault registers, the sequencer and a held CMD write. -/
def Obligations.ControlAndAcquireFrames : Prop :=
  ∀ s t : State,
    (exec .shutdown s = .next t →
      untouched s t ∧ sameMemory s t ∧ sameTx s t ∧ sameRx s t ∧ sameDlv s t ∧ t.res = s.res ∧ t.waitCnt = s.waitCnt ∧
      t.initSeen = s.initSeen) ∧
    (exec .query s = .next t →
      untouched s t ∧ sameMemory s t ∧ sameTx s t ∧ sameRx s t ∧ sameDlv s t ∧ t.ch = s.ch ∧
      (∀ n : Fin 4, n ≠ 0 → t.res[n] = s.res[n]) ∧ t.waitCnt = s.waitCnt ∧ t.initSeen = s.initSeen) ∧
    (exec .acquireTx s = .next t →
      untouched s t ∧ sameMemory s t ∧ sameRx s t ∧ sameDlv s t ∧ t.ch = s.ch ∧ t.txUsed = s.txUsed ∧
      t.txLeaked = s.txLeaked ∧ t.res[3] = s.res[3] ∧ t.waitCnt = s.waitCnt ∧ t.initSeen = s.initSeen)

/-- R167: PUBLISH_TX changes TX_USED and TX_HELD, and in memory at most the used entry at slot TX_USED mod N and used.idx of the
TX ring. -/
def Obligations.PublishFrame : Prop :=
  ∀ s t : State, exec .publishTx s = .next t →
    untouched s t ∧ sameRx s t ∧ sameDlv s t ∧ t.ch = s.ch ∧ t.txLast = s.txLast ∧ t.heldAddr = s.heldAddr ∧
    t.heldCap = s.heldCap ∧ t.txLeaked = s.txLeaked ∧ t.res = s.res ∧ t.waitCnt = s.waitCnt ∧ t.initSeen = s.initSeen ∧
    ∀ x, outsideUsed s.cfg .tx s.txUsed x → t.byteSeen .device x = s.byteSeen .device x

/-- R204, R211: FRAME_SEND changes the TX registers and RES0-RES1, and in memory at most the 16 + L bytes of the frame at the taken
descriptor's address, the used entry at slot TX_USED mod N and used.idx of the TX ring. -/
def Obligations.FrameSendFrame : Prop :=
  ∀ s t : State, exec .frameSend s = .next t →
    untouched s t ∧ sameRx s t ∧ sameDlv s t ∧ t.ch = s.ch ∧ t.res[2] = s.res[2] ∧ t.res[3] = s.res[3] ∧
    t.waitCnt = s.waitCnt ∧ t.initSeen = s.initSeen ∧
    ∀ x, outsideUsed s.cfg .tx s.txUsed x →
      (∀ id : Fin 8, id.val = (s.slotSeen .tx s.txLast).toNat →
        outside x (s.descAddrSeen .tx id).toNat (16 + (s.arg 3).toNat)) →
      t.byteSeen .device x = s.byteSeen .device x

/-- R291, R293: INIT changes CH, the cursors, the held set, WAIT_CNT and RES0-RES1, and in memory at most the 56 bytes of the
announcement at the first granted descriptor's address, the used entry at slot 0 and used.idx of the TX ring. -/
def Obligations.InitFrame : Prop :=
  ∀ s t : State, s.cfg.nameFits = true → exec .init s = .next t →
    untouched s t ∧ sameDlv s t ∧ t.res[2] = s.res[2] ∧ t.res[3] = s.res[3] ∧
    t.rxCurId = s.rxCurId ∧ t.rxCurDlen = s.rxCurDlen ∧ t.rxCurFlen = s.rxCurFlen ∧
    t.rxProcessed = s.rxProcessed ∧ t.rxDelivered = s.rxDelivered ∧
    ∀ x, outsideUsed s.cfg .tx 0 x →
      (∀ id : Fin 8, id.val = (s.slotSeen .tx 0).toNat → outside x (s.descAddrSeen .tx id).toNat 56) →
      t.byteSeen .device x = s.byteSeen .device x

/-- R240, R246, R241: POLL_RX and RX_RELEASE change the RX registers, the delivery registers and RES0-RES1 and never CH or the TX
side, and in memory at most the used entries at the slots RX_USED passes and used.idx of the RX ring. -/
def Obligations.ReceiveFrames : Prop :=
  ∀ (s t : State) (i : Instr), s.cfg.ok = true → i = .pollRx ∨ i = .rxRelease → exec i s = .next t →
    untouched s t ∧ sameTx s t ∧ t.ch = s.ch ∧ t.res[2] = s.res[2] ∧ t.res[3] = s.res[3] ∧ t.waitCnt = s.waitCnt ∧
    t.initSeen = s.initSeen ∧
    ∀ x, (∀ j < gap t.rxUsed s.rxUsed, outsideUsed s.cfg .rx (s.rxUsed + u16 j) x) →
      t.byteSeen .device x = s.byteSeen .device x

/-! ### Memory and ordering -/

/-- R89, R76, R93: a write enters the agent's own pending set and changes neither SHM nor what the other agent sees; the writer
reads back its bytes, little-endian, and every other byte as before. -/
def Obligations.WriteIsSeenByItsOwnAgent : Prop :=
  ∀ (s : State) (a b : Agent) (x n v : Nat),
    (s.issueWrite a x (bytesOf v n)).shm = s.shm ∧
    (b ≠ a → ∀ y, (s.issueWrite a x (bytesOf v n)).byteSeen b y = s.byteSeen b y) ∧
    (s.issueWrite a x (bytesOf v n)).valueSeen a x n = v % 2 ^ (8 * n) ∧
    (∀ y, outside y x n → (s.issueWrite a x (bytesOf v n)).byteSeen a y = s.byteSeen a y)

/-- R90, R93: exactly an entry that no older pending entry of its agent shares a byte with can commit; its commit puts its bytes
into SHM, no others, takes it out of the set, and leaves what its agent sees as it was. -/
def Obligations.CommitMovesOneEntryAndKeepsTheView : Prop :=
  ∀ (s : State) (a : Agent) (k : Nat),
    ((∃ t, s.commit a k = some t) ↔
      ∃ w, (s.pending a)[k]? = some w ∧
        ∀ (j : Nat) (v : PendingWrite), j < k → (s.pending a)[j]? = some v →
          ∀ x, ¬ ((v.byteAt x).isSome = true ∧ (w.byteAt x).isSome = true)) ∧
    ∀ t, s.commit a k = some t →
      (∀ x, t.byteSeen a x = s.byteSeen a x) ∧
      t.pending a = (s.pending a).eraseIdx k ∧
      ∃ w, (s.pending a)[k]? = some w ∧ ∀ x, t.shm.read x = (w.byteAt x).getD (s.shm.read x)

/-- R90, R91, R93: whatever order the commits take, when an agent's set is empty SHM holds what the agent saw before them. -/
def Obligations.CommitOrderDoesNotMatter : Prop :=
  ∀ (s t : State) (a : Agent) (ks : List Nat),
    performActs (ks.map (.commit a)) s = .next t → t.pending a = [] → ∀ x, t.shm.read x = s.byteSeen a x

/-- R92: a barrier holds while a write of its agent is pending: nothing happens (log 21). With none pending it completes, as one
event that leaves SHM as it is, and its agent goes on. Both barriers of the block, and the host's. -/
def Obligations.BarrierHoldsUntilDrained : Prop :=
  ∀ s : State,
    (∀ (j : PushJob) (o : Option Suspended), s.seq = .busy (.push .barrier1 j) o →
      (s.pwDevice ≠ [] → performAct .block s = .next s) ∧
      (s.pwDevice = [] → performAct .block s = .next { s with seq := .busy (.push .idx j) o })) ∧
    (∀ (j : PushJob) (o : Option Suspended), s.seq = .busy (.push .barrier2 j) o →
      (s.pwDevice ≠ [] → performAct .block s = .next s) ∧
      (s.pwDevice = [] → ∃ t, performAct .block s = .next t ∧ t.seq ≠ s.seq ∧ t.shm = s.shm ∧ t.pwDevice = [])) ∧
    (∀ (rest : List Event) (fin : HostEffect), s.hostRun = some (.script (.barrier :: rest) fin) →
      s.creationBroken = false →
      (s.pwHost ≠ [] → performAct .hostStep s = .next s) ∧
      (s.pwHost = [] → ∃ t, performAct .hostStep s = .next t ∧ t.hostRun ≠ s.hostRun ∧ t.shm = s.shm ∧ t.pwHost = []))

/-- R84, R89, R52: one block step performs at most one event: SHM does not change, and at most one write enters PW[device]: the
position's own event, which is a byte of a TX buffer, or in its phase of UsedPush the id, the length or used.idx. -/
def Obligations.BlockStepIsOneEvent : Prop :=
  ∀ (s t : State) (p : Pos) (o : Option Suspended), s.seq = .busy p o → performAct .block s = .next t →
    t.shm = s.shm ∧
    (t.pwDevice = s.pwDevice ∨ ∃ w : PendingWrite, t.pwDevice = s.pwDevice ++ [w] ∧ p.event s.cfg = .write w.addr w.bytes ∧
      ((∃ f id addr b rest, p = .txByte f id addr b rest ∧ w = ⟨addr, [b]⟩) ∨
       (∃ j, p = .push .id j ∧ w = ⟨usedIdAt s.cfg j.kind.ring (slotOf j.u), bytesOf j.id.val 4⟩) ∨
       (∃ j, p = .push .len j ∧ w = ⟨usedLenAt s.cfg j.kind.ring (slotOf j.u), bytesOf j.len.toNat 4⟩) ∨
       (∃ j, p = .push .idx j ∧ w = ⟨usedIdxAt s.cfg j.kind.ring, bytesOf (j.u + 1).toNat 2⟩)))

/-- R52, R133: no ring-field event of the block touches avail flags, used_event, used flags, avail_event, or a descriptor's flags
and next, and no ring-field write of it touches an avail or descriptor field. -/
def Obligations.BlockIgnoresTheUninterpretedFields : Prop :=
  ∀ (c : Config) (p : Pos) (r : Ring) (x : Nat), c.ok = true →
    (∀ f id addr b rest, p ≠ .txByte f id addr b rest) → (∀ cur id addr dlen got, p ≠ .rxEnv cur id addr dlen got) →
    (∀ a n, p.event c = .read a n → ¬ outside x a n →
      ¬ (∃ i < 8, descFlagsAt c r i ≤ x ∧ x < descFlagsAt c r i + 4) ∧
      ¬ (availFlagsAt c r ≤ x ∧ x < availFlagsAt c r + 2) ∧
      ¬ (usedEventAt c r ≤ x ∧ x < availEventAt c r + 2)) ∧
    (∀ a bs, p.event c = .write a bs → ¬ outside x a bs.length →
      ¬ (ringBase c r ≤ x ∧ x < usedFlagsAt c r + 2) ∧ ¬ (availEventAt c r ≤ x ∧ x < availEventAt c r + 2))

/-! ### Invariants of every step -/

/-- The reset state meets every invariant below (logs 1, 2, 3, 19 and 30 name what it holds beyond R55). -/
def Obligations.ResetMeetsTheInvariants : Prop :=
  State.reset.memoryCanonical ∧ State.reset.sequencerFits ∧ State.reset.cursorsFit ∧ State.reset.buffersFit ∧
  State.reset.publicationOrdered ∧ State.reset.leaksFit

/-- Both memories stay in the model's canonical form (DESIGN CHOICE, log 2: an unlisted byte reads 0, and is not listed). -/
def Obligations.StepsKeepMemoryCanonical : Prop :=
  ∀ s t : State, s.memoryCanonical → step s = .next t → t.memoryCanonical

/-- R290, R372, R380, R384: the sequencer and the channel state keep fitting. -/
def Obligations.StepsKeepTheSequencerFitting : Prop :=
  ∀ s t : State, s.sequencerFits → step s = .next t → t.sequencerFits

/-- R38: the cursors keep agreeing: between commands and without a fault TX_LAST - TX_USED counts the held ids, and RX_LAST =
RX_USED. -/
def Obligations.StepsKeepTheCursorsAgreeing : Prop :=
  ∀ s t : State, s.sequencerFits → s.cursorsFit → step s = .next t → t.cursorsFit

/-- R78, R417, R70: every buffer the device works on stays inside a window, and so no step leaves the windows. -/
def Obligations.StepsStayInsideTheWindows : Prop :=
  ∀ s : State, s.buffersFit →
    (∀ t, step s = .next t → t.buffersFit) ∧ ∀ r, step s ≠ .fault r

/-- R92, R95, R166: used.idx is written only when every earlier device write is in SHM. -/
def Obligations.StepsKeepThePublicationOrder : Prop :=
  ∀ s t : State, s.publicationOrdered → step s = .next t → t.publicationOrdered

/-! ### Reset -/

/-- R55: the values the rule states for a hardware reset, in the reset state. -/
def Obligations.ResetValues : Prop :=
  let s := State.reset
  s.ch = .uninitialized ∧ s.seq = .idle ∧ s.txLast = 0 ∧ s.txUsed = 0 ∧ s.rxLast = 0 ∧ s.rxUsed = 0 ∧ s.txHeld = 0 ∧
  s.status = .ok ∧ s.fault = .none ∧ s.faultInfo = 0 ∧ (∀ n, s.written n = false) ∧ (∀ n : Fin 4, s.res[n] = 0) ∧
  s.dlvSrc = 0 ∧ s.dlvDst = 0 ∧ s.dlvAddr = 0 ∧ s.dlvLen = 0 ∧ s.pwDevice = []

/-- R410, R411, R383: a hardware reset at any point: no pending write is lost, every register takes its R55 value, a recorded fault
is cleared, and SHM as the device saw it, PRIV, the configuration and the host are untouched. (That PW[device] drains in the same
move is log 9, DEDUCED; that the host stays as it is, its procedure in progress included, is log 19, DESIGN CHOICE.) -/
def Obligations.HardwareResetClearsTheBlock : Prop :=
  ∀ (s t : State) (rest : List Act), s.cfg.ok = true → s.acts = .reset :: rest → step s = .next t →
    t.pwDevice = [] ∧ (∀ x, t.shm.read x = s.byteSeen .device x) ∧
    t.ch = .uninitialized ∧ t.seq = .idle ∧ t.txLast = 0 ∧ t.txUsed = 0 ∧ t.rxLast = 0 ∧ t.rxUsed = 0 ∧ t.txHeld = 0 ∧
    t.txLeaked = 0 ∧ t.status = .ok ∧ t.fault = .none ∧ t.faultInfo = 0 ∧ (∀ n, t.written n = false) ∧ (∀ n : Fin 4, t.res[n] = 0) ∧
    t.dlvSrc = 0 ∧ t.dlvDst = 0 ∧ t.dlvAddr = 0 ∧ t.dlvLen = 0 ∧
    t.priv = s.priv ∧ t.cfg = s.cfg ∧ t.hostTx = s.hostTx ∧ t.hostRx = s.hostRx ∧ t.pwHost = s.pwHost ∧ t.hostRun = s.hostRun ∧
    t.acts = rest

/-! ### The client -/

/-- R48, R49, R32, R41, R42, R131: what a client read of each register returns; it has no other effect (the value is noted: log
13). REG_BASE is aligned. -/
def Obligations.RegisterReads : Prop :=
  ∀ (s : State) (rest : List Act) (off : Nat) (v : Word), s.cfg.ok = true → s.cfg.regBase.toNat % 4 = 0 → s.cmd = none →
    s.acts = .client (.regRead (s.cfg.regBase.toNat + off) 4) :: rest →
    (off, v) ∈ [
      (0x00, 0), (0x04, u32 s.status.code), (0x08, u32 (s.ch.code + 4 * s.seq.sub.code)),
      (0x0C, u32 (s.fault.code + 256 * s.fault.subcode)), (0x10, s.faultInfo),
      (0x14, u32 (s.txLast.toNat + 65536 * s.txUsed.toNat)), (0x18, u32 (s.rxLast.toNat + 65536 * s.rxUsed.toNat)),
      (0x1C, u32 s.txHeld.toNat), (0x30, s.res[0]), (0x34, s.res[1]), (0x38, s.res[2]), (0x3C, s.res[3]),
      (0x40, s.dlvSrc), (0x44, s.dlvDst), (0x48, s.dlvAddr), (0x4C, s.dlvLen)] →
    step s = .next { s with acts := rest, clientReads := v.toNat :: s.clientReads }

/-- R44, R47, R49, R394: a client write of ARGn sets the value and the written bit, and a read returns the last value written and
is refused before the first; a write to a read-only register is ignored; a write to CMD leaves the word there for the block;
and an access that is misaligned, not 32 bits wide or outside 0x00-0x4F is refused. -/
def Obligations.RegisterWritesAndRefusals : Prop :=
  ∀ (s : State) (rest : List Act) (addr width : Nat) (v : Word), s.cfg.ok = true → s.cfg.regBase.toNat % 4 = 0 →
    s.cmd = none →
    (∀ n : Fin 4, s.acts = .client (.regWrite (s.cfg.regBase.toNat + 0x20 + 4 * n.val) 4 v) :: rest →
      step s = .next { s with acts := rest, args := s.args.set n.val v, argWritten := s.argWritten.set n.val true }) ∧
    (∀ n : Fin 4, s.acts = .client (.regRead (s.cfg.regBase.toNat + 0x20 + 4 * n.val) 4) :: rest →
      step s = if s.written n = true then .next { s with acts := rest, clientReads := (s.arg n).toNat :: s.clientReads }
        else .refused .unwrittenArgRead) ∧
    (∀ off ∈ [0x04, 0x08, 0x0C, 0x10, 0x14, 0x18, 0x1C, 0x30, 0x34, 0x38, 0x3C, 0x40, 0x44, 0x48, 0x4C],
      s.acts = .client (.regWrite (s.cfg.regBase.toNat + off) 4 v) :: rest → step s = .next { s with acts := rest }) ∧
    (s.acts = .client (.regWrite s.cfg.regBase.toNat 4 v) :: rest →
      step s = .next { s with acts := rest, cmd := some v }) ∧
    (width ≠ 4 ∨ addr % 4 ≠ 0 ∨ addr < s.cfg.regBase.toNat ∨ s.cfg.regBase.toNat + 0x50 ≤ addr →
      s.acts = .client (.regWrite addr width v) :: rest ∨ s.acts = .client (.regRead addr width) :: rest →
      step s = .refused .regAccess)

/-- R417, R248, R372: a client SHM write is a device write (one of no byte is no event: log 17, DESIGN CHOICE) while no command is Busy, some TX id that is held and not leaked (R417:
"an ACQUIRE_TX that ends OK") contains its bytes, and no RX buffer shares one with it; every other is refused, and so is one made while a CMD write holds (log 12). An RX buffer is the delivered one, or one the host has granted and
not reaped (log 31). R100, R331: and the host, for its part, writes no byte of a buffer that the device has: of a TX id that is held
and not yet returned, and of the delivered one (log 29). That a held id's buffer is legal after a PUBLISH_TX of it that returned
nothing too is the model's choice (DESIGN CHOICE, log 37). -/
def Obligations.ClientWritesOnlyHeldBuffers : Prop :=
  (∀ (s : State) (rest : List Act) (a n v : Nat), s.cfg.ok = true → s.buffersFit →
    s.acts = .client (.shmWrite a n v) :: rest →
    let legal := s.seq.isBusy = false ∧
      (∃ id : Fin 8, s.isHeld id = true ∧ s.isLeaked id = false ∧
        s.heldAddr[id].toNat ≤ a ∧ a + n ≤ s.heldAddr[id].toNat + s.heldCap[id].toNat) ∧
      ∀ x, a ≤ x → x < a + n →
        (∀ k, s.seq = .delivering k → outside x (s.dlvAddr - 16).toNat s.rxCurDlen.toNat) ∧
        (∀ id : Fin 8, s.hostRx.owns id = false →
          outside x (s.descAddrSeen .rx id).toNat (s.descLenSeen .rx id).toNat)
    (s.cmd = none → legal →
      step s = .next (if n = 0 then { s with acts := rest }
        else { s with acts := rest }.issueWrite .device a (bytesOf v n))) ∧
    (s.cmd = none → ¬ legal → step s = .refused .clientShmWrite) ∧
    (s.cmd ≠ none → step s = .refused .clientStalled)) ∧
  (∀ (s t : State) (w : PendingWrite), performAct .hostStep s = .next t → t.pwHost = s.pwHost ++ [w] →
    ∀ x, (w.byteAt x).isSome = true →
      (∀ id : Fin 8, s.isHeld id = true →
        (∀ j o, s.seq = .busy (.push .barrier2 j) o → j.kind.ring = .tx → s.pwDevice = [] → j.id ≠ id) →
        outside x s.heldAddr[id].toNat s.heldCap[id].toNat) ∧
      (∀ k, s.seq = .delivering k → outside x (s.dlvAddr - 16).toNat s.rxCurDlen.toNat))

/-! ### The host -/

/-- R332, R335 items 3, 4 and 6, R52: in an H_GRANT the last event is the avail.idx write, advanced by the number of entries, and the
event before it is the barrier; every event before that is a write that touches neither avail.idx nor a used ring. R336: and every id the host owns
may be granted, with any address and capacity (and no frame). -/
def Obligations.GrantsPublishBehindABarrier : Prop :=
  (∀ (s : State) (r : Ring) (es : List GrantEntry) (todo : List Event) (fin : HostEffect), s.cfg.ok = true →
    grantScript s r es = some (.script todo fin) →
    ∃ evs, todo = evs ++ [.barrier,
        .write (availIdxAt s.cfg r) (bytesOf ((s.hostRing r).avail + u16 es.length).toNat 2)] ∧
      fin = .granted r es.length (es.map (·.id)) ∧
      ∀ e ∈ evs, ∃ a bs, e = .write a bs ∧ disjointRanges a bs.length (availIdxAt s.cfg r) 2 = true ∧
        ∀ q, disjointRanges a bs.length (ringBase s.cfg q + 0xA0) 70 = true) ∧
  (∀ (s : State) (r : Ring) (id : Fin 8) (addr : Dword) (len : Word) (extra : Option (Half × Half)),
    s.hostRun = none → (s.hostRing r).owns id = true →
    ∃ t, performAct (.hostBegin (.grant r [⟨u16 id.val, addr, len, extra, []⟩])) s = .next t ∧
      ∃ todo, t.hostRun = some (.script todo (.granted r 1 [u16 id.val])))

/-- R332, R95: a host with nothing pending that grants an owned id on an otherwise quiet machine, at any address with any
capacity, not the RX id in process (R337), and with none of the device's buffers over a ring instance (R331; log 35): after some of the
host's own events and commits of its writes, and no other move, the device sees the descriptor, the avail entry and the advanced
avail.idx, and the id is no longer the host's. -/
def Obligations.GrantReachesTheDevice : Prop :=
  ∀ (s : State) (r : Ring) (id : Fin 8) (addr : Dword) (len : Word), s.cfg.ok = true → s.hostRun = none →
    s.pwHost = [] → s.pwDevice = [] → (s.hostRing r).owns id = true → (r = .rx → s.rxTaken ≠ some id) →
    (∀ q, s.touchesTaken (ringBase s.cfg q) ringBytes = false) →
    ∃ (ms : List Act) (t : State), ms.all Act.hostOnly = true ∧
      performActs (.hostBegin (.grant r [⟨u16 id.val, addr, len, none, []⟩]) :: ms) s = .next t ∧
      t.hostRun = none ∧ t.pwHost = [] ∧
      t.availIdxSeen r = (s.hostRing r).avail + 1 ∧ t.slotSeen r (s.hostRing r).avail = u16 id.val ∧
      t.descAddrSeen r id = addr ∧ t.descLenSeen r id = len ∧
      (t.hostRing r).avail = (s.hostRing r).avail + 1 ∧ (t.hostRing r).owns id = false
end

