-- ==== Sys2Proof/Laws/State.lean ====
section
/-! SUPPORT. One lemma per field and update of State, true by rfl, for simp. -/

namespace Sys2Proof.Machine

variable (s : State)

/-! ### State.goto -/

@[simp] theorem State.goto_cfg (p : Pos) : (s.goto p).cfg = s.cfg := rfl
@[simp] theorem State.goto_ch (p : Pos) : (s.goto p).ch = s.ch := rfl
@[simp] theorem State.goto_seq (p : Pos) : (s.goto p).seq = .busy p s.seq.outer := rfl
@[simp] theorem State.goto_status (p : Pos) : (s.goto p).status = s.status := rfl
@[simp] theorem State.goto_fault (p : Pos) : (s.goto p).fault = s.fault := rfl
@[simp] theorem State.goto_faultInfo (p : Pos) : (s.goto p).faultInfo = s.faultInfo := rfl
@[simp] theorem State.goto_txLast (p : Pos) : (s.goto p).txLast = s.txLast := rfl
@[simp] theorem State.goto_txUsed (p : Pos) : (s.goto p).txUsed = s.txUsed := rfl
@[simp] theorem State.goto_rxLast (p : Pos) : (s.goto p).rxLast = s.rxLast := rfl
@[simp] theorem State.goto_rxUsed (p : Pos) : (s.goto p).rxUsed = s.rxUsed := rfl
@[simp] theorem State.goto_txHeld (p : Pos) : (s.goto p).txHeld = s.txHeld := rfl
@[simp] theorem State.goto_heldAddr (p : Pos) : (s.goto p).heldAddr = s.heldAddr := rfl
@[simp] theorem State.goto_heldCap (p : Pos) : (s.goto p).heldCap = s.heldCap := rfl
@[simp] theorem State.goto_args (p : Pos) : (s.goto p).args = s.args := rfl
@[simp] theorem State.goto_argWritten (p : Pos) : (s.goto p).argWritten = s.argWritten := rfl
@[simp] theorem State.goto_res (p : Pos) : (s.goto p).res = s.res := rfl
@[simp] theorem State.goto_dlvSrc (p : Pos) : (s.goto p).dlvSrc = s.dlvSrc := rfl
@[simp] theorem State.goto_dlvDst (p : Pos) : (s.goto p).dlvDst = s.dlvDst := rfl
@[simp] theorem State.goto_dlvAddr (p : Pos) : (s.goto p).dlvAddr = s.dlvAddr := rfl
@[simp] theorem State.goto_dlvLen (p : Pos) : (s.goto p).dlvLen = s.dlvLen := rfl
@[simp] theorem State.goto_waitCnt (p : Pos) : (s.goto p).waitCnt = s.waitCnt := rfl
@[simp] theorem State.goto_rxCurId (p : Pos) : (s.goto p).rxCurId = s.rxCurId := rfl
@[simp] theorem State.goto_rxCurDlen (p : Pos) : (s.goto p).rxCurDlen = s.rxCurDlen := rfl
@[simp] theorem State.goto_rxCurFlen (p : Pos) : (s.goto p).rxCurFlen = s.rxCurFlen := rfl
@[simp] theorem State.goto_rxProcessed (p : Pos) : (s.goto p).rxProcessed = s.rxProcessed := rfl
@[simp] theorem State.goto_rxDelivered (p : Pos) : (s.goto p).rxDelivered = s.rxDelivered := rfl
@[simp] theorem State.goto_shm (p : Pos) : (s.goto p).shm = s.shm := rfl
@[simp] theorem State.goto_priv (p : Pos) : (s.goto p).priv = s.priv := rfl
@[simp] theorem State.goto_pwDevice (p : Pos) : (s.goto p).pwDevice = s.pwDevice := rfl
@[simp] theorem State.goto_pwHost (p : Pos) : (s.goto p).pwHost = s.pwHost := rfl
@[simp] theorem State.goto_hostTx (p : Pos) : (s.goto p).hostTx = s.hostTx := rfl
@[simp] theorem State.goto_hostRx (p : Pos) : (s.goto p).hostRx = s.hostRx := rfl
@[simp] theorem State.goto_hostRun (p : Pos) : (s.goto p).hostRun = s.hostRun := rfl
@[simp] theorem State.goto_cmd (p : Pos) : (s.goto p).cmd = s.cmd := rfl
@[simp] theorem State.goto_acts (p : Pos) : (s.goto p).acts = s.acts := rfl
@[simp] theorem State.goto_cycle (p : Pos) : (s.goto p).cycle = s.cycle := rfl
@[simp] theorem State.goto_initSeen (p : Pos) : (s.goto p).initSeen = s.initSeen := rfl
@[simp] theorem State.goto_txLeaked (p : Pos) : (s.goto p).txLeaked = s.txLeaked := rfl
@[simp] theorem State.goto_clientReads (p : Pos) : (s.goto p).clientReads = s.clientReads := rfl
@[simp] theorem State.goto_hostReads (p : Pos) : (s.goto p).hostReads = s.hostReads := rfl
@[simp] theorem State.goto_freeCount (p : Pos) : (s.goto p).freeCount = s.freeCount := rfl

/-! ### State.finish -/

@[simp] theorem State.finish_cfg (st : Status) : (s.finish st).cfg = s.cfg := rfl
@[simp] theorem State.finish_ch (st : Status) : (s.finish st).ch = s.ch := rfl
@[simp] theorem State.finish_seq (st : Status) : (s.finish st).seq = s.seq.returned := rfl
@[simp] theorem State.finish_status (st : Status) : (s.finish st).status = st := rfl
@[simp] theorem State.finish_fault (st : Status) : (s.finish st).fault = s.fault := rfl
@[simp] theorem State.finish_faultInfo (st : Status) : (s.finish st).faultInfo = s.faultInfo := rfl
@[simp] theorem State.finish_txLast (st : Status) : (s.finish st).txLast = s.txLast := rfl
@[simp] theorem State.finish_txUsed (st : Status) : (s.finish st).txUsed = s.txUsed := rfl
@[simp] theorem State.finish_rxLast (st : Status) : (s.finish st).rxLast = s.rxLast := rfl
@[simp] theorem State.finish_rxUsed (st : Status) : (s.finish st).rxUsed = s.rxUsed := rfl
@[simp] theorem State.finish_txHeld (st : Status) : (s.finish st).txHeld = s.txHeld := rfl
@[simp] theorem State.finish_heldAddr (st : Status) : (s.finish st).heldAddr = s.heldAddr := rfl
@[simp] theorem State.finish_heldCap (st : Status) : (s.finish st).heldCap = s.heldCap := rfl
@[simp] theorem State.finish_args (st : Status) : (s.finish st).args = s.args := rfl
@[simp] theorem State.finish_argWritten (st : Status) : (s.finish st).argWritten = s.argWritten := rfl
@[simp] theorem State.finish_res (st : Status) : (s.finish st).res = s.res := rfl
@[simp] theorem State.finish_dlvSrc (st : Status) : (s.finish st).dlvSrc = s.dlvSrc := rfl
@[simp] theorem State.finish_dlvDst (st : Status) : (s.finish st).dlvDst = s.dlvDst := rfl
@[simp] theorem State.finish_dlvAddr (st : Status) : (s.finish st).dlvAddr = s.dlvAddr := rfl
@[simp] theorem State.finish_dlvLen (st : Status) : (s.finish st).dlvLen = s.dlvLen := rfl
@[simp] theorem State.finish_waitCnt (st : Status) : (s.finish st).waitCnt = s.waitCnt := rfl
@[simp] theorem State.finish_rxCurId (st : Status) : (s.finish st).rxCurId = s.rxCurId := rfl
@[simp] theorem State.finish_rxCurDlen (st : Status) : (s.finish st).rxCurDlen = s.rxCurDlen := rfl
@[simp] theorem State.finish_rxCurFlen (st : Status) : (s.finish st).rxCurFlen = s.rxCurFlen := rfl
@[simp] theorem State.finish_rxProcessed (st : Status) : (s.finish st).rxProcessed = s.rxProcessed := rfl
@[simp] theorem State.finish_rxDelivered (st : Status) : (s.finish st).rxDelivered = s.rxDelivered := rfl
@[simp] theorem State.finish_shm (st : Status) : (s.finish st).shm = s.shm := rfl
@[simp] theorem State.finish_priv (st : Status) : (s.finish st).priv = s.priv := rfl
@[simp] theorem State.finish_pwDevice (st : Status) : (s.finish st).pwDevice = s.pwDevice := rfl
@[simp] theorem State.finish_pwHost (st : Status) : (s.finish st).pwHost = s.pwHost := rfl
@[simp] theorem State.finish_hostTx (st : Status) : (s.finish st).hostTx = s.hostTx := rfl
@[simp] theorem State.finish_hostRx (st : Status) : (s.finish st).hostRx = s.hostRx := rfl
@[simp] theorem State.finish_hostRun (st : Status) : (s.finish st).hostRun = s.hostRun := rfl
@[simp] theorem State.finish_cmd (st : Status) : (s.finish st).cmd = s.cmd := rfl
@[simp] theorem State.finish_acts (st : Status) : (s.finish st).acts = s.acts := rfl
@[simp] theorem State.finish_cycle (st : Status) : (s.finish st).cycle = s.cycle := rfl
@[simp] theorem State.finish_initSeen (st : Status) : (s.finish st).initSeen = s.initSeen := rfl
@[simp] theorem State.finish_txLeaked (st : Status) : (s.finish st).txLeaked = s.txLeaked := rfl
@[simp] theorem State.finish_clientReads (st : Status) : (s.finish st).clientReads = s.clientReads := rfl
@[simp] theorem State.finish_hostReads (st : Status) : (s.finish st).hostReads = s.hostReads := rfl
@[simp] theorem State.finish_freeCount (st : Status) : (s.finish st).freeCount = s.freeCount := rfl

/-! ### State.raise -/

@[simp] theorem State.raise_cfg (c : FaultCause) (i : Word) : (s.raise c i).cfg = s.cfg := rfl
@[simp] theorem State.raise_ch (c : FaultCause) (i : Word) : (s.raise c i).ch = s.ch := rfl
@[simp] theorem State.raise_seq (c : FaultCause) (i : Word) : (s.raise c i).seq = .idle := rfl
@[simp] theorem State.raise_status (c : FaultCause) (i : Word) : (s.raise c i).status = .faulted := rfl
@[simp] theorem State.raise_fault (c : FaultCause) (i : Word) : (s.raise c i).fault = if s.fault = .none then c else s.fault := rfl
@[simp] theorem State.raise_faultInfo (c : FaultCause) (i : Word) : (s.raise c i).faultInfo = if s.fault = .none then i else s.faultInfo := rfl
@[simp] theorem State.raise_txLast (c : FaultCause) (i : Word) : (s.raise c i).txLast = s.txLast := rfl
@[simp] theorem State.raise_txUsed (c : FaultCause) (i : Word) : (s.raise c i).txUsed = s.txUsed := rfl
@[simp] theorem State.raise_rxLast (c : FaultCause) (i : Word) : (s.raise c i).rxLast = s.rxLast := rfl
@[simp] theorem State.raise_rxUsed (c : FaultCause) (i : Word) : (s.raise c i).rxUsed = s.rxUsed := rfl
@[simp] theorem State.raise_txHeld (c : FaultCause) (i : Word) : (s.raise c i).txHeld = s.txHeld := rfl
@[simp] theorem State.raise_heldAddr (c : FaultCause) (i : Word) : (s.raise c i).heldAddr = s.heldAddr := rfl
@[simp] theorem State.raise_heldCap (c : FaultCause) (i : Word) : (s.raise c i).heldCap = s.heldCap := rfl
@[simp] theorem State.raise_args (c : FaultCause) (i : Word) : (s.raise c i).args = s.args := rfl
@[simp] theorem State.raise_argWritten (c : FaultCause) (i : Word) : (s.raise c i).argWritten = s.argWritten := rfl
@[simp] theorem State.raise_res (c : FaultCause) (i : Word) : (s.raise c i).res = s.res := rfl
@[simp] theorem State.raise_dlvSrc (c : FaultCause) (i : Word) : (s.raise c i).dlvSrc = s.dlvSrc := rfl
@[simp] theorem State.raise_dlvDst (c : FaultCause) (i : Word) : (s.raise c i).dlvDst = s.dlvDst := rfl
@[simp] theorem State.raise_dlvAddr (c : FaultCause) (i : Word) : (s.raise c i).dlvAddr = s.dlvAddr := rfl
@[simp] theorem State.raise_dlvLen (c : FaultCause) (i : Word) : (s.raise c i).dlvLen = s.dlvLen := rfl
@[simp] theorem State.raise_waitCnt (c : FaultCause) (i : Word) : (s.raise c i).waitCnt = s.waitCnt := rfl
@[simp] theorem State.raise_rxCurId (c : FaultCause) (i : Word) : (s.raise c i).rxCurId = s.rxCurId := rfl
@[simp] theorem State.raise_rxCurDlen (c : FaultCause) (i : Word) : (s.raise c i).rxCurDlen = s.rxCurDlen := rfl
@[simp] theorem State.raise_rxCurFlen (c : FaultCause) (i : Word) : (s.raise c i).rxCurFlen = s.rxCurFlen := rfl
@[simp] theorem State.raise_rxProcessed (c : FaultCause) (i : Word) : (s.raise c i).rxProcessed = s.rxProcessed := rfl
@[simp] theorem State.raise_rxDelivered (c : FaultCause) (i : Word) : (s.raise c i).rxDelivered = s.rxDelivered := rfl
@[simp] theorem State.raise_shm (c : FaultCause) (i : Word) : (s.raise c i).shm = s.shm := rfl
@[simp] theorem State.raise_priv (c : FaultCause) (i : Word) : (s.raise c i).priv = s.priv := rfl
@[simp] theorem State.raise_pwDevice (c : FaultCause) (i : Word) : (s.raise c i).pwDevice = s.pwDevice := rfl
@[simp] theorem State.raise_pwHost (c : FaultCause) (i : Word) : (s.raise c i).pwHost = s.pwHost := rfl
@[simp] theorem State.raise_hostTx (c : FaultCause) (i : Word) : (s.raise c i).hostTx = s.hostTx := rfl
@[simp] theorem State.raise_hostRx (c : FaultCause) (i : Word) : (s.raise c i).hostRx = s.hostRx := rfl
@[simp] theorem State.raise_hostRun (c : FaultCause) (i : Word) : (s.raise c i).hostRun = s.hostRun := rfl
@[simp] theorem State.raise_cmd (c : FaultCause) (i : Word) : (s.raise c i).cmd = s.cmd := rfl
@[simp] theorem State.raise_acts (c : FaultCause) (i : Word) : (s.raise c i).acts = s.acts := rfl
@[simp] theorem State.raise_cycle (c : FaultCause) (i : Word) : (s.raise c i).cycle = s.cycle := rfl
@[simp] theorem State.raise_initSeen (c : FaultCause) (i : Word) : (s.raise c i).initSeen = s.initSeen := rfl
@[simp] theorem State.raise_txLeaked (c : FaultCause) (i : Word) : (s.raise c i).txLeaked = s.txLeaked := rfl
@[simp] theorem State.raise_clientReads (c : FaultCause) (i : Word) : (s.raise c i).clientReads = s.clientReads := rfl
@[simp] theorem State.raise_hostReads (c : FaultCause) (i : Word) : (s.raise c i).hostReads = s.hostReads := rfl
@[simp] theorem State.raise_freeCount (c : FaultCause) (i : Word) : (s.raise c i).freeCount = s.freeCount := rfl

/-! ### State.setRes -/

@[simp] theorem State.setRes_cfg (n : Fin 4) (v : Word) : (s.setRes n v).cfg = s.cfg := rfl
@[simp] theorem State.setRes_ch (n : Fin 4) (v : Word) : (s.setRes n v).ch = s.ch := rfl
@[simp] theorem State.setRes_seq (n : Fin 4) (v : Word) : (s.setRes n v).seq = s.seq := rfl
@[simp] theorem State.setRes_status (n : Fin 4) (v : Word) : (s.setRes n v).status = s.status := rfl
@[simp] theorem State.setRes_fault (n : Fin 4) (v : Word) : (s.setRes n v).fault = s.fault := rfl
@[simp] theorem State.setRes_faultInfo (n : Fin 4) (v : Word) : (s.setRes n v).faultInfo = s.faultInfo := rfl
@[simp] theorem State.setRes_txLast (n : Fin 4) (v : Word) : (s.setRes n v).txLast = s.txLast := rfl
@[simp] theorem State.setRes_txUsed (n : Fin 4) (v : Word) : (s.setRes n v).txUsed = s.txUsed := rfl
@[simp] theorem State.setRes_rxLast (n : Fin 4) (v : Word) : (s.setRes n v).rxLast = s.rxLast := rfl
@[simp] theorem State.setRes_rxUsed (n : Fin 4) (v : Word) : (s.setRes n v).rxUsed = s.rxUsed := rfl
@[simp] theorem State.setRes_txHeld (n : Fin 4) (v : Word) : (s.setRes n v).txHeld = s.txHeld := rfl
@[simp] theorem State.setRes_heldAddr (n : Fin 4) (v : Word) : (s.setRes n v).heldAddr = s.heldAddr := rfl
@[simp] theorem State.setRes_heldCap (n : Fin 4) (v : Word) : (s.setRes n v).heldCap = s.heldCap := rfl
@[simp] theorem State.setRes_args (n : Fin 4) (v : Word) : (s.setRes n v).args = s.args := rfl
@[simp] theorem State.setRes_argWritten (n : Fin 4) (v : Word) : (s.setRes n v).argWritten = s.argWritten := rfl
@[simp] theorem State.setRes_res (n : Fin 4) (v : Word) : (s.setRes n v).res = s.res.set n.val v := rfl
@[simp] theorem State.setRes_dlvSrc (n : Fin 4) (v : Word) : (s.setRes n v).dlvSrc = s.dlvSrc := rfl
@[simp] theorem State.setRes_dlvDst (n : Fin 4) (v : Word) : (s.setRes n v).dlvDst = s.dlvDst := rfl
@[simp] theorem State.setRes_dlvAddr (n : Fin 4) (v : Word) : (s.setRes n v).dlvAddr = s.dlvAddr := rfl
@[simp] theorem State.setRes_dlvLen (n : Fin 4) (v : Word) : (s.setRes n v).dlvLen = s.dlvLen := rfl
@[simp] theorem State.setRes_waitCnt (n : Fin 4) (v : Word) : (s.setRes n v).waitCnt = s.waitCnt := rfl
@[simp] theorem State.setRes_rxCurId (n : Fin 4) (v : Word) : (s.setRes n v).rxCurId = s.rxCurId := rfl
@[simp] theorem State.setRes_rxCurDlen (n : Fin 4) (v : Word) : (s.setRes n v).rxCurDlen = s.rxCurDlen := rfl
@[simp] theorem State.setRes_rxCurFlen (n : Fin 4) (v : Word) : (s.setRes n v).rxCurFlen = s.rxCurFlen := rfl
@[simp] theorem State.setRes_rxProcessed (n : Fin 4) (v : Word) : (s.setRes n v).rxProcessed = s.rxProcessed := rfl
@[simp] theorem State.setRes_rxDelivered (n : Fin 4) (v : Word) : (s.setRes n v).rxDelivered = s.rxDelivered := rfl
@[simp] theorem State.setRes_shm (n : Fin 4) (v : Word) : (s.setRes n v).shm = s.shm := rfl
@[simp] theorem State.setRes_priv (n : Fin 4) (v : Word) : (s.setRes n v).priv = s.priv := rfl
@[simp] theorem State.setRes_pwDevice (n : Fin 4) (v : Word) : (s.setRes n v).pwDevice = s.pwDevice := rfl
@[simp] theorem State.setRes_pwHost (n : Fin 4) (v : Word) : (s.setRes n v).pwHost = s.pwHost := rfl
@[simp] theorem State.setRes_hostTx (n : Fin 4) (v : Word) : (s.setRes n v).hostTx = s.hostTx := rfl
@[simp] theorem State.setRes_hostRx (n : Fin 4) (v : Word) : (s.setRes n v).hostRx = s.hostRx := rfl
@[simp] theorem State.setRes_hostRun (n : Fin 4) (v : Word) : (s.setRes n v).hostRun = s.hostRun := rfl
@[simp] theorem State.setRes_cmd (n : Fin 4) (v : Word) : (s.setRes n v).cmd = s.cmd := rfl
@[simp] theorem State.setRes_acts (n : Fin 4) (v : Word) : (s.setRes n v).acts = s.acts := rfl
@[simp] theorem State.setRes_cycle (n : Fin 4) (v : Word) : (s.setRes n v).cycle = s.cycle := rfl
@[simp] theorem State.setRes_initSeen (n : Fin 4) (v : Word) : (s.setRes n v).initSeen = s.initSeen := rfl
@[simp] theorem State.setRes_txLeaked (n : Fin 4) (v : Word) : (s.setRes n v).txLeaked = s.txLeaked := rfl
@[simp] theorem State.setRes_clientReads (n : Fin 4) (v : Word) : (s.setRes n v).clientReads = s.clientReads := rfl
@[simp] theorem State.setRes_hostReads (n : Fin 4) (v : Word) : (s.setRes n v).hostReads = s.hostReads := rfl
@[simp] theorem State.setRes_freeCount (n : Fin 4) (v : Word) : (s.setRes n v).freeCount = s.freeCount := rfl

/-! ### State.hold -/

@[simp] theorem State.hold_cfg (id : Fin 8) (a c : Word) : (s.hold id a c).cfg = s.cfg := rfl
@[simp] theorem State.hold_ch (id : Fin 8) (a c : Word) : (s.hold id a c).ch = s.ch := rfl
@[simp] theorem State.hold_seq (id : Fin 8) (a c : Word) : (s.hold id a c).seq = s.seq := rfl
@[simp] theorem State.hold_status (id : Fin 8) (a c : Word) : (s.hold id a c).status = s.status := rfl
@[simp] theorem State.hold_fault (id : Fin 8) (a c : Word) : (s.hold id a c).fault = s.fault := rfl
@[simp] theorem State.hold_faultInfo (id : Fin 8) (a c : Word) : (s.hold id a c).faultInfo = s.faultInfo := rfl
@[simp] theorem State.hold_txLast (id : Fin 8) (a c : Word) : (s.hold id a c).txLast = s.txLast := rfl
@[simp] theorem State.hold_txUsed (id : Fin 8) (a c : Word) : (s.hold id a c).txUsed = s.txUsed := rfl
@[simp] theorem State.hold_rxLast (id : Fin 8) (a c : Word) : (s.hold id a c).rxLast = s.rxLast := rfl
@[simp] theorem State.hold_rxUsed (id : Fin 8) (a c : Word) : (s.hold id a c).rxUsed = s.rxUsed := rfl
@[simp] theorem State.hold_txHeld (id : Fin 8) (a c : Word) : (s.hold id a c).txHeld = setBit s.txHeld id := rfl
@[simp] theorem State.hold_heldAddr (id : Fin 8) (a c : Word) : (s.hold id a c).heldAddr = s.heldAddr.set id.val a := rfl
@[simp] theorem State.hold_heldCap (id : Fin 8) (a c : Word) : (s.hold id a c).heldCap = s.heldCap.set id.val c := rfl
@[simp] theorem State.hold_args (id : Fin 8) (a c : Word) : (s.hold id a c).args = s.args := rfl
@[simp] theorem State.hold_argWritten (id : Fin 8) (a c : Word) : (s.hold id a c).argWritten = s.argWritten := rfl
@[simp] theorem State.hold_res (id : Fin 8) (a c : Word) : (s.hold id a c).res = s.res := rfl
@[simp] theorem State.hold_dlvSrc (id : Fin 8) (a c : Word) : (s.hold id a c).dlvSrc = s.dlvSrc := rfl
@[simp] theorem State.hold_dlvDst (id : Fin 8) (a c : Word) : (s.hold id a c).dlvDst = s.dlvDst := rfl
@[simp] theorem State.hold_dlvAddr (id : Fin 8) (a c : Word) : (s.hold id a c).dlvAddr = s.dlvAddr := rfl
@[simp] theorem State.hold_dlvLen (id : Fin 8) (a c : Word) : (s.hold id a c).dlvLen = s.dlvLen := rfl
@[simp] theorem State.hold_waitCnt (id : Fin 8) (a c : Word) : (s.hold id a c).waitCnt = s.waitCnt := rfl
@[simp] theorem State.hold_rxCurId (id : Fin 8) (a c : Word) : (s.hold id a c).rxCurId = s.rxCurId := rfl
@[simp] theorem State.hold_rxCurDlen (id : Fin 8) (a c : Word) : (s.hold id a c).rxCurDlen = s.rxCurDlen := rfl
@[simp] theorem State.hold_rxCurFlen (id : Fin 8) (a c : Word) : (s.hold id a c).rxCurFlen = s.rxCurFlen := rfl
@[simp] theorem State.hold_rxProcessed (id : Fin 8) (a c : Word) : (s.hold id a c).rxProcessed = s.rxProcessed := rfl
@[simp] theorem State.hold_rxDelivered (id : Fin 8) (a c : Word) : (s.hold id a c).rxDelivered = s.rxDelivered := rfl
@[simp] theorem State.hold_shm (id : Fin 8) (a c : Word) : (s.hold id a c).shm = s.shm := rfl
@[simp] theorem State.hold_priv (id : Fin 8) (a c : Word) : (s.hold id a c).priv = s.priv := rfl
@[simp] theorem State.hold_pwDevice (id : Fin 8) (a c : Word) : (s.hold id a c).pwDevice = s.pwDevice := rfl
@[simp] theorem State.hold_pwHost (id : Fin 8) (a c : Word) : (s.hold id a c).pwHost = s.pwHost := rfl
@[simp] theorem State.hold_hostTx (id : Fin 8) (a c : Word) : (s.hold id a c).hostTx = s.hostTx := rfl
@[simp] theorem State.hold_hostRx (id : Fin 8) (a c : Word) : (s.hold id a c).hostRx = s.hostRx := rfl
@[simp] theorem State.hold_hostRun (id : Fin 8) (a c : Word) : (s.hold id a c).hostRun = s.hostRun := rfl
@[simp] theorem State.hold_cmd (id : Fin 8) (a c : Word) : (s.hold id a c).cmd = s.cmd := rfl
@[simp] theorem State.hold_acts (id : Fin 8) (a c : Word) : (s.hold id a c).acts = s.acts := rfl
@[simp] theorem State.hold_cycle (id : Fin 8) (a c : Word) : (s.hold id a c).cycle = s.cycle := rfl
@[simp] theorem State.hold_initSeen (id : Fin 8) (a c : Word) : (s.hold id a c).initSeen = s.initSeen := rfl
@[simp] theorem State.hold_txLeaked (id : Fin 8) (a c : Word) : (s.hold id a c).txLeaked = s.txLeaked := rfl
@[simp] theorem State.hold_clientReads (id : Fin 8) (a c : Word) : (s.hold id a c).clientReads = s.clientReads := rfl
@[simp] theorem State.hold_hostReads (id : Fin 8) (a c : Word) : (s.hold id a c).hostReads = s.hostReads := rfl
@[simp] theorem State.hold_freeCount (id : Fin 8) (a c : Word) : (s.hold id a c).freeCount = s.freeCount := rfl

/-! ### State.unhold -/

@[simp] theorem State.unhold_cfg (id : Fin 8) : (s.unhold id).cfg = s.cfg := rfl
@[simp] theorem State.unhold_ch (id : Fin 8) : (s.unhold id).ch = s.ch := rfl
@[simp] theorem State.unhold_seq (id : Fin 8) : (s.unhold id).seq = s.seq := rfl
@[simp] theorem State.unhold_status (id : Fin 8) : (s.unhold id).status = s.status := rfl
@[simp] theorem State.unhold_fault (id : Fin 8) : (s.unhold id).fault = s.fault := rfl
@[simp] theorem State.unhold_faultInfo (id : Fin 8) : (s.unhold id).faultInfo = s.faultInfo := rfl
@[simp] theorem State.unhold_txLast (id : Fin 8) : (s.unhold id).txLast = s.txLast := rfl
@[simp] theorem State.unhold_txUsed (id : Fin 8) : (s.unhold id).txUsed = s.txUsed := rfl
@[simp] theorem State.unhold_rxLast (id : Fin 8) : (s.unhold id).rxLast = s.rxLast := rfl
@[simp] theorem State.unhold_rxUsed (id : Fin 8) : (s.unhold id).rxUsed = s.rxUsed := rfl
@[simp] theorem State.unhold_txHeld (id : Fin 8) : (s.unhold id).txHeld = clearBit s.txHeld id := rfl
@[simp] theorem State.unhold_heldAddr (id : Fin 8) : (s.unhold id).heldAddr = s.heldAddr := rfl
@[simp] theorem State.unhold_heldCap (id : Fin 8) : (s.unhold id).heldCap = s.heldCap := rfl
@[simp] theorem State.unhold_args (id : Fin 8) : (s.unhold id).args = s.args := rfl
@[simp] theorem State.unhold_argWritten (id : Fin 8) : (s.unhold id).argWritten = s.argWritten := rfl
@[simp] theorem State.unhold_res (id : Fin 8) : (s.unhold id).res = s.res := rfl
@[simp] theorem State.unhold_dlvSrc (id : Fin 8) : (s.unhold id).dlvSrc = s.dlvSrc := rfl
@[simp] theorem State.unhold_dlvDst (id : Fin 8) : (s.unhold id).dlvDst = s.dlvDst := rfl
@[simp] theorem State.unhold_dlvAddr (id : Fin 8) : (s.unhold id).dlvAddr = s.dlvAddr := rfl
@[simp] theorem State.unhold_dlvLen (id : Fin 8) : (s.unhold id).dlvLen = s.dlvLen := rfl
@[simp] theorem State.unhold_waitCnt (id : Fin 8) : (s.unhold id).waitCnt = s.waitCnt := rfl
@[simp] theorem State.unhold_rxCurId (id : Fin 8) : (s.unhold id).rxCurId = s.rxCurId := rfl
@[simp] theorem State.unhold_rxCurDlen (id : Fin 8) : (s.unhold id).rxCurDlen = s.rxCurDlen := rfl
@[simp] theorem State.unhold_rxCurFlen (id : Fin 8) : (s.unhold id).rxCurFlen = s.rxCurFlen := rfl
@[simp] theorem State.unhold_rxProcessed (id : Fin 8) : (s.unhold id).rxProcessed = s.rxProcessed := rfl
@[simp] theorem State.unhold_rxDelivered (id : Fin 8) : (s.unhold id).rxDelivered = s.rxDelivered := rfl
@[simp] theorem State.unhold_shm (id : Fin 8) : (s.unhold id).shm = s.shm := rfl
@[simp] theorem State.unhold_priv (id : Fin 8) : (s.unhold id).priv = s.priv := rfl
@[simp] theorem State.unhold_pwDevice (id : Fin 8) : (s.unhold id).pwDevice = s.pwDevice := rfl
@[simp] theorem State.unhold_pwHost (id : Fin 8) : (s.unhold id).pwHost = s.pwHost := rfl
@[simp] theorem State.unhold_hostTx (id : Fin 8) : (s.unhold id).hostTx = s.hostTx := rfl
@[simp] theorem State.unhold_hostRx (id : Fin 8) : (s.unhold id).hostRx = s.hostRx := rfl
@[simp] theorem State.unhold_hostRun (id : Fin 8) : (s.unhold id).hostRun = s.hostRun := rfl
@[simp] theorem State.unhold_cmd (id : Fin 8) : (s.unhold id).cmd = s.cmd := rfl
@[simp] theorem State.unhold_acts (id : Fin 8) : (s.unhold id).acts = s.acts := rfl
@[simp] theorem State.unhold_cycle (id : Fin 8) : (s.unhold id).cycle = s.cycle := rfl
@[simp] theorem State.unhold_initSeen (id : Fin 8) : (s.unhold id).initSeen = s.initSeen := rfl
@[simp] theorem State.unhold_txLeaked (id : Fin 8) : (s.unhold id).txLeaked = s.txLeaked := rfl
@[simp] theorem State.unhold_clientReads (id : Fin 8) : (s.unhold id).clientReads = s.clientReads := rfl
@[simp] theorem State.unhold_hostReads (id : Fin 8) : (s.unhold id).hostReads = s.hostReads := rfl
@[simp] theorem State.unhold_freeCount (id : Fin 8) : (s.unhold id).freeCount = s.freeCount := rfl

/-! ### State.leak -/

@[simp] theorem State.leak_cfg (id : Fin 8) : (s.leak id).cfg = s.cfg := rfl
@[simp] theorem State.leak_ch (id : Fin 8) : (s.leak id).ch = s.ch := rfl
@[simp] theorem State.leak_seq (id : Fin 8) : (s.leak id).seq = s.seq := rfl
@[simp] theorem State.leak_status (id : Fin 8) : (s.leak id).status = s.status := rfl
@[simp] theorem State.leak_fault (id : Fin 8) : (s.leak id).fault = s.fault := rfl
@[simp] theorem State.leak_faultInfo (id : Fin 8) : (s.leak id).faultInfo = s.faultInfo := rfl
@[simp] theorem State.leak_txLast (id : Fin 8) : (s.leak id).txLast = s.txLast := rfl
@[simp] theorem State.leak_txUsed (id : Fin 8) : (s.leak id).txUsed = s.txUsed := rfl
@[simp] theorem State.leak_rxLast (id : Fin 8) : (s.leak id).rxLast = s.rxLast := rfl
@[simp] theorem State.leak_rxUsed (id : Fin 8) : (s.leak id).rxUsed = s.rxUsed := rfl
@[simp] theorem State.leak_txHeld (id : Fin 8) : (s.leak id).txHeld = s.txHeld := rfl
@[simp] theorem State.leak_heldAddr (id : Fin 8) : (s.leak id).heldAddr = s.heldAddr := rfl
@[simp] theorem State.leak_heldCap (id : Fin 8) : (s.leak id).heldCap = s.heldCap := rfl
@[simp] theorem State.leak_args (id : Fin 8) : (s.leak id).args = s.args := rfl
@[simp] theorem State.leak_argWritten (id : Fin 8) : (s.leak id).argWritten = s.argWritten := rfl
@[simp] theorem State.leak_res (id : Fin 8) : (s.leak id).res = s.res := rfl
@[simp] theorem State.leak_dlvSrc (id : Fin 8) : (s.leak id).dlvSrc = s.dlvSrc := rfl
@[simp] theorem State.leak_dlvDst (id : Fin 8) : (s.leak id).dlvDst = s.dlvDst := rfl
@[simp] theorem State.leak_dlvAddr (id : Fin 8) : (s.leak id).dlvAddr = s.dlvAddr := rfl
@[simp] theorem State.leak_dlvLen (id : Fin 8) : (s.leak id).dlvLen = s.dlvLen := rfl
@[simp] theorem State.leak_waitCnt (id : Fin 8) : (s.leak id).waitCnt = s.waitCnt := rfl
@[simp] theorem State.leak_rxCurId (id : Fin 8) : (s.leak id).rxCurId = s.rxCurId := rfl
@[simp] theorem State.leak_rxCurDlen (id : Fin 8) : (s.leak id).rxCurDlen = s.rxCurDlen := rfl
@[simp] theorem State.leak_rxCurFlen (id : Fin 8) : (s.leak id).rxCurFlen = s.rxCurFlen := rfl
@[simp] theorem State.leak_rxProcessed (id : Fin 8) : (s.leak id).rxProcessed = s.rxProcessed := rfl
@[simp] theorem State.leak_rxDelivered (id : Fin 8) : (s.leak id).rxDelivered = s.rxDelivered := rfl
@[simp] theorem State.leak_shm (id : Fin 8) : (s.leak id).shm = s.shm := rfl
@[simp] theorem State.leak_priv (id : Fin 8) : (s.leak id).priv = s.priv := rfl
@[simp] theorem State.leak_pwDevice (id : Fin 8) : (s.leak id).pwDevice = s.pwDevice := rfl
@[simp] theorem State.leak_pwHost (id : Fin 8) : (s.leak id).pwHost = s.pwHost := rfl
@[simp] theorem State.leak_hostTx (id : Fin 8) : (s.leak id).hostTx = s.hostTx := rfl
@[simp] theorem State.leak_hostRx (id : Fin 8) : (s.leak id).hostRx = s.hostRx := rfl
@[simp] theorem State.leak_hostRun (id : Fin 8) : (s.leak id).hostRun = s.hostRun := rfl
@[simp] theorem State.leak_cmd (id : Fin 8) : (s.leak id).cmd = s.cmd := rfl
@[simp] theorem State.leak_acts (id : Fin 8) : (s.leak id).acts = s.acts := rfl
@[simp] theorem State.leak_cycle (id : Fin 8) : (s.leak id).cycle = s.cycle := rfl
@[simp] theorem State.leak_initSeen (id : Fin 8) : (s.leak id).initSeen = s.initSeen := rfl
@[simp] theorem State.leak_txLeaked (id : Fin 8) : (s.leak id).txLeaked = setBit s.txLeaked id := rfl
@[simp] theorem State.leak_clientReads (id : Fin 8) : (s.leak id).clientReads = s.clientReads := rfl
@[simp] theorem State.leak_hostReads (id : Fin 8) : (s.leak id).hostReads = s.hostReads := rfl
@[simp] theorem State.leak_freeCount (id : Fin 8) : (s.leak id).freeCount = s.freeCount := rfl

/-! ### State.writeArg -/

@[simp] theorem State.writeArg_cfg (n : Fin 4) (v : Word) : (s.writeArg n v).cfg = s.cfg := rfl
@[simp] theorem State.writeArg_ch (n : Fin 4) (v : Word) : (s.writeArg n v).ch = s.ch := rfl
@[simp] theorem State.writeArg_seq (n : Fin 4) (v : Word) : (s.writeArg n v).seq = s.seq := rfl
@[simp] theorem State.writeArg_status (n : Fin 4) (v : Word) : (s.writeArg n v).status = s.status := rfl
@[simp] theorem State.writeArg_fault (n : Fin 4) (v : Word) : (s.writeArg n v).fault = s.fault := rfl
@[simp] theorem State.writeArg_faultInfo (n : Fin 4) (v : Word) : (s.writeArg n v).faultInfo = s.faultInfo := rfl
@[simp] theorem State.writeArg_txLast (n : Fin 4) (v : Word) : (s.writeArg n v).txLast = s.txLast := rfl
@[simp] theorem State.writeArg_txUsed (n : Fin 4) (v : Word) : (s.writeArg n v).txUsed = s.txUsed := rfl
@[simp] theorem State.writeArg_rxLast (n : Fin 4) (v : Word) : (s.writeArg n v).rxLast = s.rxLast := rfl
@[simp] theorem State.writeArg_rxUsed (n : Fin 4) (v : Word) : (s.writeArg n v).rxUsed = s.rxUsed := rfl
@[simp] theorem State.writeArg_txHeld (n : Fin 4) (v : Word) : (s.writeArg n v).txHeld = s.txHeld := rfl
@[simp] theorem State.writeArg_heldAddr (n : Fin 4) (v : Word) : (s.writeArg n v).heldAddr = s.heldAddr := rfl
@[simp] theorem State.writeArg_heldCap (n : Fin 4) (v : Word) : (s.writeArg n v).heldCap = s.heldCap := rfl
@[simp] theorem State.writeArg_args (n : Fin 4) (v : Word) : (s.writeArg n v).args = s.args.set n.val v := rfl
@[simp] theorem State.writeArg_argWritten (n : Fin 4) (v : Word) : (s.writeArg n v).argWritten = s.argWritten.set n.val true := rfl
@[simp] theorem State.writeArg_res (n : Fin 4) (v : Word) : (s.writeArg n v).res = s.res := rfl
@[simp] theorem State.writeArg_dlvSrc (n : Fin 4) (v : Word) : (s.writeArg n v).dlvSrc = s.dlvSrc := rfl
@[simp] theorem State.writeArg_dlvDst (n : Fin 4) (v : Word) : (s.writeArg n v).dlvDst = s.dlvDst := rfl
@[simp] theorem State.writeArg_dlvAddr (n : Fin 4) (v : Word) : (s.writeArg n v).dlvAddr = s.dlvAddr := rfl
@[simp] theorem State.writeArg_dlvLen (n : Fin 4) (v : Word) : (s.writeArg n v).dlvLen = s.dlvLen := rfl
@[simp] theorem State.writeArg_waitCnt (n : Fin 4) (v : Word) : (s.writeArg n v).waitCnt = s.waitCnt := rfl
@[simp] theorem State.writeArg_rxCurId (n : Fin 4) (v : Word) : (s.writeArg n v).rxCurId = s.rxCurId := rfl
@[simp] theorem State.writeArg_rxCurDlen (n : Fin 4) (v : Word) : (s.writeArg n v).rxCurDlen = s.rxCurDlen := rfl
@[simp] theorem State.writeArg_rxCurFlen (n : Fin 4) (v : Word) : (s.writeArg n v).rxCurFlen = s.rxCurFlen := rfl
@[simp] theorem State.writeArg_rxProcessed (n : Fin 4) (v : Word) : (s.writeArg n v).rxProcessed = s.rxProcessed := rfl
@[simp] theorem State.writeArg_rxDelivered (n : Fin 4) (v : Word) : (s.writeArg n v).rxDelivered = s.rxDelivered := rfl
@[simp] theorem State.writeArg_shm (n : Fin 4) (v : Word) : (s.writeArg n v).shm = s.shm := rfl
@[simp] theorem State.writeArg_priv (n : Fin 4) (v : Word) : (s.writeArg n v).priv = s.priv := rfl
@[simp] theorem State.writeArg_pwDevice (n : Fin 4) (v : Word) : (s.writeArg n v).pwDevice = s.pwDevice := rfl
@[simp] theorem State.writeArg_pwHost (n : Fin 4) (v : Word) : (s.writeArg n v).pwHost = s.pwHost := rfl
@[simp] theorem State.writeArg_hostTx (n : Fin 4) (v : Word) : (s.writeArg n v).hostTx = s.hostTx := rfl
@[simp] theorem State.writeArg_hostRx (n : Fin 4) (v : Word) : (s.writeArg n v).hostRx = s.hostRx := rfl
@[simp] theorem State.writeArg_hostRun (n : Fin 4) (v : Word) : (s.writeArg n v).hostRun = s.hostRun := rfl
@[simp] theorem State.writeArg_cmd (n : Fin 4) (v : Word) : (s.writeArg n v).cmd = s.cmd := rfl
@[simp] theorem State.writeArg_acts (n : Fin 4) (v : Word) : (s.writeArg n v).acts = s.acts := rfl
@[simp] theorem State.writeArg_cycle (n : Fin 4) (v : Word) : (s.writeArg n v).cycle = s.cycle := rfl
@[simp] theorem State.writeArg_initSeen (n : Fin 4) (v : Word) : (s.writeArg n v).initSeen = s.initSeen := rfl
@[simp] theorem State.writeArg_txLeaked (n : Fin 4) (v : Word) : (s.writeArg n v).txLeaked = s.txLeaked := rfl
@[simp] theorem State.writeArg_clientReads (n : Fin 4) (v : Word) : (s.writeArg n v).clientReads = s.clientReads := rfl
@[simp] theorem State.writeArg_hostReads (n : Fin 4) (v : Word) : (s.writeArg n v).hostReads = s.hostReads := rfl
@[simp] theorem State.writeArg_freeCount (n : Fin 4) (v : Word) : (s.writeArg n v).freeCount = s.freeCount := rfl

/-! ### State.noteClientRead -/

@[simp] theorem State.noteClientRead_cfg (v : Nat) : (s.noteClientRead v).cfg = s.cfg := rfl
@[simp] theorem State.noteClientRead_ch (v : Nat) : (s.noteClientRead v).ch = s.ch := rfl
@[simp] theorem State.noteClientRead_seq (v : Nat) : (s.noteClientRead v).seq = s.seq := rfl
@[simp] theorem State.noteClientRead_status (v : Nat) : (s.noteClientRead v).status = s.status := rfl
@[simp] theorem State.noteClientRead_fault (v : Nat) : (s.noteClientRead v).fault = s.fault := rfl
@[simp] theorem State.noteClientRead_faultInfo (v : Nat) : (s.noteClientRead v).faultInfo = s.faultInfo := rfl
@[simp] theorem State.noteClientRead_txLast (v : Nat) : (s.noteClientRead v).txLast = s.txLast := rfl
@[simp] theorem State.noteClientRead_txUsed (v : Nat) : (s.noteClientRead v).txUsed = s.txUsed := rfl
@[simp] theorem State.noteClientRead_rxLast (v : Nat) : (s.noteClientRead v).rxLast = s.rxLast := rfl
@[simp] theorem State.noteClientRead_rxUsed (v : Nat) : (s.noteClientRead v).rxUsed = s.rxUsed := rfl
@[simp] theorem State.noteClientRead_txHeld (v : Nat) : (s.noteClientRead v).txHeld = s.txHeld := rfl
@[simp] theorem State.noteClientRead_heldAddr (v : Nat) : (s.noteClientRead v).heldAddr = s.heldAddr := rfl
@[simp] theorem State.noteClientRead_heldCap (v : Nat) : (s.noteClientRead v).heldCap = s.heldCap := rfl
@[simp] theorem State.noteClientRead_args (v : Nat) : (s.noteClientRead v).args = s.args := rfl
@[simp] theorem State.noteClientRead_argWritten (v : Nat) : (s.noteClientRead v).argWritten = s.argWritten := rfl
@[simp] theorem State.noteClientRead_res (v : Nat) : (s.noteClientRead v).res = s.res := rfl
@[simp] theorem State.noteClientRead_dlvSrc (v : Nat) : (s.noteClientRead v).dlvSrc = s.dlvSrc := rfl
@[simp] theorem State.noteClientRead_dlvDst (v : Nat) : (s.noteClientRead v).dlvDst = s.dlvDst := rfl
@[simp] theorem State.noteClientRead_dlvAddr (v : Nat) : (s.noteClientRead v).dlvAddr = s.dlvAddr := rfl
@[simp] theorem State.noteClientRead_dlvLen (v : Nat) : (s.noteClientRead v).dlvLen = s.dlvLen := rfl
@[simp] theorem State.noteClientRead_waitCnt (v : Nat) : (s.noteClientRead v).waitCnt = s.waitCnt := rfl
@[simp] theorem State.noteClientRead_rxCurId (v : Nat) : (s.noteClientRead v).rxCurId = s.rxCurId := rfl
@[simp] theorem State.noteClientRead_rxCurDlen (v : Nat) : (s.noteClientRead v).rxCurDlen = s.rxCurDlen := rfl
@[simp] theorem State.noteClientRead_rxCurFlen (v : Nat) : (s.noteClientRead v).rxCurFlen = s.rxCurFlen := rfl
@[simp] theorem State.noteClientRead_rxProcessed (v : Nat) : (s.noteClientRead v).rxProcessed = s.rxProcessed := rfl
@[simp] theorem State.noteClientRead_rxDelivered (v : Nat) : (s.noteClientRead v).rxDelivered = s.rxDelivered := rfl
@[simp] theorem State.noteClientRead_shm (v : Nat) : (s.noteClientRead v).shm = s.shm := rfl
@[simp] theorem State.noteClientRead_priv (v : Nat) : (s.noteClientRead v).priv = s.priv := rfl
@[simp] theorem State.noteClientRead_pwDevice (v : Nat) : (s.noteClientRead v).pwDevice = s.pwDevice := rfl
@[simp] theorem State.noteClientRead_pwHost (v : Nat) : (s.noteClientRead v).pwHost = s.pwHost := rfl
@[simp] theorem State.noteClientRead_hostTx (v : Nat) : (s.noteClientRead v).hostTx = s.hostTx := rfl
@[simp] theorem State.noteClientRead_hostRx (v : Nat) : (s.noteClientRead v).hostRx = s.hostRx := rfl
@[simp] theorem State.noteClientRead_hostRun (v : Nat) : (s.noteClientRead v).hostRun = s.hostRun := rfl
@[simp] theorem State.noteClientRead_cmd (v : Nat) : (s.noteClientRead v).cmd = s.cmd := rfl
@[simp] theorem State.noteClientRead_acts (v : Nat) : (s.noteClientRead v).acts = s.acts := rfl
@[simp] theorem State.noteClientRead_cycle (v : Nat) : (s.noteClientRead v).cycle = s.cycle := rfl
@[simp] theorem State.noteClientRead_initSeen (v : Nat) : (s.noteClientRead v).initSeen = s.initSeen := rfl
@[simp] theorem State.noteClientRead_txLeaked (v : Nat) : (s.noteClientRead v).txLeaked = s.txLeaked := rfl
@[simp] theorem State.noteClientRead_clientReads (v : Nat) : (s.noteClientRead v).clientReads = v :: s.clientReads := rfl
@[simp] theorem State.noteClientRead_hostReads (v : Nat) : (s.noteClientRead v).hostReads = s.hostReads := rfl
@[simp] theorem State.noteClientRead_freeCount (v : Nat) : (s.noteClientRead v).freeCount = s.freeCount := rfl

/-! ### State.noteHostRead -/

@[simp] theorem State.noteHostRead_cfg (v : Nat) : (s.noteHostRead v).cfg = s.cfg := rfl
@[simp] theorem State.noteHostRead_ch (v : Nat) : (s.noteHostRead v).ch = s.ch := rfl
@[simp] theorem State.noteHostRead_seq (v : Nat) : (s.noteHostRead v).seq = s.seq := rfl
@[simp] theorem State.noteHostRead_status (v : Nat) : (s.noteHostRead v).status = s.status := rfl
@[simp] theorem State.noteHostRead_fault (v : Nat) : (s.noteHostRead v).fault = s.fault := rfl
@[simp] theorem State.noteHostRead_faultInfo (v : Nat) : (s.noteHostRead v).faultInfo = s.faultInfo := rfl
@[simp] theorem State.noteHostRead_txLast (v : Nat) : (s.noteHostRead v).txLast = s.txLast := rfl
@[simp] theorem State.noteHostRead_txUsed (v : Nat) : (s.noteHostRead v).txUsed = s.txUsed := rfl
@[simp] theorem State.noteHostRead_rxLast (v : Nat) : (s.noteHostRead v).rxLast = s.rxLast := rfl
@[simp] theorem State.noteHostRead_rxUsed (v : Nat) : (s.noteHostRead v).rxUsed = s.rxUsed := rfl
@[simp] theorem State.noteHostRead_txHeld (v : Nat) : (s.noteHostRead v).txHeld = s.txHeld := rfl
@[simp] theorem State.noteHostRead_heldAddr (v : Nat) : (s.noteHostRead v).heldAddr = s.heldAddr := rfl
@[simp] theorem State.noteHostRead_heldCap (v : Nat) : (s.noteHostRead v).heldCap = s.heldCap := rfl
@[simp] theorem State.noteHostRead_args (v : Nat) : (s.noteHostRead v).args = s.args := rfl
@[simp] theorem State.noteHostRead_argWritten (v : Nat) : (s.noteHostRead v).argWritten = s.argWritten := rfl
@[simp] theorem State.noteHostRead_res (v : Nat) : (s.noteHostRead v).res = s.res := rfl
@[simp] theorem State.noteHostRead_dlvSrc (v : Nat) : (s.noteHostRead v).dlvSrc = s.dlvSrc := rfl
@[simp] theorem State.noteHostRead_dlvDst (v : Nat) : (s.noteHostRead v).dlvDst = s.dlvDst := rfl
@[simp] theorem State.noteHostRead_dlvAddr (v : Nat) : (s.noteHostRead v).dlvAddr = s.dlvAddr := rfl
@[simp] theorem State.noteHostRead_dlvLen (v : Nat) : (s.noteHostRead v).dlvLen = s.dlvLen := rfl
@[simp] theorem State.noteHostRead_waitCnt (v : Nat) : (s.noteHostRead v).waitCnt = s.waitCnt := rfl
@[simp] theorem State.noteHostRead_rxCurId (v : Nat) : (s.noteHostRead v).rxCurId = s.rxCurId := rfl
@[simp] theorem State.noteHostRead_rxCurDlen (v : Nat) : (s.noteHostRead v).rxCurDlen = s.rxCurDlen := rfl
@[simp] theorem State.noteHostRead_rxCurFlen (v : Nat) : (s.noteHostRead v).rxCurFlen = s.rxCurFlen := rfl
@[simp] theorem State.noteHostRead_rxProcessed (v : Nat) : (s.noteHostRead v).rxProcessed = s.rxProcessed := rfl
@[simp] theorem State.noteHostRead_rxDelivered (v : Nat) : (s.noteHostRead v).rxDelivered = s.rxDelivered := rfl
@[simp] theorem State.noteHostRead_shm (v : Nat) : (s.noteHostRead v).shm = s.shm := rfl
@[simp] theorem State.noteHostRead_priv (v : Nat) : (s.noteHostRead v).priv = s.priv := rfl
@[simp] theorem State.noteHostRead_pwDevice (v : Nat) : (s.noteHostRead v).pwDevice = s.pwDevice := rfl
@[simp] theorem State.noteHostRead_pwHost (v : Nat) : (s.noteHostRead v).pwHost = s.pwHost := rfl
@[simp] theorem State.noteHostRead_hostTx (v : Nat) : (s.noteHostRead v).hostTx = s.hostTx := rfl
@[simp] theorem State.noteHostRead_hostRx (v : Nat) : (s.noteHostRead v).hostRx = s.hostRx := rfl
@[simp] theorem State.noteHostRead_hostRun (v : Nat) : (s.noteHostRead v).hostRun = s.hostRun := rfl
@[simp] theorem State.noteHostRead_cmd (v : Nat) : (s.noteHostRead v).cmd = s.cmd := rfl
@[simp] theorem State.noteHostRead_acts (v : Nat) : (s.noteHostRead v).acts = s.acts := rfl
@[simp] theorem State.noteHostRead_cycle (v : Nat) : (s.noteHostRead v).cycle = s.cycle := rfl
@[simp] theorem State.noteHostRead_initSeen (v : Nat) : (s.noteHostRead v).initSeen = s.initSeen := rfl
@[simp] theorem State.noteHostRead_txLeaked (v : Nat) : (s.noteHostRead v).txLeaked = s.txLeaked := rfl
@[simp] theorem State.noteHostRead_clientReads (v : Nat) : (s.noteHostRead v).clientReads = s.clientReads := rfl
@[simp] theorem State.noteHostRead_hostReads (v : Nat) : (s.noteHostRead v).hostReads = v :: s.hostReads := rfl
@[simp] theorem State.noteHostRead_freeCount (v : Nat) : (s.noteHostRead v).freeCount = s.freeCount := rfl

/-! ### State.setUsed -/

@[simp] theorem State.setUsed_cfg (r : Ring) (u : Half) : (s.setUsed r u).cfg = s.cfg := by cases r <;> rfl
@[simp] theorem State.setUsed_ch (r : Ring) (u : Half) : (s.setUsed r u).ch = s.ch := by cases r <;> rfl
@[simp] theorem State.setUsed_seq (r : Ring) (u : Half) : (s.setUsed r u).seq = s.seq := by cases r <;> rfl
@[simp] theorem State.setUsed_status (r : Ring) (u : Half) : (s.setUsed r u).status = s.status := by cases r <;> rfl
@[simp] theorem State.setUsed_fault (r : Ring) (u : Half) : (s.setUsed r u).fault = s.fault := by cases r <;> rfl
@[simp] theorem State.setUsed_faultInfo (r : Ring) (u : Half) : (s.setUsed r u).faultInfo = s.faultInfo := by cases r <;> rfl
@[simp] theorem State.setUsed_txLast (r : Ring) (u : Half) : (s.setUsed r u).txLast = s.txLast := by cases r <;> rfl
@[simp] theorem State.setUsed_txUsed (r : Ring) (u : Half) : (s.setUsed r u).txUsed = if r = .tx then u else s.txUsed := by cases r <;> rfl
@[simp] theorem State.setUsed_rxLast (r : Ring) (u : Half) : (s.setUsed r u).rxLast = s.rxLast := by cases r <;> rfl
@[simp] theorem State.setUsed_rxUsed (r : Ring) (u : Half) : (s.setUsed r u).rxUsed = if r = .rx then u else s.rxUsed := by cases r <;> rfl
@[simp] theorem State.setUsed_txHeld (r : Ring) (u : Half) : (s.setUsed r u).txHeld = s.txHeld := by cases r <;> rfl
@[simp] theorem State.setUsed_heldAddr (r : Ring) (u : Half) : (s.setUsed r u).heldAddr = s.heldAddr := by cases r <;> rfl
@[simp] theorem State.setUsed_heldCap (r : Ring) (u : Half) : (s.setUsed r u).heldCap = s.heldCap := by cases r <;> rfl
@[simp] theorem State.setUsed_args (r : Ring) (u : Half) : (s.setUsed r u).args = s.args := by cases r <;> rfl
@[simp] theorem State.setUsed_argWritten (r : Ring) (u : Half) : (s.setUsed r u).argWritten = s.argWritten := by cases r <;> rfl
@[simp] theorem State.setUsed_res (r : Ring) (u : Half) : (s.setUsed r u).res = s.res := by cases r <;> rfl
@[simp] theorem State.setUsed_dlvSrc (r : Ring) (u : Half) : (s.setUsed r u).dlvSrc = s.dlvSrc := by cases r <;> rfl
@[simp] theorem State.setUsed_dlvDst (r : Ring) (u : Half) : (s.setUsed r u).dlvDst = s.dlvDst := by cases r <;> rfl
@[simp] theorem State.setUsed_dlvAddr (r : Ring) (u : Half) : (s.setUsed r u).dlvAddr = s.dlvAddr := by cases r <;> rfl
@[simp] theorem State.setUsed_dlvLen (r : Ring) (u : Half) : (s.setUsed r u).dlvLen = s.dlvLen := by cases r <;> rfl
@[simp] theorem State.setUsed_waitCnt (r : Ring) (u : Half) : (s.setUsed r u).waitCnt = s.waitCnt := by cases r <;> rfl
@[simp] theorem State.setUsed_rxCurId (r : Ring) (u : Half) : (s.setUsed r u).rxCurId = s.rxCurId := by cases r <;> rfl
@[simp] theorem State.setUsed_rxCurDlen (r : Ring) (u : Half) : (s.setUsed r u).rxCurDlen = s.rxCurDlen := by cases r <;> rfl
@[simp] theorem State.setUsed_rxCurFlen (r : Ring) (u : Half) : (s.setUsed r u).rxCurFlen = s.rxCurFlen := by cases r <;> rfl
@[simp] theorem State.setUsed_rxProcessed (r : Ring) (u : Half) : (s.setUsed r u).rxProcessed = s.rxProcessed := by cases r <;> rfl
@[simp] theorem State.setUsed_rxDelivered (r : Ring) (u : Half) : (s.setUsed r u).rxDelivered = s.rxDelivered := by cases r <;> rfl
@[simp] theorem State.setUsed_shm (r : Ring) (u : Half) : (s.setUsed r u).shm = s.shm := by cases r <;> rfl
@[simp] theorem State.setUsed_priv (r : Ring) (u : Half) : (s.setUsed r u).priv = s.priv := by cases r <;> rfl
@[simp] theorem State.setUsed_pwDevice (r : Ring) (u : Half) : (s.setUsed r u).pwDevice = s.pwDevice := by cases r <;> rfl
@[simp] theorem State.setUsed_pwHost (r : Ring) (u : Half) : (s.setUsed r u).pwHost = s.pwHost := by cases r <;> rfl
@[simp] theorem State.setUsed_hostTx (r : Ring) (u : Half) : (s.setUsed r u).hostTx = s.hostTx := by cases r <;> rfl
@[simp] theorem State.setUsed_hostRx (r : Ring) (u : Half) : (s.setUsed r u).hostRx = s.hostRx := by cases r <;> rfl
@[simp] theorem State.setUsed_hostRun (r : Ring) (u : Half) : (s.setUsed r u).hostRun = s.hostRun := by cases r <;> rfl
@[simp] theorem State.setUsed_cmd (r : Ring) (u : Half) : (s.setUsed r u).cmd = s.cmd := by cases r <;> rfl
@[simp] theorem State.setUsed_acts (r : Ring) (u : Half) : (s.setUsed r u).acts = s.acts := by cases r <;> rfl
@[simp] theorem State.setUsed_cycle (r : Ring) (u : Half) : (s.setUsed r u).cycle = s.cycle := by cases r <;> rfl
@[simp] theorem State.setUsed_initSeen (r : Ring) (u : Half) : (s.setUsed r u).initSeen = s.initSeen := by cases r <;> rfl
@[simp] theorem State.setUsed_txLeaked (r : Ring) (u : Half) : (s.setUsed r u).txLeaked = s.txLeaked := by cases r <;> rfl
@[simp] theorem State.setUsed_clientReads (r : Ring) (u : Half) : (s.setUsed r u).clientReads = s.clientReads := by cases r <;> rfl
@[simp] theorem State.setUsed_hostReads (r : Ring) (u : Half) : (s.setUsed r u).hostReads = s.hostReads := by cases r <;> rfl
@[simp] theorem State.setUsed_freeCount (r : Ring) (u : Half) : (s.setUsed r u).freeCount = s.freeCount := by cases r <;> rfl

/-! ### State.setPending -/

@[simp] theorem State.setPending_cfg (a : Agent) (ws : List PendingWrite) : (s.setPending a ws).cfg = s.cfg := by cases a <;> rfl
@[simp] theorem State.setPending_ch (a : Agent) (ws : List PendingWrite) : (s.setPending a ws).ch = s.ch := by cases a <;> rfl
@[simp] theorem State.setPending_seq (a : Agent) (ws : List PendingWrite) : (s.setPending a ws).seq = s.seq := by cases a <;> rfl
@[simp] theorem State.setPending_status (a : Agent) (ws : List PendingWrite) : (s.setPending a ws).status = s.status := by cases a <;> rfl
@[simp] theorem State.setPending_fault (a : Agent) (ws : List PendingWrite) : (s.setPending a ws).fault = s.fault := by cases a <;> rfl
@[simp] theorem State.setPending_faultInfo (a : Agent) (ws : List PendingWrite) : (s.setPending a ws).faultInfo = s.faultInfo := by cases a <;> rfl
@[simp] theorem State.setPending_txLast (a : Agent) (ws : List PendingWrite) : (s.setPending a ws).txLast = s.txLast := by cases a <;> rfl
@[simp] theorem State.setPending_txUsed (a : Agent) (ws : List PendingWrite) : (s.setPending a ws).txUsed = s.txUsed := by cases a <;> rfl
@[simp] theorem State.setPending_rxLast (a : Agent) (ws : List PendingWrite) : (s.setPending a ws).rxLast = s.rxLast := by cases a <;> rfl
@[simp] theorem State.setPending_rxUsed (a : Agent) (ws : List PendingWrite) : (s.setPending a ws).rxUsed = s.rxUsed := by cases a <;> rfl
@[simp] theorem State.setPending_txHeld (a : Agent) (ws : List PendingWrite) : (s.setPending a ws).txHeld = s.txHeld := by cases a <;> rfl
@[simp] theorem State.setPending_heldAddr (a : Agent) (ws : List PendingWrite) : (s.setPending a ws).heldAddr = s.heldAddr := by cases a <;> rfl
@[simp] theorem State.setPending_heldCap (a : Agent) (ws : List PendingWrite) : (s.setPending a ws).heldCap = s.heldCap := by cases a <;> rfl
@[simp] theorem State.setPending_args (a : Agent) (ws : List PendingWrite) : (s.setPending a ws).args = s.args := by cases a <;> rfl
@[simp] theorem State.setPending_argWritten (a : Agent) (ws : List PendingWrite) : (s.setPending a ws).argWritten = s.argWritten := by cases a <;> rfl
@[simp] theorem State.setPending_res (a : Agent) (ws : List PendingWrite) : (s.setPending a ws).res = s.res := by cases a <;> rfl
@[simp] theorem State.setPending_dlvSrc (a : Agent) (ws : List PendingWrite) : (s.setPending a ws).dlvSrc = s.dlvSrc := by cases a <;> rfl
@[simp] theorem State.setPending_dlvDst (a : Agent) (ws : List PendingWrite) : (s.setPending a ws).dlvDst = s.dlvDst := by cases a <;> rfl
@[simp] theorem State.setPending_dlvAddr (a : Agent) (ws : List PendingWrite) : (s.setPending a ws).dlvAddr = s.dlvAddr := by cases a <;> rfl
@[simp] theorem State.setPending_dlvLen (a : Agent) (ws : List PendingWrite) : (s.setPending a ws).dlvLen = s.dlvLen := by cases a <;> rfl
@[simp] theorem State.setPending_waitCnt (a : Agent) (ws : List PendingWrite) : (s.setPending a ws).waitCnt = s.waitCnt := by cases a <;> rfl
@[simp] theorem State.setPending_rxCurId (a : Agent) (ws : List PendingWrite) : (s.setPending a ws).rxCurId = s.rxCurId := by cases a <;> rfl
@[simp] theorem State.setPending_rxCurDlen (a : Agent) (ws : List PendingWrite) : (s.setPending a ws).rxCurDlen = s.rxCurDlen := by cases a <;> rfl
@[simp] theorem State.setPending_rxCurFlen (a : Agent) (ws : List PendingWrite) : (s.setPending a ws).rxCurFlen = s.rxCurFlen := by cases a <;> rfl
@[simp] theorem State.setPending_rxProcessed (a : Agent) (ws : List PendingWrite) : (s.setPending a ws).rxProcessed = s.rxProcessed := by cases a <;> rfl
@[simp] theorem State.setPending_rxDelivered (a : Agent) (ws : List PendingWrite) : (s.setPending a ws).rxDelivered = s.rxDelivered := by cases a <;> rfl
@[simp] theorem State.setPending_shm (a : Agent) (ws : List PendingWrite) : (s.setPending a ws).shm = s.shm := by cases a <;> rfl
@[simp] theorem State.setPending_priv (a : Agent) (ws : List PendingWrite) : (s.setPending a ws).priv = s.priv := by cases a <;> rfl
@[simp] theorem State.setPending_pwDevice (a : Agent) (ws : List PendingWrite) : (s.setPending a ws).pwDevice = if a = .device then ws else s.pwDevice := by cases a <;> rfl
@[simp] theorem State.setPending_pwHost (a : Agent) (ws : List PendingWrite) : (s.setPending a ws).pwHost = if a = .host then ws else s.pwHost := by cases a <;> rfl
@[simp] theorem State.setPending_hostTx (a : Agent) (ws : List PendingWrite) : (s.setPending a ws).hostTx = s.hostTx := by cases a <;> rfl
@[simp] theorem State.setPending_hostRx (a : Agent) (ws : List PendingWrite) : (s.setPending a ws).hostRx = s.hostRx := by cases a <;> rfl
@[simp] theorem State.setPending_hostRun (a : Agent) (ws : List PendingWrite) : (s.setPending a ws).hostRun = s.hostRun := by cases a <;> rfl
@[simp] theorem State.setPending_cmd (a : Agent) (ws : List PendingWrite) : (s.setPending a ws).cmd = s.cmd := by cases a <;> rfl
@[simp] theorem State.setPending_acts (a : Agent) (ws : List PendingWrite) : (s.setPending a ws).acts = s.acts := by cases a <;> rfl
@[simp] theorem State.setPending_cycle (a : Agent) (ws : List PendingWrite) : (s.setPending a ws).cycle = s.cycle := by cases a <;> rfl
@[simp] theorem State.setPending_initSeen (a : Agent) (ws : List PendingWrite) : (s.setPending a ws).initSeen = s.initSeen := by cases a <;> rfl
@[simp] theorem State.setPending_txLeaked (a : Agent) (ws : List PendingWrite) : (s.setPending a ws).txLeaked = s.txLeaked := by cases a <;> rfl
@[simp] theorem State.setPending_clientReads (a : Agent) (ws : List PendingWrite) : (s.setPending a ws).clientReads = s.clientReads := by cases a <;> rfl
@[simp] theorem State.setPending_hostReads (a : Agent) (ws : List PendingWrite) : (s.setPending a ws).hostReads = s.hostReads := by cases a <;> rfl
@[simp] theorem State.setPending_freeCount (a : Agent) (ws : List PendingWrite) : (s.setPending a ws).freeCount = s.freeCount := by cases a <;> rfl

/-! ### State.issueWrite -/

@[simp] theorem State.issueWrite_cfg (a : Agent) (x : Nat) (bs : List Byte) : (s.issueWrite a x bs).cfg = s.cfg := by cases a <;> rfl
@[simp] theorem State.issueWrite_ch (a : Agent) (x : Nat) (bs : List Byte) : (s.issueWrite a x bs).ch = s.ch := by cases a <;> rfl
@[simp] theorem State.issueWrite_seq (a : Agent) (x : Nat) (bs : List Byte) : (s.issueWrite a x bs).seq = s.seq := by cases a <;> rfl
@[simp] theorem State.issueWrite_status (a : Agent) (x : Nat) (bs : List Byte) : (s.issueWrite a x bs).status = s.status := by cases a <;> rfl
@[simp] theorem State.issueWrite_fault (a : Agent) (x : Nat) (bs : List Byte) : (s.issueWrite a x bs).fault = s.fault := by cases a <;> rfl
@[simp] theorem State.issueWrite_faultInfo (a : Agent) (x : Nat) (bs : List Byte) : (s.issueWrite a x bs).faultInfo = s.faultInfo := by cases a <;> rfl
@[simp] theorem State.issueWrite_txLast (a : Agent) (x : Nat) (bs : List Byte) : (s.issueWrite a x bs).txLast = s.txLast := by cases a <;> rfl
@[simp] theorem State.issueWrite_txUsed (a : Agent) (x : Nat) (bs : List Byte) : (s.issueWrite a x bs).txUsed = s.txUsed := by cases a <;> rfl
@[simp] theorem State.issueWrite_rxLast (a : Agent) (x : Nat) (bs : List Byte) : (s.issueWrite a x bs).rxLast = s.rxLast := by cases a <;> rfl
@[simp] theorem State.issueWrite_rxUsed (a : Agent) (x : Nat) (bs : List Byte) : (s.issueWrite a x bs).rxUsed = s.rxUsed := by cases a <;> rfl
@[simp] theorem State.issueWrite_txHeld (a : Agent) (x : Nat) (bs : List Byte) : (s.issueWrite a x bs).txHeld = s.txHeld := by cases a <;> rfl
@[simp] theorem State.issueWrite_heldAddr (a : Agent) (x : Nat) (bs : List Byte) : (s.issueWrite a x bs).heldAddr = s.heldAddr := by cases a <;> rfl
@[simp] theorem State.issueWrite_heldCap (a : Agent) (x : Nat) (bs : List Byte) : (s.issueWrite a x bs).heldCap = s.heldCap := by cases a <;> rfl
@[simp] theorem State.issueWrite_args (a : Agent) (x : Nat) (bs : List Byte) : (s.issueWrite a x bs).args = s.args := by cases a <;> rfl
@[simp] theorem State.issueWrite_argWritten (a : Agent) (x : Nat) (bs : List Byte) : (s.issueWrite a x bs).argWritten = s.argWritten := by cases a <;> rfl
@[simp] theorem State.issueWrite_res (a : Agent) (x : Nat) (bs : List Byte) : (s.issueWrite a x bs).res = s.res := by cases a <;> rfl
@[simp] theorem State.issueWrite_dlvSrc (a : Agent) (x : Nat) (bs : List Byte) : (s.issueWrite a x bs).dlvSrc = s.dlvSrc := by cases a <;> rfl
@[simp] theorem State.issueWrite_dlvDst (a : Agent) (x : Nat) (bs : List Byte) : (s.issueWrite a x bs).dlvDst = s.dlvDst := by cases a <;> rfl
@[simp] theorem State.issueWrite_dlvAddr (a : Agent) (x : Nat) (bs : List Byte) : (s.issueWrite a x bs).dlvAddr = s.dlvAddr := by cases a <;> rfl
@[simp] theorem State.issueWrite_dlvLen (a : Agent) (x : Nat) (bs : List Byte) : (s.issueWrite a x bs).dlvLen = s.dlvLen := by cases a <;> rfl
@[simp] theorem State.issueWrite_waitCnt (a : Agent) (x : Nat) (bs : List Byte) : (s.issueWrite a x bs).waitCnt = s.waitCnt := by cases a <;> rfl
@[simp] theorem State.issueWrite_rxCurId (a : Agent) (x : Nat) (bs : List Byte) : (s.issueWrite a x bs).rxCurId = s.rxCurId := by cases a <;> rfl
@[simp] theorem State.issueWrite_rxCurDlen (a : Agent) (x : Nat) (bs : List Byte) : (s.issueWrite a x bs).rxCurDlen = s.rxCurDlen := by cases a <;> rfl
@[simp] theorem State.issueWrite_rxCurFlen (a : Agent) (x : Nat) (bs : List Byte) : (s.issueWrite a x bs).rxCurFlen = s.rxCurFlen := by cases a <;> rfl
@[simp] theorem State.issueWrite_rxProcessed (a : Agent) (x : Nat) (bs : List Byte) : (s.issueWrite a x bs).rxProcessed = s.rxProcessed := by cases a <;> rfl
@[simp] theorem State.issueWrite_rxDelivered (a : Agent) (x : Nat) (bs : List Byte) : (s.issueWrite a x bs).rxDelivered = s.rxDelivered := by cases a <;> rfl
@[simp] theorem State.issueWrite_shm (a : Agent) (x : Nat) (bs : List Byte) : (s.issueWrite a x bs).shm = s.shm := by cases a <;> rfl
@[simp] theorem State.issueWrite_priv (a : Agent) (x : Nat) (bs : List Byte) : (s.issueWrite a x bs).priv = s.priv := by cases a <;> rfl
@[simp] theorem State.issueWrite_pwDevice (a : Agent) (x : Nat) (bs : List Byte) : (s.issueWrite a x bs).pwDevice = if a = .device then s.pwDevice ++ [⟨x, bs⟩] else s.pwDevice := by cases a <;> rfl
@[simp] theorem State.issueWrite_pwHost (a : Agent) (x : Nat) (bs : List Byte) : (s.issueWrite a x bs).pwHost = if a = .host then s.pwHost ++ [⟨x, bs⟩] else s.pwHost := by cases a <;> rfl
@[simp] theorem State.issueWrite_hostTx (a : Agent) (x : Nat) (bs : List Byte) : (s.issueWrite a x bs).hostTx = s.hostTx := by cases a <;> rfl
@[simp] theorem State.issueWrite_hostRx (a : Agent) (x : Nat) (bs : List Byte) : (s.issueWrite a x bs).hostRx = s.hostRx := by cases a <;> rfl
@[simp] theorem State.issueWrite_hostRun (a : Agent) (x : Nat) (bs : List Byte) : (s.issueWrite a x bs).hostRun = s.hostRun := by cases a <;> rfl
@[simp] theorem State.issueWrite_cmd (a : Agent) (x : Nat) (bs : List Byte) : (s.issueWrite a x bs).cmd = s.cmd := by cases a <;> rfl
@[simp] theorem State.issueWrite_acts (a : Agent) (x : Nat) (bs : List Byte) : (s.issueWrite a x bs).acts = s.acts := by cases a <;> rfl
@[simp] theorem State.issueWrite_cycle (a : Agent) (x : Nat) (bs : List Byte) : (s.issueWrite a x bs).cycle = s.cycle := by cases a <;> rfl
@[simp] theorem State.issueWrite_initSeen (a : Agent) (x : Nat) (bs : List Byte) : (s.issueWrite a x bs).initSeen = s.initSeen := by cases a <;> rfl
@[simp] theorem State.issueWrite_txLeaked (a : Agent) (x : Nat) (bs : List Byte) : (s.issueWrite a x bs).txLeaked = s.txLeaked := by cases a <;> rfl
@[simp] theorem State.issueWrite_clientReads (a : Agent) (x : Nat) (bs : List Byte) : (s.issueWrite a x bs).clientReads = s.clientReads := by cases a <;> rfl
@[simp] theorem State.issueWrite_hostReads (a : Agent) (x : Nat) (bs : List Byte) : (s.issueWrite a x bs).hostReads = s.hostReads := by cases a <;> rfl
@[simp] theorem State.issueWrite_freeCount (a : Agent) (x : Nat) (bs : List Byte) : (s.issueWrite a x bs).freeCount = s.freeCount := by cases a <;> rfl

/-! ### State.setHostRing -/

@[simp] theorem State.setHostRing_cfg (r : Ring) (h : HostRing) : (s.setHostRing r h).cfg = s.cfg := by cases r <;> rfl
@[simp] theorem State.setHostRing_ch (r : Ring) (h : HostRing) : (s.setHostRing r h).ch = s.ch := by cases r <;> rfl
@[simp] theorem State.setHostRing_seq (r : Ring) (h : HostRing) : (s.setHostRing r h).seq = s.seq := by cases r <;> rfl
@[simp] theorem State.setHostRing_status (r : Ring) (h : HostRing) : (s.setHostRing r h).status = s.status := by cases r <;> rfl
@[simp] theorem State.setHostRing_fault (r : Ring) (h : HostRing) : (s.setHostRing r h).fault = s.fault := by cases r <;> rfl
@[simp] theorem State.setHostRing_faultInfo (r : Ring) (h : HostRing) : (s.setHostRing r h).faultInfo = s.faultInfo := by cases r <;> rfl
@[simp] theorem State.setHostRing_txLast (r : Ring) (h : HostRing) : (s.setHostRing r h).txLast = s.txLast := by cases r <;> rfl
@[simp] theorem State.setHostRing_txUsed (r : Ring) (h : HostRing) : (s.setHostRing r h).txUsed = s.txUsed := by cases r <;> rfl
@[simp] theorem State.setHostRing_rxLast (r : Ring) (h : HostRing) : (s.setHostRing r h).rxLast = s.rxLast := by cases r <;> rfl
@[simp] theorem State.setHostRing_rxUsed (r : Ring) (h : HostRing) : (s.setHostRing r h).rxUsed = s.rxUsed := by cases r <;> rfl
@[simp] theorem State.setHostRing_txHeld (r : Ring) (h : HostRing) : (s.setHostRing r h).txHeld = s.txHeld := by cases r <;> rfl
@[simp] theorem State.setHostRing_heldAddr (r : Ring) (h : HostRing) : (s.setHostRing r h).heldAddr = s.heldAddr := by cases r <;> rfl
@[simp] theorem State.setHostRing_heldCap (r : Ring) (h : HostRing) : (s.setHostRing r h).heldCap = s.heldCap := by cases r <;> rfl
@[simp] theorem State.setHostRing_args (r : Ring) (h : HostRing) : (s.setHostRing r h).args = s.args := by cases r <;> rfl
@[simp] theorem State.setHostRing_argWritten (r : Ring) (h : HostRing) : (s.setHostRing r h).argWritten = s.argWritten := by cases r <;> rfl
@[simp] theorem State.setHostRing_res (r : Ring) (h : HostRing) : (s.setHostRing r h).res = s.res := by cases r <;> rfl
@[simp] theorem State.setHostRing_dlvSrc (r : Ring) (h : HostRing) : (s.setHostRing r h).dlvSrc = s.dlvSrc := by cases r <;> rfl
@[simp] theorem State.setHostRing_dlvDst (r : Ring) (h : HostRing) : (s.setHostRing r h).dlvDst = s.dlvDst := by cases r <;> rfl
@[simp] theorem State.setHostRing_dlvAddr (r : Ring) (h : HostRing) : (s.setHostRing r h).dlvAddr = s.dlvAddr := by cases r <;> rfl
@[simp] theorem State.setHostRing_dlvLen (r : Ring) (h : HostRing) : (s.setHostRing r h).dlvLen = s.dlvLen := by cases r <;> rfl
@[simp] theorem State.setHostRing_waitCnt (r : Ring) (h : HostRing) : (s.setHostRing r h).waitCnt = s.waitCnt := by cases r <;> rfl
@[simp] theorem State.setHostRing_rxCurId (r : Ring) (h : HostRing) : (s.setHostRing r h).rxCurId = s.rxCurId := by cases r <;> rfl
@[simp] theorem State.setHostRing_rxCurDlen (r : Ring) (h : HostRing) : (s.setHostRing r h).rxCurDlen = s.rxCurDlen := by cases r <;> rfl
@[simp] theorem State.setHostRing_rxCurFlen (r : Ring) (h : HostRing) : (s.setHostRing r h).rxCurFlen = s.rxCurFlen := by cases r <;> rfl
@[simp] theorem State.setHostRing_rxProcessed (r : Ring) (h : HostRing) : (s.setHostRing r h).rxProcessed = s.rxProcessed := by cases r <;> rfl
@[simp] theorem State.setHostRing_rxDelivered (r : Ring) (h : HostRing) : (s.setHostRing r h).rxDelivered = s.rxDelivered := by cases r <;> rfl
@[simp] theorem State.setHostRing_shm (r : Ring) (h : HostRing) : (s.setHostRing r h).shm = s.shm := by cases r <;> rfl
@[simp] theorem State.setHostRing_priv (r : Ring) (h : HostRing) : (s.setHostRing r h).priv = s.priv := by cases r <;> rfl
@[simp] theorem State.setHostRing_pwDevice (r : Ring) (h : HostRing) : (s.setHostRing r h).pwDevice = s.pwDevice := by cases r <;> rfl
@[simp] theorem State.setHostRing_pwHost (r : Ring) (h : HostRing) : (s.setHostRing r h).pwHost = s.pwHost := by cases r <;> rfl
@[simp] theorem State.setHostRing_hostTx (r : Ring) (h : HostRing) : (s.setHostRing r h).hostTx = if r = .tx then h else s.hostTx := by cases r <;> rfl
@[simp] theorem State.setHostRing_hostRx (r : Ring) (h : HostRing) : (s.setHostRing r h).hostRx = if r = .rx then h else s.hostRx := by cases r <;> rfl
@[simp] theorem State.setHostRing_hostRun (r : Ring) (h : HostRing) : (s.setHostRing r h).hostRun = s.hostRun := by cases r <;> rfl
@[simp] theorem State.setHostRing_cmd (r : Ring) (h : HostRing) : (s.setHostRing r h).cmd = s.cmd := by cases r <;> rfl
@[simp] theorem State.setHostRing_acts (r : Ring) (h : HostRing) : (s.setHostRing r h).acts = s.acts := by cases r <;> rfl
@[simp] theorem State.setHostRing_cycle (r : Ring) (h : HostRing) : (s.setHostRing r h).cycle = s.cycle := by cases r <;> rfl
@[simp] theorem State.setHostRing_initSeen (r : Ring) (h : HostRing) : (s.setHostRing r h).initSeen = s.initSeen := by cases r <;> rfl
@[simp] theorem State.setHostRing_txLeaked (r : Ring) (h : HostRing) : (s.setHostRing r h).txLeaked = s.txLeaked := by cases r <;> rfl
@[simp] theorem State.setHostRing_clientReads (r : Ring) (h : HostRing) : (s.setHostRing r h).clientReads = s.clientReads := by cases r <;> rfl
@[simp] theorem State.setHostRing_hostReads (r : Ring) (h : HostRing) : (s.setHostRing r h).hostReads = s.hostReads := by cases r <;> rfl
@[simp] theorem State.setHostRing_freeCount (r : Ring) (h : HostRing) : (s.setHostRing r h).freeCount = s.freeCount := by cases r <;> rfl

end Sys2Proof.Machine
end

