-- ==== Sys2Proof/Laws/Memory.lean ====
section
/-! SUPPORT. The laws of memory, byte order and pending writes: read after write, the canonical form, and what an agent sees. -/

namespace Sys2Proof.Machine

/-! ### One byte -/

theorem Memory.not_mem_erase (m : Memory) (a : Nat) (y : Byte) : (a, y) ∉ m.erase a := by
  induction m with
  | nil => simp [Memory.erase]
  | cons e m ih =>
    obtain ⟨x, z⟩ := e
    by_cases h : x = a
    · simpa [Memory.erase, h] using ih
    · simp only [Memory.erase, h, if_false, List.mem_cons, Prod.mk.injEq, not_or]
      exact ⟨fun hh => h hh.1.symm, ih⟩

theorem Memory.read_erase (m : Memory) (a c : Nat) : (m.erase a).read c = if c = a then 0 else m.read c := by
  induction m with
  | nil => simp [Memory.erase, Memory.read]
  | cons e m ih =>
    obtain ⟨x, z⟩ := e
    by_cases h : x = a <;> by_cases h' : x = c <;> simp_all [Memory.erase, Memory.read]

theorem Memory.read_insert (m : Memory) (a c : Nat) (b : Byte) (hm : ∀ y, (a, y) ∉ m) :
    (m.insert a b).read c = if c = a then b else m.read c := by
  induction m with
  | nil => simp [Memory.insert, Memory.read, eq_comm]
  | cons e m ih =>
    obtain ⟨x, z⟩ := e
    have hx : x ≠ a := fun hh => hm z (by simp [hh])
    have hm' : ∀ y, (a, y) ∉ m := fun y hy => hm y (List.mem_cons_of_mem _ hy)
    by_cases h : a < x
    · simp [Memory.insert, h, Memory.read, eq_comm]
    · by_cases h' : x = c
      · subst h'
        simp [Memory.insert, h, Memory.read, hx]
      · simp [Memory.insert, h, Memory.read, h', ih hm']

/-- A read after a write to the same byte gives the value written, and every other byte reads as before. -/
@[simp] theorem Memory.read_write (m : Memory) (a c : Nat) (b : Byte) :
    (m.write a b).read c = if c = a then b else m.read c := by
  unfold Memory.write
  split
  · next h => simp [Memory.read_erase, h]
  · rw [Memory.read_insert _ _ _ _ (Memory.not_mem_erase m a), Memory.read_erase]
    split <;> simp_all

/-- What a run of written bytes reads as: the entry's own byte where it covers the address, else what was there. -/
theorem Memory.read_writeBytes (m : Memory) (a c : Nat) (bs : List Byte) :
    (m.writeBytes a bs).read c = ((⟨a, bs⟩ : PendingWrite).byteAt c).getD (m.read c) := by
  induction bs generalizing m a with
  | nil => simp [Memory.writeBytes, PendingWrite.byteAt]
  | cons b bs ih =>
    rw [Memory.writeBytes, ih, Memory.read_write]
    simp only [PendingWrite.byteAt]
    by_cases h : c = a
    · subst h; simp
    · by_cases h' : a ≤ c
      · have : a + 1 ≤ c := by omega
        have e : c - a = (c - (a + 1)) + 1 := by omega
        simp [this, h', e, h]
      · have : ¬ a + 1 ≤ c := by omega
        simp [this, h', h]

/-! ### The canonical form -/

theorem Memory.wfAbove_mono {m : Memory} {lo : Option Nat} {a : Nat} (h : Memory.wfAbove (some a) m = true)
    (hlo : ∀ b, lo = some b → b ≤ a) : Memory.wfAbove lo m = true := by
  cases m with
  | nil => rfl
  | cons e m =>
    obtain ⟨x, y⟩ := e
    cases lo with
    | none => simp_all [Memory.wfAbove]
    | some b =>
      have := hlo b rfl
      simp_all [Memory.wfAbove]
      omega

theorem Memory.wfAbove_tail {m : Memory} {lo : Option Nat} {x : Nat} {y : Byte}
    (h : Memory.wfAbove lo ((x, y) :: m) = true) : Memory.wfAbove (some x) m = true := by
  simp_all [Memory.wfAbove]

theorem Memory.wfAbove_erase (m : Memory) (lo : Option Nat) (a : Nat) (h : Memory.wfAbove lo m = true) :
    Memory.wfAbove lo (m.erase a) = true := by
  induction m generalizing lo with
  | nil => simpa [Memory.erase] using h
  | cons e m ih =>
    obtain ⟨x, y⟩ := e
    by_cases hx : x = a
    · simp only [Memory.erase, hx, if_true]
      cases lo with
      | none => exact ih none (Memory.wfAbove_mono (Memory.wfAbove_tail h) (by simp))
      | some l =>
        have hl : l < x := by simp_all [Memory.wfAbove]
        exact ih (some l) (Memory.wfAbove_mono (Memory.wfAbove_tail h) (by simp; omega))
    · simp only [Memory.erase, hx, if_false]
      have := ih (some x) (Memory.wfAbove_tail h)
      simp_all [Memory.wfAbove]

theorem Memory.wfAbove_insert (m : Memory) (lo : Option Nat) (a : Nat) (b : Byte) (hb : b ≠ 0)
    (hm : ∀ y, (a, y) ∉ m) (hlo : ∀ l, lo = some l → l < a) (h : Memory.wfAbove lo m = true) :
    Memory.wfAbove lo (m.insert a b) = true := by
  induction m generalizing lo with
  | nil => cases lo <;> simp_all [Memory.insert, Memory.wfAbove]
  | cons e m ih =>
    obtain ⟨x, y⟩ := e
    have hx : x ≠ a := fun hh => hm y (by simp [hh])
    have hm' : ∀ y, (a, y) ∉ m := fun y hy => hm y (List.mem_cons_of_mem _ hy)
    by_cases hax : a < x
    · simp only [Memory.insert, hax, if_true]
      cases lo <;> simp_all [Memory.wfAbove]
    · have := ih (some x) hm' (by simp; omega) (Memory.wfAbove_tail h)
      simp only [Memory.insert, hax, if_false]
      simp_all [Memory.wfAbove]

/-- A write keeps the canonical form. -/
theorem Memory.wf_write (m : Memory) (a : Nat) (b : Byte) (h : m.wf = true) : (m.write a b).wf = true := by
  unfold Memory.write Memory.wf at *
  split
  · exact Memory.wfAbove_erase m none a h
  · next hb => exact Memory.wfAbove_insert _ none a b hb (Memory.not_mem_erase m a) (by simp) (Memory.wfAbove_erase m none a h)

/-- A run of writes keeps the canonical form. -/
theorem Memory.wf_writeBytes (m : Memory) (a : Nat) (bs : List Byte) (h : m.wf = true) :
    (m.writeBytes a bs).wf = true := by
  induction bs generalizing m a with
  | nil => simpa [Memory.writeBytes] using h
  | cons b bs ih => exact ih _ _ (Memory.wf_write m a b h)

/-- Committing an entry keeps the canonical form. -/
theorem PendingWrite.wf_commitTo (w : PendingWrite) (m : Memory) (h : m.wf = true) : (w.commitTo m).wf = true :=
  Memory.wf_writeBytes m _ _ h

/-- Committing a whole set keeps the canonical form. -/
theorem wf_commitAll (m : Memory) (ws : List PendingWrite) (h : m.wf = true) : (commitAll m ws).wf = true := by
  induction ws generalizing m with
  | nil => simpa [commitAll] using h
  | cons w ws ih => simpa [commitAll] using ih _ (w.wf_commitTo m h)

/-- The empty memory is canonical. -/
theorem Memory.wf_nil : Memory.wf [] = true := rfl

/-! ### Byte order (R76) -/

@[simp] theorem bytesOf_length (v n : Nat) : (bytesOf v n).length = n := by
  induction n generalizing v with
  | zero => rfl
  | succ n ih => simp [bytesOf, ih]

/-- le(bytes(v, n)) = v mod 2^(8n). -/
@[simp] theorem leValue_bytesOf (v n : Nat) : leValue (bytesOf v n) = v % 2 ^ (8 * n) := by
  induction n generalizing v with
  | zero => simp [bytesOf, leValue, Nat.mod_one]
  | succ n ih =>
    have e : 2 ^ (8 * (n + 1)) = 256 * 2 ^ (8 * n) := by rw [Nat.mul_add, Nat.pow_add]; ring
    simp only [bytesOf, leValue, ih, BitVec.toNat_ofNat, e, Nat.mod_mul]

/-! ### What an agent sees (R93) -/

/-- The youngest covering byte of a set to which an entry is added. -/
theorem pendingByte_append_single (ws : List PendingWrite) (w : PendingWrite) (x : Nat) :
    pendingByte (ws ++ [w]) x = (w.byteAt x).or (pendingByte ws x) := by
  induction ws with
  | nil => simp [pendingByte]
  | cons v ws ih => simp [pendingByte, ih, Option.or_assoc]

/-- After committing a whole set oldest first, memory holds what the set's agent saw. -/
theorem read_commitAll (m : Memory) (ws : List PendingWrite) (x : Nat) :
    (commitAll m ws).read x = (pendingByte ws x).getD (m.read x) := by
  induction ws generalizing m with
  | nil => simp [commitAll, pendingByte]
  | cons w ws ih =>
    have : commitAll m (w :: ws) = commitAll (w.commitTo m) ws := rfl
    rw [this, ih, pendingByte, PendingWrite.commitTo, Memory.read_writeBytes]
    cases pendingByte ws x <;> simp

end Sys2Proof.Machine
end

