-- ==== Sys2Proof/Laws/Ops.lean ====
section
/-! SUPPORT. One lemma for each shared operation that says everything it can do, which later proofs cite instead of
unfolding it. -/

namespace Sys2Proof.Machine

variable {s t : State}

/-! ### Events and commits -/

/-- An event that answers a next state: a read or a write inside the windows, a barrier that passes, or a barrier that holds. -/
theorem shmEvent_next {a : Agent} {e : Event} {k : Nat → State → State} (h : shmEvent a e k s = .next t) :
    (∃ x n, e = .read x n ∧ s.cfg.inWindow x n = true ∧ t = k (s.valueSeen a x n) s) ∨
    (∃ x bs, e = .write x bs ∧ s.cfg.inWindow x bs.length = true ∧ t = k 0 (s.issueWrite a x bs)) ∨
    (e = .barrier ∧ s.pending a = [] ∧ t = k 0 s) ∨
    (e = .barrier ∧ s.pending a ≠ [] ∧ t = s) := by
  cases e with
  | read x n =>
    by_cases hw : s.cfg.inWindow x n = true <;> simp only [shmEvent, hw, if_true] at h
    · exact .inl ⟨x, n, rfl, hw, by cases h; rfl⟩
    · cases h
  | write x bs =>
    by_cases hw : s.cfg.inWindow x bs.length = true <;> simp only [shmEvent, hw, if_true] at h
    · exact .inr (.inl ⟨x, bs, rfl, hw, by cases h; rfl⟩)
    · cases h
  | barrier =>
    by_cases hp : s.pending a = [] <;> simp [shmEvent, hp] at h
    · exact .inr (.inr (.inl ⟨rfl, hp, h.symm⟩))
    · exact .inr (.inr (.inr ⟨rfl, hp, h.symm⟩))

/-- An event never refuses. -/
theorem shmEvent_ne_refused (a : Agent) (e : Event) (k : Nat → State → State) (s : State) (r : Refusal) :
    shmEvent a e k s ≠ .refused r := by
  cases e <;> simp only [shmEvent] <;> split <;> simp

/-- A commit takes one entry that no older entry overlaps, puts its bytes into SHM and takes it out of its set. -/
theorem commit_some {a : Agent} {k : Nat} (h : s.commit a k = some t) :
    ∃ w, (s.pending a)[k]? = some w ∧ ((s.pending a).take k).any (fun v => v.overlaps w) = false ∧
      t = { s with shm := w.commitTo s.shm }.setPending a ((s.pending a).eraseIdx k) := by
  unfold State.commit at h
  split at h
  · cases h
  · next w hw =>
    split at h
    · cases h
    · next ho => exact ⟨w, hw, by simpa using ho, by simpa using h.symm⟩

/-- The oldest entry can always commit. -/
theorem commit_oldest {a : Agent} {w : PendingWrite} {ws : List PendingWrite} (h : s.pending a = w :: ws) :
    s.commit a 0 = some ({ s with shm := w.commitTo s.shm }.setPending a ws) := by
  simp [State.commit, h]

theorem commit_oldest_none {a : Agent} (h : s.pending a = []) : s.commit a 0 = none := by
  simp [State.commit, h]

/-! ### The walker -/

theorem availPeek_cases (r : Ring) (c a : Half) (k : State → State) (s : State) :
    (a ≠ c ∧ ringN < gap a c ∧ availPeek r c a k s = s.raise (.desync r) (a ++ c)) ∨
    ((a = c ∨ gap a c ≤ ringN) ∧ availPeek r c a k s = k s) := by
  unfold availPeek
  by_cases h : a ≠ c ∧ gap a c > ringN
  · exact .inl ⟨h.1, h.2, by simp [h]⟩
  · refine .inr ⟨?_, by rw [if_neg h]⟩
    by_cases hc : a = c
    · exact .inl hc
    · exact .inr (Nat.le_of_not_lt fun hg => h ⟨hc, hg⟩)

theorem takeSlot_cases (r : Ring) (v : Half) (k : Fin 8 → State → State) (s : State) :
    (8 ≤ v.toNat ∧ takeSlot r v k s = s.raise (.badDescId r) (v.setWidth 32)) ∨
    (∃ id : Fin 8, v.toNat = id.val ∧
      ((r = .tx ∧ s.isHeld id = true ∧ takeSlot r v k s = s.raise .doubleGrant (v.setWidth 32)) ∨
       ((r = .rx ∨ s.isHeld id = false) ∧ takeSlot r v k s = k id s))) := by
  unfold takeSlot
  by_cases h : v.toNat < 8
  · refine .inr ⟨⟨v.toNat, h⟩, rfl, ?_⟩
    by_cases hh : r = .tx ∧ s.isHeld ⟨v.toNat, h⟩ = true
    · exact .inl ⟨hh.1, hh.2, by simp [h, hh]⟩
    · refine .inr ⟨?_, by rw [dif_pos h, if_neg hh]⟩
      cases r <;> simp_all
  · exact .inl ⟨by omega, by simp [h]⟩

theorem readDesc_cases (r : Ring) (addr : Dword) (len : Word) (k : Word → State → State) (s : State) :
    (bufferInWindow s.cfg addr len = false ∧ readDesc r addr len k s = s.raise (.bounds r.bufKind) (addr.setWidth 32)) ∨
    (bufferInWindow s.cfg addr len = true ∧ readDesc r addr len k s = k (addr.setWidth 32) s) := by
  unfold readDesc
  by_cases h : bufferInWindow s.cfg addr len = true
  · exact .inr ⟨h, by rw [if_pos h]⟩
  · exact .inl ⟨by simpa using h, by rw [if_neg h]⟩

/-- A buffer in a window lies below 2^32, so its truncated address is its address. -/
theorem bufferInWindow_spec {c : Config} {addr : Dword} {len : Word} (h : bufferInWindow c addr len = true) :
    (addr.setWidth 32 : Word).toNat = addr.toNat ∧ c.inWindow addr.toNat len.toNat = true := by
  simp only [bufferInWindow, Bool.and_eq_true, decide_eq_true_eq] at h
  refine ⟨?_, h.2⟩
  rw [BitVec.toNat_setWidth]
  omega

/-! ### Acceptance -/

/-- Every command is accepted the same way and differs in its start only. -/
theorem exec_eq (i : Instr) (s : State) : exec i s = runCommand i (startOf i) s := by
  cases i <;> rfl

/-- Acceptance, case by case (R371 steps 2, 4, 5 and 6). -/
theorem accept_cases (i : Instr) (start : State → State) (s : State) :
    (s.fault ≠ .none ∧ accept i start s = { s with status := .faulted }) ∨
    (s.fault = .none ∧ ∃ e, nestingError s.seq.sub i = some e ∧
      accept i start s = s.raise (.clientProtocol e) (u32 i.opcode)) ∨
    (s.fault = .none ∧ nestingError s.seq.sub i = none ∧ ∃ n, s.firstUnwritten i = some n ∧
      accept i start s = s.raise (.clientProtocol .unwrittenArg) (u32 n.val)) ∨
    (s.fault = .none ∧ nestingError s.seq.sub i = none ∧ s.firstUnwritten i = none ∧ accept i start s = start s) := by
  unfold accept
  by_cases hf : s.fault = .none
  · simp only [hf, ne_eq, not_true_eq_false, if_false, true_and, false_and, false_or]
    cases hn : nestingError s.seq.sub i with
    | some e => exact .inl ⟨e, rfl, rfl⟩
    | none =>
      cases hu : s.firstUnwritten i with
      | some n => exact .inr (.inl ⟨rfl, n, rfl, rfl⟩)
      | none => exact .inr (.inr ⟨rfl, rfl, rfl⟩)
  · exact .inl ⟨hf, by simp [hf]⟩

/-- A command that acceptance lets through begins. -/
theorem accept_start {i : Instr} (h : s.accepts i) (start : State → State) : accept i start s = start s := by
  obtain ⟨-, hf, hn, hu⟩ := h
  simp [accept, hf, hn, hu]

/-! ### Lengths -/

@[simp] theorem envEncode_length (src dst : Word) (l : Nat) : (envEncode src dst l).length = 16 := by
  simp [envEncode]

@[simp] theorem Frame.bytes_length (f : Frame) : f.bytes.length = f.size := by
  simp [Frame.bytes, Frame.size, envSize]

@[simp] theorem nsPayload_length (c : Config) (h : c.nameFits = true) : (nsPayload c).length = 40 := by
  have : c.serviceName.length ≤ 32 := by simpa [Config.nameFits] using h
  simp [nsPayload]
  omega

end Sys2Proof.Machine
end

