-- ==== Sys2Proof/Laws/PerInstr.lean ====
section
/-! SUPPORT. Statements for every command, one lemma per constructor. -/

/-- Every command's word is legal in the sense of R122: MBZ is 0, OP is assigned, and OP is the command's own (R121). -/
def Sys2Proof.Laws.WordLegal.Statement (i : Sys2Proof.Instr) : Prop :=
  Sys2Proof.wordLegal (Sys2Proof.encode i) = true ∧ (Sys2Proof.encode i).toNat = i.opcode

theorem Sys2Proof.Laws.WordLegal.init : Sys2Proof.Laws.WordLegal.Statement .init := by
  unfold Sys2Proof.Laws.WordLegal.Statement; decide
theorem Sys2Proof.Laws.WordLegal.shutdown : Sys2Proof.Laws.WordLegal.Statement .shutdown := by
  unfold Sys2Proof.Laws.WordLegal.Statement; decide
theorem Sys2Proof.Laws.WordLegal.acquireTx : Sys2Proof.Laws.WordLegal.Statement .acquireTx := by
  unfold Sys2Proof.Laws.WordLegal.Statement; decide
theorem Sys2Proof.Laws.WordLegal.publishTx : Sys2Proof.Laws.WordLegal.Statement .publishTx := by
  unfold Sys2Proof.Laws.WordLegal.Statement; decide
theorem Sys2Proof.Laws.WordLegal.frameSend : Sys2Proof.Laws.WordLegal.Statement .frameSend := by
  unfold Sys2Proof.Laws.WordLegal.Statement; decide
theorem Sys2Proof.Laws.WordLegal.pollRx : Sys2Proof.Laws.WordLegal.Statement .pollRx := by
  unfold Sys2Proof.Laws.WordLegal.Statement; decide
theorem Sys2Proof.Laws.WordLegal.rxRelease : Sys2Proof.Laws.WordLegal.Statement .rxRelease := by
  unfold Sys2Proof.Laws.WordLegal.Statement; decide
theorem Sys2Proof.Laws.WordLegal.query : Sys2Proof.Laws.WordLegal.Statement .query := by
  unfold Sys2Proof.Laws.WordLegal.Statement; decide
end

