-- ==== Sys2Proof/Laws/Steps.lean ====
section
/-! SUPPORT. What one move of the interleaving can do, case by case, and the block running alone. -/

namespace Sys2Proof.Machine

variable {s t : State}

/-! ### The block -/

/-- One block step: nothing runs, or the position's event happens and its updates follow, or its barrier holds. -/
theorem blockStep_next (h : blockStep s = .next t) :
    (s.seq.isBusy = false ∧ t = s) ∨
    ∃ p o, s.seq = .busy p o ∧
      ((∃ x n, p.event s.cfg = .read x n ∧ s.cfg.inWindow x n = true ∧ t = p.resume (s.valueSeen .device x n) s) ∨
       (∃ x bs, p.event s.cfg = .write x bs ∧ s.cfg.inWindow x bs.length = true ∧
          t = p.resume 0 (s.issueWrite .device x bs)) ∨
       (p.event s.cfg = .barrier ∧ s.pwDevice = [] ∧ t = p.resume 0 s) ∨
       (p.event s.cfg = .barrier ∧ s.pwDevice ≠ [] ∧ t = s)) := by
  unfold blockStep at h
  split at h
  · next p o hs => exact .inr ⟨p, o, hs, shmEvent_next h⟩
  · next hs =>
    refine .inl ⟨?_, by cases h; rfl⟩
    cases hq : s.seq with
    | idle => rfl
    | delivering k => rfl
    | busy p o => exact absurd hq (hs p o)

/-- The block's turn: a step of the running command, the acceptance of the waiting word, or nothing. -/
theorem blockTurn_next (h : blockTurn s = .next t) :
    (s.seq.isBusy = true ∧ blockStep s = .next t) ∨
    (s.seq.isBusy = false ∧ ∃ w, s.cmd = some w ∧ t = acceptWord w { s with cmd := none }) ∨
    (s.seq.isBusy = false ∧ s.cmd = none ∧ t = s) := by
  unfold blockTurn at h
  cases hb : s.seq.isBusy with
  | true => exact .inl ⟨rfl, by simpa [hb] using h⟩
  | false =>
    simp only [hb] at h
    cases hc : s.cmd with
    | none => exact .inr (.inr ⟨rfl, rfl, by simpa [hc] using h.symm⟩)
    | some w => exact .inr (.inl ⟨rfl, w, rfl, by simpa [hc] using h.symm⟩)

/-- A word run alone: a legal one is its command, an illegal one changes STATUS. -/
theorem runWord_next {w : Word} (h : runWord w s = .next t) :
    (∃ i, decodeWord w = .ok i ∧ exec i s = .next t) ∨
    (∃ e, decodeWord w = .error e ∧ t = illegalWord s) := by
  unfold runWord at h
  split at h
  · next i hi => exact .inl ⟨i, hi, h⟩
  · next e he => exact .inr ⟨e, he, by cases h; rfl⟩

/-! ### The moves -/

/-- A commit move is a commit; a host's is none under an H_CREATE that an INIT overtook. -/
theorem commitMove_next {a : Agent} {k : Nat} (h : commitMove a k s = .next t) :
    (a = .host → s.creationBroken = false) ∧ s.commit a k = some t := by
  unfold commitMove at h
  split at h
  · cases h
  · next hc =>
    refine ⟨fun ha => by simpa [ha] using hc, ?_⟩
    split at h
    · next s' hs => cases h; exact hs
    · cases h

/-- A drain changes nothing where nothing is pending, and else commits the oldest entry. -/
theorem drain_next {a : Agent} (h : drain a s = .next t) :
    s.pending a = [] ∧ t = s ∨ (a = .host → s.creationBroken = false) ∧ s.commit a 0 = some t := by
  unfold drain at h
  split at h
  · next hp => exact .inl ⟨by simpa using hp, by cases h; rfl⟩
  · exact .inr (commitMove_next h)

/-- Every move, by its kind. -/
theorem performAct_next {m : Act} (h : performAct m s = .next t) :
    (m = .block ∧ blockTurn s = .next t) ∨
    (∃ a k, m = .commit a k ∧ (a = .host → s.creationBroken = false) ∧ s.commit a k = some t) ∨
    (∃ a, m = .drain a ∧ (s.pending a = [] ∧ t = s ∨ (a = .host → s.creationBroken = false) ∧ s.commit a 0 = some t)) ∨
    (∃ op, m = .client op ∧ s.cmd = none ∧ clientMove op s = .next t) ∨
    (∃ op p, m = .hostBegin op ∧ s.hostRun = none ∧ hostProcedure s op = some p ∧
      t = { s with hostRun := some p, initSeen := s.initSeen && !p.creating }) ∨
    (m = .hostStep ∧ hostStep s = .next t) ∨
    (m = .reset ∧ t = hardwareReset s) := by
  cases m with
  | block => exact .inl ⟨rfl, h⟩
  | commit a k => exact .inr (.inl ⟨a, k, rfl, commitMove_next h⟩)
  | drain a => exact .inr (.inr (.inl ⟨a, rfl, drain_next h⟩))
  | client op =>
    refine .inr (.inr (.inr (.inl ⟨op, rfl, ?_, h⟩)))
    cases hc : s.cmd with
    | none => rfl
    | some w => simp [performAct, clientMove, hc] at h
  | hostBegin op =>
    simp only [performAct, hostBegin] at h
    split at h
    · cases h
    · next hn =>
      split at h
      · next p hp => exact .inr (.inr (.inr (.inr (.inl ⟨op, p, rfl, hn, hp, by cases h; rfl⟩))))
      · cases h
  | hostStep => exact .inr (.inr (.inr (.inr (.inr (.inl ⟨rfl, h⟩)))))
  | reset => exact .inr (.inr (.inr (.inr (.inr (.inr ⟨rfl, by cases h; rfl⟩)))))

/-- A client's move changes no more than one of: CMD and the operand registers, PW[device], PRIV, the noted reads. -/
theorem clientMove_next {op : ClientOp} (h : clientMove op s = .next t) :
    s.cmd = none ∧
    ((∃ addr width v off, op = .regWrite addr width v ∧ s.regOffset addr width = some off ∧ t = s.regWrite off v) ∨
     (∃ addr width off v, op = .regRead addr width ∧ s.regOffset addr width = some off ∧ s.regValue off = .value v ∧
        t = s.noteClientRead v.toNat) ∨
     (∃ a n v, op = .shmWrite a n v ∧ s.clientMayWrite a n = true ∧
        t = if n = 0 then s else s.issueWrite .device a (bytesOf v n)) ∨
     (∃ a n, op = .shmRead a n ∧ t = s.noteClientRead (s.valueSeen .device a n)) ∨
     (∃ a bs, op = .privWrite a bs ∧ s.cfg.priv.contains a bs.length = true ∧
        t = { s with priv := s.priv.writeBytes a bs })) := by
  unfold clientMove at h
  split at h
  · cases h
  · next hc =>
    refine ⟨by simpa using hc, ?_⟩
    cases op with
    | regWrite addr width v =>
      simp only [clientRegWrite] at h
      split at h
      · next off ho => exact .inl ⟨addr, width, v, off, rfl, ho, by cases h; rfl⟩
      · cases h
    | regRead addr width =>
      simp only [clientRegRead] at h
      split at h
      · next off ho =>
        split at h
        · next v hv => exact .inr (.inl ⟨addr, width, off, v, rfl, ho, hv, by cases h; rfl⟩)
        · cases h
        · cases h
      · cases h
    | shmWrite a n v =>
      simp only [clientShmWrite] at h
      split at h
      · next hm => exact .inr (.inr (.inl ⟨a, n, v, rfl, hm, by cases h; rfl⟩))
      · cases h
    | shmRead a n =>
      simp only [clientShmRead] at h
      split at h
      · exact .inr (.inr (.inr (.inl ⟨a, n, rfl, by cases h; rfl⟩)))
      · cases h
    | privWrite a bs =>
      simp only [clientPrivWrite] at h
      split at h
      · next hp => exact .inr (.inr (.inr (.inr ⟨a, bs, rfl, hp, by cases h; rfl⟩)))
      · cases h

/-- Bytes that spare the rings touch no used field and no avail.idx. -/
theorem ringsSpared_disjoint {a n : Nat} (h : s.ringsSpared a n = true) (r : Ring) :
    disjointRanges a n (usedFlagsAt s.cfg r) 70 = true ∧ disjointRanges a n (availIdxAt s.cfg r) 2 = true := by
  simp only [State.ringsSpared, List.all_cons, List.all_nil, Bool.and_true, Bool.and_eq_true] at h
  cases r
  · exact ⟨h.1.1.1.1, h.1.1.1.2⟩
  · exact ⟨h.2.1.1.1, h.2.1.1.2⟩

/-- The host's step: no procedure, or a legal one's: a straight one that has no event left, or its next
event, which writes nothing the device has. -/
theorem hostStep_next (h : hostStep s = .next t) :
    (s.hostRun = none ∧ t = s) ∨
    ∃ p, s.hostRun = some p ∧ s.creationBroken = false ∧
      ((p.event s = none ∧ t = p.resume 0 s) ∨
       ∃ e, p.event s = some e ∧ e.breaksDuty s = false ∧ shmEvent .host e p.resume s = .next t) := by
  unfold hostStep at h
  split at h
  · next hn => exact .inl ⟨hn, by cases h; rfl⟩
  · next p hp =>
    split at h
    · cases h
    · next hb =>
      refine .inr ⟨p, hp, by simpa using hb, ?_⟩
      split at h
      · next he => exact .inl ⟨he, by cases h; rfl⟩
      · next e he =>
        split at h
        · cases h
        · next hd =>
          split at h
          · cases h
          · exact .inr ⟨e, he, by simpa using hd, h⟩

/-! ### The block alone -/

/-- A step of the block alone is a block step, or at a held barrier the commit of the oldest device write. -/
theorem soloStep_next (h : soloStep s = .next t) :
    (∃ p o, s.seq = .busy p o ∧ p.event s.cfg = .barrier ∧ s.commit .device 0 = some t) ∨ blockStep s = .next t := by
  unfold soloStep at h
  split at h
  · next p o hs =>
    split at h
    · next he =>
      split at h
      · next s' hc => exact .inl ⟨p, o, hs, he, by cases h; exact hc⟩
      · exact .inr h
    · exact .inr h
  · next hs =>
    refine .inr ?_
    unfold blockStep
    split
    · next p o hq => exact absurd hq (hs p o)
    · exact h

theorem drive_of_not_busy (n : Nat) (h : s.seq.isBusy = false) : drive n s = .next s := by
  cases n <;> simp [drive, h]

theorem drive_of_busy (n : Nat) (h : s.seq.isBusy = true) (hs : soloStep s = .next t) : drive (n + 1) s = drive n t := by
  simp [drive, h, hs]

/-- A property that every step of the block alone keeps holds where the block stops. -/
theorem drive_induction {P : State → Prop} (hstep : ∀ u v, P u → soloStep u = .next v → P v) {n : Nat}
    (hs : P s) (h : drive n s = .next t) : P t := by
  induction n generalizing s with
  | zero => cases h; exact hs
  | succ n ih =>
    simp only [drive] at h
    split at h
    · split at h
      · next s' hs' => exact ih (hstep _ _ hs hs') h
      · cases h
      · cases h
    · cases h; exact hs

/-- A step with nothing scheduled, case by case. -/
theorem quietStep_next (h : quietStep s = .next t) :
    (s.seq.isBusy = true ∧ runAlone s = .next t) ∨
    (s.seq.isBusy = false ∧ ∃ w, s.cmd = some w ∧ runWord w { s with cmd := none } = .next t) ∨
    (s.seq.isBusy = false ∧ s.cmd = none ∧ ∃ a, drain a s = .next t) := by
  unfold quietStep at h
  cases hb : s.seq.isBusy with
  | true => exact .inl ⟨rfl, by simpa [hb] using h⟩
  | false =>
    simp only [hb] at h
    cases hc : s.cmd with
    | none =>
      simp only [hc, Bool.false_eq_true, if_false] at h
      refine .inr (.inr ⟨rfl, rfl, ?_⟩)
      split at h
      · exact ⟨.host, h⟩
      · exact ⟨.device, h⟩
    | some w => exact .inr (.inl ⟨rfl, w, rfl, by simpa [hc] using h⟩)

/-- The schedule: `acts`; or with `acts` used up a round of `cycle`, which begins with a drain; or nothing. -/
theorem schedule_cases (s : State) :
    (∃ m rest, s.acts = m :: rest ∧ s.schedule = m :: rest) ∨
    (s.acts = [] ∧ s.cycle ≠ [] ∧ s.schedule = .drain .device :: .drain .host :: .block :: s.cycle) ∨
    (s.acts = [] ∧ s.cycle = [] ∧ s.schedule = []) := by
  unfold State.schedule
  cases ha : s.acts with
  | cons m rest => exact .inl ⟨m, rest, rfl, rfl⟩
  | nil => cases hc : s.cycle <;> simp [State.round, hc]

/-- A step: the next scheduled move, or the quiet step, under a legal configuration. -/
theorem step_next (h : step s = .next t) :
    s.cfg.ok = true ∧
    ((∃ m rest, s.schedule = m :: rest ∧ performAct m { s with acts := rest } = .next t) ∨
     (s.acts = [] ∧ s.cycle = [] ∧ quietStep s = .next t)) := by
  simp only [step, machineStep] at h
  split at h
  · next hc =>
    refine ⟨hc, ?_⟩
    split at h
    · next m rest ha => exact .inl ⟨m, rest, ha, h⟩
    · next ha =>
      obtain ⟨_, _, _, hs⟩ | ⟨_, _, hs⟩ | ⟨h1, h2, _⟩ := schedule_cases s
      · simp [hs] at ha
      · simp [hs] at ha
      · exact .inr ⟨h1, h2, h⟩
  · cases h

end Sys2Proof.Machine
end

