-- ==== Sys2Proof/Tests/Slice0.lean ====
section
/-! SUPPORT. Tests and witnesses. Expected values come from spec/95_test_vectors.md and the encoding tables of spec/30_encoding.md,
each named at its test. A theorem `witness_X` shows states and operands that meet the hypotheses of `Obligations.X`, clause by
clause and at the clauses' boundaries. -/

namespace Sys2Proof.Tests

open Sys2Proof Sys2Proof.Machine

-- The tests are checked one after another: side by side, each waits in a thread of its own for the kernel.
set_option Elab.async false

/-! ### Helpers -/

/-- A predicate of the next state; false at a fault or a refusal. -/
def got (r : Result) (p : State → Bool) : Bool :=
  match r with
  | .next t => p t
  | .fault _ => false
  | .refused _ => false

/-- The step refuses with that reason. -/
def refuses (r : Result) (why : Refusal) : Bool :=
  match r with
  | .next _ => false
  | .fault _ => false
  | .refused w => w == why

/-- An n-byte value put into SHM. -/
def put (a n v : Nat) (s : State) : State := { s with shm := s.shm.writeBytes a (bytesOf v n) }

/-- A committed H_GRANT: descriptor id, its entry in a slot, and avail.idx (95_test_vectors.md section 0). -/
def grant (r : Ring) (slot id addr len idx : Nat) (s : State) : State :=
  put (availIdxAt s.cfg r) 2 idx (put (availRingAt s.cfg r slot) 2 id
    (put (descLenAt s.cfg r (id % 8)) 4 len (put (descAddrAt s.cfg r (id % 8)) 8 addr s)))

/-- "Ready at (a, b)" (95_test_vectors.md section 2), the operand registers written with 0. -/
def readyAt (a b : Half) : State :=
  { State.reset with
    ch := .ready, txLast := a, txUsed := a, rxLast := b, rxUsed := b, argWritten := Vector.replicate 4 true }

/-- The operand registers written. -/
def args (a b c d : Word) (s : State) : State :=
  (((s.writeArg 0 a).writeArg 1 b).writeArg 2 c).writeArg 3 d

/-- A TX id held with capacity 512 (95_test_vectors.md section 2.8): Ready at (2, 0), TX_USED = 1. -/
def holding : State :=
  { readyAt 2 0 with txUsed := 1, hostTx := ⟨2, 0, (Vector.replicate 8 true).set 1 false⟩ }.hold 1 0x10041200 512

/-- `holding`, its RX id 2 granted with 16 bytes at an address. -/
def holdingRx (a : Nat) : State := { grant .rx 0 2 a 16 1 holding with hostRx := ⟨1, 0, (Vector.replicate 8 true).set 2 false⟩ }

/-- `holding` with its id leaked by PAYLOAD_TOO_LARGE, and a PUBLISH_TX of n bytes of it waiting in CMD. -/
def leaking (n : Word) : State := { args 1 n 0 0 (holding.leak 1) with cmd := some 4 }

/-- A POLL_RX suspended on RX id 2, whose frame has length 21 and capacity 512. -/
def delivering : State :=
  { put (availIdxAt Config.example .rx) 2 1 (readyAt 1 0) with
    seq := .delivering ⟨0, 2⟩, status := .frameDelivered, rxCurId := 2, rxCurDlen := 512, rxCurFlen := 21 }

/-- An RX frame's envelope at an address: src, dst, len (R115). -/
def envelopeAt (a src dst len : Nat) (s : State) : State := put (a + 12) 2 len (put (a + 4) 4 dst (put a 4 src s))

/-- The reset machine with TX id 0 granted, as program P1 has it (95_test_vectors.md section 3). -/
def bootGranted : State := grant .tx 0 0 0x10041000 512 1 State.reset

/-- Ready at (1, 0) with TX id 3 granted with a capacity of 64 (95_test_vectors.md section 2.9). -/
def granted64 : State := grant .tx 1 3 0x10041600 64 2 (readyAt 1 0)

/-- Ready at (1, 0) with RX id 2 granted, its frame from 0x401 to 0x400 with length 5 (95_test_vectors.md section 2.10). -/
def received : State := envelopeAt 0x10042400 0x401 0x400 5 (grant .rx 0 2 0x10042400 512 1 (readyAt 1 0))

/-- Ready at (1, 0) with RX id 4 granted, whose capacity of 12 is too small for an envelope. -/
def malformed : State := grant .rx 0 4 0x10042800 12 1 (readyAt 1 0)

/-- Eight RX grants of ids 7 down to 0, each of 8 bytes. -/
def fullRx : State :=
  (List.range 8).foldl (fun s k => grant .rx k (7 - k) 0x10042000 8 (k + 1) s) (readyAt 1 0)

/-- The running PUBLISH_TX of `holding` at one of the five events of its UsedPush. -/
def publishing (ph : PushPhase) : State := { holding with seq := .busy (.push ph ⟨.publish, 1, 21, 1⟩) none }

/-! ### Well-formedness: an ill-formed term for each check, refused -/

theorem test_wordLegal_needs_mbz : mbzClear 0x00000103 = false ∧ wordLegal 0x00000103 = false := by decide
theorem test_wordLegal_needs_opcode :
    opAssigned 0x00000000 = false ∧ opAssigned 0x00000009 = false ∧ wordLegal 0x000000FF = false := by decide
theorem test_config_example_ok : Config.example.ok = true := by decide
theorem test_config_window_above_4G :
    Region.below4G ⟨0xFFFFFF00, 0x101⟩ = false ∧ { Config.example with win1 := ⟨0xFFFFFF00, 0x101⟩ }.ok = false := by decide
theorem test_config_unaligned_ring :
    { Config.example with rxBase := 0x10040408 }.ringsAligned = false ∧
    { Config.example with rxBase := 0x10040408 }.ok = false := by decide
theorem test_config_ring_outside_windows :
    { Config.example with rxBase := 0x1004FF20 }.ringsInWindow = false ∧
    { Config.example with rxBase := 0x1004FF20 }.ok = false := by decide
theorem test_config_rings_overlap :
    { Config.example with rxBase := 0x100400E0 }.ringsDisjoint = false ∧
    { Config.example with rxBase := 0x100400E0 }.ok = false := by decide
theorem test_config_no_budget : { Config.example with initBudget := 0 }.ok = false := by decide
theorem test_config_long_name : { Config.example with serviceName := List.replicate 33 0x41 }.ok = false := by decide

/-! ### Decoding: words written bit by bit from R120 and R121, and illegal words of 95_test_vectors.md section 2.1 -/

theorem test_decode_init : decodeWord 0b00000000_00000000_00000000_00000001 = .ok .init := by decide
theorem test_decode_shutdown : decodeWord 0b00000000_00000000_00000000_00000010 = .ok .shutdown := by decide
theorem test_decode_acquireTx : decodeWord 0b00000000_00000000_00000000_00000011 = .ok .acquireTx := by decide
theorem test_decode_publishTx : decodeWord 0b00000000_00000000_00000000_00000100 = .ok .publishTx := by decide
theorem test_decode_frameSend : decodeWord 0b00000000_00000000_00000000_00000101 = .ok .frameSend := by decide
theorem test_decode_pollRx : decodeWord 0b00000000_00000000_00000000_00000110 = .ok .pollRx := by decide
theorem test_decode_rxRelease : decodeWord 0b00000000_00000000_00000000_00000111 = .ok .rxRelease := by decide
theorem test_decode_query : decodeWord 0b00000000_00000000_00000000_00001000 = .ok .query := by decide
theorem test_decode_illegal :
    decodeWord 0x00000000 = .error .unassignedOpcode ∧ decodeWord 0x00000009 = .error .unassignedOpcode ∧
    decodeWord 0x000000FF = .error .unassignedOpcode ∧ decodeWord 0x00000103 = .error .reservedBits ∧
    decodeWord 0x80000003 = .error .reservedBits := by decide
/-- Bits above 31 belong to no command (R129). -/
theorem test_decode_is_one_word : decodeTableWord 64 0x100000001 = none ∧ decodeTableWord 8 0x101 = some .init := by decide

/-! ### Layout (R10, R118, W1 and the field table of 95_test_vectors.md) -/

theorem test_layout_constants :
    layoutAvailOff 8 = 0x80 ∧ layoutUsedOff 8 = 0xA0 ∧ layoutRingBytes 8 = ringBytes ∧ ringBytes = 230 := by decide
theorem test_layout_addresses :
    descAddrAt Config.example .tx 3 = 0x10040030 ∧ descLenAt Config.example .rx 1 = 0x10040418 ∧
    availIdxAt Config.example .tx = 0x10040082 ∧ availRingAt Config.example .rx 7 = 0x10040492 ∧
    usedIdxAt Config.example .rx = 0x100404A2 ∧ usedIdAt Config.example .tx 3 = 0x100400BC ∧
    usedLenAt Config.example .tx 4 = 0x100400C8 ∧ descFlagsAt Config.example .tx 0 = 0x1004000C ∧
    descNextAt Config.example .tx 0 = 0x1004000E ∧ availFlagsAt Config.example .tx = 0x10040080 ∧
    usedEventAt Config.example .tx = 0x10040094 ∧ usedFlagsAt Config.example .rx = 0x100404A0 ∧
    availEventAt Config.example .tx = 0x100400E4 := by decide

/-! ### Memory (R76, R90, R93) -/

theorem test_memory_little_endian :
    bytesOf 0x12345678 4 = [0x78, 0x56, 0x34, 0x12] ∧ leValue [0xEF, 0xBE, 0xAD, 0xDE] = 0xDEADBEEF := by decide
theorem test_memory_stays_canonical :
    Memory.write [(3, 1), (7, 2)] 7 0 = [(3, 1)] ∧ Memory.write [(3, 1), (7, 2)] 5 9 = [(3, 1), (5, 9), (7, 2)] ∧
    Memory.wf [(7, 2), (3, 1)] = false ∧ Memory.wf [(3, 0)] = false := by decide
/-- R90: the younger of two overlapping entries may not commit first; a disjoint one may. -/
theorem test_commit_order :
    ({ State.reset with pwDevice := [⟨0x10041000, [1, 2]⟩, ⟨0x10041001, [3]⟩] }.commit .device 1).isNone = true ∧
    ({ State.reset with pwDevice := [⟨0x10041000, [1, 2]⟩, ⟨0x10041002, [3]⟩] }.commit .device 1).isSome = true := by
  decide

/-! ### The envelope (95_test_vectors.md sections 2.3 and 2.4) -/

theorem test_envEncode :
    envEncode 0x12345678 0x9ABCDEF0 0x0102 =
      [0x78, 0x56, 0x34, 0x12, 0xF0, 0xDE, 0xBC, 0x9A, 0, 0, 0, 0, 0x02, 0x01, 0, 0] := by decide
theorem test_envDecode :
    envDecode [0x01, 0x04, 0, 0, 0, 0x04, 0, 0, 0xEF, 0xBE, 0xAD, 0xDE, 0x08, 0, 0x01, 0x80] =
      ⟨0x401, 0x400, 0xDEADBEEF, 8, 0x8001⟩ := by decide
theorem test_envFits :
    envFits ⟨0, 0, 0, 496, 0⟩ 512 = true ∧ envFits ⟨0, 0, 0, 497, 0⟩ 512 = false ∧ envFits ⟨0, 0, 0, 0, 0⟩ 16 = true ∧
    envFits ⟨0, 0, 0, 1, 0⟩ 16 = false ∧ envFits ⟨0, 0, 0, 0xFFFF, 0⟩ 512 = false := by decide

/-! ### The commands, on the vectors of 95_test_vectors.md -/

/-- P1: INIT on a fresh TX grant, its registers and the last bytes of its announcement. -/
theorem test_init_P1 :
    got (exec .init bootGranted) (fun t =>
      t.stateReg == 3 && t.statusReg == 0 && t.res[0] == 0 && t.res[1] == 1 && t.txCurReg == 0x00010001 &&
      t.shm.readBytes 0x10041000 20 == [0, 4, 0, 0, 0x35, 0, 0, 0, 0, 0, 0, 0, 0x28, 0, 0, 0, 0x76, 0x71, 0x69, 0x70] &&
      t.shm.readBytes 0x10041030 8 == [0, 4, 0, 0, 0, 0, 0, 0] && t.shm.readBytes 0x100400A2 10 ==
        [1, 0, 0, 0, 0, 0, 56, 0, 0, 0]) = true := by decide +kernel
/-- W9: INIT with INIT_BUDGET = 3 and no grant. -/
theorem test_init_W9 :
    got (exec .init { State.reset with cfg := { Config.example with initBudget := 3 } }) (fun t =>
      t.statusReg == 4 && t.res[1] == 3 && t.ch == .uninitialized && t.shm == [] && t.txLast == 0) = true := by decide +kernel
/-- W11: SHUTDOWN in Ready, and 2.11: while Uninitialized. -/
theorem test_shutdown :
    got (exec .shutdown (readyAt 1 0)) (fun t => t.stateReg == 0 && t.statusReg == 0 && t.txLast == 1) = true ∧
    got (exec .shutdown State.reset) (fun t => t.statusReg == 1) = true := by decide
/-- 2.7, second to last row: an acquire across the index wrap. -/
theorem test_acquireTx_wraps :
    got (exec .acquireTx (grant .tx 7 5 0x10041A00 512 0 (readyAt 0xFFFF 0))) (fun t =>
      t.statusReg == 0 && t.res[0] == 5 && t.res[1] == 0x10041A00 && t.res[2] == 512 && t.txLast == 0 &&
      t.txHeldReg == 0x20) = true := by decide +kernel
/-- 2.6: a descriptor address at or above 2^32. -/
theorem test_acquireTx_high_address :
    got (exec .acquireTx (grant .tx 1 3 0x110041000 512 2 (readyAt 1 0))) (fun t =>
      t.statusReg == 6 && t.faultReg == 0x0003 && t.faultInfo == 0x10041000 && t.txLast == 2 && t.txHeld == 0) = true := by
  decide +kernel
/-- 2.8: publish.tx 1, 512 and publish.tx 1, 513. -/
theorem test_publishTx :
    got (exec .publishTx (args 1 512 0 0 holding)) (fun t =>
      t.statusReg == 0 && t.txUsed == 2 && t.txHeld == 0 && t.pwDevice == [] &&
      t.shm.readBytes 0x100400AC 8 == [1, 0, 0, 0, 0, 2, 0, 0] && t.shm.readBytes 0x100400A2 2 == [2, 0]) = true ∧
    got (exec .publishTx (args 1 513 0 0 holding)) (fun t => t.faultReg == 0x0204 && t.faultInfo == 513) = true := by
  decide +kernel
/-- W3: frame.send of "hello". -/
theorem test_frameSend_W3 :
    got (exec .frameSend (args 0x400 0x401 0x20000000 5 { grant .tx 1 1 0x10041200 512 2 (readyAt 1 0) with
        priv := Memory.writeBytes [] 0x20000000 [0x68, 0x65, 0x6C, 0x6C, 0x6F] })) (fun t =>
      t.statusReg == 0 && t.res[0] == 1 && t.res[1] == 21 && t.txHeld == 0 &&
      t.shm.readBytes 0x10041200 21 == [0, 4, 0, 0, 1, 4, 0, 0, 0, 0, 0, 0, 5, 0, 0, 0, 0x68, 0x65, 0x6C, 0x6C, 0x6F] &&
      t.shm.readBytes 0x100400AC 8 == [1, 0, 0, 0, 21, 0, 0, 0]) = true := by decide +kernel
/-- 2.9: 16 + L = cap + 1, and a payload source that ends past PRIV. -/
theorem test_frameSend_limits :
    got (exec .frameSend (args 0x400 0x401 0x20000000 49 granted64)) (fun t =>
      t.statusReg == 3 && t.res[0] == 3 && t.res[1] == 65 && t.txLast == 2 && t.txHeldReg == 0x08 && t.pwDevice == []) = true ∧
    got (exec .frameSend (args 0x400 0x401 0x20000FFC 8 (readyAt 1 0))) (fun t =>
      t.faultReg == 0x0203 && t.faultInfo == 0x20000FFC) = true := by decide +kernel
/-- 2.10, second row: the delivery. -/
theorem test_pollRx_delivers :
    got (exec .pollRx received) (fun t =>
      t.stateReg == 0x0B && t.statusReg == 7 && t.dlvSrc == 0x401 && t.dlvDst == 0x400 && t.dlvAddr == 0x10042410 &&
      t.dlvLen == 5) = true := by decide +kernel
/-- 2.10: dlen < 16 with FRAME_LEN: the used entry is {4, 0}. -/
theorem test_pollRx_drops :
    got (exec .pollRx { malformed with cfg := { Config.example with rxLenPolicy := .frameLen } }) (fun t =>
      t.statusReg == 0 && t.res[0] == 1 && t.res[1] == 0 && t.rxCurReg == 0x00010001 &&
      t.shm.readBytes 0x100404A2 10 == [1, 0, 4, 0, 0, 0, 0, 0, 0, 0]) = true := by decide +kernel
/-- 2.10, second row: after rx.release, with DESC_LEN. -/
theorem test_rxRelease :
    got (exec .rxRelease delivering) (fun t =>
      t.stateReg == 3 && t.statusReg == 0 && t.res[0] == 1 && t.res[1] == 1 &&
      t.shm.readBytes 0x100404A2 10 == [1, 0, 2, 0, 0, 0, 0, 2, 0, 0]) = true := by decide +kernel
/-- 2.2: QUERY during Delivering, and RX_RELEASE while Idle. -/
theorem test_query_nested :
    got (exec .query delivering) (fun t => t.statusReg == 0 && t.res[0] == 1 && t.stateReg == 0x0B) = true ∧
    got (exec .rxRelease State.reset) (fun t => t.faultReg == 0x0504 && t.faultInfo == 7) = true := by decide

/-! ### The event-by-event machine -/

/-- R84: four block steps of ACQUIRE_TX and its acceptance; the registers are the command's only after the fifth. -/
theorem test_acquire_takes_four_events :
    got (performActs (List.replicate 4 .block) { granted64 with cmd := some 3 }) (fun t => t.seq.isBusy && t.res[0] == 0) = true ∧
    got (performActs (List.replicate 5 .block) { granted64 with cmd := some 3 }) (fun t =>
      t.seq == .idle && t.res[0] == 3 && t.res[2] == 64) = true := by decide +kernel
/-- 2.13: with the first barrier, used.idx is not written before {id, len} is in SHM. -/
theorem test_barrier_holds :
    got (performActs [.block, .block, .block, .commit .device 1, .block] (publishing .id)) (fun t =>
      t.seq == (publishing .barrier1).seq && t.pwDevice == [⟨0x100400AC, [1, 0, 0, 0]⟩]) = true := by decide +kernel
/-- 2.2: a CMD write made while INIT runs holds, and the client stalls. -/
theorem test_busy_holds_cmd :
    got (step { bootGranted with
        seq := .busy .initPeek none, ch := .waitingForHostBuffers, acts := [.client (.regWrite 0x30000000 4 8), .block] })
      (fun t => t.cmd == some 8 && t.seq == .busy .initPeek none) = true ∧
    refuses (step { State.reset with cmd := some 8, acts := [.client (.regRead 0x30000004 4)] }) .clientStalled = true := by
  decide +kernel
/-- R330, R332: a grant by the host's own events, and what the device then sees. -/
theorem test_host_grant :
    got (performActs [.hostBegin (.grant .tx [⟨0, 0x10041000, 512, none, []⟩]), .hostStep, .hostStep, .hostStep, .commit .host 2,
        .commit .host 0, .hostStep, .commit .host 0, .hostStep, .hostStep, .commit .host 0] State.reset) (fun t =>
      t.availIdxSeen .tx == 1 && t.descLenSeen .tx 0 == 512 && !t.hostTx.owns 0 && t.hostRun == none) = true := by
  decide +kernel
/-- R333: the host reaps the announcement's entry and owns id 0 again. -/
theorem test_host_reap :
    got (performActs (.hostBegin (.reap .rx 8) :: List.replicate 4 .hostStep)
        (put 0x100404A2 2 1 (put 0x100404A4 4 2 { readyAt 1 0 with hostRx := ⟨1, 0, Vector.replicate 8 false⟩ })))
      (fun t => t.hostRx.owns 2 && t.hostRx.lastUsed == 1 && t.hostRun == none) = true := by decide +kernel
/-- R337: moves that break a duty undetected. -/
theorem test_host_duty :
    refuses (performAct (.hostBegin (.grant .tx [⟨0, 0, 0, none, []⟩])) { State.reset with
      hostTx := ⟨0, 0, Vector.replicate 8 false⟩ }) .hostDuty = true ∧
    refuses (performAct (.hostBegin .create) (readyAt 1 0)) .hostDuty = true := by decide

/-- R335 item 1: an H_CREATE that an INIT overtook goes no further, and its pending writes do not land. -/
theorem test_host_create_overtaken :
    (∀ m ∈ [Act.hostStep, .commit .host 0, .drain .host],
      refuses (performActs [.hostBegin .create, .hostStep, .block, m] { bootGranted with cmd := some 1 }) .hostDuty = true) ∧
    got (performActs [.hostBegin .create, .hostStep, .hostStep, .hostStep, .hostStep, .commit .host 0, .commit .host 0,
        .commit .host 0, .drain .host, .hostStep, .block] { bootGranted with cmd := some 1 })
      (fun t => t.availIdxSeen .tx == 0 && t.seq == .busy .initPeek none) = true := by decide +kernel
/-- R332: two entries of one grant; the second's frame ends one byte inside the first's buffer, or just below it. -/
theorem test_host_batch :
    refuses (performAct (.hostBegin (.grant .rx [⟨1, 0x10042010, 8, none, []⟩, ⟨2, 0x10042000, 17, none, List.replicate 17 5⟩]))
      State.reset) .hostDuty = true ∧
    got (performAct (.hostBegin (.grant .rx [⟨1, 0x10042010, 8, none, []⟩, ⟨2, 0x10042000, 16, none, List.replicate 16 5⟩]))
      State.reset) (fun t => t.hostRun.isSome) = true := by decide +kernel
/-- R332, R335: one RX grant's frame over ring fields. Legal: avail.flags, the padding, an owned descriptor (its own, and a TX
one), an unposted slot. Not: avail.idx, a used field, a posted slot, a descriptor not owned; nor the slot or the descriptor of an
earlier entry of the same grant. -/
theorem test_host_frame_over_ring :
    (let grants (es : List GrantEntry) := performAct (.hostBegin (.grant .rx es))
        { put 0x10040482 2 1 State.reset with hostRx := ⟨1, 0, (Vector.replicate 8 true).set 2 false⟩ }
     let frame (id : Half) (addr : Dword) (n : Nat) : GrantEntry := ⟨id, addr, 16, none, List.replicate n 5⟩
     ([(0x10040480, 2), (0x10040496, 10), (0x10040410, 16), (0x10040000, 16), (0x10040486, 4)].all fun p =>
        got (grants [frame 1 p.1 p.2]) (fun t => t.hostRun.isSome)) = true ∧
     ([(0x10040480, 3), (0x10040496, 11), (0x10040485, 1), (0x1004041F, 2)].all fun p =>
        refuses (grants [frame 1 p.1 p.2]) .hostDuty) = true ∧
     ([(0x10040486, 2), (0x10040430, 1)].all fun p =>
        refuses (grants [⟨3, 0x10042000, 4, none, []⟩, frame 1 p.1 p.2]) .hostDuty) = true ∧
     got (grants [⟨3, 0x10042000, 4, none, []⟩, frame 1 0x10040488 2]) (fun t => t.hostRun.isSome) = true) := by decide +kernel
/-- R338: the host writes a buffer it owns, up to its last byte and no further, and what the device then reads there. -/
theorem test_host_buffer :
    got (performActs [.hostBegin (.bufferWrite .tx 0 510 [7, 8]), .hostStep, .hostStep, .drain .host, .drain .host,
        .client (.shmRead 0x100411FF 1)] bootGranted) (fun t => t.clientReads == [8] && t.hostRun == none) = true ∧
    refuses (performAct (.hostBegin (.bufferWrite .tx 0 511 [7, 8])) bootGranted) .hostDuty = true ∧
    refuses (performAct (.hostBegin (.bufferWrite .tx 0 0 [7])) { bootGranted with
      hostTx := ⟨1, 0, Vector.replicate 8 false⟩ }) .hostDuty = true := by decide +kernel

/-! ### What the client may write and return -/

/-- A delivery in progress on `holding`, of 32 bytes at 0x100413F0, whose descriptor has been rewritten since. -/
def deliveringHeld : State :=
  { holding with seq := .delivering ⟨0, 2⟩, rxCurId := 2, rxCurDlen := 32, dlvAddr := 0x10041400, dlvLen := 16 }

/-- R417, R248, R86: the last byte of the held buffer, the byte after it, and no byte at its end; with an RX buffer that begins there, and just past it; a byte
of the delivered buffer, and the byte below it; after an H_CREATE over the held id; and after a leak. -/
theorem test_client_shm_write :
    got (performAct (.client (.shmWrite 0x100413FF 1 7)) holding) (fun t => t.pwDevice == [⟨0x100413FF, [7]⟩]) = true ∧
    got (performAct (.client (.shmWrite 0x100413FF 1 7)) (holdingRx 0x10041400)) (fun _ => true) = true ∧
    refuses (performAct (.client (.shmWrite 0x100413FF 2 7)) holding) .clientShmWrite = true ∧
    got (performAct (.client (.shmWrite 0x10041400 0 7)) holding) (fun t => t == holding) = true ∧
    refuses (performAct (.client (.shmWrite 0x100413FF 1 7)) (holdingRx 0x100413FF)) .clientShmWrite = true ∧
    refuses (performAct (.client (.shmWrite 0x100413F0 1 7)) deliveringHeld) .clientShmWrite = true ∧
    got (performAct (.client (.shmWrite 0x100413EF 1 7)) deliveringHeld) (fun _ => true) = true ∧
    got (performAct (.client (.shmWrite 0x100413FF 1 7)) { holding with hostTx := HostRing.created }) (fun _ => true) = true ∧
    refuses (performAct (.client (.shmWrite 0x100413FF 1 7)) (holding.leak 1)) .clientShmWrite = true := by decide +kernel
/-- R100, R331: after an H_CREATE over a held id, the host writes a buffer just past the held one and none of its bytes; and neither
the delivered buffer nor the descriptor of the RX id in process. -/
theorem test_host_gives_way :
    (let writes (id : Fin 8) (off : Nat) (s : State) := performActs [.hostBegin (.bufferWrite .tx id off [7]), .hostStep]
        (put (descAddrAt s.cfg .tx 5) 8 0x100413E0 (put (descLenAt s.cfg .tx 5) 4 64 { s with hostTx := HostRing.created }))
     got (writes 5 32 holding) (fun t => t.pwHost == [⟨0x10041400, [7]⟩]) = true ∧
     refuses (writes 5 31 holding) .hostDuty = true ∧
     refuses (writes 5 32 { deliveringHeld with txHeld := 0 }) .hostDuty = true) ∧
    refuses (performActs [.hostBegin (.descWrite .rx 2 0 0), .hostStep] deliveringHeld) .hostDuty = true ∧
    got (performActs [.hostBegin (.descWrite .rx 3 0 0), .hostStep] deliveringHeld) (fun _ => true) = true := by decide +kernel
/-- R331, R338: the host, which has reaped the id that is being returned, writes its buffer while the block is at the second barrier,
and not before used.idx is committed. -/
theorem test_host_fills_returned :
    (let fill (s : State) := performActs [.hostBegin (.bufferWrite .tx 1 511 [7]), .hostStep]
        (put (descAddrAt s.cfg .tx 1) 8 0x10041200 (put (descLenAt s.cfg .tx 1) 4 512 { s with hostTx := HostRing.created }))
     got (fill (publishing .barrier2)) (fun t => t.pwHost == [⟨0x100413FF, [7]⟩] && t.isHeld 1) = true ∧
     refuses (fill (publishing .idx)) .hostDuty = true ∧
     refuses (fill { publishing .barrier2 with pwDevice := [⟨0x100400A2, [2, 0]⟩] }) .hostDuty = true) := by decide +kernel
/-- R336: an owned id is granted with any address, over a ring instance and outside the windows too. R100, S4: while the device has a
buffer over the TX ring's last avail bytes, the client writes them (R417), and the host none of them and all before. -/
theorem test_host_places_buffers :
    ([0x10040082, 0x100400E5, 0xFFFFFFFFFF].all fun addr =>
      got (performAct (.hostBegin (.grant .tx [⟨0, addr, 4, none, []⟩])) State.reset) (fun t => t.hostRun.isSome)) = true ∧
    (let laidAt (a : Word) : State := { holding with heldAddr := holding.heldAddr.set 1 a }
     let writes (a : Word) := performActs [.hostBegin (.usedEvent .tx 7), .hostStep] (laidAt a)
     got (writes 0x10040096) (fun t => t.pwHost == [⟨0x10040094, [7, 0]⟩]) = true ∧
     refuses (writes 0x10040095) .hostDuty = true ∧
     got (performAct (.client (.shmWrite 0x10040095 1 7)) (laidAt 0x10040095)) (fun t => t.pwDevice.length == 1) = true) := by
  decide +kernel
/-- U4 of 93_implementation_defined.md: no PUBLISH_TX returns a leaked id; it faults as one of an id not held (R126, log 30), but for
one above the capacity (R381, R382). -/
theorem test_leaked_id_stays :
    got (step (leaking 512)) (fun t => t.faultReg == 0x0104 && t.faultInfo == 1 && t.isHeld 1 && t.pwDevice.isEmpty) = true ∧
    got (step (leaking 513)) (fun t => t.faultReg == 0x0204 && t.faultInfo == 513 && t.isHeld 1) = true ∧
    got (exec .frameSend (args 0x400 0x401 0x20000000 49 granted64)) (fun t => t.isLeaked 3 && t.isHeld 3) = true := by
  decide +kernel

/-! ### Runs (R393), and one that never ends (R241, R394) -/

/-- P6 of 95_test_vectors.md: DESYNC, then a hardware reset: the run ends unsuccessfully. -/
def runP6 : State := { put 0x10040082 2 10 (readyAt 1 0) with acts := [.client (.regWrite 0x30000000 4 3), .block, .block, .reset] }
theorem test_run_P6 :
    got (stepN 3 runP6) (fun t => t.faultReg == 0x0001 && t.faultInfo == 0x000A0001) = true ∧
    got (stepN 4 runP6) (fun t => t.faultReg == 0 && t.stateReg == 0) = true ∧ faultReached 4 runP6 = true := by decide +kernel

/-- A write of an ARGn is no command; a write of CMD is one. -/
theorem test_issues_command :
    State.reset.issuesCommand (.client (.regWrite 0x30000020 4 1)) = false ∧
    State.reset.issuesCommand (.client (.regWrite 0x30000000 4 1)) = true := by decide

/-- A running POLL_RX in a machine whose host owns RX id 2, of capacity 0, and posts it for ever. -/
def postedForEver : State :=
  { put (descAddrAt Config.example .rx 2) 8 0x10042000 (readyAt 1 0) with
    seq := .busy (.peek .poll 0) none
    cycle :=
      .hostBegin (.grant .rx [⟨2, 0x10042000, 0, none, []⟩]) :: List.replicate 3 .hostStep ++ List.replicate 3 (.drain .host) ++
      [.hostStep, .hostStep, .drain .host] ++ List.replicate 6 .block ++ [.drain .device, .drain .device, .block, .block] ++
      [.drain .device, .block, .hostBegin (.reap .rx 1), .hostStep, .hostStep, .hostStep] }

/-- One round of the endless schedule, whose block turn waits at the loop's head for what the round then posts: another iteration
of the same POLL_RX, which is then where it was, one entry further. -/
theorem test_poll_never_ends :
    got (performActs postedForEver.cycle postedForEver) (fun t =>
      t.seq == .busy (.peek .poll 1) none && t.rxProcessed == 1 && t.hostRx.owns 2 && t.hostRun == none && t.pwHost == [] &&
      t.pwDevice == [] && t.cycle == postedForEver.cycle) = true ∧
    postedForEver.schedule = .drain .device :: .drain .host :: .block :: postedForEver.cycle := by decide +kernel

/-! ### Witnesses: the hypotheses of each statement, met -/

theorem got_next {r : Result} {p : State → Bool} (h : got r p = true) : ∃ t, r = .next t ∧ p t = true := by
  cases r with
  | next t => exact ⟨t, rfl, h⟩
  | fault _ => cases h
  | refused _ => cases h

theorem answers {r : Result} (h : got r (fun _ => true) = true) : ∃ t, r = .next t :=
  (got_next h).imp fun _ ht => ht.1

/-- A command word waiting, a running command, and an illegal configuration. -/
def withWord (w : Word) : State := { State.reset with cmd := some w }

theorem witness_StepRunsTheDecodedCommand :
    (withWord 8).cfg.ok = true ∧ (withWord 8).acts = [] ∧ (withWord 8).seq.isBusy = false ∧ (withWord 8).cmd = some 8 ∧
    decodeWord 8 = .ok .query ∧ { State.reset with acts := [.block] }.acts = [.block] ∧
    (withWord 8).cycle = [] ∧ { State.reset with cycle := [.block] }.cycle ≠ [] ∧ State.reset.acts = [] ∧
    { State.reset with cfg := { Config.example with initBudget := 0 } }.cfg.ok = false := by decide

theorem witness_IllegalWordChangesStatusOnly :
    (withWord 0x103).cfg.ok = true ∧ (withWord 0x103).seq.isBusy = false ∧ (withWord 0x103).cmd = some 0x103 ∧
    decodeWord 0x103 = .error .reservedBits ∧ decodeWord 9 = .error .unassignedOpcode ∧ (withWord 0x103).acts = [] ∧ (withWord 0x103).cycle = [] ∧
    { withWord 0x103 with acts := [.block], fault := .doubleGrant }.acts = [.block] := by decide

theorem witness_BusyHoldsAndFaultedAnswersFaulted :
    (publishing .id).seq.isBusy = true ∧ (∃ t, performAct .block (publishing .id) = .next t) ∧
    { State.reset with fault := .desync .tx }.seq.isBusy = false ∧ { State.reset with fault := .desync .tx }.fault ≠ .none :=
  ⟨rfl, answers (by decide +kernel), rfl, by decide⟩

theorem witness_NestingErrorsFault :
    delivering.fault = .none ∧ delivering.seq = .delivering ⟨0, 2⟩ ∧ State.reset.fault = .none ∧ State.reset.seq = .idle := by
  decide

/-- n = 0 and n = 1 for PUBLISH_TX, n = 3 for FRAME_SEND. -/
theorem witness_UnwrittenOperandFaults :
    (State.reset.seq.isBusy = false ∧ State.reset.fault = .none ∧ State.reset.written 0 = false) ∧
    ((∀ m : Fin 4, m < 1 → (State.reset.writeArg 0 1).written m = true) ∧ (State.reset.writeArg 0 1).written 1 = false) ∧
    ((∀ m : Fin 4, m < 3 → { readyAt 1 0 with argWritten := #v[true, true, true, false] }.written m = true) ∧
      { readyAt 1 0 with argWritten := #v[true, true, true, false] }.written 3 = false) := by decide

theorem witness_NotReadyEndsNotInitialized :
    ∀ i ∈ [Instr.shutdown, .acquireTx, .publishTx, .frameSend, .pollRx],
      (args 0 0 0 0 State.reset).accepts i ∧ (args 0 0 0 0 State.reset).ch ≠ .ready := by
  unfold State.accepts; decide

theorem witness_ShutdownLeavesReady :
    (readyAt 1 0).accepts .shutdown ∧ State.reset.accepts .shutdown ∧
    delivering.fault = .none ∧ delivering.seq.sub = .delivering := by
  unfold State.accepts; decide

theorem witness_QueryReportsReadiness :
    (delivering.seq.isBusy = false ∧ delivering.fault = .none) ∧ State.reset.seq.isBusy = false ∧ State.reset.fault = .none := by
  decide

theorem witness_InitOfARunningChannelDoesNothing : (readyAt 1 0).accepts .init ∧ (readyAt 1 0).ch ≠ .uninitialized := by
  unfold State.accepts; decide

theorem witness_InitTimesOutWithoutAGrant :
    State.reset.cfg.ok = true ∧ State.reset.accepts .init ∧ State.reset.ch = .uninitialized ∧
    State.reset.availIdxSeen .tx = 0 := by
  unfold State.accepts; decide +kernel

/-- The first buffer takes exactly the 56 bytes. -/
theorem witness_InitAnnouncesTheEndpoint :
    let s := grant .tx 0 0 0x10041000 56 1 State.reset
    s.cfg.ok = true ∧ s.accepts .init ∧ s.ch = .uninitialized ∧ s.offers .tx 0 0 ∧ s.bufferOk .tx 0 = true ∧
    56 ≤ (s.descLenSeen .tx 0).toNat := by
  unfold State.accepts State.offers; decide +kernel

/-- A first buffer one byte too small, and an old avail.idx of 9. -/
theorem witness_InitFailsWithoutAnnouncing :
    let s := grant .tx 0 0 0x10041000 55 1 State.reset
    (s.cfg.ok = true ∧ s.accepts .init ∧ s.ch = .uninitialized) ∧
    (s.offers .tx 0 0 ∧ s.bufferOk .tx 0 = true ∧ (s.descLenSeen .tx 0).toNat < 56) ∧
    ((put 0x10040082 2 9 State.reset).accepts .init ∧ ringN < gap ((put 0x10040082 2 9 State.reset).availIdxSeen .tx) 0) := by
  unfold State.accepts State.offers; decide +kernel

theorem publishing_sequencerFits (ph : PushPhase) : (publishing ph).sequencerFits where
  faulted h := absurd rfl h
  idle _ h := by simp [publishing] at h
  delivering _ h := by simp [publishing] at h
  waiting _ h := by simp [publishing] at h
  announcing p o h ha := by
    simp only [publishing, Seq.busy.injEq] at h
    obtain ⟨rfl, rfl⟩ := h
    simp [Pos.announces, Pos.frame?] at ha
  ready _ _ _ _ _ := rfl
  nested _ _ h := by simp [publishing] at h

theorem witness_ChannelMovesAlongItsEdges :
    (publishing .barrier2).sequencerFits ∧ (∃ t, performAct .block (publishing .barrier2) = .next t) ∧
    (∃ t, performAct .hostStep State.reset = .next t) :=
  ⟨publishing_sequencerFits _, answers (by decide +kernel), answers (by decide +kernel)⟩

/-- The full ring, gap 8, and nested in a delivery. -/
theorem witness_AcquireTakesTheNextBuffer :
    let s := grant .tx 0 3 0x1004FE00 512 8 (readyAt 0 0)
    let n := grant .tx 1 3 0x10050000 0 2 delivering
    (s.cfg.ok = true ∧ s.accepts .acquireTx ∧ s.ch = .ready ∧ s.offers .tx s.txLast 3 ∧ s.isHeld 3 = false ∧
      s.bufferOk .tx 3 = true) ∧
    (n.accepts .acquireTx ∧ n.offers .tx n.txLast 3 ∧ n.isHeld 3 = false ∧ n.bufferOk .tx 3 = true) := by
  unfold State.accepts State.offers; decide +kernel

theorem witness_EmptyRingsEndAtOnce :
    let s := put 0x10040082 2 1 (readyAt 1 0)
    s.cfg.ok = true ∧ s.ch = .ready ∧ s.availIdxSeen .tx = s.txLast ∧ s.accepts .acquireTx ∧ s.accepts .frameSend ∧
    s.privOutside (s.arg 2) (s.arg 3).toNat = false ∧ s.availIdxSeen .rx = s.rxLast ∧ s.accepts .pollRx := by
  unfold State.accepts; decide +kernel

/-- Gap 9; id 8; a held id; a buffer that ends one byte past its window. -/
theorem witness_AcquireFaults :
    let d := put 0x10040082 2 9 (readyAt 0 0)
    let b := put 0x10040082 2 8 (put 0x10040084 2 8 (readyAt 0 0))
    let h := grant .tx 2 1 0x10041200 512 3 holding
    let o := grant .tx 0 3 0x1004FE00 513 1 (readyAt 0 0)
    (d.cfg.ok = true ∧ d.accepts .acquireTx ∧ d.ch = .ready ∧ d.availIdxSeen .tx ≠ d.txLast ∧
      ringN < gap (d.availIdxSeen .tx) d.txLast) ∧
    (gap (b.availIdxSeen .tx) b.txLast ≤ ringN ∧ 8 ≤ (b.slotSeen .tx b.txLast).toNat ∧ b.availIdxSeen .tx ≠ b.txLast) ∧
    (h.accepts .acquireTx ∧ h.offers .tx h.txLast 1 ∧ h.isHeld 1 = true) ∧
    (o.accepts .acquireTx ∧ o.offers .tx o.txLast 3 ∧ o.isHeld 3 = false ∧ o.bufferOk .tx 3 = false) ∧
    (∀ s ∈ [d, b, h, o], s.accepts .frameSend ∧ s.ch = .ready ∧ s.availIdxSeen .tx ≠ s.txLast ∧
      s.privOutside (s.arg 2) (s.arg 3).toNat = false) := by
  unfold State.accepts State.offers; decide +kernel

/-- For INIT's clause: id 8 in a full ring, and a buffer that ends one byte past its window. -/
theorem witness_AcquireFaults_init :
    let b := put 0x10040082 2 8 (put 0x10040084 2 8 State.reset)
    let o := grant .tx 0 3 0x1004FE00 513 1 State.reset
    (∀ s ∈ [b, o], s.cfg.ok = true ∧ s.accepts .init ∧ s.ch = .uninitialized ∧ s.availIdxSeen .tx ≠ 0 ∧
      gap (s.availIdxSeen .tx) 0 ≤ ringN) ∧
    8 ≤ (b.slotSeen .tx 0).toNat ∧ o.offers .tx 0 3 ∧ o.bufferOk .tx 3 = false := by
  unfold State.accepts State.offers; decide +kernel

/-- n = capacity. -/
theorem witness_PublishReturnsTheBuffer :
    let s := args 1 512 0 0 holding
    s.cfg.ok = true ∧ s.accepts .publishTx ∧ s.ch = .ready ∧ (s.arg 0).toNat = (1 : Fin 8).val ∧ s.isHeld 1 = true ∧
    s.isLeaked 1 = false ∧ (s.arg 1).toNat ≤ s.heldCap[1].toNat := by
  unfold State.accepts; decide

theorem witness_PublishFaults :
    let r := args 8 0 0 0 holding
    let u := args 7 0 0 0 holding
    let l := args 1 513 0 0 holding
    (r.accepts .publishTx ∧ r.ch = .ready ∧ 8 ≤ (r.arg 0).toNat) ∧
    (u.accepts .publishTx ∧ (u.arg 0).toNat = (7 : Fin 8).val ∧ u.isHeld 7 = false) ∧
    ((leaking 512).accepts .publishTx ∧ ((leaking 512).arg 0).toNat = (1 : Fin 8).val ∧ (leaking 512).isHeld 1 = true ∧
      ((leaking 512).arg 1).toNat ≤ (leaking 512).heldCap[1].toNat ∧ (leaking 512).isLeaked 1 = true) ∧
    (l.accepts .publishTx ∧ (l.arg 0).toNat = (1 : Fin 8).val ∧ l.isHeld 1 = true ∧ l.heldCap[1].toNat < (l.arg 1).toNat) := by
  unfold State.accepts; decide

theorem witness_PublishedEntryIsInMemory :
    let s := args 1 512 0 0 holding
    s.cfg.ok = true ∧ s.accepts .publishTx ∧ ∃ t, exec .publishTx s = .next t ∧ t.status = .ok :=
  ⟨by decide, by unfold State.accepts; decide,
    (got_next (p := fun t => t.status == .ok) (by decide +kernel)).imp fun _ h => ⟨h.1, by simpa using h.2⟩⟩

theorem witness_EnvelopeRoundTrip : 0xFFFF ≤ 0xFFFF := by decide

/-- 16 + L = the capacity of 64. -/
theorem witness_FrameSendPublishesTheFrame :
    let s := args 0x400 0x401 0x20000000 48 granted64
    s.cfg.ok = true ∧ s.accepts .frameSend ∧ s.ch = .ready ∧ s.privOutside (s.arg 2) (s.arg 3).toNat = false ∧
    s.offers .tx s.txLast 3 ∧ s.isHeld 3 = false ∧ s.bufferOk .tx 3 = true ∧ (s.arg 3).toNat ≤ 0xFFFF ∧
    16 + (s.arg 3).toNat ≤ (s.descLenSeen .tx 3).toNat := by
  unfold State.accepts State.offers; decide +kernel

/-- 16 + L = the capacity of 64 and 1 more; and L = 0x10000 into a buffer that would take it. -/
theorem witness_OversizeFrameLeaksTheBuffer :
    let s := args 0x400 0x401 0x20000000 49 granted64
    let w := args 0x400 0x401 0x20000000 0x10000 { grant .tx 1 1 0x10100000 0x20000 2 (readyAt 1 0) with
      cfg := { Config.example with priv := ⟨0x20000000, 0x20000⟩ } }
    (s.cfg.ok = true ∧ s.accepts .frameSend ∧ s.ch = .ready ∧ s.privOutside (s.arg 2) (s.arg 3).toNat = false ∧
      s.offers .tx s.txLast 3 ∧ s.isHeld 3 = false ∧ s.bufferOk .tx 3 = true ∧
      (s.descLenSeen .tx 3).toNat < 16 + (s.arg 3).toNat) ∧
    (w.cfg.ok = true ∧ w.accepts .frameSend ∧ w.privOutside (w.arg 2) (w.arg 3).toNat = false ∧ w.offers .tx w.txLast 1 ∧
      w.isHeld 1 = false ∧ w.bufferOk .tx 1 = true ∧ 0xFFFF < (w.arg 3).toNat) := by
  unfold State.accepts State.offers; decide +kernel

/-- A leaked id, over a QUERY. -/
theorem witness_OversizeFrameLeaksTheBuffer_stays :
    let s := { leaking 0 with cmd := some 8 }
    s.leaksFit ∧ (∃ t, step s = .next t) ∧ (∀ rest, s.acts ≠ .reset :: rest) ∧
      (s.cmd = some (encode .init) → s.ch ≠ .uninitialized) ∧ s.isLeaked 1 = true := by
  refine ⟨⟨by decide, ?_⟩, answers (by decide +kernel), by simp [leaking, holding, readyAt, State.reset, args, State.hold,
    State.leak, State.writeArg], by decide, by decide⟩
  intro p o h
  exact absurd h (by simp [leaking, holding, readyAt, State.reset, args, State.hold, State.leak, State.writeArg])

/-- One byte past PRIV's end, and one before its base. -/
theorem witness_FrameSendOutsidePrivFaults :
    ∀ s ∈ [args 0 0 0x20000FFC 5 (readyAt 1 0), args 0 0 0x1FFFFFFF 1 (readyAt 1 0)],
      s.accepts .frameSend ∧ s.ch = .ready ∧ 0 < (s.arg 3).toNat ∧
      ¬ (s.cfg.priv.base.toNat ≤ (s.arg 2).toNat ∧
          (s.arg 2).toNat + (s.arg 3).toNat ≤ s.cfg.priv.base.toNat + s.cfg.priv.size.toNat) := by
  unfold State.accepts; decide

theorem witness_SentFrameIsInTheBuffer :
    let s := args 0x400 0x401 0x20000000 48 granted64
    s.cfg.ok = true ∧ s.accepts .frameSend ∧ (∃ t, exec .frameSend s = .next t ∧ t.status = .ok) ∧
    (3 : Fin 8).val = (s.slotSeen .tx s.txLast).toNat ∧
    disjointRanges (s.descAddrSeen .tx 3).toNat (16 + (s.arg 3).toNat) s.cfg.txBase.toNat ringBytes = true :=
  ⟨by decide, by unfold State.accepts; decide,
    (got_next (p := fun t => t.status == .ok) (by decide +kernel)).imp fun _ h => ⟨h.1, by simpa using h.2⟩,
    by decide +kernel, by decide +kernel⟩

/-- A frame that fills its buffer: 16 + 496 = 512. -/
theorem witness_PollDeliversAWellFormedFrame :
    let s := envelopeAt 0x10042400 0x401 0x999 496 (grant .rx 0 2 0x10042400 512 1 (readyAt 1 0))
    s.cfg.ok = true ∧ s.accepts .pollRx ∧ s.ch = .ready ∧ s.offers .rx s.rxLast 2 ∧ s.bufferOk .rx 2 = true ∧
    16 ≤ (s.descLenSeen .rx 2).toNat ∧
    16 + (s.envelopeSeen (s.descAddrSeen .rx 2).toNat).len.toNat ≤ (s.descLenSeen .rx 2).toNat := by
  unfold State.accepts State.offers; decide +kernel

/-- A capacity of 15, and a frame of 17 bytes in a buffer of 16. -/
theorem witness_PollDropsAMalformedFrame :
    let s := grant .rx 0 4 0x10042800 15 1 (readyAt 1 0)
    let w := envelopeAt 0x10042800 0 0 1 (grant .rx 0 4 0x10042800 16 1 (readyAt 1 0))
    (s.cfg.ok = true ∧ s.accepts .pollRx ∧ s.ch = .ready ∧ s.offers .rx s.rxLast 4 ∧ s.availIdxSeen .rx = s.rxLast + 1 ∧
      s.bufferOk .rx 4 = true ∧ (s.descLenSeen .rx 4).toNat < 16) ∧
    (w.accepts .pollRx ∧ w.offers .rx w.rxLast 4 ∧ w.availIdxSeen .rx = w.rxLast + 1 ∧ w.bufferOk .rx 4 = true ∧
      (w.descLenSeen .rx 4).toNat < 16 + (w.envelopeSeen (w.descAddrSeen .rx 4).toNat).len.toNat) := by
  unfold State.accepts State.offers; decide +kernel

theorem witness_ReleaseReturnsTheDescriptor :
    delivering.cfg.ok = true ∧ delivering.accepts .rxRelease ∧ delivering.seq = .delivering ⟨0, 2⟩ ∧
    delivering.availIdxSeen .rx = (⟨0, 2⟩ : Suspended).cursor + 1 := by
  unfold State.accepts; decide +kernel

theorem witness_PollFaults :
    let d := put 0x10040482 2 9 (readyAt 1 0)
    let b := put 0x10040482 2 8 (put 0x10040484 2 8 (readyAt 1 0))
    let o := grant .rx 0 4 0x10042000 0x20000 1 (readyAt 1 0)
    (d.cfg.ok = true ∧ d.accepts .pollRx ∧ d.ch = .ready ∧ d.availIdxSeen .rx ≠ d.rxLast ∧
      ringN < gap (d.availIdxSeen .rx) d.rxLast) ∧
    (gap (b.availIdxSeen .rx) b.rxLast ≤ ringN ∧ 8 ≤ (b.slotSeen .rx b.rxLast).toNat) ∧
    (o.accepts .pollRx ∧ o.offers .rx o.rxLast 4 ∧ o.bufferOk .rx 4 = false) := by
  unfold State.accepts State.offers; decide +kernel

/-- For the clause after an RX_RELEASE at cursor 0: gap 9 over 1; gap 8 with id 8 in slot 1; a buffer past its window. -/
theorem witness_PollFaults_release :
    let d := put 0x10040482 2 10 delivering
    let b := put 0x10040482 2 9 (put 0x10040486 2 8 delivering)
    let o := grant .rx 1 4 0x10042000 0x20000 2 delivering
    (∀ s ∈ [d, b, o], s.cfg.ok = true ∧ s.accepts .rxRelease ∧ s.seq = .delivering ⟨0, 2⟩ ∧
      s.availIdxSeen .rx ≠ (⟨0, 2⟩ : Suspended).cursor + 1) ∧
    ringN < gap (d.availIdxSeen .rx) 1 ∧ (gap (b.availIdxSeen .rx) 1 ≤ ringN ∧ 8 ≤ (b.slotSeen .rx 1).toNat) ∧
    (o.offers .rx 1 4 ∧ o.bufferOk .rx 4 = false) := by
  unfold State.accepts State.offers; decide +kernel

/-- For the clause about one event of any iteration. -/
theorem witness_PollFaults_event :
    let p := { put 0x10040482 2 9 (readyAt 1 0) with seq := .busy (.peek .poll 0) none }
    let q := { put 0x10040484 2 8 (readyAt 1 0) with seq := .busy (.slot .poll 0) none }
    let d := { put 0x10040448 4 0x20000 (readyAt 1 0) with seq := .busy (.descLen .poll 0 4 0x10042000) none }
    (p.cfg.ok = true ∧ p.fault = .none ∧ p.availIdxSeen .rx ≠ 0 ∧ ringN < gap (p.availIdxSeen .rx) 0) ∧
    8 ≤ (q.slotSeen .rx 0).toNat ∧ bufferInWindow d.cfg 0x10042000 (d.descLenSeen .rx 4) = false := by decide +kernel

/-- The full ring, K = 8, and the empty one, K = 0. -/
theorem witness_ReceiveDrainsExactlyTheRing :
    (fullRx.cfg.ok = true ∧ fullRx.accepts .pollRx ∧ fullRx.ch = .ready ∧ gap (fullRx.availIdxSeen .rx) fullRx.rxLast = 8 ∧
      ∀ j < 8, ∃ id : Fin 8, (fullRx.slotSeen .rx (fullRx.rxLast + u16 j)).toNat = id.val ∧ fullRx.bufferOk .rx id = true) ∧
    gap ((readyAt 1 0).availIdxSeen .rx) (readyAt 1 0).rxLast = 0 := by
  unfold State.accepts; decide +kernel

theorem witness_EveryCommandEndsOrDelivers : bootGranted.cfg.ok = true ∧ bootGranted.seq.isBusy = false := by decide

theorem witness_ExecIsMadeOfEvents :
    bootGranted.seq.isBusy = false ∧ ∃ t, exec .init bootGranted = .next t :=
  ⟨rfl, answers (by decide +kernel)⟩

theorem witness_FaultIsSticky :
    { State.reset with fault := .desync .tx, cmd := some 1 }.fault ≠ .none ∧
    (∀ rest, { State.reset with fault := .desync .tx, cmd := some 1 }.acts ≠ .reset :: rest) ∧
    (∃ t, step { State.reset with fault := .desync .tx, cmd := some 1 } = .next t) ∧
    ∃ t u, stepN 3 runP6 = .next t ∧ t.fault ≠ .none ∧ stepN (3 + 1) runP6 = .next u :=
  ⟨by decide, by simp [State.reset], answers (by decide +kernel),
    (got_next (p := fun t => t.fault != .none) (by decide +kernel)).imp fun _ h =>
      (answers (r := stepN (3 + 1) runP6) (by decide +kernel)).imp fun _ hu => ⟨h.1, by simpa using h.2, hu⟩⟩

theorem witness_ConfigurationIsFixed : ∃ t, step bootGranted = .next t := answers (by decide +kernel)

theorem witness_ControlAndAcquireFrames :
    (∃ t, exec .shutdown (readyAt 1 0) = .next t) ∧ (∃ t, exec .query delivering = .next t) ∧
    ∃ t, exec .acquireTx granted64 = .next t :=
  ⟨answers (by decide +kernel), answers (by decide +kernel), answers (by decide +kernel)⟩

/-- The address below the used entry's id is outside what the command stores to. -/
theorem witness_PublishFrame :
    (∃ t, exec .publishTx (args 1 512 0 0 holding) = .next t) ∧ outsideUsed Config.example .tx holding.txUsed 0x100400AB :=
  ⟨answers (by decide +kernel), by unfold outsideUsed outside; decide⟩

theorem witness_FrameSendFrame :
    let s := args 0x400 0x401 0x20000000 48 granted64
    (∃ t, exec .frameSend s = .next t) ∧ outsideUsed s.cfg .tx s.txUsed 0x10041640 ∧
    ∀ id : Fin 8, id.val = (s.slotSeen .tx s.txLast).toNat → outside 0x10041640 (s.descAddrSeen .tx id).toNat 64 :=
  ⟨answers (by decide +kernel), by unfold outsideUsed outside; decide, by unfold outside; decide +kernel⟩

theorem witness_InitFrame :
    bootGranted.cfg.nameFits = true ∧ (∃ t, exec .init bootGranted = .next t) ∧
    outsideUsed bootGranted.cfg .tx 0 0x10041038 ∧
    ∀ id : Fin 8, id.val = (bootGranted.slotSeen .tx 0).toNat → outside 0x10041038 (bootGranted.descAddrSeen .tx id).toNat 56 :=
  ⟨by decide, answers (by decide +kernel), by unfold outsideUsed outside; decide, by unfold outside; decide +kernel⟩

theorem witness_ReceiveFrames :
    malformed.cfg.ok = true ∧ (∃ t, exec .pollRx malformed = .next t) ∧ ∃ t, exec .rxRelease delivering = .next t :=
  ⟨by decide, answers (by decide +kernel), answers (by decide +kernel)⟩

/-- Two device writes that share a byte, and a third that shares none. -/
def pending3 : State :=
  { readyAt 1 0 with pwDevice := [⟨0x10041000, [1, 2]⟩, ⟨0x10041001, [3]⟩, ⟨0x10041002, [4]⟩] }

theorem witness_CommitMovesOneEntryAndKeepsTheView : ∃ t, pending3.commit .device 2 = some t :=
  Option.isSome_iff_exists.mp (by decide)

theorem witness_CommitOrderDoesNotMatter :
    ∃ t, performActs ([2, 0, 0].map (.commit .device)) pending3 = .next t ∧ t.pending .device = [] :=
  (got_next (p := fun t => t.pwDevice == []) (by decide +kernel)).imp fun _ h => ⟨h.1, by simpa [State.pending] using h.2⟩

theorem witness_BarrierHoldsUntilDrained :
    ((publishing .barrier1).seq = .busy (.push .barrier1 ⟨.publish, 1, 21, 1⟩) none ∧ (publishing .barrier1).pwDevice = []) ∧
    (publishing .barrier2).seq = .busy (.push .barrier2 ⟨.publish, 1, 21, 1⟩) none ∧
    { publishing .barrier2 with pwDevice := pending3.pwDevice }.pwDevice ≠ [] ∧
    { State.reset with hostRun := some (.script [.barrier] .created) }.creationBroken = false ∧
    { State.reset with hostRun := some (.script [.barrier] .created) }.hostRun = some (.script (.barrier :: []) .created) := by
  decide

theorem witness_BlockStepIsOneEvent :
    (publishing .idx).seq = .busy (.push .idx ⟨.publish, 1, 21, 1⟩) none ∧ ∃ t, performAct .block (publishing .idx) = .next t :=
  ⟨rfl, answers (by decide +kernel)⟩

/-- An event that reads, with an address in it, and one that writes. -/
theorem witness_BlockIgnoresTheUninterpretedFields :
    Config.example.ok = true ∧ (Pos.peek .poll 0).event Config.example = .read 0x10040482 2 ∧ ¬ outside 0x10040483 0x10040482 2 ∧
    (Pos.push .len ⟨.publish, 7, 21, 7⟩).event Config.example = .write 0x100400E0 [21, 0, 0, 0] ∧
    ¬ outside 0x100400E3 0x100400E0 4 := by
  unfold outside; decide

theorem witness_StepsKeepMemoryCanonical :
    bootGranted.memoryCanonical ∧ ∃ t, step { bootGranted with cmd := some 1 } = .next t :=
  ⟨by unfold State.memoryCanonical; decide +kernel, answers (by decide +kernel)⟩

theorem witness_StepsKeepTheSequencerFitting :
    (publishing .id).sequencerFits ∧ ∃ t, step (publishing .id) = .next t :=
  ⟨publishing_sequencerFits _, answers (by decide +kernel)⟩

theorem witness_StepsKeepTheCursorsAgreeing :
    (publishing .id).sequencerFits ∧ (publishing .id).cursorsFit ∧ ∃ t, step (publishing .id) = .next t := by
  refine ⟨publishing_sequencerFits _, ⟨?_, ?_, ?_, ?_⟩, answers (by decide +kernel)⟩
  · intro _ h; exact absurd h (by decide)
  · intro p o h; simp only [publishing, Seq.busy.injEq] at h; obtain ⟨rfl, rfl⟩ := h; decide
  · intro p o h; simp only [publishing, Seq.busy.injEq] at h; obtain ⟨rfl, rfl⟩ := h; unfold Pos.localsFit; decide
  · intro k h; simp [publishing, Seq.outer] at h

theorem witness_StepsStayInsideTheWindows :
    (publishing .id).buffersFit ∧ ∃ t, step (publishing .id) = .next t := by
  refine ⟨⟨by decide, ?_, ?_⟩, answers (by decide +kernel)⟩
  · intro p o h; simp only [publishing, Seq.busy.injEq] at h; obtain ⟨rfl, rfl⟩ := h; trivial
  · intro todo fin h; exact absurd h (by simp [publishing, holding, readyAt, State.hold, State.reset])

theorem witness_StepsKeepThePublicationOrder :
    (publishing .barrier1).publicationOrdered ∧ ∃ t, step { publishing .barrier1 with acts := [.block] } = .next t :=
  ⟨⟨by simp [publishing], by simp [publishing]⟩, answers (by decide +kernel)⟩

theorem witness_HardwareResetClearsTheBlock :
    { publishing .idx with acts := [.reset] }.cfg.ok = true ∧ { publishing .idx with acts := [.reset] }.acts = .reset :: [] ∧
    ∃ t, step { publishing .idx with acts := [.reset] } = .next t :=
  ⟨by decide, rfl, _, rfl⟩

/-- The last register, and the one value that CMD reads as. -/
theorem witness_RegisterReads :
    let s := { readyAt 1 0 with acts := [.client (.regRead (0x30000000 + 0x4C) 4)] }
    s.cfg.ok = true ∧ s.cfg.regBase.toNat % 4 = 0 ∧ s.cmd = none ∧
    s.acts = .client (.regRead (s.cfg.regBase.toNat + 0x4C) 4) :: [] := by decide

theorem witness_RegisterWritesAndRefusals :
    let s := readyAt 1 0
    (s.cfg.ok = true ∧ s.cfg.regBase.toNat % 4 = 0 ∧ s.cmd = none) ∧
    (∀ n : Fin 4, { s with acts := [.client (.regWrite (0x30000020 + 4 * n.val) 4 7)] }.acts =
      .client (.regWrite (s.cfg.regBase.toNat + 0x20 + 4 * n.val) 4 7) :: []) ∧
    State.reset.written 3 = false ∧ s.written 3 = true ∧ s.cfg.regBase.toNat + 0x50 ≤ 0x30000050 ∧ 0x30000001 % 4 ≠ 0 := by
  decide

theorem holding_buffersFit (as : List Act) : { holding with acts := as }.buffersFit := by
  refine ⟨?_, ?_, ?_⟩
  · exact (by decide : ∀ id, holding.isHeld id = true → holding.cfg.inWindow holding.heldAddr[id].toNat holding.heldCap[id].toNat = true)
  · intro p o h; exact absurd h (by simp [holding, readyAt, State.hold, State.reset])
  · intro todo fin h; exact absurd h (by simp [holding, readyAt, State.hold, State.reset])

/-- Legal: the last byte of the held buffer, next to an RX buffer, and no byte at all just past it. Not legal: the byte after it, and
no byte one further (no buffer has them), a byte of a granted RX buffer, one of the delivered buffer, a leaked buffer. And a held CMD write. -/
theorem witness_ClientWritesOnlyHeldBuffers :
    (holding.cfg.ok = true ∧ { holding with acts := [.client (.shmWrite 0x100413FF 1 7)] }.buffersFit ∧ holding.cmd = none) ∧
    (let s := holdingRx 0x10041400
     s.seq = .idle ∧ s.isHeld 1 = true ∧ s.isLeaked 1 = false ∧
      s.heldAddr[1].toNat ≤ 0x100413FF ∧ 0x100413FF + 1 ≤ s.heldAddr[1].toNat + s.heldCap[1].toNat ∧
      s.hostRx.owns 2 = false ∧ (s.descAddrSeen .rx 2).toNat = 0x10041400 ∧ (s.descLenSeen .rx 2).toNat = 16) ∧
    (0x10041400 + 0 ≤ holding.heldAddr[1].toNat + holding.heldCap[1].toNat ∧
      ∀ p ∈ [(0x10041400, 1), (0x10041401, 0)], ¬ ∃ id : Fin 8, holding.isHeld id = true ∧ holding.heldAddr[id].toNat ≤ p.1 ∧
        p.1 + p.2 ≤ holding.heldAddr[id].toNat + holding.heldCap[id].toNat) ∧
    ((holdingRx 0x100413FF).hostRx.owns 2 = false ∧ ((holdingRx 0x100413FF).descAddrSeen .rx 2).toNat ≤ 0x100413FF) ∧
    (deliveringHeld.seq = .delivering ⟨0, 2⟩ ∧ (deliveringHeld.dlvAddr - 16).toNat = 0x100413F0) ∧
    (holding.leak 1).isLeaked 1 = true ∧ { holding with cmd := some 4 }.cmd ≠ none :=
  ⟨⟨by decide, holding_buffersFit _, rfl⟩, by decide +kernel, by decide, by decide +kernel, by decide, by decide, by decide⟩

/-- A host step that writes the byte past the held buffer's last. -/
theorem witness_ClientWritesOnlyHeldBuffers_host :
    let s := { holding with hostRun := some (.script [.write 0x10041400 [7]] .nothing) }
    (∃ t, performAct .hostStep s = .next t ∧ t.pwHost = s.pwHost ++ [⟨0x10041400, [7]⟩]) ∧
    s.isHeld 1 = true ∧ ∀ j o, s.seq ≠ .busy (.push .barrier2 j) o := by
  refine ⟨(got_next (p := fun t => t.pwHost == [⟨0x10041400, [7]⟩]) (by decide +kernel)).imp fun _ h => ⟨h.1, eq_of_beq h.2⟩,
    by decide, fun j o h => absurd h (by simp [holding, readyAt, State.hold, State.reset])⟩

theorem witness_GrantsPublishBehindABarrier :
    State.reset.cfg.ok = true ∧
    (∃ todo fin, grantScript State.reset .rx [⟨7, 0x10042000, 16, some (1, 2), [5, 6]⟩, ⟨9, 0, 0, none, []⟩] =
      some (.script todo fin)) ∧
    State.reset.hostRun = none ∧ ∀ r ∈ [Ring.tx, .rx], (State.reset.hostRing r).owns 7 = true :=
  ⟨by decide, ⟨_, _, rfl⟩, rfl, by decide⟩

/-- On the idle machine, and with RX id 2 in process while id 3 is granted. -/
theorem witness_GrantReachesTheDevice :
    State.reset.rxTaken ≠ some 7 ∧ delivering.rxTaken ≠ some 3 ∧ (delivering.hostRing .rx).owns 3 = true ∧
    State.reset.cfg.ok = true ∧ State.reset.hostRun = none ∧ State.reset.pwHost = [] ∧ State.reset.pwDevice = [] ∧
    (State.reset.hostRing .rx).owns 7 = true ∧
    (∀ q ∈ [Ring.tx, .rx], delivering.touchesTaken (ringBase Config.example q) ringBytes = false ∧
      State.reset.touchesTaken (ringBase Config.example q) ringBytes = false) := by decide +kernel

end Sys2Proof.Tests
end

section
/-! SUPPORT. The configuration along the moves of the machine (00_scope.md R9, 10_state.md R30). The block keeps more than the
configuration: everything that `untouched` names, shown here once for each procedure of the sequencer, for a block step, for a
command's acceptance and for a command run alone. -/

namespace Sys2Proof.Machine

variable {s t u : State}

/-! ### The block leaves untouched what no command changes -/

@[refl] theorem untouched.refl (s : State) : untouched s s := by constructor <;> rfl

theorem untouched.trans (h : untouched s t) (h' : untouched t u) : untouched s u where
  cfg := h'.cfg.trans h.cfg
  args := h'.args.trans h.args
  argWritten := h'.argWritten.trans h.argWritten
  priv := h'.priv.trans h.priv
  pwHost := h'.pwHost.trans h.pwHost
  hostTx := h'.hostTx.trans h.hostTx
  hostRx := h'.hostRx.trans h.hostRx
  hostRun := h'.hostRun.trans h.hostRun
  acts := h'.acts.trans h.acts
  cycle := h'.cycle.trans h.cycle
  clientReads := h'.clientReads.trans h.clientReads
  hostReads := h'.hostReads.trans h.hostReads
  freeCount := h'.freeCount.trans h.freeCount

/-! The updates that the procedures are made of. -/

theorem goto_untouched (p : Pos) (s : State) : untouched s (s.goto p) := by constructor <;> rfl

theorem finish_untouched (st : Status) (s : State) : untouched s (s.finish st) := by constructor <;> rfl

theorem raise_untouched (c : FaultCause) (i : Word) (s : State) : untouched s (s.raise c i) := by constructor <;> rfl

theorem setRes_untouched (n : Fin 4) (v : Word) (s : State) : untouched s (s.setRes n v) := by constructor <;> rfl

theorem hold_untouched (id : Fin 8) (a c : Word) (s : State) : untouched s (s.hold id a c) := by constructor <;> rfl

theorem unhold_untouched (id : Fin 8) (s : State) : untouched s (s.unhold id) := by constructor <;> rfl

theorem leak_untouched (id : Fin 8) (s : State) : untouched s (s.leak id) := by constructor <;> rfl

theorem setUsed_untouched (r : Ring) (v : Half) (s : State) : untouched s (s.setUsed r v) := by
  cases r <;> constructor <;> rfl

theorem issueWrite_device_untouched (x : Nat) (bs : List Byte) (s : State) : untouched s (s.issueWrite .device x bs) := by
  constructor <;> rfl

theorem commit_device_untouched {k : Nat} (h : s.commit .device k = some t) : untouched s t := by
  obtain ⟨w, -, -, rfl⟩ := commit_some h
  constructor <;> rfl

/-! The walker's checks: a fault, or what the command does next. -/

theorem availPeek_untouched (r : Ring) (c a : Half) {k : State → State} (hk : untouched s (k s)) :
    untouched s (availPeek r c a k s) := by
  obtain ⟨-, -, h⟩ | ⟨-, h⟩ := availPeek_cases r c a k s <;> rw [h]
  · exact raise_untouched _ _ s
  · exact hk

theorem takeSlot_untouched (r : Ring) (v : Half) {k : Fin 8 → State → State} (hk : ∀ id, untouched s (k id s)) :
    untouched s (takeSlot r v k s) := by
  obtain ⟨-, h⟩ | ⟨id, -, ⟨-, -, h⟩ | ⟨-, h⟩⟩ := takeSlot_cases r v k s <;> rw [h]
  · exact raise_untouched _ _ s
  · exact raise_untouched _ _ s
  · exact hk id

theorem readDesc_untouched (r : Ring) (addr : Dword) (len : Word) {k : Word → State → State}
    (hk : ∀ a, untouched s (k a s)) : untouched s (readDesc r addr len k s) := by
  obtain ⟨-, h⟩ | ⟨-, h⟩ := readDesc_cases r addr len k s <;> rw [h]
  · exact raise_untouched _ _ s
  · exact hk _

theorem usedPush_untouched (k : PushKind) (id : Fin 8) (n : Word) (s : State) : untouched s (usedPush k id n s) :=
  goto_untouched _ s

theorem pushAfter_untouched (ph : PushPhase) (j : PushJob) {done : State → State} (hd : untouched s (done s)) :
    untouched s (pushAfter ph j done s) := by
  cases ph with
  | id => exact goto_untouched _ s
  | len => exact goto_untouched _ s
  | barrier1 => exact goto_untouched _ s
  | idx => exact (setUsed_untouched _ _ s).trans (goto_untouched _ _)
  | barrier2 => exact hd

/-! The ends of the procedures (Sequencer.lean). -/

theorem announceEnd_untouched (st : Status) (s : State) : untouched s (announceEnd st s) := by
  unfold announceEnd
  split <;> constructor <;> rfl

theorem sendEnd_untouched (f : Frame) (st : Status) (s : State) : untouched s (sendEnd f st s) := by
  unfold sendEnd
  split
  · exact finish_untouched st s
  · exact announceEnd_untouched st s

theorem ringEmpty_untouched (w : Walk) (s : State) : untouched s (ringEmpty w s) := by
  cases w with
  | acquire => exact finish_untouched _ s
  | send f => exact sendEnd_untouched f _ s
  | poll => constructor <;> rfl

theorem advanceOnTake_untouched (w : Walk) (c : Half) (s : State) : untouched s (advanceOnTake w c s) := by
  cases w <;> constructor <;> rfl

theorem pollReturn_untouched (c : Half) (id : Fin 8) (s : State) : untouched s (pollReturn c id s) :=
  usedPush_untouched _ _ _ s

theorem dropFrame_untouched (c : Half) (id : Fin 8) (s : State) : untouched s (dropFrame c id s) := by constructor <;> rfl

theorem deliver_untouched (c : Half) (id : Fin 8) (addr : Word) (e : Envelope) (s : State) :
    untouched s (deliver c id addr e s) := by constructor <;> rfl

theorem afterDeliver_untouched (k : Suspended) (s : State) : untouched s (afterDeliver k s) := by constructor <;> rfl

theorem envelopeRead_untouched (c : Half) (id : Fin 8) (addr dlen : Word) (b : List Byte) (s : State) :
    untouched s (envelopeRead c id addr dlen b s) := by
  unfold envelopeRead
  split
  · exact deliver_untouched c id addr _ s
  · exact dropFrame_untouched c id s

theorem sendBytes_untouched (f : Frame) (id : Fin 8) (addr : Nat) (bs : List Byte) (s : State) :
    untouched s (sendBytes f id addr bs s) := by
  cases bs with
  | nil => exact usedPush_untouched _ _ _ s
  | cons b rest => exact goto_untouched _ s

/-- A buffer taken on the TX ring: the hold, then RES0 and RES1 (R163, R211). -/
theorem hold_setRes_untouched (id : Fin 8) (addr cap v w : Word) (s : State) :
    untouched s (((s.hold id addr cap).setRes 0 v).setRes 1 w) :=
  ((hold_untouched id addr cap s).trans (setRes_untouched 0 v _)).trans (setRes_untouched 1 w _)

theorem bufferTaken_untouched (w : Walk) (c : Half) (id : Fin 8) (cap addr : Word) (s : State) :
    untouched s (bufferTaken w c id cap addr s) := by
  cases w with
  | acquire => exact ((hold_setRes_untouched id addr cap _ _ s).trans (setRes_untouched 2 cap _)).trans (finish_untouched _ _)
  | send f =>
    have held := hold_setRes_untouched id addr cap (u32 id.val) (u32 f.size) s
    simp only [bufferTaken]
    split
    · exact (held.trans (leak_untouched id _)).trans (sendEnd_untouched f _ _)
    · exact held.trans (sendBytes_untouched f id _ _ _)
  | poll =>
    have current : untouched s { s with rxCurId := u16 id.val, rxCurDlen := cap } := by constructor <;> rfl
    simp only [bufferTaken]
    split
    · exact current.trans (goto_untouched _ _)
    · exact current.trans (dropFrame_untouched c id _)

theorem pushDone_untouched (j : PushJob) (s : State) : untouched s (pushDone j s) := by
  unfold pushDone
  split
  · exact (unhold_untouched j.id s).trans (finish_untouched _ _)
  · exact (unhold_untouched j.id s).trans (sendEnd_untouched _ _ _)
  · constructor <;> rfl

/-! INIT's wait. -/

theorem announceStart_untouched (s : State) : untouched s (announceStart s) := by constructor <;> rfl

theorem waitLoop_untouched (s : State) : untouched s (waitLoop s) := by
  unfold waitLoop
  split <;> constructor <;> rfl

theorem initPeeked_untouched (a : Half) (s : State) : untouched s (initPeeked a s) := by
  have counted : untouched s { s with waitCnt := s.waitCnt + 1 } := by constructor <;> rfl
  refine availPeek_untouched _ _ _ ?_
  simp only
  split
  · exact counted.trans (announceStart_untouched _)
  · exact counted.trans (waitLoop_untouched _)

/-! Block steps and the block alone. -/

theorem Pos.resume_untouched (p : Pos) (v : Nat) (s : State) : untouched s (p.resume v s) := by
  cases p with
  | initPeek => exact initPeeked_untouched _ s
  | peek w c =>
    simp only [Pos.resume]
    refine availPeek_untouched _ _ _ ?_
    split
    · exact ringEmpty_untouched w s
    · exact goto_untouched _ s
  | slot w c =>
    simp only [Pos.resume]
    exact takeSlot_untouched _ _ fun id => (advanceOnTake_untouched w c s).trans (goto_untouched _ _)
  | descAddr w c id => exact goto_untouched _ s
  | descLen w c id addr => exact readDesc_untouched _ _ _ fun a => bufferTaken_untouched w c id _ a s
  | txByte f id addr b rest => exact sendBytes_untouched f id _ rest s
  | rxEnv c id addr dlen got =>
    simp only [Pos.resume]
    split
    · exact goto_untouched _ s
    · exact envelopeRead_untouched c id addr dlen _ s
  | push ph j => exact pushAfter_untouched ph j (pushDone_untouched j s)

theorem blockStep_untouched (h : blockStep s = .next t) : untouched s t := by
  obtain ⟨-, rfl⟩ | ⟨p, o, -, hp⟩ := blockStep_next h
  · rfl
  · obtain ⟨x, n, -, -, rfl⟩ | ⟨x, bs, -, -, rfl⟩ | ⟨-, -, rfl⟩ | ⟨-, -, rfl⟩ := hp
    · exact p.resume_untouched _ s
    · exact (issueWrite_device_untouched x bs s).trans (p.resume_untouched _ _)
    · exact p.resume_untouched _ s
    · rfl

theorem soloStep_untouched (h : soloStep s = .next t) : untouched s t := by
  obtain ⟨p, o, -, -, hc⟩ | hb := soloStep_next h
  · exact commit_device_untouched hc
  · exact blockStep_untouched hb

theorem runAlone_untouched (h : runAlone s = .next t) : untouched s t :=
  drive_induction (P := untouched s) (fun _ _ hu hv => hu.trans (soloStep_untouched hv)) (.refl s) h

/-! Acceptance, and a command run to its end alone. -/

theorem startOf_untouched (i : Instr) (s : State) : untouched s (startOf i s) := by
  cases i with
  | init =>
    simp only [startOf, startInit]
    split
    · exact .trans (by constructor <;> rfl) (waitLoop_untouched _)
    · exact finish_untouched _ s
  | shutdown =>
    simp only [startOf, startShutdown]
    split <;> constructor <;> rfl
  | acquireTx =>
    simp only [startOf, startAcquireTx]
    split
    · exact goto_untouched _ s
    · exact finish_untouched _ s
  | publishTx =>
    simp only [startOf, startPublishTx]
    repeat' split
    · exact raise_untouched _ _ s
    · exact raise_untouched _ _ s
    · exact usedPush_untouched _ _ _ s
    · exact raise_untouched _ _ s
    · exact raise_untouched _ _ s
    · exact finish_untouched _ s
  | frameSend =>
    simp only [startOf, startFrameSend]
    repeat' split
    · exact raise_untouched _ _ s
    · exact goto_untouched _ s
    · exact finish_untouched _ s
  | pollRx =>
    simp only [startOf, startPollRx]
    split <;> constructor <;> rfl
  | rxRelease =>
    simp only [startOf, startRxRelease]
    split
    · exact afterDeliver_untouched _ s
    · rfl
  | query => constructor <;> rfl

theorem accept_untouched (i : Instr) (s : State) : untouched s (accept i (startOf i) s) := by
  obtain ⟨-, h⟩ | ⟨-, e, -, h⟩ | ⟨-, -, n, -, h⟩ | ⟨-, -, -, h⟩ := accept_cases i (startOf i) s <;> rw [h]
  · constructor <;> rfl
  · exact raise_untouched _ _ s
  · exact raise_untouched _ _ s
  · exact startOf_untouched i s

theorem illegalWord_untouched (s : State) : untouched s (illegalWord s) := by constructor <;> rfl

theorem acceptWord_untouched (w : Word) (s : State) : untouched s (acceptWord w s) := by
  unfold acceptWord
  split
  · exact accept_untouched _ s
  · exact illegalWord_untouched s

theorem exec_untouched {i : Instr} (h : exec i s = .next t) : untouched s t := by
  rw [exec_eq] at h
  unfold runCommand at h
  split at h
  · cases h
    constructor <;> rfl
  · exact (accept_untouched i s).trans (runAlone_untouched h)

theorem runWord_untouched {w : Word} (h : runWord w s = .next t) : untouched s t := by
  obtain ⟨i, -, hi⟩ | ⟨e, -, rfl⟩ := runWord_next h
  · exact exec_untouched hi
  · exact illegalWord_untouched s

/-- Only the word waiting in CMD is taken besides. -/
theorem blockTurn_untouched (h : blockTurn s = .next t) : untouched s t := by
  obtain ⟨-, hb⟩ | ⟨-, w, -, rfl⟩ | ⟨-, -, rfl⟩ := blockTurn_next h
  · exact blockStep_untouched hb
  · exact .trans (by constructor <;> rfl) (acceptWord_untouched w _)
  · rfl

/-! ### The other moves keep the configuration -/

theorem commit_cfg {a : Agent} {k : Nat} (h : s.commit a k = some t) : t.cfg = s.cfg := by
  obtain ⟨w, -, -, rfl⟩ := commit_some h
  rw [State.setPending_cfg]

theorem drain_cfg {a : Agent} (h : drain a s = .next t) : t.cfg = s.cfg := by
  obtain ⟨-, rfl⟩ | ⟨-, hc⟩ := drain_next h
  · rfl
  · exact commit_cfg hc

@[simp] theorem State.regWrite_cfg (s : State) (off : Nat) (v : Word) : (s.regWrite off v).cfg = s.cfg := by
  unfold State.regWrite
  split <;> rfl

theorem clientMove_cfg {op : ClientOp} (h : clientMove op s = .next t) : t.cfg = s.cfg := by
  obtain ⟨-, ⟨_, _, v, off, -, -, rfl⟩ | ⟨_, _, _, v, -, -, -, rfl⟩ | ⟨a, n, v, -, -, rfl⟩ | ⟨a, n, -, rfl⟩ |
    ⟨a, bs, -, -, rfl⟩⟩ := clientMove_next h
  · exact s.regWrite_cfg off v
  · rfl
  · split
    · rfl
    · exact s.issueWrite_cfg _ _ _
  · rfl
  · rfl

@[simp] theorem hostEffect_cfg (e : HostEffect) (s : State) : (hostEffect e s).cfg = s.cfg := by
  cases e <;> simp [hostEffect]

@[simp] theorem noteIfRead_cfg (e : Event) (v : Nat) (s : State) : (noteIfRead e v s).cfg = s.cfg := by
  cases e <;> rfl

@[simp] theorem reapNext_cfg (r : Ring) (v : Half) (left : Nat) (id : Word) (s : State) :
    (reapNext r v left id s).cfg = s.cfg := by
  simp only [reapNext]
  split <;> exact s.setHostRing_cfg r _

@[simp] theorem HostPos.resume_cfg (p : HostPos) (v : Nat) (s : State) : (p.resume v s).cfg = s.cfg := by
  cases p with
  | script todo fin =>
    cases todo with
    | nil => simp [HostPos.resume]
    | cons e rest => simp only [HostPos.resume]; split <;> simp
  | reapIdx r left => simp only [HostPos.resume]; split <;> simp
  | reapId r w left => rfl
  | reapLen r w left id => simp only [HostPos.resume]; split <;> simp
  | reapByte r w left id a n => simp only [HostPos.resume]; split <;> simp

theorem hostStep_cfg (h : hostStep s = .next t) : t.cfg = s.cfg := by
  obtain ⟨-, rfl⟩ | ⟨p, -, -, ⟨-, rfl⟩ | ⟨e, -, -, he⟩⟩ := hostStep_next h
  · rfl
  · exact p.resume_cfg 0 s
  · obtain ⟨x, n, -, -, rfl⟩ | ⟨x, bs, -, -, rfl⟩ | ⟨-, -, rfl⟩ | ⟨-, -, rfl⟩ := shmEvent_next he <;> simp

theorem performAct_cfg {m : Act} (h : performAct m s = .next t) : t.cfg = s.cfg := by
  obtain ⟨-, hb⟩ | ⟨a, k, -, -, hc⟩ | ⟨a, rfl, -⟩ | ⟨op, -, -, hc⟩ | ⟨op, p, -, -, -, rfl⟩ | ⟨-, hh⟩ | ⟨-, rfl⟩ :=
    performAct_next h
  · exact (blockTurn_untouched hb).cfg
  · exact commit_cfg hc
  · exact drain_cfg h
  · exact clientMove_cfg hc
  · rfl
  · exact hostStep_cfg hh
  · rfl

theorem quietStep_cfg (h : quietStep s = .next t) : t.cfg = s.cfg := by
  obtain ⟨-, hr⟩ | ⟨-, w, -, hw⟩ | ⟨-, -, a, hd⟩ := quietStep_next h
  · exact (runAlone_untouched hr).cfg
  · exact (runWord_untouched hw).cfg
  · exact drain_cfg hd

theorem step_cfg (h : step s = .next t) : t.cfg = s.cfg := by
  obtain ⟨-, ⟨m, rest, -, hm⟩ | ⟨-, -, hq⟩⟩ := step_next h
  · exact performAct_cfg (s := { s with acts := rest }) hm
  · exact quietStep_cfg hq

/-- Settles O36: a scheduled move and a step of the block alone both keep the configuration. -/
theorem configurationIsFixed : Obligations.ConfigurationIsFixed := by
  unfold Obligations.ConfigurationIsFixed
  intro s t h
  exact step_cfg h

end Sys2Proof.Machine
end

section
/-! SUPPORT. Invariants of the block along every step. Only the block's own course through its commands changes the sequencer, the
channel state, the fault registers, the cursors and the held ids; every other move but a reset leaves them (`sameControl`). So an
invariant that speaks of nothing else holds along every step once the block's events and acceptances keep it (`BlockInvariant`). -/

namespace Sys2Proof.Machine

variable {s t u : State}

/-! ### The control state -/

/-- The sequencer, the channel state, the fault registers, the cursors and the held ids are unchanged. -/
structure sameControl (s t : State) : Prop where
  ch : t.ch = s.ch
  seq : t.seq = s.seq
  fault : t.fault = s.fault
  faultInfo : t.faultInfo = s.faultInfo
  txLast : t.txLast = s.txLast
  txUsed : t.txUsed = s.txUsed
  rxLast : t.rxLast = s.rxLast
  rxUsed : t.rxUsed = s.rxUsed
  txHeld : t.txHeld = s.txHeld
  heldAddr : t.heldAddr = s.heldAddr
  heldCap : t.heldCap = s.heldCap
  txLeaked : t.txLeaked = s.txLeaked

@[refl] theorem sameControl.refl (s : State) : sameControl s s := by constructor <;> rfl

theorem sameControl.trans (h : sameControl s t) (h' : sameControl t u) : sameControl s u where
  ch := h'.ch.trans h.ch
  seq := h'.seq.trans h.seq
  fault := h'.fault.trans h.fault
  faultInfo := h'.faultInfo.trans h.faultInfo
  txLast := h'.txLast.trans h.txLast
  txUsed := h'.txUsed.trans h.txUsed
  rxLast := h'.rxLast.trans h.rxLast
  rxUsed := h'.rxUsed.trans h.rxUsed
  txHeld := h'.txHeld.trans h.txHeld
  heldAddr := h'.heldAddr.trans h.heldAddr
  heldCap := h'.heldCap.trans h.heldCap
  txLeaked := h'.txLeaked.trans h.txLeaked

theorem sameControl.cursor (h : sameControl s t) (r : Ring) : t.cursor r = s.cursor r := by
  cases r
  · exact h.txLast
  · exact h.rxLast

theorem sameControl.used (h : sameControl s t) (r : Ring) : t.used r = s.used r := by
  cases r
  · exact h.txUsed
  · exact h.rxUsed

theorem sameControl.isHeld (h : sameControl s t) (id : Fin 8) : t.isHeld id = s.isHeld id := by
  simp only [State.isHeld, h.txHeld]

/-! ### The moves that leave it -/

theorem setPending_sameControl (a : Agent) (ws : List PendingWrite) (s : State) : sameControl s (s.setPending a ws) := by
  cases a <;> constructor <;> rfl

theorem issueWrite_sameControl (a : Agent) (x : Nat) (bs : List Byte) (s : State) : sameControl s (s.issueWrite a x bs) :=
  setPending_sameControl _ _ s

theorem commit_sameControl {a : Agent} {k : Nat} (h : s.commit a k = some t) : sameControl s t := by
  obtain ⟨w, -, -, rfl⟩ := commit_some h
  exact .trans (by constructor <;> rfl) (setPending_sameControl _ _ _)

theorem drain_sameControl {a : Agent} (h : drain a s = .next t) : sameControl s t := by
  obtain ⟨-, rfl⟩ | ⟨-, hc⟩ := drain_next h
  · rfl
  · exact commit_sameControl hc

theorem regWrite_sameControl (off : Nat) (v : Word) (s : State) : sameControl s (s.regWrite off v) := by
  unfold State.regWrite
  split <;> constructor <;> rfl

theorem clientMove_sameControl {op : ClientOp} (h : clientMove op s = .next t) : sameControl s t := by
  obtain ⟨-, ⟨_, _, v, off, -, -, rfl⟩ | ⟨_, _, _, v, -, -, -, rfl⟩ | ⟨a, n, v, -, -, rfl⟩ | ⟨a, n, -, rfl⟩ |
    ⟨a, bs, -, -, rfl⟩⟩ := clientMove_next h
  · exact regWrite_sameControl off v s
  · constructor <;> rfl
  · split
    · rfl
    · exact issueWrite_sameControl _ _ _ s
  · constructor <;> rfl
  · constructor <;> rfl

theorem setHostRing_sameControl (r : Ring) (h : HostRing) (s : State) : sameControl s (s.setHostRing r h) := by
  cases r <;> constructor <;> rfl

/-- The host's own fields are none of the block's. -/
theorem hostRun_sameControl (q : Option HostPos) (s : State) : sameControl s { s with hostRun := q } := by
  constructor <;> rfl

theorem noteHostRead_sameControl (v : Nat) (s : State) : sameControl s (s.noteHostRead v) := by constructor <;> rfl

theorem noteIfRead_sameControl (e : Event) (v : Nat) (s : State) : sameControl s (noteIfRead e v s) := by
  cases e <;> constructor <;> rfl

theorem hostEffect_sameControl (e : HostEffect) (s : State) : sameControl s (hostEffect e s) := by
  cases e with
  | nothing => rfl
  | created => constructor <;> rfl
  | granted r n ids => exact setHostRing_sameControl r _ s
  | wroteIdx r v => exact setHostRing_sameControl r _ s

theorem reapNext_sameControl (r : Ring) (v : Half) (left : Nat) (id : Word) (s : State) :
    sameControl s (reapNext r v left id s) := by
  simp only [reapNext]
  split <;> exact (setHostRing_sameControl r _ s).trans (hostRun_sameControl _ _)

theorem HostPos.resume_sameControl (p : HostPos) (v : Nat) (s : State) : sameControl s (p.resume v s) := by
  have noted := noteHostRead_sameControl v s
  cases p with
  | script todo fin =>
    cases todo with
    | nil => exact (hostRun_sameControl _ s).trans (hostEffect_sameControl fin _)
    | cons e rest =>
      have read := noteIfRead_sameControl e v s
      simp only [HostPos.resume]
      split
      · exact (read.trans (hostRun_sameControl _ _)).trans (hostEffect_sameControl fin _)
      · exact read.trans (hostRun_sameControl _ _)
  | reapIdx r left => simp only [HostPos.resume]; split <;> exact noted.trans (hostRun_sameControl _ _)
  | reapId r w left => exact noted.trans (hostRun_sameControl _ _)
  | reapLen r w left id =>
    simp only [HostPos.resume]
    split
    · exact noted.trans (hostRun_sameControl _ _)
    · exact noted.trans (reapNext_sameControl r w left id _)
  | reapByte r w left id a n =>
    simp only [HostPos.resume]
    split
    · exact noted.trans (reapNext_sameControl r w left id _)
    · exact noted.trans (hostRun_sameControl _ _)

theorem hostStep_sameControl (h : hostStep s = .next t) : sameControl s t := by
  obtain ⟨-, rfl⟩ | ⟨p, -, -, ⟨-, rfl⟩ | ⟨e, -, -, he⟩⟩ := hostStep_next h
  · rfl
  · exact p.resume_sameControl 0 s
  · obtain ⟨x, n, -, -, rfl⟩ | ⟨x, bs, -, -, rfl⟩ | ⟨-, -, rfl⟩ | ⟨-, -, rfl⟩ := shmEvent_next he
    · exact p.resume_sameControl _ s
    · exact (issueWrite_sameControl _ _ _ s).trans (p.resume_sameControl 0 _)
    · exact p.resume_sameControl 0 s
    · rfl

/-- A move is the block's turn, a reset, or leaves the control state. -/
theorem performAct_control {m : Act} (h : performAct m s = .next t) :
    (m = .block ∧ blockTurn s = .next t) ∨ (m = .reset ∧ t = hardwareReset s) ∨ sameControl s t := by
  obtain hb | ⟨a, k, -, -, hc⟩ | ⟨a, rfl, -⟩ | ⟨op, -, -, hc⟩ | ⟨op, p, -, -, -, rfl⟩ | ⟨-, hh⟩ | hr :=
    performAct_next h
  · exact .inl hb
  · exact .inr (.inr (commit_sameControl hc))
  · exact .inr (.inr (drain_sameControl h))
  · exact .inr (.inr (clientMove_sameControl hc))
  · exact .inr (.inr (by constructor <;> rfl))
  · exact .inr (.inr (hostStep_sameControl hh))
  · exact .inr (.inl hr)

/-! ### Invariants of the block -/

/-- P speaks of the control state only, and the block keeps it: at each event of a running command, and when it accepts one. -/
structure BlockInvariant (P : State → Prop) : Prop where
  same : ∀ {u v : State}, sameControl u v → P u → P v
  event : ∀ {u : State} {p : Pos} {o : Option Suspended} (v : Nat), u.seq = .busy p o → P u → P (p.resume v u)
  accepted : ∀ {u : State} (i : Instr), u.seq.isBusy = false → P u → P (accept i (startOf i) u)

namespace BlockInvariant

variable {P : State → Prop} (hP : BlockInvariant P)
include hP

theorem keeps_blockStep (hs : P s) (h : blockStep s = .next t) : P t := by
  obtain ⟨-, rfl⟩ | ⟨p, o, hq, hp⟩ := blockStep_next h
  · exact hs
  · obtain ⟨x, n, -, -, rfl⟩ | ⟨x, bs, -, -, rfl⟩ | ⟨-, -, rfl⟩ | ⟨-, -, rfl⟩ := hp
    · exact hP.event _ hq hs
    · exact hP.event _ (by simpa using hq) (hP.same (issueWrite_sameControl _ x bs s) hs)
    · exact hP.event _ hq hs
    · exact hs

theorem keeps_runAlone (hs : P s) (h : runAlone s = .next t) : P t := by
  refine drive_induction (fun u v hu hv => ?_) hs h
  obtain ⟨_, _, -, -, hc⟩ | hb := soloStep_next hv
  · exact hP.same (commit_sameControl hc) hu
  · exact hP.keeps_blockStep hu hb

theorem keeps_illegalWord (hs : P s) : P (illegalWord s) := hP.same (by constructor <;> rfl) hs

theorem keeps_acceptWord (w : Word) (hb : s.seq.isBusy = false) (hs : P s) : P (acceptWord w s) := by
  unfold acceptWord
  split
  · exact hP.accepted _ hb hs
  · exact hP.keeps_illegalWord hs

theorem keeps_runWord {w : Word} (hb : s.seq.isBusy = false) (hs : P s) (h : runWord w s = .next t) : P t := by
  obtain ⟨i, -, hi⟩ | ⟨e, -, rfl⟩ := runWord_next h
  · rw [exec_eq, runCommand, if_neg (by simp [hb])] at hi
    exact hP.keeps_runAlone (hP.accepted i hb hs) hi
  · exact hP.keeps_illegalWord hs

theorem keeps_blockTurn (hs : P s) (h : blockTurn s = .next t) : P t := by
  obtain ⟨-, hb⟩ | ⟨hb, w, -, rfl⟩ | ⟨-, -, rfl⟩ := blockTurn_next h
  · exact hP.keeps_blockStep hs hb
  · exact hP.keeps_acceptWord w hb (hP.same (by constructor <;> rfl) hs)
  · exact hs

theorem keeps_quietStep (hs : P s) (h : quietStep s = .next t) : P t := by
  obtain ⟨-, hr⟩ | ⟨hb, w, -, hw⟩ | ⟨-, -, a, hd⟩ := quietStep_next h
  · exact hP.keeps_runAlone hs hr
  · exact hP.keeps_runWord (s := { s with cmd := none }) hb (hP.same (by constructor <;> rfl) hs) hw
  · exact hP.same (drain_sameControl hd) hs

/-- Every step keeps P, given that the state after a scheduled reset meets it. -/
theorem keeps_step (hreset : ∀ rest, s.acts = .reset :: rest → P (hardwareReset { s with acts := rest })) (hs : P s)
    (h : step s = .next t) : P t := by
  obtain ⟨-, ⟨m, rest, hm, ha⟩ | ⟨-, -, hq⟩⟩ := step_next h
  · have hs' : P { s with acts := rest } := hP.same (by constructor <;> rfl) hs
    obtain ⟨-, hb⟩ | ⟨rfl, rfl⟩ | hc := performAct_control ha
    · exact hP.keeps_blockTurn hs' hb
    · refine hreset rest ?_
      obtain ⟨_, _, ha, hsch⟩ | ⟨-, -, hsch⟩ | ⟨-, -, hsch⟩ := schedule_cases s <;> simp_all
    · exact hP.same hc hs'
  · exact hP.keeps_quietStep hs hq

end BlockInvariant

end Sys2Proof.Machine
end

section
/-! SUPPORT. The cursors agree along every step (10_state.md R38). A position's share of the invariant is `State.runs`: the counts
with the id being taken or returned, the local values, and the suspended POLL_RX. Where no id is in between the state is
`settled`: that is what holds between commands, and what a procedure needs to end or to begin. -/

namespace Sys2Proof.Machine

variable {s t : State}

/-! ### The number of held ids -/

theorem heldCount_eq_card (b : BitVec 8) : heldCount b = (Finset.univ.filter fun i : Fin 8 => b[i.val]).card := by
  simp only [heldCount, Finset.card, Finset.filter, Finset.univ, Fintype.elems]
  simp

@[simp] theorem getElem_setBit (b : BitVec 8) (id i : Fin 8) : (setBit b id)[i.val] = (b[i.val] || decide (i = id)) := by
  simp [setBit, Fin.ext_iff, eq_comm]

@[simp] theorem getElem_clearBit (b : BitVec 8) (id i : Fin 8) :
    (clearBit b id)[i.val] = (b[i.val] && !decide (i = id)) := by
  simp [clearBit, Fin.ext_iff, eq_comm]

theorem heldCount_setBit {b : BitVec 8} {id : Fin 8} (h : b[id.val] = false) :
    heldCount (setBit b id) = heldCount b + 1 := by
  rw [heldCount_eq_card, heldCount_eq_card, ← Finset.card_insert_of_notMem (a := id) (by simp [h])]
  congr 1
  ext i
  simp [or_comm]

theorem setBit_clearBit {b : BitVec 8} {id : Fin 8} (h : b[id.val] = true) : setBit (clearBit b id) id = b := by
  ext i hi
  by_cases e : i = id.val
  · subst e
    simp [h]
  · simp [setBit, clearBit, e]

theorem heldCount_clearBit {b : BitVec 8} {id : Fin 8} (h : b[id.val] = true) :
    heldCount (clearBit b id) + 1 = heldCount b := by
  rw [← heldCount_setBit (id := id) (by simp), setBit_clearBit h]

theorem heldCount_zero : heldCount 0#8 = 0 := by decide

/-! ### The invariant at a position and between positions -/

/-- The cursors agree, with `taken` TX ids taken and not yet held, and `pushed r` ids of ring r in USED(r) and not yet released. -/
def State.countsFit (s : State) (taken : Nat) (pushed : Ring → Nat) : Prop :=
  s.txLast + u16 (pushed .tx) = s.txUsed + u16 (heldCount s.txHeld) + u16 taken ∧ s.rxLast + u16 (pushed .rx) = s.rxUsed

/-- A suspended POLL_RX works at the RX cursor. -/
def State.suspendedFits (s : State) : Prop := ∀ k, s.seq.outer = some k → k.cursor = s.rxLast

/-- No id is being taken or returned. -/
structure State.settled (s : State) : Prop where
  counts : s.countsFit 0 fun _ => 0
  suspended : s.suspendedFits

/-- The registers are those of a command that runs at position p, a POLL_RX not nested (R247). -/
structure State.runs (s : State) (p : Pos) : Prop where
  counts : s.countsFit p.takenUnheld fun r => p.pushedUnreleased r
  locals : p.localsFit s
  suspended : s.suspendedFits
  unnested : p.pollCursor = none ∨ s.seq.outer = none

/-- The cursors agree, and no POLL_RX runs nested: R38 as every event and every acceptance keeps it. -/
structure State.agrees (s : State) : Prop where
  cursors : s.cursorsFit
  unnested : ∀ p k, s.seq = .busy p (some k) → p.pollCursor = none

theorem countsFit_settled :
    (s.countsFit 0 fun _ => 0) ↔ s.txLast = s.txUsed + u16 (heldCount s.txHeld) ∧ s.rxLast = s.rxUsed := by
  simp [State.countsFit]

theorem State.agrees.runs {p : Pos} {o : Option Suspended} (h : s.agrees) (hq : s.seq = .busy p o) : s.runs p where
  counts := h.cursors.running p o hq
  locals := h.cursors.locals p o hq
  suspended := h.cursors.suspended
  unnested := by
    cases o with
    | none => exact .inr (by rw [hq]; rfl)
    | some k => exact .inl (h.unnested p k hq)

theorem State.agrees.settled (h : s.agrees) (hf : s.fault = .none) (hb : s.seq.isBusy = false) : s.settled where
  counts := countsFit_settled.mpr (h.cursors.between hf hb)
  suspended := h.cursors.suspended

/-- A position with no id in between. -/
theorem State.runs.settled {p : Pos} (h : s.runs p) (ht : p.takenUnheld = 0) (hp : ∀ r, p.pushedUnreleased r = 0) :
    s.settled where
  counts := by simpa only [ht, hp] using h.counts
  suspended := h.suspended

theorem State.settled.runs {p : Pos} (h : s.settled) (ht : p.takenUnheld = 0) (hp : ∀ r, p.pushedUnreleased r = 0)
    (hl : p.localsFit s) (hn : p.pollCursor = none ∨ s.seq.outer = none) : s.runs p where
  counts := by simpa only [ht, hp] using h.counts
  locals := hl
  suspended := h.suspended
  unnested := hn

theorem localsFit_of_sameControl {p : Pos} (h : sameControl s t) (hl : p.localsFit s) : p.localsFit t := by
  cases p with
  | initPeek => trivial
  | peek w c => simpa only [Pos.localsFit, h.cursor] using hl
  | slot w c => simpa only [Pos.localsFit, h.cursor] using hl
  | descAddr w c id => simpa only [Pos.localsFit, h.isHeld, h.rxLast] using hl
  | descLen w c id addr => simpa only [Pos.localsFit, h.isHeld, h.rxLast] using hl
  | txByte f id addr b rest => simpa only [Pos.localsFit, h.isHeld] using hl
  | rxEnv c id addr dlen got => simpa only [Pos.localsFit, h.rxLast] using hl
  | push ph j => simpa only [Pos.localsFit, h.used, h.isHeld, h.rxLast] using hl

theorem agrees_of_sameControl (h : sameControl s t) (hs : s.agrees) : t.agrees where
  cursors := {
    between := by
      rw [h.fault, h.seq, h.txLast, h.txUsed, h.txHeld, h.rxLast, h.rxUsed]
      exact hs.cursors.between
    running := by
      rw [h.seq, h.txLast, h.txUsed, h.txHeld, h.rxLast, h.rxUsed]
      exact hs.cursors.running
    locals := by
      rw [h.seq]
      exact fun p o hq => localsFit_of_sameControl h (hs.cursors.locals p o hq)
    suspended := by
      rw [h.seq, h.rxLast]
      exact hs.cursors.suspended }
  unnested := by
    rw [h.seq]
    exact hs.unnested

/-! ### Going on, ending, stopping -/

@[simp] theorem Seq.returned_isBusy (q : Seq) : q.returned.isBusy = false := by
  unfold Seq.returned
  split <;> rfl

@[simp] theorem Seq.returned_outer (q : Seq) : q.returned.outer = q.outer := by
  unfold Seq.returned
  split
  · next h => exact h.symm
  · next h => exact h.symm

/-- What an idle or a delivering block has to meet. -/
theorem agrees_of_not_busy (hb : t.seq.isBusy = false) (hc : t.fault = .none → t.countsFit 0 fun _ => 0)
    (hs : t.suspendedFits) : t.agrees where
  cursors := {
    between := fun hf _ => countsFit_settled.mp (hc hf)
    running := fun p o hq => by simp [hq, Seq.isBusy] at hb
    locals := fun p o hq => by simp [hq, Seq.isBusy] at hb
    suspended := hs }
  unnested := fun p k hq => by simp [hq, Seq.isBusy] at hb

theorem goto_agrees {p : Pos} (h : s.runs p) : (s.goto p).agrees where
  cursors := {
    between := fun _ hb => by cases hb
    running := fun q o hq => by cases hq; exact h.counts
    locals := fun q o hq => by
      cases hq
      have hl := h.locals
      cases p <;> exact hl
    suspended := h.suspended }
  unnested := fun q k hq => by
    rw [State.goto_seq, Seq.busy.injEq] at hq
    obtain ⟨rfl, ho⟩ := hq
    exact h.unnested.resolve_right (by simp [ho])

theorem finish_agrees (h : s.settled) (st : Status) : (s.finish st).agrees :=
  agrees_of_not_busy (by simp) (fun _ => h.counts) (by
    unfold State.suspendedFits
    rw [State.finish_seq, Seq.returned_outer]
    exact h.suspended)

theorem raise_agrees {c : FaultCause} (hc : c ≠ .none) (i : Word) (s : State) : (s.raise c i).agrees :=
  agrees_of_not_busy rfl (fun hf => absurd hf (by rw [State.raise_fault]; split <;> assumption)) (fun k hk => by cases hk)

/-! ### The ends of the procedures -/

theorem announceEnd_agrees (h : s.settled) (st : Status) : (announceEnd st s).agrees := by
  unfold announceEnd
  split <;> exact finish_agrees (s := { s.setRes 1 (u32 s.waitCnt) with ch := _ }) ⟨h.counts, h.suspended⟩ _

theorem sendEnd_agrees (h : s.settled) (f : Frame) (st : Status) : (sendEnd f st s).agrees := by
  unfold sendEnd
  split
  · exact finish_agrees h st
  · exact announceEnd_agrees h st

theorem ringEmpty_agrees (h : s.settled) (w : Walk) : (ringEmpty w s).agrees := by
  cases w with
  | acquire => exact finish_agrees h _
  | send f => exact sendEnd_agrees h f _
  | poll => exact finish_agrees (s := (s.setRes 0 _).setRes 1 _) ⟨h.counts, h.suspended⟩ _

/-- A UsedPush begins at the used index: on the TX ring of a held id, on the RX ring of a POLL_RX that is not nested. -/
theorem usedPush_agrees {k : PushKind} {id : Fin 8} {n : Word} (h : s.settled)
    (hl : (Pos.push .id ⟨k, id, n, s.used k.ring⟩).localsFit s)
    (hn : (Pos.push .id ⟨k, id, n, s.used k.ring⟩).pollCursor = none ∨ s.seq.outer = none) : (usedPush k id n s).agrees :=
  goto_agrees (h.runs rfl (fun _ => rfl) hl hn)

theorem pollReturn_agrees (h : s.settled) (ho : s.seq.outer = none) (id : Fin 8) : (pollReturn s.rxLast id s).agrees :=
  usedPush_agrees h ⟨rfl, rfl⟩ (.inr ho)

theorem pollLoop_agrees (h : s.settled) (ho : s.seq.outer = none) : (pollLoop s).agrees :=
  goto_agrees (h.runs rfl (fun _ => rfl) rfl (.inr ho))

theorem afterDeliver_agrees {k : Suspended} (h : s.settled) (hk : s.seq.outer = some k) : (afterDeliver k s).agrees := by
  unfold afterDeliver
  rw [h.suspended k hk]
  exact pollReturn_agrees (s := { s with seq := .idle, rxDelivered := _ }) ⟨h.counts, fun k hk => by cases hk⟩ rfl k.id

theorem deliver_agrees (h : s.settled) (id : Fin 8) (addr : Word) (e : Envelope) :
    (deliver s.rxLast id addr e s).agrees :=
  agrees_of_not_busy rfl (fun _ => h.counts) (fun k hk => by cases hk; rfl)

theorem dropFrame_agrees (h : s.settled) (ho : s.seq.outer = none) (id : Fin 8) : (dropFrame s.rxLast id s).agrees :=
  pollReturn_agrees (s := { s with rxCurFlen := 0 }) ⟨h.counts, h.suspended⟩ ho id

theorem envelopeRead_agrees (h : s.settled) (ho : s.seq.outer = none) (id : Fin 8) (addr dlen : Word) (b : List Byte) :
    (envelopeRead s.rxLast id addr dlen b s).agrees := by
  unfold envelopeRead
  split
  · exact deliver_agrees h id addr _
  · exact dropFrame_agrees h ho id

theorem sendBytes_agrees {id : Fin 8} (h : s.settled) (hh : s.isHeld id = true) (f : Frame) (addr : Nat) (bs : List Byte) :
    (sendBytes f id addr bs s).agrees := by
  cases bs with
  | nil => exact usedPush_agrees h ⟨rfl, hh⟩ (.inl rfl)
  | cons b rest => exact goto_agrees (h.runs rfl (fun _ => rfl) hh (.inl rfl))

/-! ### Taking and returning an id -/

theorem u16_add (a b : Nat) : u16 (a + b) = u16 a + u16 b := BitVec.ofNat_add a b

/-- An id taken is held: the count of held ids makes up for the cursor. -/
theorem hold_settled {id : Fin 8} (hc : s.countsFit 1 fun _ => 0) (hs : s.suspendedFits) (hh : s.isHeld id = false)
    (addr cap : Word) : (s.hold id addr cap).settled where
  counts := by
    obtain ⟨htx, hrx⟩ := hc
    refine ⟨?_, hrx⟩
    calc s.txLast + u16 0 = s.txUsed + (u16 (heldCount s.txHeld) + u16 1) := by rw [htx, add_assoc]
      _ = s.txUsed + u16 (heldCount (setBit s.txHeld id)) + u16 0 := by
        rw [heldCount_setBit (by simpa [State.isHeld] using hh), u16_add]
        simp
  suspended := hs

/-- An id returned is no longer held: the count of held ids makes up for the used index. -/
theorem unhold_settled {id : Fin 8} {pushed : Ring → Nat} (hc : s.countsFit 0 pushed) (htx : pushed .tx = 1)
    (hrx : pushed .rx = 0) (hs : s.suspendedFits) (hh : s.isHeld id = true) : (s.unhold id).settled where
  counts := by
    obtain ⟨tx, rx⟩ := hc
    rw [htx] at tx
    rw [hrx] at rx
    refine ⟨add_right_cancel (b := u16 1) ?_, rx⟩
    calc s.txLast + u16 0 + u16 1 = s.txUsed + u16 (heldCount s.txHeld) := by simpa using tx
      _ = s.txUsed + u16 (heldCount (clearBit s.txHeld id)) + u16 0 + u16 1 := by
        rw [← heldCount_clearBit (by simpa [State.isHeld] using hh), u16_add]
        simp [add_assoc]
  suspended := hs

theorem bufferTaken_agrees {w : Walk} {c : Half} {id : Fin 8} {d : Dword} (h : s.runs (.descLen w c id d))
    (cap addr : Word) : (bufferTaken w c id cap addr s).agrees := by
  obtain ⟨counts, locals, suspended, unnested⟩ := h
  cases w with
  | acquire =>
    obtain ⟨counts, suspended⟩ := hold_settled counts suspended locals addr cap
    have held : ((((s.hold id addr cap).setRes 0 (u32 id.val)).setRes 1 addr).setRes 2 cap).settled := ⟨counts, suspended⟩
    exact finish_agrees held _
  | send f =>
    obtain ⟨counts, suspended⟩ := hold_settled counts suspended locals addr cap
    have held : (((s.hold id addr cap).setRes 0 (u32 id.val)).setRes 1 (u32 f.size)).settled := ⟨counts, suspended⟩
    have leaked : ((((s.hold id addr cap).setRes 0 (u32 id.val)).setRes 1 (u32 f.size)).leak id).settled :=
      ⟨counts, suspended⟩
    simp only [bufferTaken]
    split
    · exact sendEnd_agrees leaked f _
    · exact sendBytes_agrees held (by simp [State.isHeld]) f _ _
  | poll =>
    have ho : s.seq.outer = none := unnested.resolve_left (by simp [Pos.pollCursor])
    obtain rfl : c = s.rxLast := locals
    have current : State.settled { s with rxCurId := u16 id.val, rxCurDlen := cap } := ⟨counts, suspended⟩
    simp only [bufferTaken]
    split
    · exact goto_agrees (current.runs rfl (fun _ => rfl) rfl (.inr ho))
    · exact dropFrame_agrees current ho id

theorem pushDone_agrees {j : PushJob} (h : s.runs (.push .barrier2 j)) : (pushDone j s).agrees := by
  obtain ⟨counts, ⟨-, locals⟩, suspended, unnested⟩ := h
  obtain ⟨kind, id, len, v⟩ := j
  cases kind with
  | publish => exact finish_agrees (unhold_settled counts rfl rfl suspended locals) _
  | send f => exact sendEnd_agrees (unhold_settled counts rfl rfl suspended locals) f _
  | poll c =>
    have ho : s.seq.outer = none := unnested.resolve_left (by simp [Pos.pollCursor])
    obtain rfl : c = s.rxLast := locals
    refine pollLoop_agrees (s := { s with rxLast := s.rxLast + 1, rxProcessed := _ }) ⟨?_, fun k hk => ?_⟩ ho
    · simpa [countsFit_settled, State.countsFit, Pos.takenUnheld, Pos.pushedUnreleased, PushKind.ring] using counts
    · rw [ho] at hk
      cases hk

/-! ### The events -/

theorem waitLoop_agrees (h : s.settled) : (waitLoop s).agrees := by
  unfold waitLoop
  split
  · exact goto_agrees (h.runs rfl (fun _ => rfl) trivial (.inl rfl))
  · exact finish_agrees (s := { s.setRes 1 _ with ch := _ }) ⟨h.counts, h.suspended⟩ _

theorem announceStart_agrees (h : s.settled) : (announceStart s).agrees :=
  have hs : State.settled { s with ch := .announcing } := ⟨h.counts, h.suspended⟩
  goto_agrees (p := .peek (.send (announcement s.cfg)) s.txLast) (hs.runs rfl (fun _ => rfl) rfl (.inl rfl))

theorem availPeek_agrees {r : Ring} {c a : Half} {k : State → State} (h : (k s).agrees) : (availPeek r c a k s).agrees := by
  obtain ⟨-, -, e⟩ | ⟨-, e⟩ := availPeek_cases r c a k s <;> rw [e]
  · exact raise_agrees (by simp) _ s
  · exact h

theorem initPeeked_agrees (h : s.settled) (a : Half) : (initPeeked a s).agrees := by
  refine availPeek_agrees ?_
  have counted : State.settled { s with waitCnt := s.waitCnt + 1 } := ⟨h.counts, h.suspended⟩
  simp only
  split
  · exact announceStart_agrees counted
  · exact waitLoop_agrees counted

/-- The TX cursor advances over the id being taken. -/
theorem advance_countsFit {c : Half} (h : s.countsFit 0 fun _ => 0) (hc : c = s.txLast) :
    State.countsFit { s with txLast := c + 1 } 1 fun _ => 0 := by
  obtain ⟨htx, hrx⟩ := countsFit_settled.mp h
  simp [State.countsFit, hc, htx, hrx]

/-- TakeSlot's id, and the cursor with it on the TX ring. -/
theorem advanceOnTake_runs {w : Walk} {c : Half} (h : s.runs (.slot w c)) {id : Fin 8}
    (hh : w.ring = .rx ∨ s.isHeld id = false) : (advanceOnTake w c s).runs (.descAddr w c id) := by
  obtain ⟨counts, locals, suspended, unnested⟩ := h
  cases w with
  | acquire => exact ⟨advance_countsFit counts locals, hh.resolve_left (by simp [Walk.ring]), suspended, .inl rfl⟩
  | send f => exact ⟨advance_countsFit counts locals, hh.resolve_left (by simp [Walk.ring]), suspended, .inl rfl⟩
  | poll => exact ⟨counts, locals, suspended, unnested⟩

theorem setUsed_countsFit {r : Ring} {v : Half} {pushed : Ring → Nat} (h : s.countsFit 0 fun _ => 0) (hv : s.used r = v)
    (hr : pushed r = 1) (hq : ∀ q, q ≠ r → pushed q = 0) : (s.setUsed r (v + 1)).countsFit 0 pushed := by
  obtain ⟨htx, hrx⟩ := countsFit_settled.mp h
  cases r with
  | tx =>
    obtain rfl : s.txUsed = v := hv
    simp [State.countsFit, hr, hq, htx, hrx, add_right_comm]
  | rx =>
    obtain rfl : s.rxUsed = v := hv
    simp [State.countsFit, hr, hq, htx, hrx]

/-- USED(r) advances over the id being returned. -/
theorem setUsed_runs {j : PushJob} (h : s.runs (.push .idx j)) :
    (s.setUsed j.kind.ring (j.u + 1)).runs (.push .barrier2 j) where
  counts := setUsed_countsFit h.counts h.locals.1 (by simp [Pos.pushedUnreleased])
    fun q hq => by simp [Pos.pushedUnreleased, hq.symm]
  locals := by
    obtain ⟨-, locals⟩ := h.locals
    refine ⟨?_, ?_⟩
    · cases j.kind.ring <;> rfl
    · cases hk : j.kind <;> simpa [hk, State.isHeld] using locals
  suspended := by
    unfold State.suspendedFits
    rw [State.setUsed_seq, State.setUsed_rxLast]
    exact h.suspended
  unnested := by
    rw [State.setUsed_seq]
    exact h.unnested

theorem pushAfter_agrees {ph : PushPhase} {j : PushJob} (h : s.runs (.push ph j)) :
    (pushAfter ph j (pushDone j) s).agrees := by
  cases ph with
  | id => exact goto_agrees ⟨h.counts, h.locals, h.suspended, h.unnested⟩
  | len => exact goto_agrees ⟨h.counts, h.locals, h.suspended, h.unnested⟩
  | barrier1 => exact goto_agrees ⟨h.counts, h.locals, h.suspended, h.unnested⟩
  | idx => exact goto_agrees (setUsed_runs h)
  | barrier2 => exact pushDone_agrees h

theorem resume_agrees {p : Pos} (h : s.runs p) (v : Nat) : (p.resume v s).agrees := by
  cases p with
  | initPeek => exact initPeeked_agrees (h.settled rfl fun _ => rfl) _
  | peek w c =>
    simp only [Pos.resume]
    refine availPeek_agrees ?_
    split
    · exact ringEmpty_agrees (h.settled rfl fun _ => rfl) w
    · exact goto_agrees ⟨h.counts, h.locals, h.suspended, h.unnested⟩
  | slot w c =>
    simp only [Pos.resume]
    obtain ⟨-, e⟩ | ⟨id, -, ⟨-, -, e⟩ | ⟨hh, e⟩⟩ :=
      takeSlot_cases w.ring (u16 v) (fun id s => (advanceOnTake w c s).goto (.descAddr w c id)) s <;> rw [e]
    · exact raise_agrees (by simp) _ s
    · exact raise_agrees (by simp) _ s
    · exact goto_agrees (advanceOnTake_runs h hh)
  | descAddr w c id => exact goto_agrees ⟨h.counts, h.locals, h.suspended, h.unnested⟩
  | descLen w c id addr =>
    simp only [Pos.resume]
    obtain ⟨-, e⟩ | ⟨-, e⟩ := readDesc_cases w.ring addr (u32 v) (bufferTaken w c id (u32 v)) s <;> rw [e]
    · exact raise_agrees (by simp) _ s
    · exact bufferTaken_agrees h _ _
  | txByte f id addr b rest => exact sendBytes_agrees (h.settled rfl fun _ => rfl) h.locals f _ rest
  | rxEnv c id addr dlen got =>
    have hs := h.settled rfl fun _ => rfl
    have ho : s.seq.outer = none := h.unnested.resolve_left (by simp [Pos.pollCursor])
    obtain rfl : c = s.rxLast := h.locals
    simp only [Pos.resume]
    split
    · exact goto_agrees (hs.runs rfl (fun _ => rfl) rfl (.inr ho))
    · exact envelopeRead_agrees hs ho id addr dlen _
  | push ph j => exact pushAfter_agrees h

/-! ### Acceptance -/

/-- INIT and POLL_RX begin while nothing is suspended (R247). -/
theorem outer_of_nestingError {i : Instr} (hi : i = .init ∨ i = .pollRx) (hb : s.seq.isBusy = false)
    (h : nestingError s.seq.sub i = none) : s.seq.outer = none := by
  cases hq : s.seq with
  | idle => rfl
  | busy p o => simp [hq, Seq.isBusy] at hb
  | delivering k => obtain rfl | rfl := hi <;> simp [hq, Seq.sub, nestingError, deliveringError] at h

theorem startInit_agrees (h : s.settled) (ho : s.seq.outer = none) : (startInit s).agrees := by
  unfold startInit
  split
  · refine waitLoop_agrees ⟨?_, fun k hk => ?_⟩
    · simp [State.countsFit, heldCount_zero]
    · rw [ho] at hk
      cases hk
  · exact finish_agrees h _

theorem startPublishTx_agrees (h : s.settled) : (startPublishTx s).agrees := by
  unfold startPublishTx
  repeat' split
  · exact raise_agrees (by simp) _ s
  · exact raise_agrees (by simp) _ s
  · exact usedPush_agrees h ⟨rfl, ‹_›⟩ (.inl rfl)
  · exact raise_agrees (by simp) _ s
  · exact raise_agrees (by simp) _ s
  · exact finish_agrees h _

theorem startFrameSend_agrees (h : s.settled) : (startFrameSend s).agrees := by
  unfold startFrameSend
  repeat' split
  · exact raise_agrees (by simp) _ s
  · exact goto_agrees (h.runs rfl (fun _ => rfl) rfl (.inl rfl))
  · exact finish_agrees h _

theorem startOf_agrees (i : Instr) (h : s.settled) (hs : s.agrees) (hb : s.seq.isBusy = false)
    (hn : nestingError s.seq.sub i = none) : (startOf i s).agrees := by
  cases i with
  | init => exact startInit_agrees h (outer_of_nestingError (.inl rfl) hb hn)
  | shutdown =>
    simp only [startOf, startShutdown]
    split
    · exact finish_agrees (s := { s with ch := .uninitialized }) ⟨h.counts, h.suspended⟩ _
    · exact finish_agrees h _
  | acquireTx =>
    simp only [startOf, startAcquireTx]
    split
    · exact goto_agrees (h.runs rfl (fun _ => rfl) rfl (.inl rfl))
    · exact finish_agrees h _
  | publishTx => exact startPublishTx_agrees h
  | frameSend => exact startFrameSend_agrees h
  | pollRx =>
    simp only [startOf, startPollRx]
    split
    · exact pollLoop_agrees (s := { s with rxProcessed := 0, rxDelivered := 0 }) ⟨h.counts, h.suspended⟩
        (outer_of_nestingError (.inr rfl) hb hn)
    · exact finish_agrees h _
  | rxRelease =>
    simp only [startOf, startRxRelease]
    split
    · next k hq => exact afterDeliver_agrees h (by rw [hq]; rfl)
    · exact hs
  | query => exact finish_agrees (s := s.setRes 0 _) ⟨h.counts, h.suspended⟩ _

theorem accept_agrees (i : Instr) (hs : s.agrees) (hb : s.seq.isBusy = false) : (accept i (startOf i) s).agrees := by
  obtain ⟨-, e⟩ | ⟨-, c, -, e⟩ | ⟨-, -, n, -, e⟩ | ⟨hf, hn, -, e⟩ := accept_cases i (startOf i) s <;> rw [e]
  · exact agrees_of_sameControl (by constructor <;> rfl) hs
  · exact raise_agrees (by simp) _ s
  · exact raise_agrees (by simp) _ s
  · exact startOf_agrees i (hs.settled hf hb) hs hb hn

/-! ### Every step -/

theorem agrees_blockInvariant : BlockInvariant State.agrees where
  same := agrees_of_sameControl
  event v hq hs := resume_agrees (hs.runs hq) v
  accepted i hb hs := accept_agrees i hs hb

theorem hardwareReset_agrees (s : State) : (hardwareReset s).agrees :=
  agrees_of_not_busy rfl (fun _ => by simp [State.countsFit, hardwareReset, heldCount_zero]) (fun k hk => by cases hk)

/-- Settles O51: what the sequencer fits adds is that no POLL_RX runs nested (R247), and with it every event and every acceptance
keeps the cursors agreeing. -/
theorem stepsKeepTheCursorsAgreeing : Obligations.StepsKeepTheCursorsAgreeing := by
  unfold Obligations.StepsKeepTheCursorsAgreeing
  intro s t hq hc h
  have hs : s.agrees := ⟨hc, fun p k hp => (hq.nested p k hp).2.2⟩
  exact (agrees_blockInvariant.keeps_step (fun _ _ => hardwareReset_agrees _) hs h).cursors

end Sys2Proof.Machine
end

section
/-! SUPPORT. A recorded fault stays (10_state.md R42, R43; 60_exceptions.md R380, R383), and a run that reached one has failed
(R393). Of the block's updates only `raise` touches FAULT and FAULT_INFO, and it keeps the first fault. -/

namespace Sys2Proof.Machine

variable {s t u : State} {c : FaultCause} {i : Word}

/-! ### FAULT and FAULT_INFO along the block's procedures -/

/-- FAULT records c, with i in FAULT_INFO. -/
def State.faultIs (s : State) (c : FaultCause) (i : Word) : Prop := s.fault = c ∧ s.faultInfo = i

theorem faultIs_of_sameControl (hc : sameControl s t) (h : s.faultIs c i) : t.faultIs c i :=
  ⟨hc.fault.trans h.1, hc.faultInfo.trans h.2⟩

/-- The first fault is the one recorded (R380). -/
theorem raise_faultIs (hc : c ≠ .none) (h : s.faultIs c i) (d : FaultCause) (j : Word) : (s.raise d j).faultIs c i := by
  obtain ⟨rfl, rfl⟩ := h
  exact ⟨if_neg hc, if_neg hc⟩

theorem announceEnd_faultIs (h : s.faultIs c i) (st : Status) : (announceEnd st s).faultIs c i := by
  unfold announceEnd
  split <;> exact h

theorem sendEnd_faultIs (h : s.faultIs c i) (f : Frame) (st : Status) : (sendEnd f st s).faultIs c i := by
  unfold sendEnd
  split
  · exact h
  · exact announceEnd_faultIs h st

theorem ringEmpty_faultIs (h : s.faultIs c i) (w : Walk) : (ringEmpty w s).faultIs c i := by
  cases w with
  | acquire => exact h
  | send f => exact sendEnd_faultIs h f _
  | poll => exact h

theorem sendBytes_faultIs (h : s.faultIs c i) (f : Frame) (id : Fin 8) (addr : Nat) (bs : List Byte) :
    (sendBytes f id addr bs s).faultIs c i := by
  cases bs <;> exact h

theorem envelopeRead_faultIs (h : s.faultIs c i) (x : Half) (id : Fin 8) (addr dlen : Word) (b : List Byte) :
    (envelopeRead x id addr dlen b s).faultIs c i := by
  unfold envelopeRead
  split <;> exact h

theorem bufferTaken_faultIs (h : s.faultIs c i) (w : Walk) (x : Half) (id : Fin 8) (cap addr : Word) :
    (bufferTaken w x id cap addr s).faultIs c i := by
  cases w with
  | acquire => simpa [bufferTaken, State.faultIs] using h
  | send f =>
    simp only [bufferTaken]
    split
    · exact sendEnd_faultIs (by simpa [State.faultIs] using h) f _
    · exact sendBytes_faultIs (by simpa [State.faultIs] using h) f id _ _
  | poll =>
    simp only [bufferTaken]
    split <;> exact h

theorem pushDone_faultIs (h : s.faultIs c i) (j : PushJob) : (pushDone j s).faultIs c i := by
  unfold pushDone
  split
  · exact h
  · exact sendEnd_faultIs (s := s.unhold j.id) h _ _
  · exact h

theorem pushAfter_faultIs (h : s.faultIs c i) (ph : PushPhase) (j : PushJob) :
    (pushAfter ph j (pushDone j) s).faultIs c i := by
  cases ph with
  | id => exact h
  | len => exact h
  | barrier1 => exact h
  | idx => exact ⟨(s.setUsed_fault _ _).trans h.1, (s.setUsed_faultInfo _ _).trans h.2⟩
  | barrier2 => exact pushDone_faultIs h j

theorem waitLoop_faultIs (h : s.faultIs c i) : (waitLoop s).faultIs c i := by
  unfold waitLoop
  split <;> exact h

section
variable (hc : c ≠ .none)
include hc

theorem availPeek_faultIs (h : s.faultIs c i) (r : Ring) (x a : Half) {k : State → State} (hk : (k s).faultIs c i) :
    (availPeek r x a k s).faultIs c i := by
  obtain ⟨-, -, e⟩ | ⟨-, e⟩ := availPeek_cases r x a k s <;> rw [e]
  · exact raise_faultIs hc h _ _
  · exact hk

theorem initPeeked_faultIs (h : s.faultIs c i) (a : Half) : (initPeeked a s).faultIs c i := by
  refine availPeek_faultIs hc h _ _ _ ?_
  simp only
  split
  · exact h
  · exact waitLoop_faultIs h

theorem resume_faultIs (h : s.faultIs c i) (p : Pos) (v : Nat) : (p.resume v s).faultIs c i := by
  cases p with
  | initPeek => exact initPeeked_faultIs hc h _
  | peek w x =>
    refine availPeek_faultIs hc h _ _ _ ?_
    split
    · exact ringEmpty_faultIs h w
    · exact h
  | slot w x =>
    simp only [Pos.resume]
    obtain ⟨-, e⟩ | ⟨id, -, ⟨-, -, e⟩ | ⟨-, e⟩⟩ :=
      takeSlot_cases w.ring (u16 v) (fun id s => (advanceOnTake w x s).goto (.descAddr w x id)) s <;> rw [e]
    · exact raise_faultIs hc h _ _
    · exact raise_faultIs hc h _ _
    · cases w <;> exact h
  | descAddr w x id => exact h
  | descLen w x id addr =>
    simp only [Pos.resume]
    obtain ⟨-, e⟩ | ⟨-, e⟩ := readDesc_cases w.ring addr (u32 v) (bufferTaken w x id (u32 v)) s <;> rw [e]
    · exact raise_faultIs hc h _ _
    · exact bufferTaken_faultIs h w x id _ _
  | txByte f id addr b rest => exact sendBytes_faultIs h f id _ rest
  | rxEnv x id addr dlen got =>
    simp only [Pos.resume]
    split
    · exact h
    · exact envelopeRead_faultIs h x id addr dlen _
  | push ph j => exact pushAfter_faultIs h ph j

/-- A faulted block accepts no command (R371 step 2), so its start plays no part. -/
theorem accept_faultIs (h : s.faultIs c i) (n : Instr) (start : State → State) : (accept n start s).faultIs c i := by
  obtain ⟨-, e⟩ | ⟨hf, -⟩ | ⟨hf, -⟩ | ⟨hf, -⟩ := accept_cases n start s
  · rw [e]
    exact h
  · exact absurd (h.1.symm.trans hf) hc
  · exact absurd (h.1.symm.trans hf) hc
  · exact absurd (h.1.symm.trans hf) hc

theorem faultIs_blockInvariant : BlockInvariant fun s => s.faultIs c i where
  same := faultIs_of_sameControl
  event v _ hs := resume_faultIs hc hs _ v
  accepted n _ hs := accept_faultIs hc hs n _

end

/-! ### Runs -/

/-- A run that begins with a fault has reached one. -/
theorem faultReached_of_fault (n : Nat) (h : s.fault ≠ .none) : faultReached n s = true := by
  cases n <;> simp [faultReached, h]

/-- A longer run of which the first n steps reach a fault has reached one (R393). -/
theorem faultReached_of_stepN {n : Nat} (m : Nat) (h : stepN n s = .next t) (hf : t.fault ≠ .none) :
    faultReached (n + m) s = true := by
  induction n generalizing s with
  | zero =>
    cases h
    exact faultReached_of_fault _ hf
  | succ n ih =>
    rw [Nat.add_right_comm, faultReached]
    cases hs : step s with
    | next u =>
      simp only [stepN, hs] at h
      simp [ih h]
    | fault r => simp [stepN, hs] at h
    | refused r => simp [stepN, hs] at h

/-- Settles O35: the block keeps what FAULT records and no other move but a reset writes it; and `faultReached` looks at every
state of the run, so no later state takes it back. -/
theorem faultIsSticky : Obligations.FaultIsSticky := by
  unfold Obligations.FaultIsSticky
  refine ⟨fun s t hf hr h => ?_, fun s t u n m h hf => ?_⟩
  · exact (faultIs_blockInvariant hf).keeps_step (fun rest ha => absurd ha (hr rest)) ⟨rfl, rfl⟩ h
  · have reached := fun m => faultReached_of_stepN m h hf
    refine ⟨⟨h, .inr (reached 0)⟩, fun hu => ⟨⟨hu, .inr (reached m)⟩, fun hs => ?_⟩⟩
    obtain ⟨-, -, hn⟩ := hs
    simp [reached m] at hn

end Sys2Proof.Machine
end

section
/-! SUPPORT. The ring fields the block touches (20_memory.md R82; 30_encoding.md R112 to R114, R133): where in a ring its
ring-field reads and writes lie, and that the two rings share no byte (R9). -/

namespace Sys2Proof.Machine

variable {c : Config} {p : Pos}

theorem slotOf_lt (i : Half) : slotOf i < 8 := Nat.mod_lt _ (by decide)

/-- A byte lies in one ring at most (R9). -/
theorem ringBase_eq_of_mem (q r : Ring) (x : Nat) (hc : c.ok = true) :
    ringBase c q ≤ x → x < ringBase c q + 0xE6 → ringBase c r ≤ x → x < ringBase c r + 0xE6 →
      ringBase c q = ringBase c r := by
  have hd : c.ringsDisjoint = true := by simp_all [Config.ok]
  simp only [Config.ringsDisjoint, Bool.or_eq_true, decide_eq_true_eq] at hd
  rw [ringBytes] at hd
  intro hq hq' hr hr'
  cases q <;> cases r <;> simp only [ringBase] at * <;> omega

/-- A ring-field read lies in one descriptor's address and length, or in avail.idx and avail.ring (R82). -/
theorem event_read_at {a n : Nat} (hr : ∀ x id addr dlen got, p ≠ .rxEnv x id addr dlen got) (h : p.event c = .read a n) :
    ∃ q, (∃ i < 8, ringBase c q + 16 * i ≤ a ∧ a + n ≤ ringBase c q + 16 * i + 12) ∨
      (ringBase c q + 0x82 ≤ a ∧ a + n ≤ ringBase c q + 0x94) := by
  cases p with
  | initPeek =>
    cases h
    exact ⟨.tx, .inr ⟨Nat.le_refl _, by simp only [availIdxAt]; omega⟩⟩
  | peek w x =>
    cases h
    exact ⟨w.ring, .inr ⟨Nat.le_refl _, by simp only [availIdxAt]; omega⟩⟩
  | slot w x =>
    cases h
    have := slotOf_lt x
    exact ⟨w.ring, .inr (by simp only [availRingAt]; omega)⟩
  | descAddr w x id =>
    cases h
    exact ⟨w.ring, .inl ⟨id, id.isLt, by simp only [descAddrAt]; omega⟩⟩
  | descLen w x id addr =>
    cases h
    exact ⟨w.ring, .inl ⟨id, id.isLt, by simp only [descLenAt]; omega⟩⟩
  | txByte f id addr b rest => cases h
  | rxEnv x id addr dlen got => exact absurd rfl (hr x id addr dlen got)
  | push ph j => cases ph <;> cases h

/-- A ring-field write lies in used.idx and used.ring (R166). -/
theorem event_write_at {a : Nat} {bs : List Byte} (hw : ∀ f id addr b rest, p ≠ .txByte f id addr b rest)
    (h : p.event c = .write a bs) :
    ∃ q, ringBase c q + 0xA2 ≤ a ∧ a + bs.length ≤ ringBase c q + 0xE4 := by
  cases p with
  | initPeek => cases h
  | peek w x => cases h
  | slot w x => cases h
  | descAddr w x id => cases h
  | descLen w x id addr => cases h
  | txByte f id addr b rest => exact absurd rfl (hw f id addr b rest)
  | rxEnv x id addr dlen got => cases h
  | push ph j =>
    have := slotOf_lt j.u
    cases ph with
    | id =>
      cases h
      exact ⟨j.kind.ring, by simp only [usedIdAt, bytesOf_length]; omega⟩
    | len =>
      cases h
      exact ⟨j.kind.ring, by simp only [usedLenAt, bytesOf_length]; omega⟩
    | barrier1 => cases h
    | idx =>
      cases h
      exact ⟨j.kind.ring, by simp only [usedIdxAt, bytesOf_length]; omega⟩
    | barrier2 => cases h

/-- Settles O47: a byte of ring r under an event is in the event's own ring, where the fields that the block does not interpret lie
outside what it reads and writes. -/
theorem blockIgnoresTheUninterpretedFields : Obligations.BlockIgnoresTheUninterpretedFields := by
  unfold Obligations.BlockIgnoresTheUninterpretedFields
  intro c p r x hc hw hr
  simp only [descFlagsAt, availFlagsAt, usedEventAt, availEventAt, usedFlagsAt, outside, not_or, not_lt, not_le]
  refine ⟨fun a n he ⟨hx, hx'⟩ => ?_, fun a bs he ⟨hx, hx'⟩ => ?_⟩
  · obtain ⟨q, hq⟩ := event_read_at hr he
    have own := ringBase_eq_of_mem q r x hc
    refine ⟨fun ⟨i, hi, hf, hf'⟩ => ?_, fun ⟨hf, hf'⟩ => ?_, fun ⟨hf, hf'⟩ => ?_⟩ <;>
      obtain ⟨k, hk, hd⟩ | hd := hq <;> omega
  · obtain ⟨q, hq⟩ := event_write_at hw he
    have own := ringBase_eq_of_mem q r x hc
    exact ⟨fun ⟨hf, hf'⟩ => by omega, fun ⟨hf, hf'⟩ => by omega⟩

end Sys2Proof.Machine
end

section
/-! SUPPORT. What a step runs (10_state.md section 2, R47; 70_reset_and_hazards.md R414, R425), and the client's accesses to the
register space (10_state.md R44, R48, R49): one equation for each way a step begins, and one for each register an access meets. -/

namespace Sys2Proof.Machine

variable {s : State}

/-! ### How a step begins -/

theorem step_of_acts {m : Act} {rest : List Act} (hc : s.cfg.ok = true) (ha : s.acts = m :: rest) :
    step s = performAct m { s with acts := rest } := by
  simp [step, machineStep, State.schedule, hc, ha]

theorem step_of_cycle (hc : s.cfg.ok = true) (ha : s.acts = []) (hy : s.cycle ≠ []) :
    step s = performAct (.drain .device) { s with acts := .drain .host :: .block :: s.cycle } := by
  simp [step, machineStep, State.schedule, State.round, hc, ha, hy]

theorem step_of_quiet (hc : s.cfg.ok = true) (ha : s.acts = []) (hy : s.cycle = []) : step s = quietStep s := by
  simp [step, machineStep, State.schedule, hc, ha, hy]

theorem step_of_badConfiguration (hc : s.cfg.ok = false) : step s = .refused .badConfiguration := by
  simp [step, machineStep, hc]

theorem quietStep_of_cmd {w : Word} (hb : s.seq.isBusy = false) (hw : s.cmd = some w) :
    quietStep s = runWord w { s with cmd := none } := by
  simp [quietStep, hb, hw]

theorem runWord_of_decode {w : Word} {i : Instr} (h : decodeWord w = .ok i) (s : State) : runWord w s = exec i s := by
  simp [runWord, h]

theorem step_of_cmd {w : Word} {i : Instr} (hc : s.cfg.ok = true) (ha : s.acts = []) (hy : s.cycle = [])
    (hb : s.seq.isBusy = false) (hw : s.cmd = some w) (hd : decodeWord w = .ok i) :
    step s = exec i { s with cmd := none } := by
  rw [step_of_quiet hc ha hy, quietStep_of_cmd hb hw, runWord_of_decode hd]

theorem decodeWord_encode (i : Instr) : decodeWord (encode i) = .ok i := by cases i <;> rfl

theorem fetchWord_encode (i : Instr) : fetchWord 32 (encode i).toNat = encode i := by cases i <;> rfl

theorem withFetchWord_not_busy (s : State) (nbits w : Nat) : (s.withFetchWord nbits w).seq.isBusy = false := by
  simp only [State.withFetchWord, placeWord]
  split
  · exact s.seq.returned_isBusy
  · next hb => simpa using hb

/-- Settles O4, by the way each kind of step begins. -/
theorem stepRunsTheDecodedCommand : Obligations.StepRunsTheDecodedCommand := by
  unfold Obligations.StepRunsTheDecodedCommand
  refine ⟨fun s w i hc ha hy hb hw hd => step_of_cmd hc ha hy hb hw hd, fun s i hc => ?_,
    fun s m rest hc ha => step_of_acts hc ha, fun s hc ha hy => step_of_cycle hc ha hy,
    fun s hc => step_of_badConfiguration hc⟩
  exact step_of_cmd (s := s.withFetchWord 32 (encode i).toNat) hc rfl rfl (withFetchWord_not_busy s _ _)
    (congrArg some (fetchWord_encode i)) (decodeWord_encode i)

/-! ### The register space -/

theorem regOffset_of_aligned {off : Nat} (hb : s.cfg.regBase.toNat % 4 = 0) (hoff : off < 0x50) (h4 : off % 4 = 0) :
    s.regOffset (s.cfg.regBase.toNat + off) 4 = some off := by
  rw [State.regOffset, if_pos (by omega), Nat.add_sub_cancel_left]

theorem regOffset_eq_none {addr width : Nat}
    (h : width ≠ 4 ∨ addr % 4 ≠ 0 ∨ addr < s.cfg.regBase.toNat ∨ s.cfg.regBase.toNat + 0x50 ≤ addr) :
    s.regOffset addr width = none := by
  rw [State.regOffset, if_neg (by omega)]

/-- Two halves side by side: the low one in bits [15:0], the high one in [31:16] (R131). -/
theorem append_eq_u32 (hi lo : Half) : hi ++ lo = u32 (lo.toNat + 65536 * hi.toNat) := by
  apply BitVec.eq_of_toNat_eq
  rw [BitVec.toNat_append, ← Nat.shiftLeft_add_eq_or_of_lt lo.isLt, Nat.shiftLeft_eq, BitVec.toNat_ofNat]
  omega

theorem regValue_arg (s : State) (n : Fin 4) : s.regValue (0x20 + 4 * n.val) = s.argValue n := by fin_cases n <;> rfl

theorem regWrite_arg (s : State) (n : Fin 4) (v : Word) : s.regWrite (0x20 + 4 * n.val) v = s.writeArg n v := by
  fin_cases n <;> rfl

theorem regWrite_readOnly {off : Nat}
    (h : off ∈ [0x04, 0x08, 0x0C, 0x10, 0x14, 0x18, 0x1C, 0x30, 0x34, 0x38, 0x3C, 0x40, 0x44, 0x48, 0x4C]) (v : Word)
    (s : State) : s.regWrite off v = s := by
  fin_cases h <;> rfl

section
variable {addr width off : Nat} {v : Word} (hcmd : s.cmd = none)
include hcmd

theorem clientMove_regWrite (ho : s.regOffset addr width = some off) :
    clientMove (.regWrite addr width v) s = .next (s.regWrite off v) := by
  simp [clientMove, clientRegWrite, hcmd, ho]

theorem clientMove_regRead_value (ho : s.regOffset addr width = some off) (hv : s.regValue off = .value v) :
    clientMove (.regRead addr width) s = .next (s.noteClientRead v.toNat) := by
  simp [clientMove, clientRegRead, hcmd, ho, hv]

theorem clientMove_regRead_unwritten (ho : s.regOffset addr width = some off) (hv : s.regValue off = .unwritten) :
    clientMove (.regRead addr width) s = .refused .unwrittenArgRead := by
  simp [clientMove, clientRegRead, hcmd, ho, hv]

theorem clientMove_regWrite_refused (ho : s.regOffset addr width = none) :
    clientMove (.regWrite addr width v) s = .refused .regAccess := by
  simp [clientMove, clientRegWrite, hcmd, ho]

theorem clientMove_regRead_refused (ho : s.regOffset addr width = none) :
    clientMove (.regRead addr width) s = .refused .regAccess := by
  simp [clientMove, clientRegRead, hcmd, ho]

end

/-- Settles O56: the offsets are aligned and inside the register space, and the register map holds these values. -/
theorem registerReads : Obligations.RegisterReads := by
  unfold Obligations.RegisterReads
  intro s rest off v hc hb hcmd ha hv
  obtain ⟨hoff, h4, hr⟩ : off < 0x50 ∧ off % 4 = 0 ∧ State.regValue { s with acts := rest } off = .value v := by
    simp only [← append_eq_u32, u32, BitVec.ofNat_toNat, List.mem_cons, List.not_mem_nil, or_false, Prod.mk.injEq] at hv
    obtain ⟨rfl, rfl⟩ | ⟨rfl, rfl⟩ | ⟨rfl, rfl⟩ | ⟨rfl, rfl⟩ | ⟨rfl, rfl⟩ | ⟨rfl, rfl⟩ | ⟨rfl, rfl⟩ | ⟨rfl, rfl⟩ |
      ⟨rfl, rfl⟩ | ⟨rfl, rfl⟩ | ⟨rfl, rfl⟩ | ⟨rfl, rfl⟩ | ⟨rfl, rfl⟩ | ⟨rfl, rfl⟩ | ⟨rfl, rfl⟩ | ⟨rfl, rfl⟩ := hv <;>
      exact ⟨by decide, by decide, rfl⟩
  rw [step_of_acts hc ha]
  exact clientMove_regRead_value (s := { s with acts := rest }) hcmd (regOffset_of_aligned hb hoff h4) hr

/-- Settles O57, register by register. -/
theorem registerWritesAndRefusals : Obligations.RegisterWritesAndRefusals := by
  unfold Obligations.RegisterWritesAndRefusals
  intro s rest addr width v hc hb hcmd
  have aligned {off : Nat} := regOffset_of_aligned (s := { s with acts := rest }) (off := off) hb
  refine ⟨fun n ha => ?_, fun n ha => ?_, fun off hoff ha => ?_, fun ha => ?_, fun h ha => ?_⟩
  · rw [Nat.add_assoc] at ha
    rw [step_of_acts hc ha]
    refine (clientMove_regWrite (s := { s with acts := rest }) hcmd (aligned (by omega) (by omega))).trans ?_
    rw [regWrite_arg]
    rfl
  · rw [Nat.add_assoc] at ha
    rw [step_of_acts hc ha]
    have ho := aligned (off := 0x20 + 4 * n.val) (by omega) (by omega)
    have hr := regValue_arg { s with acts := rest } n
    split
    · next hw => exact clientMove_regRead_value hcmd ho (hr.trans (if_pos hw))
    · next hw => exact clientMove_regRead_unwritten hcmd ho (hr.trans (if_neg hw))
  · obtain ⟨hlt, h4⟩ : off < 0x50 ∧ off % 4 = 0 := by fin_cases hoff <;> decide
    rw [step_of_acts hc ha]
    refine (clientMove_regWrite (s := { s with acts := rest }) hcmd (aligned hlt h4)).trans ?_
    rw [regWrite_readOnly hoff]
  · rw [step_of_acts hc ha]
    exact clientMove_regWrite (s := { s with acts := rest }) hcmd (aligned (off := 0) (by decide) (by decide))
  · have ho := regOffset_eq_none (s := { s with acts := rest }) h
    obtain ha | ha := ha
    · rw [step_of_acts hc ha]
      exact clientMove_regWrite_refused hcmd ho
    · rw [step_of_acts hc ha]
      exact clientMove_regRead_refused hcmd ho

end Sys2Proof.Machine
end

section
/-! SUPPORT. The reset state (10_state.md R55): its values, and that every invariant begins there. -/

namespace Sys2Proof.Machine

/-- Settles O54: each value is a field of the reset state. -/
theorem resetValues : Obligations.ResetValues := by
  unfold Obligations.ResetValues
  refine ⟨rfl, rfl, rfl, rfl, rfl, rfl, rfl, rfl, rfl, rfl, ?_, ?_, rfl, rfl, rfl, rfl, rfl⟩
  · decide
  · decide

theorem reset_isHeld (id : Fin 8) : State.reset.isHeld id = false := by simp [State.isHeld, State.reset]

theorem reset_isLeaked (id : Fin 8) : State.reset.isLeaked id = false := by simp [State.isLeaked, State.reset]

theorem reset_not_busy (p : Pos) (o : Option Suspended) : State.reset.seq ≠ .busy p o := by simp [State.reset]

theorem reset_sequencerFits : State.reset.sequencerFits where
  faulted h := absurd rfl h
  idle _ _ := .inl rfl
  delivering k h := by cases h
  waiting o h := absurd h (reset_not_busy _ o)
  announcing p o h := absurd h (reset_not_busy p o)
  ready p o h := absurd h (reset_not_busy p o)
  nested p k h := absurd h (reset_not_busy p _)

theorem reset_cursorsFit : State.reset.cursorsFit where
  between _ _ := ⟨by decide, rfl⟩
  running p o h := absurd h (reset_not_busy p o)
  locals p o h := absurd h (reset_not_busy p o)
  suspended k h := by cases h

theorem reset_buffersFit : State.reset.buffersFit where
  held id h := absurd h (by simp [reset_isHeld])
  running p o h := absurd h (reset_not_busy p o)
  host todo fin h := by cases h

theorem reset_publicationOrdered : State.reset.publicationOrdered :=
  ⟨fun _ o h => absurd h (reset_not_busy _ o), fun _ o h => absurd h (reset_not_busy _ o)⟩

theorem reset_leaksFit : State.reset.leaksFit where
  held id h := absurd h (by simp [reset_isLeaked])
  running p o h := absurd h (reset_not_busy p o)

/-- Settles O48: nothing runs, is suspended, held or leaked, and both memories are empty. -/
theorem resetMeetsTheInvariants : Obligations.ResetMeetsTheInvariants :=
  ⟨⟨rfl, rfl⟩, reset_sequencerFits, reset_cursorsFit, reset_buffersFit, reset_publicationOrdered, reset_leaksFit⟩

end Sys2Proof.Machine
end

section
/-! SUPPORT. Where the block's procedures come to rest. Most of them end at a position that no invariant about memory speaks of,
and hold no TX id that was not held before: `rests` says so once for each, and the invariants of the windows and of the
publication order (20_memory.md R78, R92) are left with the few positions that have a buffer or a used.idx in hand. -/

namespace Sys2Proof.Machine

variable {s t u : State}

/-- The position has no buffer in hand, and used.idx is neither about to be written nor on its way into SHM. -/
def Pos.bare : Pos → Bool
  | .initPeek => true
  | .peek _ _ => true
  | .slot _ _ => true
  | .descAddr _ _ _ => true
  | .descLen _ _ _ _ => true
  | .txByte _ _ _ _ _ => false
  | .rxEnv _ _ _ _ _ => false
  | .push .id _ => true
  | .push .len _ => true
  | .push .barrier1 _ => true
  | .push .idx _ => false
  | .push .barrier2 _ => false

/-- From s to t no TX id was taken, and what runs in t is at a bare position. -/
structure rests (s t : State) : Prop where
  held : ∀ id, t.isHeld id = true → s.isHeld id = true
  heldAddr : t.heldAddr = s.heldAddr
  heldCap : t.heldCap = s.heldCap
  bare : ∀ p o, t.seq = .busy p o → p.bare = true

/-- Updates before it that take no TX id do not matter. -/
theorem rests.after (h : rests u t) (hh : ∀ id, u.isHeld id = true → s.isHeld id = true) (ha : u.heldAddr = s.heldAddr)
    (hc : u.heldCap = s.heldCap) : rests s t where
  held id hi := hh id (h.held id hi)
  heldAddr := h.heldAddr.trans ha
  heldCap := h.heldCap.trans hc
  bare := h.bare

/-- A block that is not Busy is at no position. -/
theorem seq_ne_busy (h : s.seq.isBusy = false) (p : Pos) (o : Option Suspended) : s.seq ≠ .busy p o := by
  intro hq
  simp [hq, Seq.isBusy] at h

theorem goto_rests {p : Pos} (hp : p.bare = true) (s : State) : rests s (s.goto p) where
  held _ h := h
  heldAddr := rfl
  heldCap := rfl
  bare q o hq := by cases hq; exact hp

theorem finish_rests (st : Status) (s : State) : rests s (s.finish st) where
  held _ h := h
  heldAddr := rfl
  heldCap := rfl
  bare p o hq := absurd hq (seq_ne_busy (by simp) p o)

theorem raise_rests (c : FaultCause) (i : Word) (s : State) : rests s (s.raise c i) where
  held _ h := h
  heldAddr := rfl
  heldCap := rfl
  bare p o hq := by cases hq

/-! ### The ends of the procedures -/

theorem announceEnd_rests (st : Status) (s : State) : rests s (announceEnd st s) := by
  unfold announceEnd
  split <;> exact (finish_rests _ _).after (fun _ h => h) rfl rfl

theorem sendEnd_rests (f : Frame) (st : Status) (s : State) : rests s (sendEnd f st s) := by
  unfold sendEnd
  split
  · exact finish_rests st s
  · exact announceEnd_rests st s

theorem ringEmpty_rests (w : Walk) (s : State) : rests s (ringEmpty w s) := by
  cases w with
  | acquire => exact finish_rests _ s
  | send f => exact sendEnd_rests f _ s
  | poll => exact (finish_rests _ _).after (fun _ h => h) rfl rfl

theorem usedPush_rests (k : PushKind) (id : Fin 8) (n : Word) (s : State) : rests s (usedPush k id n s) := goto_rests rfl s

theorem dropFrame_rests (c : Half) (id : Fin 8) (s : State) : rests s (dropFrame c id s) :=
  (usedPush_rests (.poll c) id _ { s with rxCurFlen := 0 }).after (fun _ h => h) rfl rfl

theorem deliver_rests (c : Half) (id : Fin 8) (addr : Word) (e : Envelope) (s : State) : rests s (deliver c id addr e s) where
  held _ h := h
  heldAddr := rfl
  heldCap := rfl
  bare p o hq := by cases hq

theorem envelopeRead_rests (c : Half) (id : Fin 8) (addr dlen : Word) (b : List Byte) (s : State) :
    rests s (envelopeRead c id addr dlen b s) := by
  unfold envelopeRead
  split
  · exact deliver_rests c id addr _ s
  · exact dropFrame_rests c id s

theorem pollLoop_rests (s : State) : rests s (pollLoop s) := goto_rests rfl s

theorem afterDeliver_rests (k : Suspended) (s : State) : rests s (afterDeliver k s) :=
  (usedPush_rests (.poll k.cursor) k.id _ { s with seq := .idle, rxDelivered := _ }).after (fun _ h => h) rfl rfl

theorem isHeld_of_unhold {id i : Fin 8} (h : (s.unhold id).isHeld i = true) : s.isHeld i = true := by
  simp only [State.isHeld, State.unhold_txHeld, BitVec.getLsbD_eq_getElem i.isLt, getElem_clearBit, Bool.and_eq_true] at h
  simpa [State.isHeld] using h.1

theorem pushDone_rests (j : PushJob) (s : State) : rests s (pushDone j s) := by
  unfold pushDone
  split
  · exact (finish_rests _ _).after (fun _ => isHeld_of_unhold) rfl rfl
  · exact (sendEnd_rests _ _ _).after (fun _ => isHeld_of_unhold) rfl rfl
  · exact (pollLoop_rests _).after (fun _ h => h) rfl rfl

/-! ### The events of a walk -/

theorem availPeek_rests (r : Ring) (c a : Half) {k : State → State} (hk : rests s (k s)) : rests s (availPeek r c a k s) := by
  obtain ⟨-, -, e⟩ | ⟨-, e⟩ := availPeek_cases r c a k s <;> rw [e]
  · exact raise_rests _ _ s
  · exact hk

theorem takeSlot_rests (r : Ring) (v : Half) {k : Fin 8 → State → State} (hk : ∀ id, rests s (k id s)) :
    rests s (takeSlot r v k s) := by
  obtain ⟨-, e⟩ | ⟨id, -, ⟨-, -, e⟩ | ⟨-, e⟩⟩ := takeSlot_cases r v k s <;> rw [e]
  · exact raise_rests _ _ s
  · exact raise_rests _ _ s
  · exact hk id

theorem waitLoop_rests (s : State) : rests s (waitLoop s) := by
  unfold waitLoop
  split
  · exact goto_rests rfl s
  · exact (finish_rests _ _).after (fun _ h => h) rfl rfl

theorem announceStart_rests (s : State) : rests s (announceStart s) :=
  (goto_rests rfl { s with ch := .announcing }).after (fun _ h => h) rfl rfl

theorem initPeeked_rests (a : Half) (s : State) : rests s (initPeeked a s) := by
  refine availPeek_rests _ _ _ ?_
  simp only
  split
  · exact (announceStart_rests _).after (fun _ h => h) rfl rfl
  · exact (waitLoop_rests _).after (fun _ h => h) rfl rfl

theorem advanceOnTake_goto_rests (w : Walk) (c : Half) (id : Fin 8) (s : State) :
    rests s ((advanceOnTake w c s).goto (.descAddr w c id)) := by
  cases w <;> exact (goto_rests rfl _).after (fun _ h => h) rfl rfl

/-! ### What follows an event -/

/-- What follows a position's event: the block comes to rest, has a buffer in hand, or goes on to used.idx or its barrier. -/
theorem resume_cases (p : Pos) (v : Nat) (s : State) :
    rests s (p.resume v s) ∨
    (∃ w c id addr, p = .descLen w c id addr ∧ bufferInWindow s.cfg addr (u32 v) = true ∧
      p.resume v s = bufferTaken w c id (u32 v) (addr.setWidth 32) s) ∨
    (∃ f id addr b rest, p = .txByte f id addr b rest ∧ p.resume v s = sendBytes f id (addr + 1) rest s) ∨
    (∃ c id addr dlen got, p = .rxEnv c id addr dlen got ∧ got.length + 1 < envSize ∧
      p.resume v s = s.goto (.rxEnv c id addr dlen (got ++ [BitVec.ofNat 8 v]))) ∨
    (∃ j, p = .push .barrier1 j ∧ p.resume v s = s.goto (.push .idx j)) ∨
    (∃ j, p = .push .idx j ∧ p.resume v s = (s.setUsed j.kind.ring (j.u + 1)).goto (.push .barrier2 j)) := by
  cases p with
  | initPeek => exact .inl (initPeeked_rests _ s)
  | peek w c =>
    simp only [Pos.resume]
    refine .inl (availPeek_rests _ _ _ ?_)
    split
    · exact ringEmpty_rests w s
    · exact goto_rests rfl s
  | slot w c =>
    simp only [Pos.resume]
    exact .inl (takeSlot_rests _ _ fun id => advanceOnTake_goto_rests w c id s)
  | descAddr w c id => exact .inl (goto_rests rfl s)
  | descLen w c id addr =>
    simp only [Pos.resume]
    obtain ⟨-, e⟩ | ⟨hw, e⟩ := readDesc_cases w.ring addr (u32 v) (bufferTaken w c id (u32 v)) s <;> rw [e]
    · exact .inl (raise_rests _ _ s)
    · exact .inr (.inl ⟨w, c, id, addr, rfl, hw, rfl⟩)
  | txByte f id addr b rest => exact .inr (.inr (.inl ⟨f, id, addr, b, rest, rfl, rfl⟩))
  | rxEnv c id addr dlen got =>
    simp only [Pos.resume]
    split
    · next hg => exact .inr (.inr (.inr (.inl ⟨c, id, addr, dlen, got, rfl, hg, rfl⟩)))
    · exact .inl (envelopeRead_rests c id addr dlen _ s)
  | push ph j =>
    cases ph with
    | id => exact .inl (goto_rests rfl s)
    | len => exact .inl (goto_rests rfl s)
    | barrier1 => exact .inr (.inr (.inr (.inr (.inl ⟨j, rfl, rfl⟩))))
    | idx => exact .inr (.inr (.inr (.inr (.inr ⟨j, rfl, rfl⟩))))
    | barrier2 => exact .inl (pushDone_rests j s)

/-- A buffer taken: the block comes to rest, with the buffer held or not; or it writes a frame that fits the buffer it has
latched; or it reads the envelope of a buffer that has room for one. -/
theorem bufferTaken_cases (w : Walk) (c : Half) (id : Fin 8) (cap addr : Word) (s : State) :
    rests s (bufferTaken w c id cap addr s) ∨ rests (s.hold id addr cap) (bufferTaken w c id cap addr s) ∨
    (∃ (f : Frame) (v : Word), f.size ≤ cap.toNat ∧ bufferTaken w c id cap addr s =
      sendBytes f id addr.toNat f.bytes (((s.hold id addr cap).setRes 0 (u32 id.val)).setRes 1 v)) ∨
    (envSize ≤ cap.toNat ∧ bufferTaken w c id cap addr s =
      { s with rxCurId := u16 id.val, rxCurDlen := cap }.goto (.rxEnv c id addr cap [])) := by
  cases w with
  | acquire => exact .inr (.inl ((finish_rests _ _).after (fun _ h => h) rfl rfl))
  | send f =>
    simp only [bufferTaken]
    split
    · exact .inr (.inl ((sendEnd_rests f _ _).after (fun _ h => h) rfl rfl))
    · next hf => exact .inr (.inr (.inl ⟨f, _, by omega, rfl⟩))
  | poll =>
    simp only [bufferTaken]
    split
    · next hc => exact .inr (.inr (.inr ⟨hc, rfl⟩))
    · exact .inl ((dropFrame_rests c id _).after (fun _ h => h) rfl rfl)

/-! ### Acceptance -/

theorem startInit_rests (s : State) : rests s (startInit s) := by
  unfold startInit
  split
  · exact (waitLoop_rests _).after (fun _ h => by simp [State.isHeld] at h) rfl rfl
  · exact finish_rests _ s

theorem startPublishTx_rests (s : State) : rests s (startPublishTx s) := by
  unfold startPublishTx
  repeat' split
  · exact raise_rests _ _ s
  · exact raise_rests _ _ s
  · exact usedPush_rests _ _ _ s
  · exact raise_rests _ _ s
  · exact raise_rests _ _ s
  · exact finish_rests _ s

theorem startFrameSend_rests (s : State) : rests s (startFrameSend s) := by
  unfold startFrameSend
  repeat' split
  · exact raise_rests _ _ s
  · exact goto_rests rfl s
  · exact finish_rests _ s

theorem rests_of_not_busy (hb : s.seq.isBusy = false) : rests s s where
  held _ h := h
  heldAddr := rfl
  heldCap := rfl
  bare p o hq := absurd hq (seq_ne_busy hb p o)

theorem startOf_rests (i : Instr) (hb : s.seq.isBusy = false) : rests s (startOf i s) := by
  cases i with
  | init => exact startInit_rests s
  | shutdown =>
    simp only [startOf, startShutdown]
    split <;> exact (finish_rests _ _).after (fun _ h => h) rfl rfl
  | acquireTx =>
    simp only [startOf, startAcquireTx]
    split
    · exact goto_rests rfl s
    · exact finish_rests _ s
  | publishTx => exact startPublishTx_rests s
  | frameSend => exact startFrameSend_rests s
  | pollRx =>
    simp only [startOf, startPollRx]
    split
    · exact (pollLoop_rests _).after (fun _ h => h) rfl rfl
    · exact finish_rests _ s
  | rxRelease =>
    simp only [startOf, startRxRelease]
    split
    · exact afterDeliver_rests _ s
    · exact rests_of_not_busy hb
  | query => exact (finish_rests _ _).after (fun _ h => h) rfl rfl

/-- A command accepted is at a bare position or has ended. -/
theorem accept_rests (i : Instr) (hb : s.seq.isBusy = false) : rests s (accept i (startOf i) s) := by
  obtain ⟨-, e⟩ | ⟨-, c, -, e⟩ | ⟨-, -, n, -, e⟩ | ⟨-, -, -, e⟩ := accept_cases i (startOf i) s <;> rw [e]
  · exact (rests_of_not_busy (s := { s with status := .faulted }) hb).after (fun _ h => h) rfl rfl
  · exact raise_rests _ _ s
  · exact raise_rests _ _ s
  · exact startOf_rests i hb

theorem acceptWord_rests (w : Word) (hb : s.seq.isBusy = false) : rests s (acceptWord w s) := by
  unfold acceptWord
  split
  · exact accept_rests _ hb
  · exact (rests_of_not_busy (s := illegalWord s) hb).after (fun _ h => h) rfl rfl

end Sys2Proof.Machine
end

section
/-! SUPPORT. The publication order along every step (20_memory.md R92, R95; 40_transport_tx.md R166). Only the block's own step
at one of the last three events of UsedPush reaches or leaves the positions the order speaks of; every other move at most
commits entries of PW[device] while the block stands there, since the client writes nothing while a command is Busy (R417). -/

namespace Sys2Proof.Machine

variable {s t : State}

/-! ### The block -/

/-- Away from the two positions at used.idx there is nothing to keep in order. -/
theorem ordered_of_ne (h : ∀ ph j o, t.seq = .busy (.push ph j) o → ph ≠ .idx ∧ ph ≠ .barrier2) : t.publicationOrdered :=
  ⟨fun j o hq => absurd rfl (h _ j o hq).1, fun j o hq => absurd rfl (h _ j o hq).2⟩

theorem rests.ordered (h : rests s t) : t.publicationOrdered :=
  ordered_of_ne fun ph j o hq => by
    have hb := h.bare _ o hq
    cases ph <;> simp_all [Pos.bare]

theorem ordered_of_not_busy (hb : t.seq.isBusy = false) : t.publicationOrdered := (rests_of_not_busy hb).ordered

theorem sendBytes_ordered (f : Frame) (id : Fin 8) (addr : Nat) (bs : List Byte) (s : State) :
    (sendBytes f id addr bs s).publicationOrdered := by
  cases bs with
  | nil => exact (usedPush_rests _ _ _ s).ordered
  | cons b rest => exact ordered_of_ne fun ph j o hq => by cases hq

theorem bufferTaken_ordered (w : Walk) (c : Half) (id : Fin 8) (cap addr : Word) (s : State) :
    (bufferTaken w c id cap addr s).publicationOrdered := by
  obtain hr | hr | ⟨f, v, -, e⟩ | ⟨-, e⟩ := bufferTaken_cases w c id cap addr s
  · exact hr.ordered
  · exact hr.ordered
  · rw [e]
    exact sendBytes_ordered _ _ _ _ _
  · rw [e]
    exact ordered_of_ne fun ph j o hq => by cases hq

/-- The updates that follow an event but the one of used.idx: where used.idx comes next, the first barrier has passed. -/
theorem resume_ordered {p : Pos} (hi : ∀ j, p ≠ .push .idx j) (hb : ∀ j, p = .push .barrier1 j → s.pwDevice = []) (v : Nat) :
    (p.resume v s).publicationOrdered := by
  obtain hr | ⟨w, c, id, addr, -, -, e⟩ | ⟨f, id, addr, b, rest, -, e⟩ | ⟨c, id, addr, dlen, got, -, -, e⟩ | ⟨j, rfl, e⟩ |
    ⟨j, rfl, -⟩ := resume_cases p v s
  · exact hr.ordered
  · rw [e]
    exact bufferTaken_ordered _ _ _ _ _ _
  · rw [e]
    exact sendBytes_ordered _ _ _ _ _
  · rw [e]
    exact ordered_of_ne fun ph j o hq => by cases hq
  · rw [e]
    exact ⟨fun k o hq => hb j rfl, fun k o hq => by cases hq⟩
  · exact absurd rfl (hi j)

/-- The used.idx write enters an empty set (R166). -/
theorem resume_idx_ordered {j : PushJob} (hp : s.pwDevice = []) :
    ((Pos.push .idx j).resume 0
      (s.issueWrite .device (usedIdxAt s.cfg j.kind.ring) (bytesOf (j.u + 1).toNat 2))).publicationOrdered := by
  refine ⟨fun k o hq => (by cases hq), fun k o hq => ?_⟩
  cases hq
  exact .inr (by simp [Pos.resume, pushAfter, hp])

theorem blockStep_ordered (hs : s.publicationOrdered) (h : blockStep s = .next t) : t.publicationOrdered := by
  obtain ⟨-, rfl⟩ | ⟨p, o, hq, hp⟩ := blockStep_next h
  · exact hs
  · obtain ⟨x, n, he, -, rfl⟩ | ⟨x, bs, he, -, rfl⟩ | ⟨he, hpw, rfl⟩ | ⟨-, -, rfl⟩ := hp
    · exact resume_ordered (fun j hj => by rw [hj] at he; cases he) (fun j hj => by rw [hj] at he; cases he) _
    · by_cases hi : ∃ j, p = .push .idx j
      · obtain ⟨j, rfl⟩ := hi
        obtain ⟨rfl, rfl⟩ : usedIdxAt s.cfg j.kind.ring = x ∧ bytesOf (j.u + 1).toNat 2 = bs := by
          simpa [Pos.event, pushEvent] using he
        exact resume_idx_ordered (hs.1 j o hq)
      · exact resume_ordered (fun j hj => hi ⟨j, hj⟩) (fun j hj => by rw [hj] at he; cases he) _
    · exact resume_ordered (fun j hj => by rw [hj] at he; cases he) (fun _ _ => hpw) _
    · exact hs

/-! ### The other moves -/

/-- While the block stands, entries of PW[device] may go. -/
theorem ordered_of_sublist (hs : s.publicationOrdered) (hq : t.seq = s.seq) (hc : t.cfg = s.cfg)
    (hp : t.pwDevice.Sublist s.pwDevice) : t.publicationOrdered := by
  obtain ⟨hidx, hbar⟩ := hs
  refine ⟨fun j o h => ?_, fun j o h => ?_⟩
  · rw [hq] at h
    simpa [hidx j o h] using hp
  · rw [hq] at h
    obtain e | e := hbar j o h <;> rw [e] at hp
    · exact .inl (List.sublist_nil.mp hp)
    · rw [hc]
      exact List.sublist_singleton.mp hp

theorem commit_ordered {a : Agent} {k : Nat} (hs : s.publicationOrdered) (h : s.commit a k = some t) :
    t.publicationOrdered := by
  refine ordered_of_sublist hs (commit_sameControl h).seq (commit_cfg h) ?_
  obtain ⟨w, -, -, rfl⟩ := commit_some h
  cases a
  · exact List.eraseIdx_sublist _ k
  · exact .refl _

theorem drain_ordered {a : Agent} (hs : s.publicationOrdered) (h : drain a s = .next t) : t.publicationOrdered := by
  obtain ⟨-, rfl⟩ | ⟨-, hc⟩ := drain_next h
  · exact hs
  · exact commit_ordered hs hc

@[simp] theorem State.regWrite_pwDevice (s : State) (off : Nat) (v : Word) : (s.regWrite off v).pwDevice = s.pwDevice := by
  unfold State.regWrite
  split <;> rfl

/-- The client writes SHM only while the block is not Busy. -/
theorem clientMove_pwDevice {op : ClientOp} (hb : s.seq.isBusy = true) (h : clientMove op s = .next t) :
    t.pwDevice = s.pwDevice := by
  obtain ⟨-, ⟨_, _, v, off, -, -, rfl⟩ | ⟨_, _, _, v, -, -, -, rfl⟩ | ⟨a, n, v, -, hm, -⟩ | ⟨a, n, -, rfl⟩ |
    ⟨a, bs, -, -, rfl⟩⟩ := clientMove_next h
  · exact s.regWrite_pwDevice off v
  · rfl
  · simp [State.clientMayWrite, hb] at hm
  · rfl
  · rfl

theorem clientMove_ordered {op : ClientOp} (hs : s.publicationOrdered) (h : clientMove op s = .next t) :
    t.publicationOrdered := by
  have hq := (clientMove_sameControl h).seq
  cases hb : s.seq.isBusy with
  | true => exact ordered_of_sublist hs hq (clientMove_cfg h) (by rw [clientMove_pwDevice hb h])
  | false => exact ordered_of_not_busy (by rw [hq, hb])

@[simp] theorem hostEffect_pwDevice (e : HostEffect) (s : State) : (hostEffect e s).pwDevice = s.pwDevice := by
  cases e <;> simp [hostEffect]

@[simp] theorem noteIfRead_pwDevice (e : Event) (v : Nat) (s : State) : (noteIfRead e v s).pwDevice = s.pwDevice := by
  cases e <;> rfl

@[simp] theorem reapNext_pwDevice (r : Ring) (v : Half) (left : Nat) (id : Word) (s : State) :
    (reapNext r v left id s).pwDevice = s.pwDevice := by
  simp only [reapNext]
  split <;> exact s.setHostRing_pwDevice r _

@[simp] theorem HostPos.resume_pwDevice (p : HostPos) (v : Nat) (s : State) : (p.resume v s).pwDevice = s.pwDevice := by
  cases p with
  | script todo fin =>
    cases todo with
    | nil => simp [HostPos.resume]
    | cons e rest => simp only [HostPos.resume]; split <;> simp
  | reapIdx r left => simp only [HostPos.resume]; split <;> simp
  | reapId r w left => rfl
  | reapLen r w left id => simp only [HostPos.resume]; split <;> simp
  | reapByte r w left id a n => simp only [HostPos.resume]; split <;> simp

theorem hostStep_pwDevice (h : hostStep s = .next t) : t.pwDevice = s.pwDevice := by
  obtain ⟨-, rfl⟩ | ⟨p, -, -, ⟨-, rfl⟩ | ⟨e, -, -, he⟩⟩ := hostStep_next h
  · rfl
  · exact p.resume_pwDevice 0 s
  · obtain ⟨x, n, -, -, rfl⟩ | ⟨x, bs, -, -, rfl⟩ | ⟨-, -, rfl⟩ | ⟨-, -, rfl⟩ := shmEvent_next he <;> simp

/-! ### Every step -/

theorem blockTurn_ordered (hs : s.publicationOrdered) (h : blockTurn s = .next t) : t.publicationOrdered := by
  obtain ⟨-, hb⟩ | ⟨hb, w, -, rfl⟩ | ⟨-, -, rfl⟩ := blockTurn_next h
  · exact blockStep_ordered hs hb
  · exact (acceptWord_rests (s := { s with cmd := none }) w hb).ordered
  · exact hs

theorem performAct_ordered {m : Act} (hs : s.publicationOrdered) (h : performAct m s = .next t) : t.publicationOrdered := by
  obtain ⟨-, hb⟩ | ⟨a, k, -, -, hc⟩ | ⟨a, rfl, -⟩ | ⟨op, -, -, hc⟩ | ⟨op, p, -, -, -, rfl⟩ | ⟨-, hh⟩ | ⟨-, rfl⟩ :=
    performAct_next h
  · exact blockTurn_ordered hs hb
  · exact commit_ordered hs hc
  · exact drain_ordered hs h
  · exact clientMove_ordered hs hc
  · exact hs
  · exact ordered_of_sublist hs (hostStep_sameControl hh).seq (hostStep_cfg hh) (by rw [hostStep_pwDevice hh])
  · exact ordered_of_not_busy rfl

theorem soloStep_ordered (hs : s.publicationOrdered) (h : soloStep s = .next t) : t.publicationOrdered := by
  obtain ⟨_, _, -, -, hc⟩ | hb := soloStep_next h
  · exact commit_ordered hs hc
  · exact blockStep_ordered hs hb

theorem runAlone_ordered (hs : s.publicationOrdered) (h : runAlone s = .next t) : t.publicationOrdered :=
  drive_induction (fun _ _ hu hv => soloStep_ordered hu hv) hs h

theorem runWord_ordered {w : Word} (hb : s.seq.isBusy = false) (h : runWord w s = .next t) : t.publicationOrdered := by
  obtain ⟨i, -, hi⟩ | ⟨e, -, rfl⟩ := runWord_next h
  · rw [exec_eq, runCommand, if_neg (by simp [hb])] at hi
    exact runAlone_ordered (accept_rests i hb).ordered hi
  · exact ordered_of_not_busy hb

theorem quietStep_ordered (hs : s.publicationOrdered) (h : quietStep s = .next t) : t.publicationOrdered := by
  obtain ⟨-, hr⟩ | ⟨hb, w, -, hw⟩ | ⟨-, -, a, hd⟩ := quietStep_next h
  · exact runAlone_ordered hs hr
  · exact runWord_ordered (s := { s with cmd := none }) hb hw
  · exact drain_ordered hs hd

/-- Settles O53: used.idx is written after a barrier at which PW[device] has drained, and nothing enters the set until the next. -/
theorem stepsKeepThePublicationOrder : Obligations.StepsKeepThePublicationOrder := by
  unfold Obligations.StepsKeepThePublicationOrder
  intro s t hs h
  obtain ⟨-, ⟨m, rest, -, hm⟩ | ⟨-, -, hq⟩⟩ := step_next h
  · exact performAct_ordered (s := { s with acts := rest }) hs hm
  · exact quietStep_ordered hs hq

end Sys2Proof.Machine
end

section
/-! SUPPORT. The block stays inside the windows (20_memory.md R70, R78; 70_reset_and_hazards.md R414). A legal configuration puts
every ring field into a window, and the buffers that are held, filled or read were found inside one when they were taken; so
every event of a running command has SHM to reach. -/

namespace Sys2Proof.Machine

variable {s t : State} {c : Config}

/-! ### Windows -/

theorem contains_mono {r : Region} {a n b m : Nat} (h : r.contains a n = true) (hab : a ≤ b) (hbm : b + m ≤ a + n) :
    r.contains b m = true := by
  simp only [Region.contains, Bool.and_eq_true, decide_eq_true_eq] at *
  omega

/-- A part of a range inside a window is inside it. -/
theorem inWindow_mono {a n b m : Nat} (h : c.inWindow a n = true) (hab : a ≤ b) (hbm : b + m ≤ a + n) :
    c.inWindow b m = true := by
  simp only [Config.inWindow, Bool.or_eq_true] at *
  exact h.imp (contains_mono · hab hbm) (contains_mono · hab hbm)

/-- Each ring lies in a window as a whole (R9). -/
theorem ring_inWindow (hc : c.ok = true) (r : Ring) : c.inWindow (ringBase c r) 0xE6 = true := by
  have h : c.ringsInWindow = true := by simp_all [Config.ok]
  simp only [Config.ringsInWindow, ringBytes, Bool.and_eq_true] at h
  cases r
  · exact h.1
  · exact h.2

/-- The event has SHM to reach (R70). -/
def Event.inside (c : Config) : Event → Prop
  | .read a n => c.inWindow a n = true
  | .write a bs => c.inWindow a bs.length = true
  | .barrier => True

theorem shmEvent_ne_fault {e : Event} (h : e.inside s.cfg) (a : Agent) (k : Nat → State → State) (r : Fault) :
    shmEvent a e k s ≠ .fault r := by
  cases e with
  | read x n => simp [shmEvent, show s.cfg.inWindow x n = true from h]
  | write x bs => simp [shmEvent, show s.cfg.inWindow x bs.length = true from h]
  | barrier => simp only [shmEvent]; split <;> simp

/-! ### The invariant and the moves that leave it -/

/-- What buffersFit says of the TX ids held and of the host's procedure. -/
structure State.holdingsFit (s : State) : Prop where
  held : ∀ id, s.isHeld id = true → s.cfg.inWindow s.heldAddr[id].toNat s.heldCap[id].toNat = true
  host : ∀ todo fin, s.hostRun = some (.script todo fin) → ∀ e ∈ todo, e.writeFits s.cfg

theorem State.buffersFit.holdings (h : s.buffersFit) : s.holdingsFit := ⟨h.held, h.host⟩

theorem bufferFits_of_bare {p : Pos} (h : p.bare = true) (s : State) : p.bufferFits s := by
  cases p with
  | txByte f id addr b rest => cases h
  | rxEnv c id addr dlen got => cases h
  | _ => trivial

theorem bufferFits_congr {p : Pos} (hc : sameControl s t) (hcfg : t.cfg = s.cfg) (h : p.bufferFits s) : p.bufferFits t := by
  cases p with
  | txByte f id addr b rest => simpa only [Pos.bufferFits, hc.isHeld, hc.heldAddr, hc.heldCap] using h
  | rxEnv c id addr dlen got => simpa only [Pos.bufferFits, hcfg] using h
  | _ => trivial

theorem buffersFit_of_rests (hs : s.holdingsFit) (hr : rests s t) (hcfg : t.cfg = s.cfg) (hrun : t.hostRun = s.hostRun) :
    t.buffersFit where
  held id hi := by
    rw [hcfg, hr.heldAddr, hr.heldCap]
    exact hs.held id (hr.held id hi)
  running p o hq := bufferFits_of_bare (hr.bare p o hq) t
  host := by
    rw [hrun, hcfg]
    exact hs.host

theorem buffersFit_of_sameControl (hs : s.buffersFit) (hc : sameControl s t) (hcfg : t.cfg = s.cfg)
    (hh : ∀ todo fin, t.hostRun = some (.script todo fin) → ∀ e ∈ todo, e.writeFits s.cfg) : t.buffersFit where
  held := by
    simp only [hc.isHeld, hc.heldAddr, hc.heldCap, hcfg]
    exact hs.held
  running p o hq := bufferFits_congr hc hcfg (hs.running p o (by rw [← hc.seq, hq]))
  host := by
    rw [hcfg]
    exact hh

/-! ### The block's updates -/

theorem goto_buffersFit {p : Pos} (hs : s.holdingsFit) (hp : p.bufferFits s) : (s.goto p).buffersFit where
  held := hs.held
  running q o hq := by
    cases hq
    cases p <;> exact hp
  host := hs.host

/-- Bytes that lie in a held buffer (R211). -/
theorem sendBytes_buffersFit {id : Fin 8} {addr : Nat} {bs : List Byte} (hs : s.holdingsFit) (hh : s.isHeld id = true)
    (ha : s.heldAddr[id].toNat ≤ addr) (hb : addr + bs.length ≤ s.heldAddr[id].toNat + s.heldCap[id].toNat) (f : Frame) :
    (sendBytes f id addr bs s).buffersFit := by
  cases bs with
  | nil => exact buffersFit_of_rests hs (usedPush_rests _ _ _ s) rfl rfl
  | cons b rest =>
    rw [List.length_cons] at hb
    exact goto_buffersFit hs ⟨hh, ha, by omega⟩

theorem isHeld_hold (id i : Fin 8) (addr cap : Word) (s : State) :
    (s.hold id addr cap).isHeld i = (s.isHeld i || decide (i = id)) := by
  simp [State.isHeld]

/-- A buffer inside a window may be held (R163, R211). -/
theorem hold_holdingsFit {addr cap : Word} (hs : s.holdingsFit) (hw : s.cfg.inWindow addr.toNat cap.toNat = true) (id : Fin 8) :
    (s.hold id addr cap).holdingsFit where
  held i hi := by
    by_cases e : i = id
    · subst e
      simpa using hw
    · have hne : id.val ≠ i.val := fun h => e (Fin.ext h.symm)
      have := hs.held i (by simpa [isHeld_hold, e] using hi)
      simpa [hne] using this
  host := hs.host

/-- A buffer found inside a window is latched, filled or read there (R78). -/
theorem bufferTaken_buffersFit {cap addr : Word} (hs : s.holdingsFit) (hw : s.cfg.inWindow addr.toNat cap.toNat = true)
    (w : Walk) (x : Half) (id : Fin 8) : (bufferTaken w x id cap addr s).buffersFit := by
  have hu := bufferTaken_untouched w x id cap addr s
  have held := hold_holdingsFit hs hw id
  obtain hr | hr | ⟨f, v, hf, e⟩ | ⟨hc, e⟩ := bufferTaken_cases w x id cap addr s
  · exact buffersFit_of_rests hs hr hu.cfg hu.hostRun
  · exact buffersFit_of_rests held hr hu.cfg hu.hostRun
  · have latched : (((s.hold id addr cap).setRes 0 (u32 id.val)).setRes 1 v).holdingsFit := ⟨held.held, held.host⟩
    rw [e]
    refine sendBytes_buffersFit latched ?_ (by simp) (by simp [hf]) f
    simp [State.isHeld]
  · rw [e]
    exact goto_buffersFit (s := { s with rxCurId := u16 id.val, rxCurDlen := cap }) ⟨hs.held, hs.host⟩
      ⟨hw, hc, Nat.zero_lt_succ _⟩

/-- What follows an event keeps every buffer inside a window. -/
theorem resume_buffersFit {p : Pos} (hs : s.holdingsFit) (hp : p.bufferFits s) (v : Nat) : (p.resume v s).buffersFit := by
  have hu := p.resume_untouched v s
  obtain hr | ⟨w, x, id, addr, rfl, hw, e⟩ | ⟨f, id, addr, b, rest, rfl, e⟩ | ⟨x, id, addr, dlen, got, rfl, hg, e⟩ |
    ⟨j, -, e⟩ | ⟨j, -, e⟩ := resume_cases p v s
  · exact buffersFit_of_rests hs hr hu.cfg hu.hostRun
  · obtain ⟨ha, hw⟩ := bufferInWindow_spec hw
    rw [e]
    exact bufferTaken_buffersFit hs (by rw [ha]; exact hw) w x id
  · obtain ⟨hh, hlo, hhi⟩ := hp
    rw [e]
    exact sendBytes_buffersFit hs hh (by omega) (by omega) f
  · obtain ⟨hw, hc, -⟩ := hp
    rw [e]
    exact goto_buffersFit hs ⟨hw, hc, by simpa using hg⟩
  · rw [e]
    exact goto_buffersFit hs trivial
  · rw [e]
    have used : (s.setUsed j.kind.ring (j.u + 1)).holdingsFit := by cases j.kind.ring <;> exact ⟨hs.held, hs.host⟩
    exact goto_buffersFit used trivial

/-! ### The block's events -/

/-- Every event of a running command is inside a window. -/
theorem Pos.event_inside {p : Pos} {o : Option Suspended} (hc : s.cfg.ok = true) (hs : s.buffersFit)
    (hq : s.seq = .busy p o) : (p.event s.cfg).inside s.cfg := by
  have fits := hs.running p o hq
  by_cases hw : ∃ f id addr b rest, p = .txByte f id addr b rest
  · obtain ⟨f, id, addr, b, rest, rfl⟩ := hw
    obtain ⟨hh, hlo, hhi⟩ := fits
    exact inWindow_mono (hs.held id hh) hlo (by simp only [List.length_singleton]; omega)
  · by_cases hr : ∃ x id addr dlen got, p = .rxEnv x id addr dlen got
    · obtain ⟨x, id, addr, dlen, got, rfl⟩ := hr
      obtain ⟨hwin, hlen, hgot⟩ := fits
      exact inWindow_mono hwin (by omega) (by omega)
    · cases he : p.event s.cfg with
      | read a n =>
        obtain ⟨q, ⟨i, hi, hlo, hhi⟩ | ⟨hlo, hhi⟩⟩ :=
          event_read_at (fun x id addr dlen got h => hr ⟨x, id, addr, dlen, got, h⟩) he
        · exact inWindow_mono (ring_inWindow hc q) (by omega) (by omega)
        · exact inWindow_mono (ring_inWindow hc q) (by omega) (by omega)
      | write a bs =>
        obtain ⟨q, hlo, hhi⟩ := event_write_at (fun f id addr b rest h => hw ⟨f, id, addr, b, rest, h⟩) he
        exact inWindow_mono (ring_inWindow hc q) (by omega) (by omega)
      | barrier => trivial

theorem blockStep_ne_fault (hc : s.cfg.ok = true) (hs : s.buffersFit) (r : Fault) : blockStep s ≠ .fault r := by
  unfold blockStep
  split
  · next p o hq => exact shmEvent_ne_fault (p.event_inside hc hs hq) _ _ r
  · simp

theorem issueWrite_buffersFit (hs : s.buffersFit) (a : Agent) (x : Nat) (bs : List Byte) : (s.issueWrite a x bs).buffersFit :=
  buffersFit_of_sameControl hs (issueWrite_sameControl a x bs s) (by simp) (by simpa using hs.host)

theorem blockStep_buffersFit (hs : s.buffersFit) (h : blockStep s = .next t) : t.buffersFit := by
  obtain ⟨-, rfl⟩ | ⟨p, o, hq, hp⟩ := blockStep_next h
  · exact hs
  · have fits := hs.running p o hq
    obtain ⟨x, n, -, -, rfl⟩ | ⟨x, bs, -, -, rfl⟩ | ⟨-, -, rfl⟩ | ⟨-, -, rfl⟩ := hp
    · exact resume_buffersFit hs.holdings fits _
    · have written := issueWrite_buffersFit hs .device x bs
      exact resume_buffersFit written.holdings (written.running p o (by simpa using hq)) _
    · exact resume_buffersFit hs.holdings fits _
    · exact hs

theorem accept_buffersFit (hb : s.seq.isBusy = false) (hs : s.buffersFit) (i : Instr) : (accept i (startOf i) s).buffersFit :=
  have hu := accept_untouched i s
  buffersFit_of_rests hs.holdings (accept_rests i hb) hu.cfg hu.hostRun

theorem acceptWord_buffersFit (hb : s.seq.isBusy = false) (hs : s.buffersFit) (w : Word) : (acceptWord w s).buffersFit :=
  have hu := acceptWord_untouched w s
  buffersFit_of_rests hs.holdings (acceptWord_rests w hb) hu.cfg hu.hostRun

/-! ### The block alone -/

theorem commit_hostRun {a : Agent} {k : Nat} (h : s.commit a k = some t) : t.hostRun = s.hostRun := by
  obtain ⟨w, -, -, rfl⟩ := commit_some h
  rw [State.setPending_hostRun]

theorem commit_buffersFit {a : Agent} {k : Nat} (hs : s.buffersFit) (h : s.commit a k = some t) : t.buffersFit :=
  buffersFit_of_sameControl hs (commit_sameControl h) (commit_cfg h) (by rw [commit_hostRun h]; exact hs.host)

theorem drain_buffersFit {a : Agent} (hs : s.buffersFit) (h : drain a s = .next t) : t.buffersFit := by
  obtain ⟨-, rfl⟩ | ⟨-, hc⟩ := drain_next h
  · exact hs
  · exact commit_buffersFit hs hc

theorem commitMove_ne_fault (a : Agent) (k : Nat) (s : State) (r : Fault) : commitMove a k s ≠ .fault r := by
  unfold commitMove
  split
  · simp
  · split <;> simp

theorem drain_ne_fault (a : Agent) (s : State) (r : Fault) : drain a s ≠ .fault r := by
  unfold drain
  split
  · simp
  · exact commitMove_ne_fault a 0 s r

theorem soloStep_ne_fault (hc : s.cfg.ok = true) (hs : s.buffersFit) (r : Fault) : soloStep s ≠ .fault r := by
  unfold soloStep
  split
  · split
    · split
      · simp
      · exact blockStep_ne_fault hc hs r
    · exact blockStep_ne_fault hc hs r
  · simp

theorem soloStep_buffersFit (hs : s.buffersFit) (h : soloStep s = .next t) : t.buffersFit := by
  obtain ⟨_, _, -, -, hc⟩ | hb := soloStep_next h
  · exact commit_buffersFit hs hc
  · exact blockStep_buffersFit hs hb

theorem runAlone_buffersFit (hs : s.buffersFit) (h : runAlone s = .next t) : t.buffersFit :=
  drive_induction (fun _ _ hu hv => soloStep_buffersFit hu hv) hs h

theorem drive_ne_fault (n : Nat) (hc : s.cfg.ok = true) (hs : s.buffersFit) (r : Fault) : drive n s ≠ .fault r := by
  induction n generalizing s with
  | zero => simp [drive]
  | succ n ih =>
    unfold drive
    split
    · split
      · next v hv => exact ih (by rw [(soloStep_untouched hv).cfg, hc]) (soloStep_buffersFit hs hv)
      · next q hq => exact absurd hq (soloStep_ne_fault hc hs q)
      · simp
    · simp

theorem runAlone_ne_fault (hc : s.cfg.ok = true) (hs : s.buffersFit) (r : Fault) : runAlone s ≠ .fault r :=
  drive_ne_fault (soloBound s) hc hs r

theorem exec_of_not_busy (i : Instr) (hb : s.seq.isBusy = false) : exec i s = runAlone (accept i (startOf i) s) := by
  rw [exec_eq, runCommand, if_neg (by simp [hb])]

theorem runWord_ne_fault (w : Word) (hb : s.seq.isBusy = false) (hc : s.cfg.ok = true) (hs : s.buffersFit) (r : Fault) :
    runWord w s ≠ .fault r := by
  unfold runWord
  split
  · next i _ =>
    rw [exec_of_not_busy i hb]
    exact runAlone_ne_fault (by rw [(accept_untouched i s).cfg, hc]) (accept_buffersFit hb hs i) r
  · simp

theorem runWord_buffersFit {w : Word} (hb : s.seq.isBusy = false) (hs : s.buffersFit) (h : runWord w s = .next t) :
    t.buffersFit := by
  obtain ⟨i, -, hi⟩ | ⟨e, -, rfl⟩ := runWord_next h
  · rw [exec_of_not_busy i hb] at hi
    exact runAlone_buffersFit (accept_buffersFit hb hs i) hi
  · exact buffersFit_of_sameControl hs (by constructor <;> rfl) rfl hs.host

theorem quietStep_ne_fault (hc : s.cfg.ok = true) (hs : s.buffersFit) (r : Fault) : quietStep s ≠ .fault r := by
  unfold quietStep
  cases hb : s.seq.isBusy with
  | true =>
    rw [if_pos rfl]
    exact runAlone_ne_fault hc hs r
  | false =>
    simp only [Bool.false_eq_true, if_false]
    split
    · exact runWord_ne_fault (s := { s with cmd := none }) _ hb hc ⟨hs.held, hs.running, hs.host⟩ r
    · split <;> exact drain_ne_fault _ s r

theorem quietStep_buffersFit (hs : s.buffersFit) (h : quietStep s = .next t) : t.buffersFit := by
  obtain ⟨-, hr⟩ | ⟨hb, w, -, hw⟩ | ⟨-, -, a, hd⟩ := quietStep_next h
  · exact runAlone_buffersFit hs hr
  · exact runWord_buffersFit (s := { s with cmd := none }) hb ⟨hs.held, hs.running, hs.host⟩ hw
  · exact drain_buffersFit hs hd

end Sys2Proof.Machine
end

section
/-! SUPPORT. The host stays inside the windows (44_host_agent.md R330 to R338), and with the block's part every step does: a
procedure begins with writes inside windows only, goes on with the rest of them, and reads outside are refused. -/

namespace Sys2Proof.Machine

variable {s t : State} {c : Config}

/-! ### The host begins a procedure -/

/-- The writes of a straight procedure lie in windows. -/
def HostPos.writesFit (c : Config) (p : HostPos) : Prop := ∀ todo fin, p = .script todo fin → ∀ e ∈ todo, e.writeFits c

theorem script_writesFit {todo : List Event} (h : ∀ e ∈ todo, e.writeFits c) (fin : HostEffect) :
    (HostPos.script todo fin).writesFit c := by
  rintro _ _ ⟨⟩
  exact h

/-- A ring field lies in a window (R9). -/
theorem ringWrite_fits {a : Nat} {bs : List Byte} (hc : c.ok = true) (r : Ring)
    (h : ringBase c r ≤ a ∧ a + bs.length ≤ ringBase c r + 0xE6) : (Event.write a bs).writeFits c :=
  inWindow_mono (ring_inWindow hc r) h.1 h.2

theorem descWrites_fit (hc : c.ok = true) (r : Ring) {id : Nat} (hid : id < 8) (addr : Dword) (len : Word) :
    ∀ e ∈ descWrites c r id addr len, e.writeFits c := by
  simp only [descWrites, List.mem_cons, List.not_mem_nil, or_false]
  rintro e (rfl | rfl)
  · exact ringWrite_fits hc r (by simp only [descAddrAt, bytesOf_length]; omega)
  · exact ringWrite_fits hc r (by simp only [descLenAt, bytesOf_length]; omega)

theorem extraWrites_fit (hc : c.ok = true) (r : Ring) {id : Nat} (hid : id < 8) (flags next : Half) :
    ∀ e ∈ extraWrites c r id flags next, e.writeFits c := by
  simp only [extraWrites, List.mem_cons, List.not_mem_nil, or_false]
  rintro e (rfl | rfl)
  · exact ringWrite_fits hc r (by simp only [descFlagsAt, bytesOf_length]; omega)
  · exact ringWrite_fits hc r (by simp only [descNextAt, bytesOf_length]; omega)

/-- Bytes inside a window, written one at a time. -/
theorem hostBytes_fit {a : Nat} {bs : List Byte} (h : bs = [] ∨ c.inWindow a bs.length = true) :
    ∀ e ∈ hostBytes a bs, e.writeFits c := by
  intro e he
  obtain ⟨k, hk, rfl⟩ := List.mem_mapIdx.mp he
  obtain rfl | hw := h
  · cases hk
  · exact inWindow_mono hw (by omega) (by simp only [List.length_singleton]; omega)

theorem frameOk_inWindow {r : Ring} {h : HostRing} {earlier : List GrantEntry} {e : GrantEntry}
    (hf : s.frameOk r h earlier e = true) : e.frame = [] ∨ s.cfg.inWindow e.addr.toNat e.frame.length = true := by
  simp only [State.frameOk, Bool.or_eq_true, Bool.and_eq_true, beq_iff_eq, List.length_eq_zero_iff] at hf
  exact hf.imp_right fun h => h.1.1.1.2

theorem grantWrites_fit (hc : c.ok = true) (r : Ring) {e : GrantEntry} (hid : e.id.toNat < 8)
    (hf : e.frame = [] ∨ c.inWindow e.addr.toNat e.frame.length = true) : ∀ ev ∈ grantWrites c r e, ev.writeFits c := by
  intro ev hev
  simp only [grantWrites, List.mem_append] at hev
  obtain (hd | hx) | hb := hev
  · exact descWrites_fit hc r hid _ _ ev hd
  · split at hx
    · exact extraWrites_fit hc r hid _ _ ev hx
    · cases hx
  · exact hostBytes_fit hf ev hb

theorem grantEntry_fits (hc : s.cfg.ok = true) {r : Ring} {h h' : HostRing} {earlier earlier' : List GrantEntry} {e : GrantEntry}
    {evs : List Event} (hg : grantEntry s r h earlier e = some (evs, h', earlier')) : ∀ ev ∈ evs, ev.writeFits s.cfg := by
  have hslot := slotOf_lt h.avail
  have post : (Event.write (availRingAt s.cfg r (slotOf h.avail)) (bytesOf e.id.toNat 2)).writeFits s.cfg :=
    ringWrite_fits hc r (by simp only [availRingAt, bytesOf_length]; omega)
  simp only [grantEntry] at hg
  split at hg
  · next hid =>
    split at hg
    · split at hg
      · next hf =>
        cases hg
        intro ev hev
        obtain hw | hp := List.mem_append.mp hev
        · exact grantWrites_fit hc r hid (frameOk_inWindow hf) ev hw
        · rwa [List.mem_singleton.mp hp]
      · cases hg
    · split at hg
      · cases hg
        simpa using post
      · cases hg
  · split at hg
    · cases hg
      simpa using post
    · cases hg

theorem grantEntries_fit (hc : s.cfg.ok = true) (r : Ring) {es : List GrantEntry} {h : HostRing} {earlier : List GrantEntry}
    {evs : List Event} (hg : grantEntries s r h earlier es = some evs) : ∀ ev ∈ evs, ev.writeFits s.cfg := by
  induction es generalizing h earlier evs with
  | nil =>
    cases hg
    simp
  | cons e es ih =>
    simp only [grantEntries] at hg
    split at hg
    · cases hg
    · next first h' earlier' he =>
      split at hg
      · cases hg
      · next rest hr =>
        cases hg
        intro ev hev
        obtain hf | hl := List.mem_append.mp hev
        · exact grantEntry_fits hc he ev hf
        · exact ih hr ev hl

theorem grantScript_writesFit (hc : s.cfg.ok = true) {r : Ring} {es : List GrantEntry} {p : HostPos}
    (h : grantScript s r es = some p) : p.writesFit s.cfg := by
  unfold grantScript at h
  split at h
  · cases h
  · next evs he =>
    cases h
    refine script_writesFit (fun ev hev => ?_) _
    simp only [List.mem_append, List.mem_cons, List.not_mem_nil, or_false] at hev
    obtain hg | rfl | rfl := hev
    · exact grantEntries_fit hc r he ev hg
    · trivial
    · exact ringWrite_fits hc r (by simp only [availIdxAt, bytesOf_length]; omega)

theorem createScript_writesFit (hc : c.ok = true) : (createScript c).writesFit c := by
  have avail (r : Ring) : (Event.write (availIdxAt c r) (bytesOf 0 2)).writeFits c :=
    ringWrite_fits hc r (by simp only [availIdxAt, bytesOf_length]; omega)
  have used (r : Ring) : (Event.write (usedIdxAt c r) (bytesOf 0 2)).writeFits c :=
    ringWrite_fits hc r (by simp only [usedIdxAt, bytesOf_length]; omega)
  refine script_writesFit (fun e he => ?_) _
  simp only [List.mem_cons, List.not_mem_nil, or_false] at he
  obtain rfl | rfl | rfl | rfl | rfl := he
  · exact avail .tx
  · exact used .tx
  · exact avail .rx
  · exact used .rx
  · trivial

/-- Every procedure the host may begin writes inside the windows (R335 to R338). -/
theorem hostProcedure_writesFit (hc : s.cfg.ok = true) {op : HostOp} {p : HostPos} (h : hostProcedure s op = some p) :
    p.writesFit s.cfg := by
  cases op with
  | create =>
    simp only [hostProcedure, Option.ite_none_right_eq_some, Option.some.injEq] at h
    obtain ⟨-, rfl⟩ := h
    exact createScript_writesFit hc
  | grant r es => exact grantScript_writesFit hc h
  | reap r max =>
    cases h
    rintro _ _ ⟨⟩
  | read a n =>
    cases h
    exact script_writesFit (by simp [Event.writeFits]) _
  | availFlags r v =>
    cases h
    refine script_writesFit (List.forall_mem_singleton.mpr ?_) _
    exact ringWrite_fits hc r (by simp only [availFlagsAt, bytesOf_length]; omega)
  | usedEvent r v =>
    cases h
    refine script_writesFit (List.forall_mem_singleton.mpr ?_) _
    exact ringWrite_fits hc r (by simp only [usedEventAt, bytesOf_length]; omega)
  | descExtra r id flags next =>
    simp only [hostProcedure, Option.ite_none_right_eq_some, Option.some.injEq] at h
    obtain ⟨-, rfl⟩ := h
    exact script_writesFit (extraWrites_fit hc r id.isLt flags next) _
  | descWrite r id addr len =>
    simp only [hostProcedure, Option.ite_none_right_eq_some, Option.some.injEq] at h
    obtain ⟨-, rfl⟩ := h
    exact script_writesFit (descWrites_fit hc r id.isLt addr len) _
  | bufferWrite r id off bs =>
    simp only [hostProcedure, Option.ite_none_right_eq_some, Option.some.injEq, State.hostMayFill, Bool.and_eq_true] at h
    obtain ⟨⟨-, ⟨hw, -⟩, -⟩, rfl⟩ := h
    exact script_writesFit (hostBytes_fit (.inr hw)) _
  | badIndex r v =>
    simp only [hostProcedure, Option.ite_none_right_eq_some, Option.some.injEq] at h
    obtain ⟨-, rfl⟩ := h
    refine script_writesFit (List.forall_mem_singleton.mpr ?_) _
    exact ringWrite_fits hc r (by simp only [availIdxAt, bytesOf_length]; omega)

/-! ### The host's step -/

@[simp] theorem hostEffect_hostRun (e : HostEffect) (s : State) : (hostEffect e s).hostRun = s.hostRun := by
  cases e <;> simp [hostEffect]

theorem reapNext_hostRun (r : Ring) (v : Half) (left : Nat) (id : Word) (s : State) (todo : List Event) (fin : HostEffect) :
    (reapNext r v left id s).hostRun ≠ some (.script todo fin) := by
  simp only [reapNext]
  split <;> simp

/-- A straight procedure goes on with the events it has left. -/
theorem HostPos.resume_script {p : HostPos} {v : Nat} {todo : List Event} {fin : HostEffect}
    (h : (p.resume v s).hostRun = some (.script todo fin)) : ∃ e, p = .script (e :: todo) fin := by
  cases p with
  | script events effect =>
    cases events with
    | nil => simp [HostPos.resume] at h
    | cons e rest =>
      simp only [HostPos.resume] at h
      split at h
      · simp at h
      · simp only [Option.some.injEq, HostPos.script.injEq] at h
        obtain ⟨rfl, rfl⟩ := h
        exact ⟨e, rfl⟩
  | reapIdx r left =>
    simp only [HostPos.resume] at h
    split at h <;> simp at h
  | reapId r w left => simp [HostPos.resume] at h
  | reapLen r w left id =>
    simp only [HostPos.resume] at h
    split at h
    · simp at h
    · exact absurd h (reapNext_hostRun _ _ _ _ _ _ _)
  | reapByte r w left id a n =>
    simp only [HostPos.resume] at h
    split at h
    · exact absurd h (reapNext_hostRun _ _ _ _ _ _ _)
    · simp at h

theorem hostResume_buffersFit {p : HostPos} (hs : s.buffersFit) (hp : s.hostRun = some p) (v : Nat) :
    (p.resume v s).buffersFit := by
  refine buffersFit_of_sameControl hs (p.resume_sameControl v s) (p.resume_cfg v s) fun todo fin h e he => ?_
  obtain ⟨d, rfl⟩ := HostPos.resume_script h
  exact hs.host _ _ hp e (List.mem_cons_of_mem d he)

theorem hostStep_buffersFit (hs : s.buffersFit) (h : hostStep s = .next t) : t.buffersFit := by
  obtain ⟨-, rfl⟩ | ⟨p, hp, -, ⟨-, rfl⟩ | ⟨e, -, -, he⟩⟩ := hostStep_next h
  · exact hs
  · exact hostResume_buffersFit hs hp 0
  · obtain ⟨x, n, -, -, rfl⟩ | ⟨x, bs, -, -, rfl⟩ | ⟨-, -, rfl⟩ | ⟨-, -, rfl⟩ := shmEvent_next he
    · exact hostResume_buffersFit hs hp _
    · exact hostResume_buffersFit (issueWrite_buffersFit hs .host x bs) (by simpa using hp) 0
    · exact hostResume_buffersFit hs hp 0
    · exact hs

/-- H_REAP only reads, and a straight procedure's writes lie in windows. -/
theorem HostPos.event_writeFits {p : HostPos} {e : Event} (hs : s.buffersFit) (hp : s.hostRun = some p)
    (he : p.event s = some e) : e.writeFits s.cfg := by
  cases p with
  | script todo fin =>
    cases todo with
    | nil => cases he
    | cons d rest =>
      cases he
      exact hs.host _ _ hp e List.mem_cons_self
  | reapIdx r left => cases he; trivial
  | reapId r w left => cases he; trivial
  | reapLen r w left id => cases he; trivial
  | reapByte r w left id a n => cases he; trivial

theorem Event.inside_of_writeFits {e : Event} (hw : e.writeFits c) (hr : e.readsUnmapped c = false) : e.inside c := by
  cases e with
  | read a n => simpa [Event.readsUnmapped, Event.inside] using hr
  | write a bs => exact hw
  | barrier => trivial

theorem hostStep_ne_fault (hs : s.buffersFit) (r : Fault) : hostStep s ≠ .fault r := by
  unfold hostStep
  split
  · simp
  · next p hp =>
    split
    · simp
    · split
      · simp
      · next e he =>
        split
        · simp
        · split
          · simp
          · next hr =>
            exact shmEvent_ne_fault (Event.inside_of_writeFits (HostPos.event_writeFits hs hp he) (by simpa using hr)) _ _ r

/-! ### Every step -/

@[simp] theorem State.regWrite_hostRun (s : State) (off : Nat) (v : Word) : (s.regWrite off v).hostRun = s.hostRun := by
  unfold State.regWrite
  split <;> rfl

theorem clientMove_hostRun {op : ClientOp} (h : clientMove op s = .next t) : t.hostRun = s.hostRun := by
  obtain ⟨-, ⟨_, _, v, off, -, -, rfl⟩ | ⟨_, _, _, v, -, -, -, rfl⟩ | ⟨a, n, v, -, -, rfl⟩ | ⟨a, n, -, rfl⟩ |
    ⟨a, bs, -, -, rfl⟩⟩ := clientMove_next h
  · exact s.regWrite_hostRun off v
  · rfl
  · split
    · rfl
    · exact s.issueWrite_hostRun _ _ _
  · rfl
  · rfl

theorem clientMove_ne_fault (op : ClientOp) (s : State) (r : Fault) : clientMove op s ≠ .fault r := by
  unfold clientMove
  split
  · simp
  · cases op with
    | regWrite addr width v => simp only [clientRegWrite]; split <;> simp
    | regRead addr width =>
      simp only [clientRegRead]
      split
      · split <;> simp
      · simp
    | shmWrite a n v => simp only [clientShmWrite]; split <;> simp
    | shmRead a n => simp only [clientShmRead]; split <;> simp
    | privWrite a bs => simp only [clientPrivWrite]; split <;> simp

theorem blockTurn_buffersFit (hs : s.buffersFit) (h : blockTurn s = .next t) : t.buffersFit := by
  obtain ⟨-, hb⟩ | ⟨hb, w, -, rfl⟩ | ⟨-, -, rfl⟩ := blockTurn_next h
  · exact blockStep_buffersFit hs hb
  · exact acceptWord_buffersFit (s := { s with cmd := none }) hb ⟨hs.held, hs.running, hs.host⟩ w
  · exact hs

theorem blockTurn_ne_fault (hc : s.cfg.ok = true) (hs : s.buffersFit) (r : Fault) : blockTurn s ≠ .fault r := by
  unfold blockTurn
  split
  · exact blockStep_ne_fault hc hs r
  · split <;> simp

theorem hostBegin_ne_fault (op : HostOp) (s : State) (r : Fault) : hostBegin op s ≠ .fault r := by
  unfold hostBegin
  split
  · simp
  · split <;> simp

theorem hardwareReset_buffersFit (hs : s.buffersFit) : (hardwareReset s).buffersFit where
  held id h := by simp [State.isHeld, hardwareReset] at h
  running p o h := by cases h
  host := hs.host

theorem performAct_buffersFit {m : Act} (hc : s.cfg.ok = true) (hs : s.buffersFit) (h : performAct m s = .next t) :
    t.buffersFit := by
  obtain ⟨-, hb⟩ | ⟨a, k, -, -, hk⟩ | ⟨a, rfl, -⟩ | ⟨op, -, -, hm⟩ | ⟨op, p, -, -, hp, rfl⟩ | ⟨-, hh⟩ | ⟨-, rfl⟩ :=
    performAct_next h
  · exact blockTurn_buffersFit hs hb
  · exact commit_buffersFit hs hk
  · exact drain_buffersFit hs h
  · exact buffersFit_of_sameControl hs (clientMove_sameControl hm) (clientMove_cfg hm)
      (by rw [clientMove_hostRun hm]; exact hs.host)
  · refine buffersFit_of_sameControl hs (by constructor <;> rfl) rfl fun todo fin hq => ?_
    exact hostProcedure_writesFit hc hp todo fin (by simpa using hq)
  · exact hostStep_buffersFit hs hh
  · exact hardwareReset_buffersFit hs

theorem performAct_ne_fault (m : Act) (hc : s.cfg.ok = true) (hs : s.buffersFit) (r : Fault) : performAct m s ≠ .fault r := by
  cases m with
  | block => exact blockTurn_ne_fault hc hs r
  | commit a k => exact commitMove_ne_fault a k s r
  | drain a => exact drain_ne_fault a s r
  | client op => exact clientMove_ne_fault op s r
  | hostBegin op => exact hostBegin_ne_fault op s r
  | hostStep => exact hostStep_ne_fault hs r
  | reset => simp [performAct]

/-- Settles O52: every move keeps the buffers inside the windows, and the events of such a state are inside them too. -/
theorem stepsStayInsideTheWindows : Obligations.StepsStayInsideTheWindows := by
  unfold Obligations.StepsStayInsideTheWindows
  intro s hs
  have scheduled (rest : List Act) : State.buffersFit { s with acts := rest } := ⟨hs.held, hs.running, hs.host⟩
  refine ⟨fun t h => ?_, fun r => ?_⟩
  · obtain ⟨hc, ⟨m, rest, -, hm⟩ | ⟨-, -, hq⟩⟩ := step_next h
    · exact performAct_buffersFit (s := { s with acts := rest }) hc (scheduled rest) hm
    · exact quietStep_buffersFit hs hq
  · simp only [step, machineStep]
    split
    · next hc =>
      split
      · next m rest _ => exact performAct_ne_fault (s := { s with acts := rest }) m hc (scheduled rest) r
      · exact quietStep_ne_fault hc hs r
    · simp

end Sys2Proof.Machine
end

section
/-! SUPPORT. What an agent sees (20_memory.md R89 to R93): its own write at once, and the same bytes whichever of its entries
commits. The entry a commit takes shares no byte with an older one, so it may leave the set ahead of them. -/

namespace Sys2Proof.Machine

variable {s t : State}

/-! ### The bytes of an entry -/

/-- An entry has a byte for exactly the addresses it covers. -/
theorem byteAt_isSome (w : PendingWrite) (x : Nat) :
    (w.byteAt x).isSome = true ↔ w.addr ≤ x ∧ x < w.addr + w.bytes.length := by
  unfold PendingWrite.byteAt
  split
  · simp only [isSome_getElem?]
    omega
  · next h => simp [h]

theorem byteAt_eq_none_of_outside {a : Nat} {bs : List Byte} {x : Nat} (h : outside x a bs.length) :
    (⟨a, bs⟩ : PendingWrite).byteAt x = none := by
  rw [← Option.not_isSome_iff_eq_none, byteAt_isSome, not_and, not_lt]
  exact fun hx => h.resolve_left (Nat.not_lt.mpr hx)

theorem byteAt_add (a k : Nat) (bs : List Byte) : (⟨a, bs⟩ : PendingWrite).byteAt (a + k) = bs[k]? := by
  simp [PendingWrite.byteAt]

/-- Two entries do not overlap iff they cover no common address (R90). -/
theorem overlaps_eq_false_iff (v w : PendingWrite) :
    v.overlaps w = false ↔ ∀ x, ¬ ((v.byteAt x).isSome = true ∧ (w.byteAt x).isSome = true) := by
  simp only [PendingWrite.overlaps, disjointRanges, Bool.not_eq_false', Bool.or_eq_true, beq_iff_eq, decide_eq_true_eq,
    byteAt_isSome]
  constructor
  · intro h x
    omega
  · intro h
    have := h (max v.addr w.addr)
    omega

/-! ### A write (R89) -/

@[simp] theorem pending_setPending (s : State) (a : Agent) (ws : List PendingWrite) : (s.setPending a ws).pending a = ws := by
  cases a <;> rfl

theorem pending_setPending_of_ne {a b : Agent} (h : b ≠ a) (s : State) (ws : List PendingWrite) :
    (s.setPending a ws).pending b = s.pending b := by
  cases a with
  | device =>
    cases b with
    | device => exact absurd rfl h
    | host => rfl
  | host =>
    cases b with
    | device => rfl
    | host => exact absurd rfl h

theorem byteSeen_issueWrite (s : State) (a : Agent) (x y : Nat) (bs : List Byte) :
    (s.issueWrite a x bs).byteSeen a y = ((⟨x, bs⟩ : PendingWrite).byteAt y).getD (s.byteSeen a y) := by
  rw [State.byteSeen, State.issueWrite_shm, State.issueWrite, pending_setPending, pendingByte_append_single]
  cases (⟨x, bs⟩ : PendingWrite).byteAt y <;> rfl

theorem byteSeen_issueWrite_of_ne {a b : Agent} (h : b ≠ a) (s : State) (x y : Nat) (bs : List Byte) :
    (s.issueWrite a x bs).byteSeen b y = s.byteSeen b y := by
  rw [State.byteSeen, State.issueWrite_shm, State.issueWrite, pending_setPending_of_ne h]
  rfl

/-- An agent reads its own write back. -/
theorem bytesSeen_issueWrite (s : State) (a : Agent) (x : Nat) (bs : List Byte) :
    (s.issueWrite a x bs).bytesSeen a x bs.length = bs := by
  refine List.ext_getElem (by simp [State.bytesSeen]) fun k hk hk' => ?_
  simp [State.bytesSeen, byteSeen_issueWrite, byteAt_add, List.getElem?_eq_getElem hk']

/-- Settles O42: the write is the youngest entry of its agent's set, and of no other set. -/
theorem writeIsSeenByItsOwnAgent : Obligations.WriteIsSeenByItsOwnAgent := by
  unfold Obligations.WriteIsSeenByItsOwnAgent
  intro s a b x n v
  refine ⟨s.issueWrite_shm _ _ _, fun h y => byteSeen_issueWrite_of_ne h s x y _, ?_, fun y hy => ?_⟩
  · have own := bytesSeen_issueWrite s a x (bytesOf v n)
    rw [bytesOf_length] at own
    rw [State.valueSeen, own, leValue_bytesOf]
  · rw [byteSeen_issueWrite, byteAt_eq_none_of_outside (by rwa [bytesOf_length])]
    rfl

/-! ### A commit (R90) -/

theorem mem_take_iff_getElem? {ws : List PendingWrite} {k : Nat} {v : PendingWrite} :
    v ∈ ws.take k ↔ ∃ j, j < k ∧ ws[j]? = some v := by
  simp [List.mem_iff_getElem?, List.getElem?_take]

/-- The k-th entry, taken out, was the youngest over its own bytes, as far as no older entry shares one with it. -/
theorem pendingByte_eraseIdx {ws : List PendingWrite} {k : Nat} {w : PendingWrite} (hk : ws[k]? = some w)
    (ho : ∀ v ∈ ws.take k, v.overlaps w = false) (x : Nat) :
    pendingByte ws x = (pendingByte (ws.eraseIdx k) x).or (w.byteAt x) := by
  induction ws generalizing k with
  | nil => cases hk
  | cons v ws ih =>
    cases k with
    | zero =>
      cases hk
      rfl
    | succ k =>
      have ih := ih (k := k) hk fun u hu => ho u (List.mem_cons_of_mem v hu)
      have hv := (overlaps_eq_false_iff v w).mp (ho v List.mem_cons_self) x
      rw [List.eraseIdx_cons_succ, pendingByte, pendingByte, ih, Option.or_assoc, Option.or_assoc]
      cases hb : v.byteAt x with
      | none => simp
      | some b =>
        have hw : w.byteAt x = none := by simpa [hb] using hv
        simp [hw]

/-- An entry can commit exactly when no older one overlaps it. -/
theorem commit_isSome_iff (s : State) (a : Agent) (k : Nat) :
    (∃ t, s.commit a k = some t) ↔
      ∃ w, (s.pending a)[k]? = some w ∧ ∀ v ∈ (s.pending a).take k, v.overlaps w = false := by
  constructor
  · rintro ⟨t, h⟩
    obtain ⟨w, hw, ho, -⟩ := commit_some h
    exact ⟨w, hw, by simpa using ho⟩
  · rintro ⟨w, hw, ho⟩
    simp only [State.commit, hw]
    rw [if_neg (by simpa using ho)]
    exact ⟨_, rfl⟩

/-- What a commit does to its agent's set, to SHM and to what the agent sees. -/
theorem commit_effect {a : Agent} {k : Nat} (h : s.commit a k = some t) :
    ∃ w, (s.pending a)[k]? = some w ∧ t.pending a = (s.pending a).eraseIdx k ∧
      (∀ x, t.shm.read x = (w.byteAt x).getD (s.shm.read x)) ∧ ∀ x, t.byteSeen a x = s.byteSeen a x := by
  obtain ⟨w, hw, ho, rfl⟩ := commit_some h
  have shm (x : Nat) : (w.commitTo s.shm).read x = (w.byteAt x).getD (s.shm.read x) := Memory.read_writeBytes _ _ _ _
  refine ⟨w, hw, pending_setPending _ _ _, fun x => by rw [State.setPending_shm]; exact shm x, fun x => ?_⟩
  rw [State.byteSeen, State.byteSeen, pending_setPending, State.setPending_shm, shm,
    pendingByte_eraseIdx hw (by simpa using ho) x]
  cases pendingByte ((s.pending a).eraseIdx k) x <;> simp

/-- Settles O43: entries overlap exactly where both have a byte, and what a commit takes lies below the younger entries only. -/
theorem commitMovesOneEntryAndKeepsTheView : Obligations.CommitMovesOneEntryAndKeepsTheView := by
  unfold Obligations.CommitMovesOneEntryAndKeepsTheView
  intro s a k
  refine ⟨?_, fun t h => ?_⟩
  · rw [commit_isSome_iff]
    refine exists_congr fun w => and_congr_right fun _ => ?_
    simp only [overlaps_eq_false_iff, mem_take_iff_getElem?]
    exact ⟨fun ho j v hj hv => ho v ⟨j, hj, hv⟩, fun ho v ⟨j, hj, hv⟩ => ho j v hj hv⟩
  · obtain ⟨w, hw, hp, hm, hv⟩ := commit_effect h
    exact ⟨hv, hp, w, hw, hm⟩

/-! ### Several commits (R91) -/

/-- No sequence of an agent's commits changes what it sees. -/
theorem byteSeen_commits {a : Agent} {ks : List Nat} (h : performActs (ks.map (.commit a)) s = .next t) (x : Nat) :
    t.byteSeen a x = s.byteSeen a x := by
  induction ks generalizing s with
  | nil =>
    cases h
    rfl
  | cons k ks ih =>
    simp only [List.map_cons, performActs] at h
    split at h
    · next u hu =>
      obtain ⟨_, -, -, -, hv⟩ := commit_effect (commitMove_next hu).2
      rw [ih h, hv]
    · cases h
    · cases h

theorem byteSeen_of_drained {a : Agent} (h : s.pending a = []) (x : Nat) : s.byteSeen a x = s.shm.read x := by
  simp [State.byteSeen, h, pendingByte]

/-- Settles O44: the commits keep what the agent sees, and with its set empty it sees SHM. -/
theorem commitOrderDoesNotMatter : Obligations.CommitOrderDoesNotMatter := by
  unfold Obligations.CommitOrderDoesNotMatter
  intro s t a ks h hp x
  rw [← byteSeen_of_drained hp, byteSeen_commits h]

end Sys2Proof.Machine
end

section
/-! SUPPORT. The block's register updates neither read nor write SHM, PW[device] and CMD (10_state.md R33; 20_memory.md R84):
between two events nothing is stored, and a command runs the same whatever waits in CMD. Each procedure commutes with a change of
the three (`State.withStores`), which says both at once. -/

namespace Sys2Proof.Machine

/-- s with other contents of SHM, PW[device] and CMD. -/
def State.withStores (s : State) (m : Memory) (ws : List PendingWrite) (c : Option Word) : State :=
  { s with shm := m, pwDevice := ws, cmd := c }

section
variable (s : State) (m : Memory) (ws : List PendingWrite) (c : Option Word)

/-! ### The updates that the procedures are made of -/

@[simp] theorem withStores_cfg : (s.withStores m ws c).cfg = s.cfg := rfl

@[simp] theorem withStores_ch : (s.withStores m ws c).ch = s.ch := rfl

@[simp] theorem withStores_seq : (s.withStores m ws c).seq = s.seq := rfl

@[simp] theorem withStores_fault : (s.withStores m ws c).fault = s.fault := rfl

@[simp] theorem withStores_txLast : (s.withStores m ws c).txLast = s.txLast := rfl

@[simp] theorem withStores_isHeld (id : Fin 8) : (s.withStores m ws c).isHeld id = s.isHeld id := rfl

@[simp] theorem goto_withStores (p : Pos) : (s.withStores m ws c).goto p = (s.goto p).withStores m ws c := rfl

@[simp] theorem finish_withStores (st : Status) : (s.withStores m ws c).finish st = (s.finish st).withStores m ws c := rfl

@[simp] theorem raise_withStores (e : FaultCause) (i : Word) :
    (s.withStores m ws c).raise e i = (s.raise e i).withStores m ws c := rfl

@[simp] theorem setRes_withStores (n : Fin 4) (v : Word) :
    (s.withStores m ws c).setRes n v = (s.setRes n v).withStores m ws c := rfl

@[simp] theorem hold_withStores (id : Fin 8) (addr cap : Word) :
    (s.withStores m ws c).hold id addr cap = (s.hold id addr cap).withStores m ws c := rfl

@[simp] theorem leak_withStores (id : Fin 8) : (s.withStores m ws c).leak id = (s.leak id).withStores m ws c := rfl

@[simp] theorem setUsed_withStores (r : Ring) (v : Half) :
    (s.withStores m ws c).setUsed r v = (s.setUsed r v).withStores m ws c := by
  cases r <;> rfl

/-! ### What follows an event -/

@[simp] theorem announceEnd_withStores (st : Status) :
    announceEnd st (s.withStores m ws c) = (announceEnd st s).withStores m ws c := by
  unfold announceEnd
  split <;> rfl

@[simp] theorem sendEnd_withStores (f : Frame) (st : Status) :
    sendEnd f st (s.withStores m ws c) = (sendEnd f st s).withStores m ws c := by
  cases h : f.origin <;> simp [sendEnd, h]

@[simp] theorem ringEmpty_withStores (w : Walk) : ringEmpty w (s.withStores m ws c) = (ringEmpty w s).withStores m ws c := by
  cases w with
  | acquire => rfl
  | send f => exact sendEnd_withStores s m ws c f _
  | poll => rfl

theorem envelopeRead_withStores (x : Half) (id : Fin 8) (addr dlen : Word) (b : List Byte) :
    envelopeRead x id addr dlen b (s.withStores m ws c) = (envelopeRead x id addr dlen b s).withStores m ws c := by
  unfold envelopeRead
  split <;> rfl

@[simp] theorem sendBytes_withStores (f : Frame) (id : Fin 8) (addr : Nat) (bs : List Byte) :
    sendBytes f id addr bs (s.withStores m ws c) = (sendBytes f id addr bs s).withStores m ws c := by
  cases bs <;> rfl

theorem bufferTaken_withStores (w : Walk) (x : Half) (id : Fin 8) (cap addr : Word) :
    bufferTaken w x id cap addr (s.withStores m ws c) = (bufferTaken w x id cap addr s).withStores m ws c := by
  cases w with
  | acquire => rfl
  | send f =>
    simp only [bufferTaken, hold_withStores, setRes_withStores, leak_withStores]
    split
    · exact sendEnd_withStores _ m ws c f _
    · exact sendBytes_withStores _ m ws c f id _ _
  | poll =>
    simp only [bufferTaken]
    split <;> rfl

theorem pushDone_withStores (j : PushJob) : pushDone j (s.withStores m ws c) = (pushDone j s).withStores m ws c := by
  obtain ⟨kind, id, len, v⟩ := j
  cases kind with
  | publish => rfl
  | send f => exact sendEnd_withStores (s.unhold id) m ws c f _
  | poll x => rfl

theorem pushAfter_withStores (ph : PushPhase) (j : PushJob) :
    pushAfter ph j (pushDone j) (s.withStores m ws c) = (pushAfter ph j (pushDone j) s).withStores m ws c := by
  cases ph with
  | id => rfl
  | len => rfl
  | barrier1 => rfl
  | idx => simp [pushAfter]
  | barrier2 => exact pushDone_withStores s m ws c j

theorem availPeek_withStores (r : Ring) (x a : Half) {k : State → State}
    (hk : k (s.withStores m ws c) = (k s).withStores m ws c) :
    availPeek r x a k (s.withStores m ws c) = (availPeek r x a k s).withStores m ws c := by
  unfold availPeek
  split
  · rfl
  · exact hk

theorem takeSlot_withStores (r : Ring) (v : Half) {k : Fin 8 → State → State}
    (hk : ∀ id, k id (s.withStores m ws c) = (k id s).withStores m ws c) :
    takeSlot r v k (s.withStores m ws c) = (takeSlot r v k s).withStores m ws c := by
  by_cases h : v.toNat < 8
  · by_cases hh : r = .tx ∧ s.isHeld ⟨v.toNat, h⟩ = true <;> simp [takeSlot, h, hh, hk]
  · simp [takeSlot, h]

theorem readDesc_withStores (r : Ring) (addr : Dword) (len : Word) {k : Word → State → State}
    (hk : ∀ a, k a (s.withStores m ws c) = (k a s).withStores m ws c) :
    readDesc r addr len k (s.withStores m ws c) = (readDesc r addr len k s).withStores m ws c := by
  by_cases h : bufferInWindow s.cfg addr len = true <;> simp [readDesc, h, hk]

@[simp] theorem waitLoop_withStores : waitLoop (s.withStores m ws c) = (waitLoop s).withStores m ws c := by
  unfold waitLoop
  rw [apply_ite (State.withStores · m ws c)]
  rfl

theorem initPeeked_withStores (a : Half) : initPeeked a (s.withStores m ws c) = (initPeeked a s).withStores m ws c := by
  refine availPeek_withStores s m ws c .tx s.txLast a ?_
  by_cases h : a ≠ s.txLast
  · simp only [withStores_txLast, ne_eq, h, not_false_eq_true, if_true]
    rfl
  · simp only [withStores_txLast, h, if_false]
    exact waitLoop_withStores { s with waitCnt := s.waitCnt + 1 } m ws c

theorem resume_withStores (p : Pos) (v : Nat) : p.resume v (s.withStores m ws c) = (p.resume v s).withStores m ws c := by
  cases p with
  | initPeek => exact initPeeked_withStores s m ws c _
  | peek w x =>
    simp only [Pos.resume]
    refine availPeek_withStores s m ws c _ _ _ ?_
    split
    · exact ringEmpty_withStores s m ws c w
    · rfl
  | slot w x =>
    simp only [Pos.resume]
    refine takeSlot_withStores s m ws c _ _ fun id => ?_
    cases w <;> rfl
  | descAddr w x id => rfl
  | descLen w x id addr =>
    exact readDesc_withStores s m ws c _ _ _ fun a => bufferTaken_withStores s m ws c w x id _ a
  | txByte f id addr b rest => exact sendBytes_withStores s m ws c f id _ rest
  | rxEnv x id addr dlen got =>
    simp only [Pos.resume]
    split
    · rfl
    · exact envelopeRead_withStores s m ws c x id addr dlen _
  | push ph j => exact pushAfter_withStores s m ws c ph j

/-! ### Acceptance -/

theorem startInit_withStores : startInit (s.withStores m ws c) = (startInit s).withStores m ws c := by
  by_cases h : s.ch = .uninitialized
  · simp only [startInit, withStores_ch, h, if_true]
    exact waitLoop_withStores { s with
      txLast := 0, txUsed := 0, rxLast := 0, rxUsed := 0, txHeld := 0, txLeaked := 0, ch := .waitingForHostBuffers,
      waitCnt := 0, initSeen := true } m ws c
  · simp only [startInit, withStores_ch, h, if_false]
    rfl

theorem startPublishTx_withStores : startPublishTx (s.withStores m ws c) = (startPublishTx s).withStores m ws c := by
  unfold startPublishTx
  simp only [apply_ite (State.withStores · m ws c), apply_dite (State.withStores · m ws c)]
  rfl

theorem startFrameSend_withStores : startFrameSend (s.withStores m ws c) = (startFrameSend s).withStores m ws c := by
  unfold startFrameSend
  simp only [apply_ite (State.withStores · m ws c)]
  rfl

theorem startOf_withStores (i : Instr) : startOf i (s.withStores m ws c) = (startOf i s).withStores m ws c := by
  cases i with
  | init => exact startInit_withStores s m ws c
  | shutdown =>
    simp only [startOf, startShutdown, apply_ite (State.withStores · m ws c)]
    rfl
  | acquireTx =>
    simp only [startOf, startAcquireTx, apply_ite (State.withStores · m ws c)]
    rfl
  | publishTx => exact startPublishTx_withStores s m ws c
  | frameSend => exact startFrameSend_withStores s m ws c
  | pollRx =>
    simp only [startOf, startPollRx, apply_ite (State.withStores · m ws c)]
    rfl
  | rxRelease =>
    cases h : s.seq with
    | idle => simp only [startOf, startRxRelease, withStores_seq, h]
    | busy p o => simp only [startOf, startRxRelease, withStores_seq, h]
    | delivering k =>
      simp only [startOf, startRxRelease, withStores_seq, h]
      rfl
  | query => rfl

theorem accept_withStores (i : Instr) :
    accept i (startOf i) (s.withStores m ws c) = (accept i (startOf i) s).withStores m ws c := by
  have unwritten : (s.withStores m ws c).firstUnwritten i = s.firstUnwritten i := rfl
  by_cases hf : s.fault = .none
  · cases hn : nestingError s.seq.sub i with
    | some e => simp [accept, hf, hn]
    | none =>
      cases hu : s.firstUnwritten i with
      | some n => simp [accept, hf, hn, hu, unwritten]
      | none => simp [accept, hf, hn, hu, unwritten, startOf_withStores]
  · simp only [accept, withStores_fault, ne_eq, hf, not_false_eq_true, if_true]
    rfl

/-! ### What the stores hold -/

/-- Between two events nothing is stored. -/
theorem resume_sameMemory (p : Pos) (v : Nat) : sameMemory s (p.resume v s) :=
  have h := resume_withStores s s.shm s.pwDevice s.cmd p v
  ⟨(congrArg State.shm h :), (congrArg State.pwDevice h :)⟩

theorem setCmd_eq_withStores : ({ s with cmd := c } : State) = s.withStores s.shm s.pwDevice c := rfl

/-- What waits in CMD plays no part between two events. -/
theorem resume_setCmd (p : Pos) (v : Nat) : p.resume v { s with cmd := c } = { p.resume v s with cmd := c } := by
  obtain ⟨hm, hp⟩ := resume_sameMemory s p v
  rw [setCmd_eq_withStores, resume_withStores, State.withStores, ← hm, ← hp]

theorem accept_setCmd (i : Instr) :
    accept i (startOf i) { s with cmd := c } = { accept i (startOf i) s with cmd := c } := by
  have h := accept_withStores s s.shm s.pwDevice s.cmd i
  have hm : (accept i (startOf i) s).shm = s.shm := (congrArg State.shm h :)
  have hp : (accept i (startOf i) s).pwDevice = s.pwDevice := (congrArg State.pwDevice h :)
  rw [setCmd_eq_withStores, accept_withStores, State.withStores, ← hm, ← hp]

end

end Sys2Proof.Machine
end

section
/-! SUPPORT. One block step (20_memory.md R84, R92), and exec as the block steps and commits it is made of (log 6). -/

namespace Sys2Proof.Machine

variable {s t : State}

/-! ### The event of a block step -/

theorem block_of_busy {p : Pos} {o : Option Suspended} (hq : s.seq = .busy p o) :
    performAct .block s = shmEvent .device (p.event s.cfg) p.resume s := by
  simp [performAct, blockTurn, blockStep, hq, Seq.isBusy]

theorem shmEvent_barrier_held {a : Agent} (h : s.pending a ≠ []) (k : Nat → State → State) :
    shmEvent a .barrier k s = .next s := by
  simp [shmEvent, h]

theorem shmEvent_barrier_passed {a : Agent} (h : s.pending a = []) (k : Nat → State → State) :
    shmEvent a .barrier k s = .next (k 0 s) := by
  simp [shmEvent, h]

/-- The writes of the block: a byte of a frame, or the used entry's id, its length, and used.idx (R166, R211). -/
theorem event_write_cases {c : Config} {p : Pos} {a : Nat} {bs : List Byte} (h : p.event c = .write a bs) :
    (∃ f id b rest, p = .txByte f id a b rest ∧ bs = [b]) ∨
    (∃ j, p = .push .id j ∧ a = usedIdAt c j.kind.ring (slotOf j.u) ∧ bs = bytesOf j.id.val 4) ∨
    (∃ j, p = .push .len j ∧ a = usedLenAt c j.kind.ring (slotOf j.u) ∧ bs = bytesOf j.len.toNat 4) ∨
    (∃ j, p = .push .idx j ∧ a = usedIdxAt c j.kind.ring ∧ bs = bytesOf (j.u + 1).toNat 2) := by
  cases p with
  | initPeek => cases h
  | peek w x => cases h
  | slot w x => cases h
  | descAddr w x id => cases h
  | descLen w x id addr => cases h
  | txByte f id addr b rest => cases h; exact .inl ⟨f, id, b, rest, rfl, rfl⟩
  | rxEnv x id addr dlen got => cases h
  | push ph j =>
    cases ph with
    | id => cases h; exact .inr (.inl ⟨j, rfl, rfl, rfl⟩)
    | len => cases h; exact .inr (.inr (.inl ⟨j, rfl, rfl, rfl⟩))
    | barrier1 => cases h
    | idx => cases h; exact .inr (.inr (.inr ⟨j, rfl, rfl, rfl⟩))
    | barrier2 => cases h

/-- Settles O46: the event is one write or none, and what follows it stores nothing. -/
theorem blockStepIsOneEvent : Obligations.BlockStepIsOneEvent := by
  unfold Obligations.BlockStepIsOneEvent
  intro s t p o hq h
  rw [block_of_busy hq] at h
  obtain ⟨x, n, -, -, rfl⟩ | ⟨x, bs, he, -, rfl⟩ | ⟨-, -, rfl⟩ | ⟨-, -, rfl⟩ := shmEvent_next h
  · obtain ⟨hm, hp⟩ := resume_sameMemory s p (s.valueSeen .device x n)
    exact ⟨hm, .inl hp⟩
  · obtain ⟨hm, hp⟩ := resume_sameMemory (s.issueWrite .device x bs) p 0
    refine ⟨by simpa using hm, .inr ⟨⟨x, bs⟩, by simpa using hp, he, ?_⟩⟩
    obtain ⟨f, id, b, rest, rfl, rfl⟩ | ⟨j, rfl, rfl, rfl⟩ | ⟨j, rfl, rfl, rfl⟩ | ⟨j, rfl, rfl, rfl⟩ := event_write_cases he
    · exact .inl ⟨f, id, x, b, rest, rfl, rfl⟩
    · exact .inr (.inl ⟨j, rfl, rfl⟩)
    · exact .inr (.inr (.inl ⟨j, rfl, rfl⟩))
    · exact .inr (.inr (.inr ⟨j, rfl, rfl⟩))
  · obtain ⟨hm, hp⟩ := resume_sameMemory s p 0
    exact ⟨hm, .inl hp⟩
  · exact ⟨rfl, .inl rfl⟩

/-! ### Barriers (R92) -/

/-- After the second barrier the command has ended or goes on elsewhere. -/
theorem pushDone_seq_ne {j : PushJob} {o : Option Suspended} (hq : s.seq = .busy (.push .barrier2 j) o) :
    (pushDone j s).seq ≠ s.seq := by
  intro h
  have bare := (pushDone_rests j s).bare _ o (h.trans hq)
  simp [Pos.bare] at bare

theorem hostStep_of_barrier {rest : List Event} {fin : HostEffect} (hr : s.hostRun = some (.script (.barrier :: rest) fin))
    (hc : s.creationBroken = false) :
    performAct .hostStep s = shmEvent .host .barrier (HostPos.script (.barrier :: rest) fin).resume s := by
  simp [performAct, hostStep, hr, hc, HostPos.event, Event.breaksDuty, Event.readsUnmapped]

@[simp] theorem hostEffect_shm (e : HostEffect) (s : State) : (hostEffect e s).shm = s.shm := by
  cases e <;> simp [hostEffect]

@[simp] theorem hostEffect_pwHost (e : HostEffect) (s : State) : (hostEffect e s).pwHost = s.pwHost := by
  cases e <;> simp [hostEffect]

/-- What follows a barrier of a straight procedure stores nothing. -/
theorem hostBarrier_resume (rest : List Event) (fin : HostEffect) (s : State) :
    ((HostPos.script (.barrier :: rest) fin).resume 0 s).shm = s.shm ∧
    ((HostPos.script (.barrier :: rest) fin).resume 0 s).pwHost = s.pwHost := by
  simp only [HostPos.resume, noteIfRead]
  split <;> simp

/-- A straight procedure's event leaves it with fewer events. -/
theorem hostScript_resume_ne {e : Event} {rest : List Event} {fin : HostEffect} (v : Nat) (s : State) :
    ((HostPos.script (e :: rest) fin).resume v s).hostRun ≠ some (.script (e :: rest) fin) := by
  intro h
  obtain ⟨d, hd⟩ := HostPos.resume_script h
  simp at hd

/-- Settles O45: a barrier looks at its agent's set alone, and what follows it leaves the position and stores nothing. -/
theorem barrierHoldsUntilDrained : Obligations.BarrierHoldsUntilDrained := by
  unfold Obligations.BarrierHoldsUntilDrained
  intro s
  refine ⟨fun j o hq => ⟨fun hp => ?_, fun hp => ?_⟩, fun j o hq => ⟨fun hp => ?_, fun hp => ?_⟩,
    fun rest fin hr hc => ⟨fun hp => ?_, fun hp => ?_⟩⟩
  · rw [block_of_busy hq]
    exact shmEvent_barrier_held (a := .device) hp _
  · rw [block_of_busy hq, show Pos.event s.cfg _ = .barrier from rfl, shmEvent_barrier_passed (a := .device) hp]
    simp [Pos.resume, pushAfter, State.goto, hq, Seq.outer]
  · rw [block_of_busy hq]
    exact shmEvent_barrier_held (a := .device) hp _
  · obtain ⟨hm, hd⟩ := resume_sameMemory s (.push .barrier2 j) 0
    rw [block_of_busy hq]
    exact ⟨_, shmEvent_barrier_passed (a := .device) hp _, pushDone_seq_ne hq, hm, hd.trans hp⟩
  · rw [hostStep_of_barrier hr hc]
    exact shmEvent_barrier_held (a := .host) hp _
  · obtain ⟨hm, hd⟩ := hostBarrier_resume rest fin s
    rw [hostStep_of_barrier hr hc]
    exact ⟨_, shmEvent_barrier_passed (a := .host) hp _, by rw [hr]; exact hostScript_resume_ne 0 s, hm, hd.trans hp⟩

/-! ### exec, event by event -/

theorem blockTurn_of_busy (hb : s.seq.isBusy = true) : blockTurn s = blockStep s := by
  simp [blockTurn, hb]

/-- What waits in CMD plays no part in a block step. -/
theorem blockStep_setCmd (c : Option Word) (hb : s.seq.isBusy = true) (h : blockStep s = .next t) :
    blockStep { s with cmd := c } = .next { t with cmd := c } := by
  obtain ⟨hn, -⟩ | ⟨p, o, hq, hp⟩ := blockStep_next h
  · simp [hn] at hb
  · have step : blockStep { s with cmd := c } = shmEvent .device (p.event s.cfg) p.resume { s with cmd := c } := by
      simp [blockStep, hq]
    rw [step]
    obtain ⟨x, n, he, hw, rfl⟩ | ⟨x, bs, he, hw, rfl⟩ | ⟨he, hpw, rfl⟩ | ⟨he, hpw, ht⟩ := hp <;> rw [he]
    · simp only [shmEvent, hw, if_true]
      exact congrArg _ (resume_setCmd s c p _)
    · simp only [shmEvent, hw, if_true]
      exact congrArg _ (resume_setCmd (s.issueWrite .device x bs) c p 0)
    · exact (shmEvent_barrier_passed (a := .device) (s := { s with cmd := c }) hpw _).trans
        (congrArg _ (resume_setCmd s c p 0))
    · rw [ht]
      exact shmEvent_barrier_held (a := .device) (s := { s with cmd := c }) hpw _

theorem commit_setCmd (c : Option Word) {k : Nat} (h : s.commit .device k = some t) :
    State.commit { s with cmd := c } .device k = some { t with cmd := c } := by
  obtain ⟨w, hw, ho, rfl⟩ := commit_some h
  have hw' : (State.pending { s with cmd := c } .device)[k]? = some w := hw
  simp only [State.commit, hw']
  exact if_neg (by rw [Bool.not_eq_true]; exact ho)

/-- A step of the block alone is a move of the interleaving, whatever waits in CMD. -/
theorem soloStep_act (c : Option Word) (hb : s.seq.isBusy = true) (h : soloStep s = .next t) :
    ∃ m, Act.solo m = true ∧ performAct m { s with cmd := c } = .next { t with cmd := c } := by
  obtain ⟨_, _, -, -, hc⟩ | hs := soloStep_next h
  · exact ⟨.commit .device 0, rfl, by simp [performAct, commitMove, commit_setCmd c hc]⟩
  · exact ⟨.block, rfl, (blockTurn_of_busy (s := { s with cmd := c }) hb).trans (blockStep_setCmd c hb hs)⟩

/-- The block alone is a sequence of such moves. -/
theorem drive_acts (c : Option Word) {n : Nat} (h : drive n s = .next t) :
    ∃ ms : List Act, ms.all Act.solo = true ∧ performActs ms { s with cmd := c } = .next { t with cmd := c } := by
  induction n generalizing s with
  | zero =>
    cases h
    exact ⟨[], rfl, rfl⟩
  | succ n ih =>
    simp only [drive] at h
    split at h
    · next hb =>
      split at h
      · next u hu =>
        obtain ⟨m, hm, hp⟩ := soloStep_act c hb hu
        obtain ⟨ms, hms, hps⟩ := ih h
        exact ⟨m :: ms, by simp [hm, hms], by simp only [performActs, hp, hps]⟩
      · cases h
      · cases h
    · cases h
      exact ⟨[], rfl, rfl⟩

/-- The block accepts the word of a command. -/
theorem block_accepts (i : Instr) (hb : s.seq.isBusy = false) :
    performAct .block { s with cmd := some (encode i) } = .next { accept i (startOf i) s with cmd := none } := by
  simp only [performAct, blockTurn, hb, acceptWord, decodeWord_encode, Bool.false_eq_true, if_false]
  rw [accept_setCmd]

/-- Settles O34: the command's word is accepted, and every step of the block alone is a move of its own. -/
theorem execIsMadeOfEvents : Obligations.ExecIsMadeOfEvents := by
  unfold Obligations.ExecIsMadeOfEvents
  intro i s t hb h
  rw [exec_of_not_busy i hb] at h
  obtain ⟨ms, hms, hps⟩ := drive_acts none h
  exact ⟨ms, hms, by simp only [performActs, block_accepts i hb, hps]⟩

/-! ### A command that ends at its acceptance -/

theorem exec_of_ended {i : Instr} (ha : s.accepts i) (he : (startOf i s).seq.isBusy = false) :
    exec i s = .next (startOf i s) := by
  rw [exec_of_not_busy i ha.1, accept_start ha]
  exact drive_of_not_busy _ he

/-- Settles O26: the bounds check comes before FRAME_SEND's first event. -/
theorem frameSendOutsidePrivFaults : Obligations.FrameSendOutsidePrivFaults := by
  unfold Obligations.FrameSendOutsidePrivFaults
  intro s ha hready hl hpriv
  have bad : s.privOutside (s.arg 2) (s.arg 3).toNat = true := by
    simp only [State.privOutside, Region.contains, Region.limit, Bool.and_eq_true, bne_iff_ne, Bool.not_eq_true',
      Bool.and_eq_false_imp, decide_eq_true_eq]
    exact ⟨by omega, fun hlo => decide_eq_false fun hhi => hpriv ⟨hlo, hhi⟩⟩
  have faults : startOf .frameSend s = s.raise (.bounds .privSrc) (s.arg 2) := by
    simp [startOf, startFrameSend, hready, bad]
  have ⟨_, hf, _, _⟩ := ha
  rw [exec_of_ended ha (by rw [faults]; rfl), faults]
  simp [State.raise, hf]

end Sys2Proof.Machine
end

section
/-! SUPPORT. The command word (30_encoding.md R120 to R122): its two fields as arithmetic, the opcode map as a table with
an inverse, and the decoder's three answers read off them. -/

namespace Sys2Proof.Machine

/-! ### The fields of a word (R120) -/

theorem opField_eq_mod (w : Word) : opField w = w.toNat % 256 := by
  simp [opField]

theorem mbzField_eq_div (w : Word) : mbzField w = w.toNat / 256 := by
  have hw : w.toNat < 2 ^ 32 := w.isLt
  simp only [mbzField, BitVec.extractLsb'_toNat, Nat.shiftRight_eq_div_pow]
  omega

/-- The two fields are all of a word: with MBZ 0 it is its OP. -/
theorem toNat_eq_opField {w : Word} (hmbz : mbzField w = 0) : w.toNat = opField w := by
  rw [mbzField_eq_div] at hmbz
  rw [opField_eq_mod]
  omega

/-! ### The opcode map (R121) -/

theorem opcodeMap_eq_some {n : Nat} {i : Instr} : opcodeMap n = some i ↔ n = (encode i).toNat := by
  constructor
  · intro h
    unfold opcodeMap at h
    split at h <;> cases h <;> rfl
  · rintro rfl
    cases i <;> rfl

theorem opcodeMap_eq_none {n : Nat} : opcodeMap n = none ↔ n = 0 ∨ 9 ≤ n := by
  unfold opcodeMap
  split
  case h_9 =>
    simp only [imp_false, true_iff] at *
    omega
  all_goals simp

/-! ### The decoder's answers (R120 to R122) -/

/-- The decoder's three answers and when each is given. -/
theorem decodeWord_cases (w : Word) :
    (mbzField w ≠ 0 ∧ decodeWord w = .error .reservedBits) ∨
    (mbzField w = 0 ∧ opcodeMap (opField w) = none ∧ decodeWord w = .error .unassignedOpcode) ∨
    ∃ i, mbzField w = 0 ∧ opcodeMap (opField w) = some i ∧ decodeWord w = .ok i := by
  unfold decodeWord
  by_cases hmbz : mbzField w = 0
  · cases hop : opcodeMap (opField w) <;> simp [hmbz]
  · simp [hmbz]

theorem decodeWord_eq_ok {w : Word} {i : Instr} :
    decodeWord w = .ok i ↔ mbzField w = 0 ∧ opcodeMap (opField w) = some i := by
  obtain ⟨hmbz, hd⟩ | ⟨hmbz, hop, hd⟩ | ⟨j, hmbz, hop, hd⟩ := decodeWord_cases w <;> simp [*]

theorem decodeWord_eq_reservedBits {w : Word} : decodeWord w = .error .reservedBits ↔ mbzField w ≠ 0 := by
  obtain ⟨hmbz, hd⟩ | ⟨hmbz, hop, hd⟩ | ⟨j, hmbz, hop, hd⟩ := decodeWord_cases w <;> simp [*]

theorem decodeWord_eq_unassignedOpcode {w : Word} :
    decodeWord w = .error .unassignedOpcode ↔ mbzField w = 0 ∧ opcodeMap (opField w) = none := by
  obtain ⟨hmbz, hd⟩ | ⟨hmbz, hop, hd⟩ | ⟨j, hmbz, hop, hd⟩ := decodeWord_cases w <;> simp [*]

/-- A decoded word is the command's own, since its OP is and MBZ leaves no other bit. -/
theorem eq_encode_of_decodeWord {w : Word} {i : Instr} (h : decodeWord w = .ok i) : w = encode i := by
  obtain ⟨hmbz, hop⟩ := decodeWord_eq_ok.mp h
  apply BitVec.eq_of_toNat_eq
  rw [toNat_eq_opField hmbz, opcodeMap_eq_some.mp hop]

/-- Settles O1: the fields of a decoded word determine it, and each command's word decodes to it. -/
theorem decodeInvertsEncode : Obligations.DecodeInvertsEncode := by
  unfold Obligations.DecodeInvertsEncode
  intro i w
  constructor
  · exact eq_encode_of_decodeWord
  · rintro rfl
    exact decodeWord_encode i

/-- Settles O2: MBZ is tested first, and the opcode map has no row at 0 or from 9 on. -/
theorem illegalWordsAreNamed : Obligations.IllegalWordsAreNamed := by
  unfold Obligations.IllegalWordsAreNamed
  intro w
  rw [← mbzField_eq_div, ← opField_eq_mod, ← opcodeMap_eq_none]
  exact ⟨decodeWord_eq_reservedBits, decodeWord_eq_unassignedOpcode⟩

/-- Settles O3: thirteen fixed words, each decoded by evaluation. -/
theorem tableWordsDecode : Obligations.TableWordsDecode := by
  unfold Obligations.TableWordsDecode
  decide

end Sys2Proof.Machine
end

section
/-! SUPPORT. The block running alone, as a course from one position to the next (log 6): a read or a write is one step, a barrier
first commits what is pending, and so a UsedPush has one outcome (20_memory.md R92; 40_transport_tx.md R166). -/

namespace Sys2Proof.Machine

variable {s t u : State}

/-! ### Courses -/

/-- Alone, the block comes from s to t in n steps. -/
def State.leadsTo (s : State) (n : Nat) (t : State) : Prop := ∀ m, drive (n + m) s = drive m t

theorem leadsTo_refl (s : State) : s.leadsTo 0 s := fun m => by rw [Nat.zero_add]

theorem State.leadsTo.trans {n k : Nat} (h : s.leadsTo n t) (h' : t.leadsTo k u) : s.leadsTo (n + k) u := fun m => by
  rw [Nat.add_assoc, h, h']

theorem leadsTo_of_soloStep (hb : s.seq.isBusy = true) (h : soloStep s = .next t) : s.leadsTo 1 t := fun m => by
  rw [Nat.add_comm, drive_of_busy m hb h]

/-- Before its first event a command stores nothing. -/
theorem startOf_sameMemory (i : Instr) (s : State) : sameMemory s (startOf i s) :=
  have h := startOf_withStores s s.shm s.pwDevice s.cmd i
  ⟨(congrArg State.shm h :), (congrArg State.pwDevice h :)⟩

/-- A course from a command's start to its end is what exec answers: `soloBound` leaves 200000 steps besides the commits of what
is pending. -/
theorem exec_of_leadsTo {i : Instr} {n : Nat} (ha : s.accepts i) (h : (startOf i s).leadsTo n t)
    (hn : n ≤ s.pwDevice.length + 200000) (ht : t.seq.isBusy = false) : exec i s = .next t := by
  have ⟨hb, _, _, _⟩ := ha
  have enough : n ≤ soloBound (startOf i s) := by
    rw [soloBound, (startOf_sameMemory i s).2]
    omega
  obtain ⟨m, hm⟩ := Nat.exists_eq_add_of_le enough
  rw [exec_of_not_busy i hb, accept_start ha, runAlone, hm, h, drive_of_not_busy m ht]

/-! ### A position's event -/

theorem goto_of_busy {p : Pos} {o : Option Suspended} (hq : s.seq = .busy p o) : s.goto p = s := by
  rw [State.goto, hq, Seq.outer, ← hq]

theorem blockStep_of_read {p : Pos} {x n : Nat} (he : p.event s.cfg = .read x n) (hw : s.cfg.inWindow x n = true) :
    blockStep (s.goto p) = .next (p.resume (s.valueSeen .device x n) (s.goto p)) := by
  simp only [blockStep, State.goto_seq, State.goto_cfg, he, shmEvent, hw, if_true]
  rfl

/-- At an event that is no barrier the block alone takes a block step. -/
theorem leadsTo_of_blockStep {p : Pos} (he : p.event s.cfg ≠ .barrier) (h : blockStep (s.goto p) = .next t) :
    (s.goto p).leadsTo 1 t := by
  refine leadsTo_of_soloStep rfl ?_
  simp only [soloStep, State.goto_seq, State.goto_cfg]
  exact h

theorem leadsTo_of_write {p : Pos} {x : Nat} {bs : List Byte} (he : p.event s.cfg = .write x bs)
    (hw : s.cfg.inWindow x bs.length = true) :
    (s.goto p).leadsTo 1 (p.resume 0 ((s.issueWrite .device x bs).goto p)) := by
  refine leadsTo_of_blockStep (by simp [he]) ?_
  simp only [blockStep, State.goto_seq, State.goto_cfg, he, shmEvent, hw, if_true]
  rfl

/-! ### Barriers -/

/-- Everything pending of the device is in SHM. -/
def State.drained (s : State) : State := { s with shm := commitAll s.shm s.pwDevice, pwDevice := [] }

theorem drained_of_empty (h : s.pwDevice = []) : s.drained = s := by
  cases s
  subst h
  rfl

/-- The oldest entry may go first. -/
theorem drained_commitTo {w : PendingWrite} {ws : List PendingWrite} (h : s.pwDevice = w :: ws) :
    ({ s with shm := w.commitTo s.shm, pwDevice := ws } : State).drained = s.drained := by
  simp only [State.drained, h]
  rfl

theorem leadsTo_drained {p : Pos} (he : p.event s.cfg = .barrier) :
    (s.goto p).leadsTo s.pwDevice.length (s.drained.goto p) := by
  induction hw : s.pwDevice generalizing s with
  | nil =>
    rw [drained_of_empty hw, List.length_nil]
    exact leadsTo_refl _
  | cons w ws ih =>
    have oldest : soloStep (s.goto p) = .next ({ s with shm := w.commitTo s.shm, pwDevice := ws }.goto p) := by
      simp only [soloStep, State.goto_seq, State.goto_cfg, he, commit_oldest (s := s.goto p) (a := .device) hw]
      rfl
    have rest := ih (s := { s with shm := w.commitTo s.shm, pwDevice := ws }) he rfl
    rw [List.length_cons, Nat.add_comm, ← drained_commitTo hw]
    exact (leadsTo_of_soloStep rfl oldest).trans rest

/-- A barrier commits what is pending, oldest first, and passes. -/
theorem leadsTo_of_barrier {p : Pos} (he : p.event s.cfg = .barrier) :
    (s.goto p).leadsTo (s.pwDevice.length + 1) (p.resume 0 (s.drained.goto p)) := by
  refine (leadsTo_drained he).trans (leadsTo_of_soloStep rfl ?_)
  have empty : (s.drained.goto p).commit .device 0 = none := commit_oldest_none rfl
  simp only [soloStep, State.goto_seq, State.goto_cfg, show p.event s.drained.cfg = .barrier from he, empty, blockStep]
  exact shmEvent_barrier_passed (s := s.drained.goto p) (a := .device) rfl _

/-! ### A procedure's end does not look at the position it leaves -/

@[simp] theorem setRes_goto (n : Fin 4) (v : Word) (p : Pos) (s : State) : (s.goto p).setRes n v = (s.setRes n v).goto p := rfl

@[simp] theorem hold_goto (id : Fin 8) (addr cap : Word) (p : Pos) (s : State) :
    (s.goto p).hold id addr cap = (s.hold id addr cap).goto p := rfl

@[simp] theorem leak_goto (id : Fin 8) (p : Pos) (s : State) : (s.goto p).leak id = (s.leak id).goto p := rfl

@[simp] theorem finish_goto (st : Status) (p : Pos) (s : State) : (s.goto p).finish st = s.finish st := rfl

@[simp] theorem sendEnd_goto (f : Frame) (st : Status) (p : Pos) (s : State) : sendEnd f st (s.goto p) = sendEnd f st s := by
  unfold sendEnd
  cases f.origin with
  | frameSend => rfl
  | announce => cases st <;> rfl

@[simp] theorem sendBytes_goto (f : Frame) (id : Fin 8) (addr : Nat) (bs : List Byte) (p : Pos) (s : State) :
    sendBytes f id addr bs (s.goto p) = sendBytes f id addr bs s := by
  cases bs <;> rfl

@[simp] theorem ringEmpty_goto (w : Walk) (p : Pos) (s : State) : ringEmpty w (s.goto p) = ringEmpty w s := by
  cases w with
  | acquire => rfl
  | send f => exact sendEnd_goto f _ p s
  | poll => rfl

theorem advanceOnTake_goto (w : Walk) (c : Half) (p : Pos) (s : State) :
    advanceOnTake w c (s.goto p) = (advanceOnTake w c s).goto p := by
  cases w <;> rfl

@[simp] theorem bufferTaken_goto (w : Walk) (c : Half) (id : Fin 8) (cap addr : Word) (p : Pos) (s : State) :
    bufferTaken w c id cap addr (s.goto p) = bufferTaken w c id cap addr s := by
  cases w with
  | acquire => rfl
  | send f => simp [bufferTaken]
  | poll =>
    simp only [bufferTaken]
    split <;> rfl

/-! ### UsedPush (R166) -/

/-- s after a UsedPush of {id, n} on ring r: everything pending and then the used entry is in SHM, and USED(r) has advanced. -/
def State.pushed (s : State) (r : Ring) (id : Fin 8) (n : Word) : State :=
  { s.setUsed r (s.used r + 1) with
    shm := commitAll s.shm (s.pwDevice ++ usedWrites s.cfg r (s.used r) id n), pwDevice := [] }

theorem pushDone_goto (j : PushJob) (p : Pos) (s : State) : pushDone j (s.goto p) = pushDone j s := by
  obtain ⟨k, id, n, u⟩ := j
  cases k with
  | publish => rfl
  | send f => exact sendEnd_goto f _ p (s.unhold id)
  | poll c => rfl

theorem setUsed_goto (r : Ring) (v : Half) (p : Pos) (s : State) : (s.goto p).setUsed r v = (s.setUsed r v).goto p := by
  cases r <;> rfl

/-- s with the id and the length of a used entry pending. -/
def State.entryWritten (s : State) (j : PushJob) : State :=
  (s.issueWrite .device (usedIdAt s.cfg j.kind.ring (slotOf j.u)) (bytesOf j.id.val 4)).issueWrite .device
    (usedLenAt s.cfg j.kind.ring (slotOf j.u)) (bytesOf j.len.toNat 4)

/-- s with used.idx pending and USED(r) advanced. -/
def State.idxWritten (s : State) (j : PushJob) : State :=
  (s.issueWrite .device (usedIdxAt s.cfg j.kind.ring) (bytesOf (j.u + 1).toNat 2)).setUsed j.kind.ring (j.u + 1)

/-- What a UsedPush writes lies in its ring, and so in a window. -/
theorem pushWrite_inWindow {c : Config} {ph : PushPhase} {j : PushJob} {a : Nat} {bs : List Byte} (hc : c.ok = true)
    (he : (Pos.push ph j).event c = .write a bs) : c.inWindow a bs.length = true := by
  obtain ⟨q, hlo, hhi⟩ := event_write_at (by simp) he
  exact inWindow_mono (ring_inWindow hc q) (by omega) (by omega)

theorem pushEntry_leadsTo (hc : s.cfg.ok = true) (j : PushJob) :
    (s.goto (.push .id j)).leadsTo 2 ((s.entryWritten j).goto (.push .barrier1 j)) := by
  have id := leadsTo_of_write (s := s) (p := .push .id j) rfl (pushWrite_inWindow (ph := .id) hc rfl)
  have len := leadsTo_of_write (s := s.issueWrite .device (usedIdAt s.cfg j.kind.ring (slotOf j.u)) (bytesOf j.id.val 4))
    (p := .push .len j) rfl (pushWrite_inWindow (ph := .len) hc rfl)
  exact id.trans len

theorem pushBarrier1_leadsTo (s : State) (j : PushJob) :
    (s.goto (.push .barrier1 j)).leadsTo (s.pwDevice.length + 1) (s.drained.goto (.push .idx j)) :=
  leadsTo_of_barrier rfl

theorem pushIdx_leadsTo (hc : s.cfg.ok = true) (j : PushJob) :
    (s.goto (.push .idx j)).leadsTo 1 ((s.idxWritten j).goto (.push .barrier2 j)) := by
  have idx := leadsTo_of_write (s := s) (p := .push .idx j) rfl (pushWrite_inWindow (ph := .idx) hc rfl)
  simp only [Pos.resume, pushAfter, setUsed_goto] at idx
  exact idx

theorem pushBarrier2_leadsTo (s : State) (j : PushJob) :
    (s.goto (.push .barrier2 j)).leadsTo (s.pwDevice.length + 1) (pushDone j s.drained) := by
  have last := leadsTo_of_barrier (s := s) (p := .push .barrier2 j) rfl
  simp only [Pos.resume, pushAfter, notify, pushDone_goto] at last
  exact last

/-- The writes of a UsedPush and its two barriers come to the three writes in SHM, in order, after what was pending. -/
theorem pushed_eq (j : PushJob) (hu : j.u = s.used j.kind.ring) :
    ((s.entryWritten j).drained.idxWritten j).drained = s.pushed j.kind.ring j.id j.len := by
  rw [State.pushed, ← hu, State.idxWritten, State.entryWritten]
  cases j.kind.ring <;>
    simp [State.drained, State.issueWrite, State.setPending, State.pending, State.setUsed, usedWrites, commitAll]

theorem push_leadsTo (hc : s.cfg.ok = true) (j : PushJob) (hu : j.u = s.used j.kind.ring) :
    (s.goto (.push .id j)).leadsTo (s.pwDevice.length + 8) (pushDone j (s.pushed j.kind.ring j.id j.len)) := by
  have entry := (pushEntry_leadsTo hc j).trans (pushBarrier1_leadsTo _ j)
  have idx := (pushIdx_leadsTo (s := (s.entryWritten j).drained) hc j).trans (pushBarrier2_leadsTo _ j)
  rw [pushed_eq j hu] at idx
  have course := entry.trans idx
  have length : (s.entryWritten j).pwDevice.length = s.pwDevice.length + 2 := by simp [State.entryWritten]
  have length' : ((s.entryWritten j).drained.idxWritten j).pwDevice.length = 1 := by
    simp [State.idxWritten, State.drained]
  rw [length, length'] at course
  convert course using 1
  omega

/-- Alone, a UsedPush commits what is pending and then its entry, id and length before used.idx, and its command goes on. -/
theorem usedPush_leadsTo (hc : s.cfg.ok = true) (k : PushKind) (id : Fin 8) (n : Word) :
    (usedPush k id n s).leadsTo (s.pwDevice.length + 8) (pushDone ⟨k, id, n, s.used k.ring⟩ (s.pushed k.ring id n)) :=
  push_leadsTo hc ⟨k, id, n, s.used k.ring⟩ rfl

end Sys2Proof.Machine
end

section
/-! SUPPORT. A walk of an avail ring, event by event (40_transport_tx.md R160 to R163; 41_framing.md R211; 42_transport_rx.md
R240): each of its four reads, with what the block does next, and each way the walk can end. -/

namespace Sys2Proof.Machine

variable {s t u : State} {w : Walk} {c : Half} {id : Fin 8}

/-! ### The reads -/

theorem ringRead_inWindow {c : Config} {p : Pos} {a n : Nat} (hc : c.ok = true)
    (hr : ∀ x id addr dlen got, p ≠ .rxEnv x id addr dlen got) (he : p.event c = .read a n) : c.inWindow a n = true := by
  obtain ⟨q, ⟨i, hi, hlo, hhi⟩ | ⟨hlo, hhi⟩⟩ := event_read_at hr he
  · exact inWindow_mono (ring_inWindow hc q) (by omega) (by omega)
  · exact inWindow_mono (ring_inWindow hc q) (by omega) (by omega)

/-- A read of a ring field, and what follows it. -/
theorem blockStep_ringRead {p : Pos} {a n : Nat} (hc : s.cfg.ok = true)
    (hr : ∀ x id addr dlen got, p ≠ .rxEnv x id addr dlen got) (he : p.event s.cfg = .read a n) :
    blockStep (s.goto p) = .next (p.resume (s.valueSeen .device a n) (s.goto p)) :=
  blockStep_of_read he (ringRead_inWindow hc hr he)

theorem raise_goto_eq_stopped (hf : s.fault = .none) (p : Pos) (e : FaultCause) (i : Word) :
    (s.goto p).raise e i = s.stopped e i := by
  simp [State.raise, State.stopped, hf]

theorem setWidth_eq_u32 {n : Nat} (v : BitVec n) : v.setWidth 32 = u32 v.toNat := (BitVec.ofNat_toNat 32 v).symm

section
variable (hc : s.cfg.ok = true)
include hc

theorem blockStep_peek :
    blockStep (s.goto (.peek w c)) = .next (availPeek w.ring c (s.availIdxSeen w.ring)
      (fun u => if s.availIdxSeen w.ring = c then ringEmpty w u else u.goto (.slot w c)) (s.goto (.peek w c))) :=
  blockStep_ringRead hc (by simp) rfl

theorem blockStep_slot :
    blockStep (s.goto (.slot w c)) = .next (takeSlot w.ring (s.slotSeen w.ring c)
      (fun id u => (advanceOnTake w c u).goto (.descAddr w c id)) (s.goto (.slot w c))) :=
  blockStep_ringRead hc (by simp) rfl

theorem blockStep_descAddr :
    blockStep (s.goto (.descAddr w c id)) = .next (s.goto (.descLen w c id (s.descAddrSeen w.ring id))) :=
  blockStep_ringRead hc (by simp) rfl

theorem blockStep_descLen (addr : Dword) :
    blockStep (s.goto (.descLen w c id addr)) = .next (readDesc w.ring addr (s.descLenSeen w.ring id)
      (bufferTaken w c id (s.descLenSeen w.ring id)) (s.goto (.descLen w c id addr))) :=
  blockStep_ringRead hc (by simp) rfl

/-! ### What each read finds -/

theorem peek_empty (ha : s.availIdxSeen w.ring = c) : blockStep (s.goto (.peek w c)) = .next (ringEmpty w s) := by
  simp [blockStep_peek hc, ha, availPeek]

theorem peek_desync (hf : s.fault = .none) (ha : s.availIdxSeen w.ring ≠ c) (hg : ringN < gap (s.availIdxSeen w.ring) c) :
    blockStep (s.goto (.peek w c)) =
      .next (s.stopped (.desync w.ring) (u32 ((s.availIdxSeen w.ring).toNat * 65536 + c.toNat))) := by
  rw [blockStep_peek hc, availPeek, if_pos ⟨ha, hg⟩, raise_goto_eq_stopped hf, append_eq_u32, Nat.add_comm, Nat.mul_comm]

theorem peek_offered (ha : s.availIdxSeen w.ring ≠ c) (hg : gap (s.availIdxSeen w.ring) c ≤ ringN) :
    blockStep (s.goto (.peek w c)) = .next (s.goto (.slot w c)) := by
  rw [blockStep_peek hc, availPeek, if_neg (fun h => absurd h.2 (Nat.not_lt.mpr hg)), if_neg ha]
  rfl

theorem slot_badDescId (hf : s.fault = .none) (hid : 8 ≤ (s.slotSeen w.ring c).toNat) :
    blockStep (s.goto (.slot w c)) = .next (s.stopped (.badDescId w.ring) (u32 (s.slotSeen w.ring c).toNat)) := by
  rw [blockStep_slot hc, takeSlot, dif_neg (Nat.not_lt.mpr hid), raise_goto_eq_stopped hf, setWidth_eq_u32]

theorem slot_doubleGrant (hf : s.fault = .none) (hid : (s.slotSeen w.ring c).toNat = id.val) (hr : w.ring = .tx)
    (hh : s.isHeld id = true) : blockStep (s.goto (.slot w c)) = .next (s.stopped .doubleGrant (u32 id.val)) := by
  have same : (⟨(s.slotSeen w.ring c).toNat, by omega⟩ : Fin 8) = id := Fin.ext hid
  rw [blockStep_slot hc, takeSlot, dif_pos (by omega), if_pos ⟨hr, by rw [same]; exact hh⟩, raise_goto_eq_stopped hf,
    setWidth_eq_u32, hid]

theorem slot_taken (hid : (s.slotSeen w.ring c).toNat = id.val) (hh : w.ring = .rx ∨ s.isHeld id = false) :
    blockStep (s.goto (.slot w c)) = .next ((advanceOnTake w c s).goto (.descAddr w c id)) := by
  have same : (⟨(s.slotSeen w.ring c).toNat, by omega⟩ : Fin 8) = id := Fin.ext hid
  have free : ¬ (w.ring = .tx ∧ (s.goto (.slot w c)).isHeld id = true) := fun ⟨hr, h⟩ => by
    have : s.isHeld id = true := h
    simp_all
  rw [blockStep_slot hc, takeSlot, dif_pos (by omega), same, if_neg free, advanceOnTake_goto]
  rfl

theorem descLen_bounds {addr : Dword} (hf : s.fault = .none) (hb : bufferInWindow s.cfg addr (s.descLenSeen w.ring id) = false) :
    blockStep (s.goto (.descLen w c id addr)) = .next (s.stopped (.bounds w.ring.bufKind) (u32 addr.toNat)) := by
  rw [blockStep_descLen hc, readDesc, if_neg (by rw [Bool.not_eq_true]; exact hb), raise_goto_eq_stopped hf, setWidth_eq_u32]

theorem descLen_taken {addr : Dword} (hb : bufferInWindow s.cfg addr (s.descLenSeen w.ring id) = true) :
    blockStep (s.goto (.descLen w c id addr)) =
      .next (bufferTaken w c id (s.descLenSeen w.ring id) (addr.setWidth 32) s) := by
  simp [blockStep_descLen hc, readDesc, hb]

end

/-! ### A walk as a whole -/

@[simp] theorem advanceOnTake_cfg (w : Walk) (c : Half) (s : State) : (advanceOnTake w c s).cfg = s.cfg :=
  (advanceOnTake_untouched w c s).cfg

@[simp] theorem advanceOnTake_fault (w : Walk) (c : Half) (s : State) : (advanceOnTake w c s).fault = s.fault := by
  cases w <;> rfl

@[simp] theorem advanceOnTake_descAddrSeen (w : Walk) (c : Half) (r : Ring) (id : Fin 8) (s : State) :
    (advanceOnTake w c s).descAddrSeen r id = s.descAddrSeen r id := by
  cases w <;> rfl

@[simp] theorem advanceOnTake_descLenSeen (w : Walk) (c : Half) (r : Ring) (id : Fin 8) (s : State) :
    (advanceOnTake w c s).descLenSeen r id = s.descLenSeen r id := by
  cases w <;> rfl

/-- A walk's step is no barrier, so the block alone takes it as it is. -/
theorem walkStep_leadsTo {p : Pos} {a n : Nat} (he : p.event s.cfg = .read a n) (h : blockStep (s.goto p) = .next t) :
    (s.goto p).leadsTo 1 t :=
  leadsTo_of_blockStep (by simp [he]) h

/-- An offered entry whose id may be taken: the cursor advances, and the descriptor's address is read. -/
theorem walk_leadsTo_descLen (hc : s.cfg.ok = true) (ho : s.offers w.ring c id) (hh : w.ring = .rx ∨ s.isHeld id = false) :
    (s.goto (.peek w c)).leadsTo 3 ((advanceOnTake w c s).goto (.descLen w c id (s.descAddrSeen w.ring id))) := by
  obtain ⟨ha, hg, hid⟩ := ho
  have peek := walkStep_leadsTo rfl (peek_offered hc ha hg)
  have slot := walkStep_leadsTo rfl (slot_taken hc hid hh)
  have addr := walkStep_leadsTo rfl (blockStep_descAddr (s := advanceOnTake w c s) (w := w) (c := c) (id := id) (by simp [hc]))
  rw [advanceOnTake_descAddrSeen] at addr
  exact (peek.trans slot).trans addr

theorem walk_leadsTo_bufferTaken (hc : s.cfg.ok = true) (ho : s.offers w.ring c id)
    (hh : w.ring = .rx ∨ s.isHeld id = false) (hb : s.bufferOk w.ring id = true) :
    (s.goto (.peek w c)).leadsTo 4
      (bufferTaken w c id (s.descLenSeen w.ring id) ((s.descAddrSeen w.ring id).setWidth 32) (advanceOnTake w c s)) := by
  have taken := descLen_taken (s := advanceOnTake w c s) (w := w) (c := c) (id := id) (addr := s.descAddrSeen w.ring id)
    (by simp [hc]) (by simpa [State.bufferOk] using hb)
  rw [advanceOnTake_descLenSeen] at taken
  have addr := walk_leadsTo_descLen hc ho hh
  have len := walkStep_leadsTo rfl taken
  exact addr.trans len

/-! ### What a walk sees -/

/-- In ring r the device sees in t what it sees in s. -/
structure sameRing (r : Ring) (s t : State) : Prop where
  cfg : t.cfg = s.cfg
  availIdx : t.availIdxSeen r = s.availIdxSeen r
  slot : ∀ c, t.slotSeen r c = s.slotSeen r c
  descAddr : ∀ id, t.descAddrSeen r id = s.descAddrSeen r id
  descLen : ∀ id, t.descLenSeen r id = s.descLenSeen r id

theorem sameRing.offers {r : Ring} (h : sameRing r s t) : t.offers r c id ↔ s.offers r c id := by
  rw [State.offers, State.offers, h.availIdx, h.slot]

theorem sameRing.bufferOk {r : Ring} (h : sameRing r s t) (id : Fin 8) : t.bufferOk r id = s.bufferOk r id := by
  rw [State.bufferOk, State.bufferOk, h.cfg, h.descAddr, h.descLen]

/-- The device sees the same ring where its view is the same at every address that the walk reads: below the ring's used part
(R119). -/
theorem sameRing_of_byteSeen {r : Ring} (hc : t.cfg = s.cfg)
    (hv : ∀ x, ringBase s.cfg r ≤ x → x < ringBase s.cfg r + 0xA0 → t.byteSeen .device x = s.byteSeen .device x) :
    sameRing r s t := by
  have seen (a n : Nat) (hlo : ringBase s.cfg r ≤ a) (hhi : a + n ≤ ringBase s.cfg r + 0xA0) :
      t.valueSeen .device a n = s.valueSeen .device a n :=
    congrArg leValue (List.map_congr_left fun k hk => hv _ (by omega) (by have := List.mem_range.mp hk; omega))
  constructor
  · exact hc
  · rw [State.availIdxSeen, State.availIdxSeen, hc,
      seen _ _ (by simp only [availIdxAt]; omega) (by simp only [availIdxAt]; omega)]
  · intro c
    have := slotOf_lt c
    rw [State.slotSeen, State.slotSeen, hc,
      seen _ _ (by simp only [availRingAt]; omega) (by simp only [availRingAt]; omega)]
  · intro id
    rw [State.descAddrSeen, State.descAddrSeen, hc,
      seen _ _ (by simp only [descAddrAt]; omega) (by simp only [descAddrAt]; omega)]
  · intro id
    rw [State.descLenSeen, State.descLenSeen, hc,
      seen _ _ (by simp only [descLenAt]; omega) (by simp only [descLenAt]; omega)]

theorem byteSeen_of_sameMemory (hm : sameMemory s t) (x : Nat) : t.byteSeen .device x = s.byteSeen .device x := by
  rw [State.byteSeen, State.byteSeen, State.pending, State.pending, hm.1, hm.2]

theorem sameRing_of_sameMemory (r : Ring) (hc : t.cfg = s.cfg) (hm : sameMemory s t) : sameRing r s t :=
  sameRing_of_byteSeen hc fun x _ _ => byteSeen_of_sameMemory hm x

/-! ### The ways a walk faults -/

/-- t is s stopped by a fault of the walk w at cursor c, for what the device sees in the ring (R160 to R162, R382). -/
inductive WalkFault (s : State) (w : Walk) (c : Half) : State → Prop where
  | desync (ha : s.availIdxSeen w.ring ≠ c) (hg : ringN < gap (s.availIdxSeen w.ring) c) :
      WalkFault s w c (s.stopped (.desync w.ring) (u32 ((s.availIdxSeen w.ring).toNat * 65536 + c.toNat)))
  | badDescId (ha : s.availIdxSeen w.ring ≠ c) (hg : gap (s.availIdxSeen w.ring) c ≤ ringN)
      (hid : 8 ≤ (s.slotSeen w.ring c).toNat) :
      WalkFault s w c (s.stopped (.badDescId w.ring) (u32 (s.slotSeen w.ring c).toNat))
  | doubleGrant {id : Fin 8} (ho : s.offers w.ring c id) (hr : w.ring = .tx) (hh : s.isHeld id = true) :
      WalkFault s w c (s.stopped .doubleGrant (u32 id.val))
  | bounds {id : Fin 8} (ho : s.offers w.ring c id) (hh : w.ring = .rx ∨ s.isHeld id = false)
      (hb : s.bufferOk w.ring id = false) :
      WalkFault s w c ((advanceOnTake w c s).stopped (.bounds w.ring.bufKind) (u32 (s.descAddrSeen w.ring id).toNat))

/-- Alone, the block comes to each of these faults. -/
theorem WalkFault.leadsTo (h : WalkFault s w c t) (hc : s.cfg.ok = true) (hf : s.fault = .none) :
    ∃ n ≤ 4, (s.goto (.peek w c)).leadsTo n t := by
  cases h with
  | desync ha hg => exact ⟨1, by omega, walkStep_leadsTo rfl (peek_desync hc hf ha hg)⟩
  | badDescId ha hg hid =>
    have peek := walkStep_leadsTo rfl (peek_offered hc ha hg)
    exact ⟨2, by omega, peek.trans (walkStep_leadsTo rfl (slot_badDescId hc hf hid))⟩
  | doubleGrant ho hr hh =>
    obtain ⟨ha, hg, hid⟩ := ho
    have peek := walkStep_leadsTo rfl (peek_offered hc ha hg)
    exact ⟨2, by omega, peek.trans (walkStep_leadsTo rfl (slot_doubleGrant hc hf hid hr hh))⟩
  | @bounds id ho hh hb =>
    have stop := descLen_bounds (s := advanceOnTake w c s) (w := w) (c := c) (id := id) (addr := s.descAddrSeen w.ring id)
      (by simp [hc]) (by simp [hf]) (by simpa [State.bufferOk] using hb)
    have addr := walk_leadsTo_descLen hc ho hh
    have len := walkStep_leadsTo rfl stop
    exact ⟨4, by omega, addr.trans len⟩

theorem WalkFault.not_busy (h : WalkFault s w c t) : t.seq.isBusy = false := by
  cases h <;> rfl

/-- A command that comes to a walk of u's ring ends in the fault that the walk ends in. -/
theorem exec_of_walkFault {i : Instr} {n : Nat} (h : WalkFault u w c t) (ha : s.accepts i)
    (hs : (startOf i s).leadsTo n (u.goto (.peek w c))) (hn : n + 4 ≤ s.pwDevice.length + 200000) (hc : u.cfg.ok = true)
    (hf : u.fault = .none) : exec i s = .next t := by
  obtain ⟨k, hk, hw⟩ := h.leadsTo hc hf
  exact exec_of_leadsTo ha (hs.trans hw) (by omega) h.not_busy

end Sys2Proof.Machine
end

section
/-! SUPPORT. What a UsedPush leaves in shared memory (20_memory.md R93; 40_transport_tx.md R166, R169): its used entry and
used.idx, and every other byte as the device saw it before. -/

namespace Sys2Proof.Machine

variable {s : State} {r : Ring}

/-! ### Runs of bytes -/

theorem readBytes_writeBytes_same (m : Memory) (a : Nat) (bs : List Byte) :
    (m.writeBytes a bs).readBytes a bs.length = bs := by
  refine List.ext_getElem (by simp [Memory.readBytes]) fun k hk hk' => ?_
  simp [Memory.readBytes, Memory.read_writeBytes, byteAt_add, List.getElem?_eq_getElem hk']

theorem readBytes_writeBytes_of_disjoint (m : Memory) {a n b : Nat} {bs : List Byte} (h : a + n ≤ b ∨ b + bs.length ≤ a) :
    (m.writeBytes b bs).readBytes a n = m.readBytes a n := by
  refine List.map_congr_left fun k hk => ?_
  have hk' := List.mem_range.mp hk
  have out : outside (a + k) b bs.length := h.imp (by omega) (by omega)
  rw [Memory.read_writeBytes, byteAt_eq_none_of_outside out]
  rfl

/-- A number written in full is read back. -/
theorem leValue_readBytes_bytesOf (m : Memory) (a : Nat) {v n : Nat} (hv : v < 2 ^ (8 * n)) :
    leValue ((m.writeBytes a (bytesOf v n)).readBytes a n) = v := by
  have own := readBytes_writeBytes_same m a (bytesOf v n)
  rw [bytesOf_length] at own
  rw [own, leValue_bytesOf, Nat.mod_eq_of_lt hv]

/-! ### The used entry -/

theorem commitAll_append_usedWrites (m : Memory) (ws : List PendingWrite) (c : Config) (r : Ring) (u : Half) (id : Fin 8)
    (n : Word) :
    commitAll m (ws ++ usedWrites c r u id n) =
      (((commitAll m ws).writeBytes (usedIdAt c r (slotOf u)) (bytesOf id.val 4)).writeBytes
        (usedLenAt c r (slotOf u)) (bytesOf n.toNat 4)).writeBytes (usedIdxAt c r) (bytesOf (u + 1).toNat 2) := by
  simp [commitAll, usedWrites, PendingWrite.commitTo]

/-- The used entry and used.idx, once the three writes of a UsedPush are in memory. -/
theorem usedEntry_in_memory (m : Memory) (ws : List PendingWrite) (c : Config) (r : Ring) (u : Half) (id : Fin 8) (n : Word) :
    leValue ((commitAll m (ws ++ usedWrites c r u id n)).readBytes (usedIdxAt c r) 2) = (u + 1).toNat ∧
    leValue ((commitAll m (ws ++ usedWrites c r u id n)).readBytes (usedIdAt c r (slotOf u)) 4) = id.val ∧
    leValue ((commitAll m (ws ++ usedWrites c r u id n)).readBytes (usedLenAt c r (slotOf u)) 4) = n.toNat := by
  rw [commitAll_append_usedWrites]
  refine ⟨?_, ?_, ?_⟩
  · exact leValue_readBytes_bytesOf _ _ (u + 1).isLt
  · rw [readBytes_writeBytes_of_disjoint _ (by simp only [bytesOf_length, usedIdAt, usedIdxAt]; omega),
      readBytes_writeBytes_of_disjoint _ (by simp only [bytesOf_length, usedIdAt, usedLenAt]; omega)]
    exact leValue_readBytes_bytesOf _ _ (by omega)
  · rw [readBytes_writeBytes_of_disjoint _ (by simp only [bytesOf_length, usedLenAt, usedIdxAt]; omega)]
    exact leValue_readBytes_bytesOf _ _ n.isLt

/-! ### Every other byte -/

theorem byteSeen_pushed {x : Nat} (id : Fin 8) (n : Word) (h : outsideUsed s.cfg r (s.used r) x) :
    (s.pushed r id n).byteSeen .device x = s.byteSeen .device x := by
  obtain ⟨hid, hlen, hidx⟩ := h
  rw [byteSeen_of_drained rfl, State.pushed, commitAll_append_usedWrites]
  simp only [Memory.read_writeBytes]
  rw [byteAt_eq_none_of_outside (by rwa [bytesOf_length]), byteAt_eq_none_of_outside (by rwa [bytesOf_length]),
    byteAt_eq_none_of_outside (by rwa [bytesOf_length])]
  exact read_commitAll _ _ _

/-- A walk of the ring sees what it saw before: nothing it reads lies where the device writes (R52). -/
theorem sameRing_pushed (s : State) (r : Ring) (id : Fin 8) (n : Word) : sameRing r s (s.pushed r id n) := by
  refine sameRing_of_byteSeen (by cases r <;> rfl) fun x hlo hhi => byteSeen_pushed id n ?_
  refine ⟨.inl ?_, .inl ?_, .inl ?_⟩
  · simp only [usedIdAt]; omega
  · simp only [usedLenAt]; omega
  · simp only [usedIdxAt]; omega

end Sys2Proof.Machine
end

section
/-! SUPPORT. Walks as the commands take them (40_transport_tx.md R163, R165; 43_channel_control.md R291): ACQUIRE_TX to its end,
every command on an empty ring, and the walk's faults in the commands that take a TX buffer. -/

namespace Sys2Proof.Machine

variable {s t : State}

theorem returned_of_not_busy (hb : s.seq.isBusy = false) : s.seq.returned = s.seq := by
  cases hq : s.seq with
  | idle => rfl
  | busy p o => simp [hq, Seq.isBusy] at hb
  | delivering k => rfl

/-! ### The commands in Ready -/

theorem startOf_acquireTx (hr : s.ch = .ready) : startOf .acquireTx s = s.goto (.peek .acquire s.txLast) := by
  simp [startOf, startAcquireTx, hr]

theorem startOf_frameSend (hr : s.ch = .ready) (hp : s.privOutside (s.arg 2) (s.arg 3).toNat = false) :
    startOf .frameSend s = s.goto (.peek (.send (frameOfArgs s)) s.txLast) := by
  simp [startOf, startFrameSend, hr, hp]

theorem startOf_pollRx (hr : s.ch = .ready) :
    startOf .pollRx s = { s with rxProcessed := 0, rxDelivered := 0 }.goto (.peek .poll s.rxLast) := by
  simp [startOf, startPollRx, hr, pollLoop]

/-! ### ACQUIRE_TX -/

/-- Settles O17: the walk comes to a buffer that can be taken, and the rest of ACQUIRE_TX has no event. -/
theorem acquireTakesTheNextBuffer : Obligations.AcquireTakesTheNextBuffer := by
  unfold Obligations.AcquireTakesTheNextBuffer
  intro s id hc ha hr ho hh hb
  have ⟨idle, _, _, _⟩ := ha
  have walk := walk_leadsTo_bufferTaken (w := .acquire) hc ho (.inr hh) hb
  simp only [bufferTaken, advanceOnTake, Walk.ring, State.hold, State.setRes, State.finish, returned_of_not_busy idle,
    ← startOf_acquireTx hr] at walk
  exact exec_of_leadsTo ha walk (by omega) idle

/-! ### Empty rings -/

/-- Settles O18: the walk ends at its first read. -/
theorem emptyRingsEndAtOnce : Obligations.EmptyRingsEndAtOnce := by
  unfold Obligations.EmptyRingsEndAtOnce
  intro s hc hr
  refine ⟨fun hempty ha => ?_, fun hempty ha hp => ?_, fun hempty ha => ?_⟩
  · have ⟨idle, _, _, _⟩ := ha
    have walk := walkStep_leadsTo rfl (peek_empty (w := .acquire) hc hempty)
    simp only [ringEmpty, State.finish, returned_of_not_busy idle, ← startOf_acquireTx hr] at walk
    exact exec_of_leadsTo ha walk (by omega) idle
  · have ⟨idle, _, _, _⟩ := ha
    have walk := walkStep_leadsTo rfl (peek_empty (w := .send (frameOfArgs s)) hc hempty)
    simp only [← startOf_frameSend hr hp] at walk
    simp only [ringEmpty, sendEnd, frameOfArgs, State.finish, returned_of_not_busy idle] at walk
    exact exec_of_leadsTo ha walk (by omega) idle
  · have ⟨idle, _, _, _⟩ := ha
    have walk := walkStep_leadsTo rfl (peek_empty (s := { s with rxProcessed := 0, rxDelivered := 0 }) (w := .poll) hc hempty)
    rw [← startOf_pollRx hr] at walk
    simp only [ringEmpty, State.setRes, State.finish, returned_of_not_busy idle] at walk
    exact exec_of_leadsTo ha walk (by omega) idle

/-! ### The walk's faults -/

/-- The commands that take a TX buffer begin with a walk of the TX ring. -/
theorem startOf_txWalk {i : Instr} (hr : s.ch = .ready)
    (hi : i = .acquireTx ∨ i = .frameSend ∧ s.privOutside (s.arg 2) (s.arg 3).toNat = false) :
    ∃ w, w.ring = .tx ∧ advanceOnTake w s.txLast s = { s with txLast := s.txLast + 1 } ∧
      startOf i s = s.goto (.peek w s.txLast) := by
  obtain rfl | ⟨rfl, hp⟩ := hi
  · exact ⟨.acquire, rfl, rfl, startOf_acquireTx hr⟩
  · exact ⟨.send (frameOfArgs s), rfl, rfl, startOf_frameSend hr hp⟩

/-- INIT at its wait, after its own updates and before its first read (R291). -/
def State.initWaiting (s : State) : State :=
  { s with
    txLast := 0, txUsed := 0, rxLast := 0, rxUsed := 0, txHeld := 0, txLeaked := 0
    ch := .waitingForHostBuffers, waitCnt := 0, initSeen := true }

theorem startOf_init (hc : s.cfg.ok = true) (hu : s.ch = .uninitialized) : startOf .init s = s.initWaiting.goto .initPeek := by
  have budget : 0 < s.cfg.initBudget := by
    have : s.cfg.budgetPositive = true := by simp_all [Config.ok]
    simpa [Config.budgetPositive, Nat.succ_le_iff] using this
  simp [startOf, startInit, hu, waitLoop, budget, State.initWaiting]

/-- INIT's wait ends at its first read, if a grant is there (R291, R292). -/
theorem initWait_leadsTo (hc : s.cfg.ok = true) (ha : s.availIdxSeen .tx ≠ s.txLast)
    (hg : gap (s.availIdxSeen .tx) s.txLast ≤ ringN) :
    (s.goto .initPeek).leadsTo 1
      ({ s with waitCnt := s.waitCnt + 1, ch := .announcing }.goto (.peek (.send (announcement s.cfg)) s.txLast)) := by
  have read : blockStep (s.goto .initPeek) = .next (initPeeked (s.availIdxSeen .tx) (s.goto .initPeek)) :=
    blockStep_ringRead hc (by simp) rfl
  have granted : initPeeked (s.availIdxSeen .tx) (s.goto .initPeek) =
      { s with waitCnt := s.waitCnt + 1, ch := .announcing }.goto (.peek (.send (announcement s.cfg)) s.txLast) := by
    rw [initPeeked, availPeek, if_neg (fun h => absurd h.2 (Nat.not_lt.mpr hg))]
    exact if_pos ha
  rw [granted] at read
  exact walkStep_leadsTo rfl read

/-- Settles O19: each clause is a fault of a walk, which INIT begins at its wait's first read. -/
theorem acquireFaults : Obligations.AcquireFaults := by
  unfold Obligations.AcquireFaults
  refine ⟨fun s i hc hi ha hr hne => ?_, fun s hc ha hu hne hg => ?_⟩
  · obtain ⟨w, hw, advanced, hs⟩ := startOf_txWalk hr hi
    have ⟨_, hf, _, _⟩ := ha
    have faults {t : State} (h : WalkFault s w s.txLast t) : exec i s = .next t :=
      exec_of_walkFault h ha (n := 0) (by rw [hs]; exact leadsTo_refl _) (by omega) hc hf
    have kind : BufKind.txBuf = w.ring.bufKind := by rw [hw]; rfl
    rw [← advanced, kind]
    rw [← hw] at hne ⊢
    exact ⟨fun hg => faults (.desync hne hg), fun hg hid => faults (.badDescId hne hg hid),
      fun id ho hh => faults (.doubleGrant ho hw hh), fun id ho hh hb => faults (.bounds ho (.inr hh) hb)⟩
  · intro begun
    have ⟨_, hf, _, _⟩ := ha
    have view : sameRing .tx s begun := sameRing_of_sameMemory .tx rfl ⟨rfl, rfl⟩
    have waits : sameRing .tx s s.initWaiting := sameRing_of_sameMemory .tx rfl ⟨rfl, rfl⟩
    have wait := initWait_leadsTo (s := s.initWaiting) hc (by rw [waits.availIdx]; exact hne) (by rw [waits.availIdx]; exact hg)
    rw [← startOf_init hc hu] at wait
    have faults {t : State} (h : WalkFault begun (.send (announcement s.cfg)) 0 t) : exec .init s = .next t :=
      exec_of_walkFault h ha wait (by omega) hc hf
    refine ⟨fun hid => ?_, fun id ho hb => ?_⟩
    · rw [← view.slot] at hid ⊢
      rw [← view.availIdx] at hne hg
      exact faults (.badDescId hne hg hid)
    · rw [← view.offers] at ho
      rw [← view.bufferOk] at hb
      rw [← view.descAddr]
      exact faults (.bounds ho (.inr (by simp [State.isHeld, begun])) hb)

end Sys2Proof.Machine
end

section
/-! SUPPORT. PUBLISH_TX (40_transport_tx.md R167, R169, R170): its operand checks, its return of a buffer, and what the return
leaves in shared memory. -/

namespace Sys2Proof.Machine

variable {s t : State} {id : Fin 8}

/-! ### The operand checks -/

theorem startOf_publishTx_argRange (hr : s.ch = .ready) (hid : 8 ≤ (s.arg 0).toNat) :
    startOf .publishTx s = s.raise (.clientProtocol .argRange) (s.arg 0) := by
  simp [startOf, startPublishTx, hr, Nat.not_lt.mpr hid]

/-- PUBLISH_TX up to its first event, in Ready and for an id that exists (R167; log 30). -/
theorem startOf_publishTx (hr : s.ch = .ready) (hid : (s.arg 0).toNat = id.val) :
    startOf .publishTx s =
      if s.isHeld id then
        if s.heldCap[id].toNat < (s.arg 1).toNat then s.raise (.clientProtocol .publishLenGtCap) (s.arg 1)
        else if s.isLeaked id then s.raise (.clientProtocol .publishNotHeld) (s.arg 0)
        else usedPush .publish id (s.arg 1) s
      else s.raise (.clientProtocol .publishNotHeld) (s.arg 0) := by
  simp only [startOf, startPublishTx, hr, if_true, hid, id.isLt, dite_true]
  rfl

/-- A fault at acceptance is what exec answers. -/
theorem exec_of_raise {i : Instr} {e : FaultCause} {v : Word} (ha : s.accepts i) (hs : startOf i s = s.raise e v) :
    exec i s = .next (s.stopped e v) := by
  have ⟨_, hf, _, _⟩ := ha
  rw [exec_of_ended ha (by rw [hs]; rfl), hs]
  simp [State.raise, State.stopped, hf]

/-- Settles O21: the checks come in this order, before any event. -/
theorem publishFaults : Obligations.PublishFaults := by
  unfold Obligations.PublishFaults
  intro s ha hr
  refine ⟨fun hid => ?_, fun id hid hh => ?_, fun id hid hh hn => ?_, fun id hid hh hn hl => ?_⟩
  · exact exec_of_raise ha (startOf_publishTx_argRange hr hid)
  · exact exec_of_raise ha (by rw [startOf_publishTx hr hid, if_neg (by simp [hh])])
  · exact exec_of_raise ha (by rw [startOf_publishTx hr hid, if_pos hh, if_pos hn])
  · exact exec_of_raise ha (by rw [startOf_publishTx hr hid, if_pos hh, if_neg (Nat.not_lt.mpr hn), if_pos hl])

/-! ### The return -/

/-- Settles O20: the checks pass, the UsedPush runs alone, and the rest of PUBLISH_TX has no event. -/
theorem publishReturnsTheBuffer : Obligations.PublishReturnsTheBuffer := by
  unfold Obligations.PublishReturnsTheBuffer
  intro s id hc ha hr hid hh hl hn
  have ⟨idle, _, _, _⟩ := ha
  have start : startOf .publishTx s = usedPush .publish id (s.arg 1) s := by
    rw [startOf_publishTx hr hid, if_pos hh, if_neg (Nat.not_lt.mpr hn), if_neg (by simp [hl])]
  have push := usedPush_leadsTo hc .publish id (s.arg 1)
  rw [← start] at push
  simp only [pushDone, PushKind.ring, State.pushed, State.setUsed, State.used, State.unhold, State.finish,
    returned_of_not_busy idle] at push
  exact exec_of_leadsTo ha push (by omega) idle

/-- A PUBLISH_TX that ends OK passed every check. -/
theorem publish_ok (ha : s.accepts .publishTx) (h : exec .publishTx s = .next t) (hok : t.status = .ok) :
    s.ch = .ready ∧ ∃ id : Fin 8, (s.arg 0).toNat = id.val ∧ s.isHeld id = true ∧ s.isLeaked id = false ∧
      (s.arg 1).toNat ≤ s.heldCap[id].toNat := by
  have faults {u : State} (hu : exec .publishTx s = .next u) (hs : u.status = .faulted) : False := by
    rw [hu, Host.Outcome.next.injEq] at h
    simp [h, hok] at hs
  by_cases hr : s.ch = .ready
  · obtain ⟨range, notHeld, lenGtCap, leaked⟩ := publishFaults s ha hr
    have hid : (s.arg 0).toNat < 8 := Nat.lt_of_not_le fun hge => faults (range hge) rfl
    have hh : s.isHeld ⟨_, hid⟩ = true := Bool.of_not_eq_false fun hn => faults (notHeld _ rfl hn) rfl
    have hn : (s.arg 1).toNat ≤ s.heldCap[(⟨_, hid⟩ : Fin 8)].toNat :=
      Nat.le_of_not_lt fun hgt => faults (lenGtCap _ rfl hh hgt) rfl
    exact ⟨hr, ⟨_, hid⟩, rfl, hh, Bool.of_not_eq_true fun hl => faults (leaked _ rfl hh hn hl) rfl, hn⟩
  · have start : startOf .publishTx s = s.finish .notInitialized := by simp [startOf, startPublishTx, hr]
    rw [exec_of_ended ha (by simp [start]), start, Host.Outcome.next.injEq] at h
    simp [← h] at hok

/-- Settles O22: the used entry is what the return has committed last. -/
theorem publishedEntryIsInMemory : Obligations.PublishedEntryIsInMemory := by
  unfold Obligations.PublishedEntryIsInMemory
  intro s t hc ha h hok
  obtain ⟨hr, id, hid, hh, hl, hn⟩ := publish_ok ha h hok
  rw [publishReturnsTheBuffer s id hc ha hr hid hh hl hn, Host.Outcome.next.injEq] at h
  subst h
  rw [hid]
  exact ⟨rfl, rfl, usedEntry_in_memory s.shm s.pwDevice s.cfg .tx s.txUsed id (s.arg 1)⟩

end Sys2Proof.Machine
end

section
/-! SUPPORT. The walker's faults in POLL_RX (42_transport_rx.md R240, R246), whose walks begin at acceptance, after the return
that an RX_RELEASE makes, or anywhere in an interleaving. -/

namespace Sys2Proof.Machine

variable {s t : State}

/-! ### The walk that follows an RX_RELEASE -/

/-- s once an RX_RELEASE has returned the suspended POLL_RX's descriptor (R246), as its next walk begins. -/
def State.released (s : State) (k : Suspended) : State :=
  { { s with seq := .idle, rxDelivered := s.rxDelivered + 1 }.pushed .rx k.id s.rxUsedLen with
    rxLast := k.cursor + 1, rxProcessed := s.rxProcessed + 1 }

theorem rxRelease_leadsTo {k : Suspended} (hc : s.cfg.ok = true) (hk : s.seq = .delivering k) :
    (startOf .rxRelease s).leadsTo (s.pwDevice.length + 8) ((s.released k).goto (.peek .poll (k.cursor + 1))) := by
  have start : startOf .rxRelease s =
      usedPush (.poll k.cursor) k.id s.rxUsedLen { s with seq := .idle, rxDelivered := s.rxDelivered + 1 } := by
    simp only [startOf, startRxRelease, hk]
    rfl
  rw [start]
  exact usedPush_leadsTo (by exact hc) _ _ _

theorem sameRing_released (s : State) (k : Suspended) : sameRing .rx s (s.released k) :=
  have pushed := sameRing_pushed { s with seq := .idle, rxDelivered := s.rxDelivered + 1 } .rx k.id s.rxUsedLen
  ⟨pushed.cfg, pushed.availIdx, pushed.slot, pushed.descAddr, pushed.descLen⟩

/-! ### The faults -/

/-- The faults of a command that comes to POLL_RX's walk of u's ring, by what the device sees in s. -/
theorem pollWalk_faults {u : State} {i : Instr} {c : Half} (view : sameRing .rx s u)
    (hw : ∀ {t}, WalkFault u .poll c t → exec i s = .next t) (hne : s.availIdxSeen .rx ≠ c) :
    (ringN < gap (s.availIdxSeen .rx) c →
      exec i s = .next (u.stopped (.desync .rx) (u32 ((s.availIdxSeen .rx).toNat * 65536 + c.toNat)))) ∧
    (gap (s.availIdxSeen .rx) c ≤ ringN → 8 ≤ (s.slotSeen .rx c).toNat →
      exec i s = .next (u.stopped (.badDescId .rx) (u32 (s.slotSeen .rx c).toNat))) ∧
    (∀ id, s.offers .rx c id → s.bufferOk .rx id = false →
      exec i s = .next (u.stopped (.bounds .rxBuf) (u32 (s.descAddrSeen .rx id).toNat))) := by
  rw [← view.availIdx, ← view.slot] at *
  refine ⟨fun hg => hw (.desync hne hg), fun hg hid => hw (.badDescId hne hg hid), fun id ho hb => ?_⟩
  rw [← view.offers] at ho
  rw [← view.bufferOk] at hb
  rw [← view.descAddr]
  exact hw (.bounds ho (.inl rfl) hb)

/-- A running command's block step, in any interleaving. -/
theorem block_of_goto {p : Pos} {o : Option Suspended} (hq : s.seq = .busy p o) (h : blockStep (s.goto p) = .next t) :
    performAct .block s = .next t := by
  rw [goto_of_busy hq] at h
  exact (blockTurn_of_busy (by rw [hq]; rfl)).trans h

/-- Settles O31: every walk of POLL_RX is one walk, and its view of the ring is the one before the command. -/
theorem pollFaults : Obligations.PollFaults := by
  unfold Obligations.PollFaults
  refine ⟨fun s hc ha hr hne => ?_, fun s k hc ha hk hne => ?_,
    fun s c o hc hf => ⟨fun hq ha hg => ?_, fun hq hid => ?_, fun id addr hq hb => ?_⟩⟩
  · intro begun
    have ⟨_, hf, _, _⟩ := ha
    have view : sameRing .rx s begun := sameRing_of_sameMemory .rx rfl ⟨rfl, rfl⟩
    have start : (startOf .pollRx s).leadsTo 0 (begun.goto (.peek .poll s.rxLast)) := by
      rw [startOf_pollRx hr]
      exact leadsTo_refl _
    exact pollWalk_faults view (fun h => exec_of_walkFault h ha start (by omega) hc hf) hne
  · have ⟨_, hf, _, _⟩ := ha
    have clauses := pollWalk_faults (sameRing_released s k)
      (fun h => exec_of_walkFault h ha (rxRelease_leadsTo hc hk) (by omega) hc hf) hne
    exact clauses
  · exact block_of_goto hq (peek_desync (w := .poll) hc hf ha hg)
  · exact block_of_goto hq (slot_badDescId (w := .poll) hc hf hid)
  · exact block_of_goto hq (descLen_bounds (w := .poll) hc hf hb)

end Sys2Proof.Machine
end

section
/-! SUPPORT. The frames of SHUTDOWN, QUERY, ACQUIRE_TX and PUBLISH_TX (40_transport_tx.md R163, R167; 43_channel_control.md R296,
R297): what each leaves as it is, whatever its outcome and wherever the windows lie. -/

namespace Sys2Proof.Machine

variable {s t u v : State} {i : Instr}

/-! ### A step of the block alone, by what it can change -/

theorem resume_eq_withStores (p : Pos) (n : Nat) (s : State) :
    p.resume n s = (p.resume n s).withStores s.shm s.pwDevice s.cmd :=
  resume_withStores s s.shm s.pwDevice s.cmd p n

/-- A step of the block alone changes the stores, and besides makes the register updates that follow one event, or none. -/
theorem soloStep_registers (h : soloStep u = .next v) :
    ∃ m ws, v = u.withStores m ws u.cmd ∨
      ∃ p o n, u.seq = .busy p o ∧ v = (p.resume n u).withStores m ws u.cmd := by
  obtain ⟨p, o, hq, -, hc⟩ | hb := soloStep_next h
  · obtain ⟨w, -, -, rfl⟩ := commit_some hc
    exact ⟨w.commitTo u.shm, u.pwDevice.eraseIdx 0, .inl rfl⟩
  · obtain ⟨-, rfl⟩ | ⟨p, o, hq, ⟨x, n, -, -, rfl⟩ | ⟨x, bs, -, -, rfl⟩ | ⟨-, -, rfl⟩ | ⟨-, -, rfl⟩⟩ := blockStep_next hb
    · exact ⟨v.shm, v.pwDevice, .inl rfl⟩
    · exact ⟨u.shm, u.pwDevice, .inr ⟨p, o, _, hq, resume_eq_withStores p _ u⟩⟩
    · refine ⟨u.shm, u.pwDevice ++ [⟨x, bs⟩], .inr ⟨p, o, 0, hq, ?_⟩⟩
      rw [← resume_withStores]
      rfl
    · exact ⟨u.shm, u.pwDevice, .inr ⟨p, o, _, hq, resume_eq_withStores p _ u⟩⟩
    · exact ⟨v.shm, v.pwDevice, .inl rfl⟩

/-- A step of the block alone stores nothing that the device sees but the bytes of its event. -/
theorem soloStep_byteSeen (h : soloStep u = .next v) {x : Nat}
    (hx : ∀ p o a bs, u.seq = .busy p o → p.event u.cfg = .write a bs → outside x a bs.length) :
    v.byteSeen .device x = u.byteSeen .device x := by
  obtain ⟨p, o, hq, -, hc⟩ | hb := soloStep_next h
  · obtain ⟨_, -, -, -, hv⟩ := commit_effect hc
    exact hv x
  · obtain ⟨-, rfl⟩ | ⟨p, o, hq, ⟨y, n, -, -, rfl⟩ | ⟨y, bs, he, -, rfl⟩ | ⟨-, -, rfl⟩ | ⟨-, -, rfl⟩⟩ := blockStep_next hb
    · rfl
    · exact byteSeen_of_sameMemory (resume_sameMemory u p _) x
    · rw [byteSeen_of_sameMemory (resume_sameMemory _ p 0), byteSeen_issueWrite, byteAt_eq_none_of_outside (hx p o y bs hq he)]
      rfl
    · exact byteSeen_of_sameMemory (resume_sameMemory u p _) x
    · rfl

/-- A step of a command that reads, if it does anything: the updates that follow the read. -/
theorem soloStep_of_reading (hr : ∀ p o, u.seq = .busy p o → ∃ a n, p.event u.cfg = .read a n) (h : soloStep u = .next v) :
    v = u ∨ ∃ p o n, u.seq = .busy p o ∧ v = p.resume n u := by
  obtain ⟨p, o, hq, he, -⟩ | hb := soloStep_next h
  · obtain ⟨a, n, hread⟩ := hr p o hq
    simp [hread] at he
  · obtain ⟨-, rfl⟩ | ⟨p, o, hq, ⟨y, n, -, -, rfl⟩ | ⟨y, bs, he, -, -⟩ | ⟨he, -, -⟩ | ⟨-, -, rfl⟩⟩ := blockStep_next hb
    · exact .inl rfl
    · exact .inr ⟨p, o, _, hq, rfl⟩
    · obtain ⟨a, n, hread⟩ := hr p o hq
      simp [hread] at he
    · obtain ⟨a, n, hread⟩ := hr p o hq
      simp [hread] at he
    · exact .inl rfl

/-! ### What exec can answer -/

theorem eq_of_runAlone (hu : u.seq.isBusy = false) (h : runAlone u = .next t) : t = u := by
  rw [runAlone, drive_of_not_busy _ hu, Host.Outcome.next.injEq] at h
  exact h.symm

/-- The command held, an end at acceptance (R371), or the end of its run. -/
theorem exec_cases (h : exec i s = .next t) :
    t = { s with cmd := some (encode i) } ∨ t = { s with status := .faulted } ∨ (∃ c w, t = s.raise c w) ∨
      runAlone (startOf i s) = .next t := by
  cases hb : s.seq.isBusy with
  | true =>
    rw [exec_eq, runCommand, if_pos hb, Host.Outcome.next.injEq] at h
    exact .inl h.symm
  | false =>
    rw [exec_of_not_busy i hb] at h
    obtain ⟨-, e⟩ | ⟨-, c, -, e⟩ | ⟨-, -, n, -, e⟩ | ⟨-, -, -, e⟩ := accept_cases i (startOf i) s <;> rw [e] at h
    · exact .inr (.inl (eq_of_runAlone hb h))
    · exact .inr (.inr (.inl ⟨_, _, eq_of_runAlone rfl h⟩))
    · exact .inr (.inr (.inl ⟨_, _, eq_of_runAlone rfl h⟩))
    · exact .inr (.inr (.inr h))

/-- The same for a command that ends without an event. -/
theorem exec_cases_of_ended (he : (startOf i s).seq.isBusy = false) (h : exec i s = .next t) :
    t = { s with cmd := some (encode i) } ∨ t = { s with status := .faulted } ∨ (∃ c w, t = s.raise c w) ∨
      t = startOf i s := by
  obtain h | h | h | h := exec_cases h
  · exact .inl h
  · exact .inr (.inl h)
  · exact .inr (.inr (.inl h))
  · exact .inr (.inr (.inr (eq_of_runAlone he h)))

/-! ### The positions of a command -/

/-- What runs at s, if anything, is at a position of this kind. -/
def State.runsAt (s : State) (good : Pos → Prop) : Prop := ∀ p o, s.seq = .busy p o → good p

theorem runsAt_goto {good : Pos → Prop} {p : Pos} (hp : good p) (s : State) : (s.goto p).runsAt good := by
  intro q o hq
  obtain ⟨rfl, -⟩ := Seq.busy.inj hq
  exact hp

theorem runsAt_of_not_busy (hb : s.seq.isBusy = false) (good : Pos → Prop) : s.runsAt good := fun p o hq =>
  absurd hq (seq_ne_busy hb p o)

/-! ### ACQUIRE_TX -/

/-- The positions of ACQUIRE_TX (R163). -/
inductive Pos.acquires : Pos → Prop where
  | peek (c : Half) : Pos.acquires (.peek .acquire c)
  | slot (c : Half) : Pos.acquires (.slot .acquire c)
  | descAddr (c : Half) (id : Fin 8) : Pos.acquires (.descAddr .acquire c id)
  | descLen (c : Half) (id : Fin 8) (addr : Dword) : Pos.acquires (.descLen .acquire c id addr)

theorem event_of_acquires {p : Pos} (hp : p.acquires) (c : Config) : ∃ a n, p.event c = .read a n := by
  cases hp <;> exact ⟨_, _, rfl⟩

/-- What ACQUIRE_TX has left as it was in s when it stands at t. -/
structure acquireKeeps (s t : State) : Prop where
  mem : sameMemory s t
  rx : sameRx s t
  dlv : sameDlv s t
  ch : t.ch = s.ch
  txUsed : t.txUsed = s.txUsed
  txLeaked : t.txLeaked = s.txLeaked
  res : t.res[3] = s.res[3]
  waitCnt : t.waitCnt = s.waitCnt
  initSeen : t.initSeen = s.initSeen
  runs : t.runsAt Pos.acquires

theorem acquireKeeps.trans (h : acquireKeeps s t) (h' : acquireKeeps t u) : acquireKeeps s u := by
  obtain ⟨mem, rx, dlv, ch, txUsed, txLeaked, res, waitCnt, initSeen, -⟩ := h
  obtain ⟨mem', rx', dlv', ch', txUsed', txLeaked', res', waitCnt', initSeen', runs⟩ := h'
  constructor <;> simp_all [sameMemory, sameRx, sameDlv]

theorem goto_acquireKeeps {p : Pos} (hp : p.acquires) (s : State) : acquireKeeps s (s.goto p) := by
  constructor <;> simp [sameMemory, sameRx, sameDlv, runsAt_goto hp]

theorem finish_acquireKeeps (st : Status) (s : State) : acquireKeeps s (s.finish st) := by
  constructor <;> simp [sameMemory, sameRx, sameDlv, runsAt_of_not_busy]

theorem raise_acquireKeeps (c : FaultCause) (w : Word) (s : State) : acquireKeeps s (s.raise c w) := by
  constructor
  case runs => exact runsAt_of_not_busy rfl _
  all_goals simp [sameMemory, sameRx, sameDlv]

/-- What follows each read of ACQUIRE_TX. -/
theorem acquire_resume {p : Pos} (hp : p.acquires) (n : Nat) (s : State) : acquireKeeps s (p.resume n s) := by
  cases hp with
  | peek c =>
    simp only [Pos.resume]
    obtain ⟨-, -, e⟩ | ⟨-, e⟩ := availPeek_cases Walk.acquire.ring c (u16 n)
      (fun s => if u16 n = c then ringEmpty .acquire s else s.goto (.slot .acquire c)) s <;> rw [e]
    · exact raise_acquireKeeps _ _ s
    · split
      · exact finish_acquireKeeps _ s
      · exact goto_acquireKeeps (.slot c) s
  | slot c =>
    simp only [Pos.resume]
    obtain ⟨-, e⟩ | ⟨id, -, ⟨-, -, e⟩ | ⟨-, e⟩⟩ := takeSlot_cases Walk.acquire.ring (u16 n)
      (fun id s => (advanceOnTake .acquire c s).goto (.descAddr .acquire c id)) s <;> rw [e]
    · exact raise_acquireKeeps _ _ s
    · exact raise_acquireKeeps _ _ s
    · constructor
      case runs => exact runsAt_goto (.descAddr c id) _
      all_goals simp [sameMemory, sameRx, sameDlv, advanceOnTake, Walk.ring]
  | descAddr c id => exact goto_acquireKeeps (.descLen c id _) s
  | descLen c id addr =>
    simp only [Pos.resume]
    obtain ⟨-, e⟩ | ⟨-, e⟩ := readDesc_cases Walk.acquire.ring addr (u32 n) (bufferTaken .acquire c id (u32 n)) s <;>
      rw [e]
    · exact raise_acquireKeeps _ _ s
    · constructor <;> simp [sameMemory, sameRx, sameDlv, bufferTaken, runsAt_of_not_busy]

theorem acquireKeeps_of_run (hs : acquireKeeps s u) (h : runAlone u = .next t) : acquireKeeps s t := by
  refine drive_induction (fun v v' hv hstep => ?_) hs h
  obtain rfl | ⟨p, o, n, hq, rfl⟩ := soloStep_of_reading (fun p o hq => event_of_acquires (hv.runs p o hq) _) hstep
  · exact hv
  · exact hv.trans (acquire_resume (hv.runs p o hq) n v)

theorem startOf_acquireTx_keeps (s : State) : acquireKeeps s (startOf .acquireTx s) := by
  simp only [startOf, startAcquireTx]
  split
  · exact goto_acquireKeeps (.peek _) s
  · exact finish_acquireKeeps _ s

/-- Settles O37: SHUTDOWN and QUERY have no event, and ACQUIRE_TX's are reads. -/
theorem controlAndAcquireFrames : Obligations.ControlAndAcquireFrames := by
  unfold Obligations.ControlAndAcquireFrames
  refine fun s t => ⟨fun h => ⟨exec_untouched h, ?_⟩, fun h => ⟨exec_untouched h, ?_⟩,
    fun h => ⟨exec_untouched h, ?_⟩⟩
  · have ends : (startOf .shutdown s).seq.isBusy = false := by
      simp only [startOf, startShutdown]
      split <;> simp
    obtain rfl | rfl | ⟨c, w, rfl⟩ | rfl := exec_cases_of_ended ends h
    · simp [sameMemory, sameTx, sameRx, sameDlv]
    · simp [sameMemory, sameTx, sameRx, sameDlv]
    · simp [sameMemory, sameTx, sameRx, sameDlv]
    · simp only [startOf, startShutdown]
      split <;> simp [sameMemory, sameTx, sameRx, sameDlv]
  · obtain rfl | rfl | ⟨c, w, rfl⟩ | rfl := exec_cases_of_ended (by simp [startOf, startQuery]) h
    · simp [sameMemory, sameTx, sameRx, sameDlv]
    · simp [sameMemory, sameTx, sameRx, sameDlv]
    · simp [sameMemory, sameTx, sameRx, sameDlv]
    · have others (n : Fin 4) (hn : n ≠ 0) : (startOf .query s).res[n] = s.res[n] :=
        Vector.getElem_set_ne (by decide) n.isLt fun e => hn (Fin.ext e.symm)
      exact ⟨⟨rfl, rfl⟩, ⟨rfl, rfl, rfl, rfl, rfl, rfl⟩, ⟨rfl, rfl, rfl, rfl, rfl, rfl, rfl⟩, ⟨rfl, rfl, rfl, rfl⟩, rfl, others,
        rfl, rfl⟩
  · obtain rfl | rfl | ⟨c, w, rfl⟩ | h := exec_cases h
    · simp [sameMemory, sameRx, sameDlv]
    · simp [sameMemory, sameRx, sameDlv]
    · simp [sameMemory, sameRx, sameDlv]
    · obtain ⟨mem, rx, dlv, ch, txUsed, txLeaked, res, waitCnt, initSeen, -⟩ :=
        acquireKeeps_of_run (startOf_acquireTx_keeps s) h
      exact ⟨mem, rx, dlv, ch, txUsed, txLeaked, res, waitCnt, initSeen⟩

/-! ### PUBLISH_TX -/

/-- The positions of a PUBLISH_TX that began at TX_USED = x (R166, R167). -/
inductive Pos.publishes (x : Half) : Pos → Prop where
  | push (ph : PushPhase) (id : Fin 8) (n : Word) : Pos.publishes x (.push ph ⟨.publish, id, n, x⟩)

/-- What PUBLISH_TX has left as it was in s when it stands at t, TX_USED having been x when it began. -/
structure publishKeeps (x : Half) (s t : State) : Prop where
  cfg : t.cfg = s.cfg
  rx : sameRx s t
  dlv : sameDlv s t
  ch : t.ch = s.ch
  txLast : t.txLast = s.txLast
  heldAddr : t.heldAddr = s.heldAddr
  heldCap : t.heldCap = s.heldCap
  txLeaked : t.txLeaked = s.txLeaked
  res : t.res = s.res
  waitCnt : t.waitCnt = s.waitCnt
  initSeen : t.initSeen = s.initSeen
  runs : t.runsAt (Pos.publishes x)

theorem publishKeeps.trans {x : Half} (h : publishKeeps x s t) (h' : publishKeeps x t u) : publishKeeps x s u := by
  obtain ⟨cfg, rx, dlv, ch, txLast, heldAddr, heldCap, txLeaked, res, waitCnt, initSeen, -⟩ := h
  obtain ⟨cfg', rx', dlv', ch', txLast', heldAddr', heldCap', txLeaked', res', waitCnt', initSeen', runs⟩ := h'
  constructor <;> simp_all [sameRx, sameDlv]

theorem goto_publishKeeps {x : Half} {p : Pos} (hp : p.publishes x) (s : State) : publishKeeps x s (s.goto p) := by
  constructor <;> simp [sameRx, sameDlv, runsAt_goto hp]

theorem finish_publishKeeps (x : Half) (st : Status) (s : State) : publishKeeps x s (s.finish st) := by
  constructor <;> simp [sameRx, sameDlv, runsAt_of_not_busy]

theorem raise_publishKeeps (x : Half) (c : FaultCause) (w : Word) (s : State) : publishKeeps x s (s.raise c w) := by
  constructor
  case runs => exact runsAt_of_not_busy rfl _
  all_goals simp [sameRx, sameDlv]

/-- What follows each event of PUBLISH_TX. -/
theorem publish_resume {x : Half} {p : Pos} (hp : p.publishes x) (n : Nat) (s : State) : publishKeeps x s (p.resume n s) := by
  obtain ⟨ph, id, len⟩ := hp
  cases ph with
  | id => exact goto_publishKeeps (.push .len id len) s
  | len => exact goto_publishKeeps (.push .barrier1 id len) s
  | barrier1 => exact goto_publishKeeps (.push .idx id len) s
  | idx =>
    constructor
    case runs => exact runsAt_goto (.push .barrier2 id len) _
    all_goals simp [sameRx, sameDlv, Pos.resume, pushAfter, PushKind.ring, State.setUsed]
  | barrier2 =>
    constructor
    case runs => exact runsAt_of_not_busy (by simp [Pos.resume, pushAfter, pushDone]) _
    all_goals simp [sameRx, sameDlv, Pos.resume, pushAfter, pushDone, notify]

/-- What PUBLISH_TX keeps in memory: every byte outside its used entry and used.idx. -/
def publishView (x : Half) (s t : State) : Prop :=
  ∀ a, outsideUsed s.cfg .tx x a → t.byteSeen .device a = s.byteSeen .device a

theorem publish_step {x : Half} (hu : u.runsAt (Pos.publishes x)) (h : soloStep u = .next v) :
    publishKeeps x u v ∧ publishView x u v := by
  constructor
  · obtain ⟨m, ws, rfl | ⟨p, o, n, hq, rfl⟩⟩ := soloStep_registers h
    · exact ⟨rfl, ⟨rfl, rfl, rfl, rfl, rfl, rfl, rfl⟩, ⟨rfl, rfl, rfl, rfl⟩, rfl, rfl, rfl, rfl, rfl, rfl, rfl, rfl, hu⟩
    · obtain ⟨cfg, rx, dlv, ch, txLast, heldAddr, heldCap, txLeaked, res, waitCnt, initSeen, runs⟩ :=
        publish_resume (hu p o hq) n u
      exact ⟨cfg, rx, dlv, ch, txLast, heldAddr, heldCap, txLeaked, res, waitCnt, initSeen, runs⟩
  · refine fun a ha => soloStep_byteSeen h fun p o b bs hq he => ?_
    obtain ⟨hid, hlen, hidx⟩ := ha
    obtain ⟨ph, id, len⟩ := hu p o hq
    cases ph with
    | id => cases he; rwa [bytesOf_length]
    | len => cases he; rwa [bytesOf_length]
    | barrier1 => cases he
    | idx => cases he; rwa [bytesOf_length]
    | barrier2 => cases he

theorem publish_of_run {x : Half} (hs : publishKeeps x s u ∧ publishView x s u) (h : runAlone u = .next t) :
    publishKeeps x s t ∧ publishView x s t := by
  refine drive_induction (P := fun v => publishKeeps x s v ∧ publishView x s v) (fun v v' hv hstep => ?_) hs h
  obtain ⟨keeps, view⟩ := hv
  obtain ⟨keeps', view'⟩ := publish_step keeps.runs hstep
  exact ⟨keeps.trans keeps', fun a ha => (view' a (by rwa [keeps.cfg])).trans (view a ha)⟩

theorem startOf_publishTx_keeps (s : State) :
    publishKeeps s.txUsed s (startOf .publishTx s) ∧ publishView s.txUsed s (startOf .publishTx s) := by
  refine ⟨?_, fun a _ => byteSeen_of_sameMemory (startOf_sameMemory .publishTx s) a⟩
  simp only [startOf, startPublishTx]
  repeat' split
  · exact raise_publishKeeps _ _ _ s
  · exact raise_publishKeeps _ _ _ s
  · exact goto_publishKeeps (.push .id _ _) s
  · exact raise_publishKeeps _ _ _ s
  · exact raise_publishKeeps _ _ _ s
  · exact finish_publishKeeps _ _ s

/-- Settles O38: PUBLISH_TX's events are those of its UsedPush. -/
theorem publishFrame : Obligations.PublishFrame := by
  unfold Obligations.PublishFrame
  refine fun s t h => ⟨exec_untouched h, ?_⟩
  obtain rfl | rfl | ⟨c, w, rfl⟩ | h := exec_cases h
  · simp [sameRx, sameDlv, State.byteSeen, State.pending]
  · simp [sameRx, sameDlv, State.byteSeen, State.pending]
  · simp [sameRx, sameDlv, State.byteSeen, State.pending]
  · obtain ⟨⟨-, rx, dlv, ch, txLast, heldAddr, heldCap, txLeaked, res, waitCnt, initSeen, -⟩, view⟩ :=
      publish_of_run (startOf_publishTx_keeps s) h
    exact ⟨rx, dlv, ch, txLast, heldAddr, heldCap, txLeaked, res, waitCnt, initSeen, view⟩

end Sys2Proof.Machine
end

section
/-! SUPPORT. The envelope (41_framing.md R200, R201), and FRAME_SEND to its end (R204, R205, R211): the frame is written byte by
byte and returned by a UsedPush, or it does not fit and its buffer is leaked; and what a frame sent leaves in shared memory
(R207). -/

namespace Sys2Proof.Machine

variable {s t : State} {id : Fin 8}

/-! ### The envelope -/

/-- Settles O23: each field is taken where it was put. -/
theorem envelopeRoundTrip : Obligations.EnvelopeRoundTrip := by
  unfold Obligations.EnvelopeRoundTrip
  refine fun src dst l hl => ⟨?_, envEncode_length src dst l⟩
  simp [envDecode, envEncode, List.drop_append, List.drop_of_length_le, List.take_of_length_le,
    Nat.mod_eq_of_lt src.isLt, Nat.mod_eq_of_lt dst.isLt, Nat.mod_eq_of_lt (show l < 65536 by omega)]

/-! ### The bytes of a frame -/

theorem byteWrites_length (a : Nat) (bs : List Byte) : (byteWrites a bs).length = bs.length := by
  induction bs generalizing a with
  | nil => rfl
  | cons b bs ih => rw [byteWrites, List.length_cons, ih, List.length_cons]

/-- The byte writes of a run of bytes, committed in order, are the run. -/
theorem commitAll_append_byteWrites (m : Memory) (ws : List PendingWrite) (a : Nat) (bs : List Byte) :
    commitAll m (ws ++ byteWrites a bs) = (commitAll m ws).writeBytes a bs := by
  rw [commitAll, List.foldl_append, ← commitAll, ← commitAll]
  generalize commitAll m ws = m'
  induction bs generalizing m' a with
  | nil => rfl
  | cons b bs ih => exact ih (a + 1) (m'.write a b)

/-- Alone, the bytes of a frame become pending one by one, and its UsedPush begins. -/
theorem sendBytes_leadsTo (f : Frame) (id : Fin 8) {a : Nat} {bs : List Byte} (hw : s.cfg.inWindow a bs.length = true) :
    (sendBytes f id a bs s).leadsTo bs.length
      (usedPush (.send f) id (u32 f.size) { s with pwDevice := s.pwDevice ++ byteWrites a bs }) := by
  induction bs generalizing s a with
  | nil =>
    rw [byteWrites, List.append_nil]
    exact leadsTo_refl _
  | cons b bs ih =>
    rw [List.length_cons] at hw ⊢
    have write := leadsTo_of_write (s := s) (p := .txByte f id a b bs) (x := a) (bs := [b]) rfl
      (inWindow_mono hw (by omega) (by rw [List.length_singleton]; omega))
    simp only [Pos.resume, sendBytes_goto] at write
    have rest := ih (s := s.issueWrite .device a [b]) (a := a + 1)
      (by rw [State.issueWrite_cfg]; exact inWindow_mono hw (by omega) (by omega))
    rw [Nat.add_comm, show sendBytes f id a (b :: bs) s = s.goto (.txByte f id a b bs) from rfl]
    simpa [State.issueWrite, State.setPending, State.pending, byteWrites] using write.trans rest

/-! ### FRAME_SEND with a buffer -/

theorem frameOfArgs_payload_length (s : State) : (frameOfArgs s).payload.length = (s.arg 3).toNat := by
  simp [frameOfArgs, State.privRead, Memory.readBytes]

theorem frameOfArgs_size (s : State) : (frameOfArgs s).size = 16 + (s.arg 3).toNat := by
  rw [Frame.size, frameOfArgs_payload_length]

theorem frameOfArgs_bytes (s : State) : (frameOfArgs s).bytes =
    envEncode (s.arg 0) (s.arg 1) (s.arg 3).toNat ++ s.priv.readBytes (s.arg 2).toNat (s.arg 3).toNat := by
  rw [Frame.bytes, frameOfArgs_payload_length]
  rfl

theorem sendEnd_frameOfArgs (s u : State) (st : Status) : sendEnd (frameOfArgs s) st u = u.finish st := rfl

theorem clearBit_setBit {b : BitVec 8} (h : b[id.val] = false) : clearBit (setBit b id) id = b := by
  ext i hi
  by_cases e : i = id.val
  · subst e
    simp [h]
  · simp [setBit, clearBit, e]

/-- An accepted FRAME_SEND comes to a buffer it can take, that of id (R204, R211). -/
structure State.sendsInto (s : State) (id : Fin 8) : Prop where
  ready : s.ch = .ready
  source : s.privOutside (s.arg 2) (s.arg 3).toNat = false
  offered : s.offers .tx s.txLast id
  free : s.isHeld id = false
  inside : s.bufferOk .tx id = true

/-- s with id's buffer held and FRAME_SEND's results set (R211). -/
def State.frameTaken (s : State) (id : Fin 8) : State :=
  (({ s with txLast := s.txLast + 1 }.hold id ((s.descAddrSeen .tx id).setWidth 32) (s.descLenSeen .tx id)).setRes 0
    (u32 id.val)).setRes 1 (u32 (16 + (s.arg 3).toNat))

/-- And with the frame's bytes pending behind what was. -/
def State.frameWritten (s : State) (id : Fin 8) : State :=
  { s.frameTaken id with
    pwDevice := s.pwDevice ++ byteWrites (s.descAddrSeen .tx id).toNat (frameOfArgs s).bytes }

/-- The frame does not fit the buffer, or its envelope cannot say its length (R205). -/
def State.oversize (s : State) (id : Fin 8) : Prop :=
  0xFFFF < (s.arg 3).toNat ∨ (s.descLenSeen .tx id).toNat < 16 + (s.arg 3).toNat

theorem frameSend_leadsTo_taken (hc : s.cfg.ok = true) (hs : s.sendsInto id) :
    (startOf .frameSend s).leadsTo 4 (bufferTaken (.send (frameOfArgs s)) s.txLast id (s.descLenSeen .tx id)
      ((s.descAddrSeen .tx id).setWidth 32) { s with txLast := s.txLast + 1 }) := by
  rw [startOf_frameSend hs.ready hs.source]
  exact walk_leadsTo_bufferTaken (w := .send (frameOfArgs s)) hc hs.offered (.inr hs.free) hs.inside

/-- A frame that does not fit is the end of FRAME_SEND: nothing has been stored. -/
theorem frameSend_leadsTo_leaked (hc : s.cfg.ok = true) (hs : s.sendsInto id) (ho : s.oversize id) :
    (startOf .frameSend s).leadsTo 4 (((s.frameTaken id).leak id).finish .payloadTooLarge) := by
  have taken := frameSend_leadsTo_taken hc hs
  rw [bufferTaken, frameOfArgs_size, frameOfArgs_payload_length, if_pos (by exact ho)] at taken
  exact taken

/-- A frame that fits is pending behind what was, and is then returned by a UsedPush. -/
theorem frameSend_leadsTo_sent (hc : s.cfg.ok = true) (hs : s.sendsInto id) (ho : ¬ s.oversize id) :
    (startOf .frameSend s).leadsTo (4 + (16 + (s.arg 3).toNat)) (usedPush (.send (frameOfArgs s)) id
      (u32 (16 + (s.arg 3).toNat)) (s.frameWritten id)) := by
  have taken := frameSend_leadsTo_taken hc hs
  obtain ⟨addr, window⟩ := bufferInWindow_spec hs.inside
  have fits : 16 + (s.arg 3).toNat ≤ (s.descLenSeen .tx id).toNat := Nat.le_of_not_lt fun h => ho (.inr h)
  rw [bufferTaken, frameOfArgs_size, frameOfArgs_payload_length, if_neg (by exact ho), addr] at taken
  have bytes := sendBytes_leadsTo (s := s.frameTaken id) (frameOfArgs s) id (a := (s.descAddrSeen .tx id).toNat)
    (bs := (frameOfArgs s).bytes) (inWindow_mono window (by omega) (by rw [Frame.bytes_length, frameOfArgs_size]; omega))
  rw [Frame.bytes_length, frameOfArgs_size] at bytes
  exact taken.trans bytes

/-- Settles O24: the course of a frame that fits, its UsedPush, and FRAME_SEND's end. -/
theorem frameSendPublishesTheFrame : Obligations.FrameSendPublishesTheFrame := by
  unfold Obligations.FrameSendPublishesTheFrame
  intro s id hc ha hr hp ho hh hb hl hn
  have ⟨idle, _, _, _⟩ := ha
  have sent := frameSend_leadsTo_sent hc ⟨hr, hp, ho, hh, hb⟩ (by rw [State.oversize]; omega)
  have push := usedPush_leadsTo (s := s.frameWritten id) hc (.send (frameOfArgs s)) id (u32 (16 + (s.arg 3).toNat))
  have held : clearBit (setBit s.txHeld id) id = s.txHeld := clearBit_setBit (by simpa [State.isHeld] using hh)
  have course := sent.trans push
  simp only [pushDone, sendEnd_frameOfArgs, State.finish, State.unhold, State.pushed, PushKind.ring, State.setUsed,
    State.used, State.frameWritten, State.frameTaken, State.hold, State.setRes, returned_of_not_busy idle, held] at course
  rw [← frameOfArgs_bytes]
  refine exec_of_leadsTo ha course ?_ idle
  rw [List.length_append, byteWrites_length, Frame.bytes_length, frameOfArgs_size]
  omega

/-- A frame that does not fit leaks its buffer: nothing is stored, and no used entry is published. -/
theorem oversizeFrame_leaks (hc : s.cfg.ok = true) (ha : s.accepts .frameSend) (hs : s.sendsInto id) (ho : s.oversize id) :
    exec .frameSend s = .next { s with
      txLast := s.txLast + 1
      txHeld := setBit s.txHeld id
      txLeaked := setBit s.txLeaked id
      heldAddr := s.heldAddr.set id.val ((s.descAddrSeen .tx id).setWidth 32)
      heldCap := s.heldCap.set id.val (s.descLenSeen .tx id)
      res := (s.res.set 0 (u32 id.val)).set 1 (u32 (16 + (s.arg 3).toNat))
      status := .payloadTooLarge } := by
  have ⟨idle, _, _, _⟩ := ha
  have leaked := frameSend_leadsTo_leaked hc hs ho
  simp only [State.frameTaken, State.hold, State.setRes, State.leak, State.finish, returned_of_not_busy idle] at leaked
  exact exec_of_leadsTo ha leaked (by omega) idle

/-! ### A frame sent -/

/-- A FRAME_SEND that ends OK came to a buffer that its frame fits. -/
theorem frameSend_ok (hc : s.cfg.ok = true) (ha : s.accepts .frameSend) (h : exec .frameSend s = .next t)
    (hok : t.status = .ok) : ∃ id, s.sendsInto id ∧ ¬ s.oversize id := by
  have ends {u : State} (hu : exec .frameSend s = .next u) : u.status = .ok := by
    rw [hu, Host.Outcome.next.injEq] at h
    rw [h, hok]
  have hr : s.ch = .ready := by
    by_contra hr
    have start : startOf .frameSend s = s.finish .notInitialized := by simp [startOf, startFrameSend, hr]
    have := ends (exec_of_ended ha (by simp [start]))
    simp [start] at this
  have hp : s.privOutside (s.arg 2) (s.arg 3).toNat = false := by
    refine Bool.of_not_eq_true fun hp => ?_
    have start : startOf .frameSend s = s.raise (.bounds .privSrc) (s.arg 2) := by
      simp [startOf, startFrameSend, hr, hp]
    cases ends (exec_of_raise ha start)
  have hne : s.availIdxSeen .tx ≠ s.txLast := fun he => by cases ends ((emptyRingsEndAtOnce s hc hr).2.1 he ha hp)
  obtain ⟨desync, badDescId, doubleGrant, bounds⟩ := acquireFaults.1 s .frameSend hc (.inr ⟨rfl, hp⟩) ha hr hne
  have hg : gap (s.availIdxSeen .tx) s.txLast ≤ ringN := Nat.le_of_not_lt fun hg => by cases ends (desync hg)
  have hid : (s.slotSeen .tx s.txLast).toNat < 8 := Nat.lt_of_not_le fun hid => by cases ends (badDescId hg hid)
  have ho : s.offers .tx s.txLast ⟨_, hid⟩ := ⟨hne, hg, rfl⟩
  have hh : s.isHeld ⟨_, hid⟩ = false := Bool.of_not_eq_true fun hh => by cases ends (doubleGrant _ ho hh)
  have hb : s.bufferOk .tx ⟨_, hid⟩ = true := Bool.of_not_eq_false fun hb => by cases ends (bounds _ ho hh hb)
  have hs : s.sendsInto ⟨_, hid⟩ := ⟨hr, hp, ho, hh, hb⟩
  exact ⟨_, hs, fun hov => by cases ends (oversizeFrame_leaks hc ha hs hov)⟩

/-- The writes of a UsedPush lie in their ring, so they leave the bytes of a buffer outside it. -/
theorem readBytes_usedWrites_of_disjoint (m : Memory) (ws : List PendingWrite) (c : Config) (r : Ring) (u : Half)
    (id : Fin 8) (n : Word) {a k : Nat} (h : a + k ≤ ringBase c r ∨ ringBase c r + ringBytes ≤ a) :
    (commitAll m (ws ++ usedWrites c r u id n)).readBytes a k = (commitAll m ws).readBytes a k := by
  have slot := slotOf_lt u
  rw [ringBytes] at h
  rw [commitAll_append_usedWrites,
    readBytes_writeBytes_of_disjoint _ (by simp only [bytesOf_length, usedIdxAt]; omega),
    readBytes_writeBytes_of_disjoint _ (by simp only [bytesOf_length, usedLenAt]; omega),
    readBytes_writeBytes_of_disjoint _ (by simp only [bytesOf_length, usedIdAt]; omega)]

/-- Settles O27: the frame's bytes are committed after everything pending, and the used entry, which is committed after them,
lies in the ring. -/
theorem sentFrameIsInTheBuffer : Obligations.SentFrameIsInTheBuffer := by
  unfold Obligations.SentFrameIsInTheBuffer
  intro s t hc ha h hok id hid hd
  obtain ⟨id', ⟨hr, hp, ho, hh, hb⟩, hov⟩ := frameSend_ok hc ha h hok
  obtain rfl : id = id' := Fin.ext (hid.trans ho.2.2)
  rw [State.oversize] at hov
  rw [frameSendPublishesTheFrame s id hc ha hr hp ho hh hb (by omega) (by omega), Host.Outcome.next.injEq] at h
  subst h
  have apart : (s.descAddrSeen .tx id).toNat + (16 + (s.arg 3).toNat) ≤ ringBase s.cfg .tx ∨
      ringBase s.cfg .tx + ringBytes ≤ (s.descAddrSeen .tx id).toNat := by
    simp only [disjointRanges, Bool.or_eq_true, beq_iff_eq, decide_eq_true_eq] at hd
    simp only [ringBase, ringBytes] at hd ⊢
    omega
  obtain ⟨idx, entryId, entryLen⟩ := usedEntry_in_memory s.shm (s.pwDevice ++ byteWrites (s.descAddrSeen .tx id).toNat
    (envEncode (s.arg 0) (s.arg 1) (s.arg 3).toNat ++ s.priv.readBytes (s.arg 2).toNat (s.arg 3).toNat))
    s.cfg .tx s.txUsed id (u32 (16 + (s.arg 3).toNat))
  have slot : s.txUsed + 1 - 1 = s.txUsed := add_sub_cancel_right _ _
  rw [slot]
  refine ⟨?_, entryId, ?_, idx, rfl, rfl, rfl, hh⟩
  · rw [readBytes_usedWrites_of_disjoint _ _ _ _ _ _ _ apart]
    have own := readBytes_writeBytes_same (commitAll s.shm s.pwDevice) (s.descAddrSeen .tx id).toNat (frameOfArgs s).bytes
    rwa [← commitAll_append_byteWrites, Frame.bytes_length, frameOfArgs_size, frameOfArgs_bytes] at own
  · rw [entryLen, BitVec.toNat_ofNat, Nat.mod_eq_of_lt (by omega)]

end Sys2Proof.Machine
end

section
/-! SUPPORT. Leaked ids along every step (41_framing.md R205; 10_state.md R40; 70_reset_and_hazards.md R419). Most of the block's
procedures neither take nor return a TX id (`sparesLeaked`); those that do take one that is not held or return one that is not
leaked. So a leaked id stays held and leaked until an INIT begins or the block is reset. -/

namespace Sys2Proof.Machine

variable {s t u : State} {id : Fin 8}

/-! ### Procedures that leave the leaked ids -/

/-- From s to t no TX id is taken, leaked or returned, and what runs in t works on no leaked id. -/
structure sparesLeaked (s t : State) : Prop where
  txHeld : t.txHeld = s.txHeld
  txLeaked : t.txLeaked = s.txLeaked
  running : ∀ p o, t.seq = .busy p o → ∀ id, p.txId = some id → s.isLeaked id = false

/-- Updates before it of other registers do not matter. -/
theorem sparesLeaked.after (h : sparesLeaked u t) (hh : u.txHeld = s.txHeld) (hl : u.txLeaked = s.txLeaked) :
    sparesLeaked s t where
  txHeld := h.txHeld.trans hh
  txLeaked := h.txLeaked.trans hl
  running p o hq i hi := by
    have := h.running p o hq i hi
    rwa [State.isLeaked, hl] at this

theorem sparesLeaked_of_not_busy (hb : t.seq.isBusy = false) (hh : t.txHeld = s.txHeld) (hl : t.txLeaked = s.txLeaked) :
    sparesLeaked s t :=
  ⟨hh, hl, fun p o hq => absurd hq (seq_ne_busy hb p o)⟩

theorem goto_sparesLeaked {p : Pos} (hh : u.txHeld = s.txHeld) (hl : u.txLeaked = s.txLeaked)
    (hp : ∀ id, p.txId = some id → s.isLeaked id = false) : sparesLeaked s (u.goto p) :=
  ⟨hh, hl, fun q o hq => by cases hq; exact hp⟩

/-- A position that works on no TX id. -/
theorem goto_sparesLeaked_of_none {p : Pos} (hh : u.txHeld = s.txHeld) (hl : u.txLeaked = s.txLeaked) (hp : p.txId = none) :
    sparesLeaked s (u.goto p) :=
  goto_sparesLeaked hh hl (by simp [hp])

theorem finish_sparesLeaked (st : Status) (s : State) : sparesLeaked s (s.finish st) :=
  sparesLeaked_of_not_busy (by simp) rfl rfl

theorem raise_sparesLeaked (c : FaultCause) (i : Word) (s : State) : sparesLeaked s (s.raise c i) :=
  sparesLeaked_of_not_busy rfl rfl rfl

theorem sendEnd_sparesLeaked (f : Frame) (st : Status) (s : State) : sparesLeaked s (sendEnd f st s) := by
  unfold sendEnd announceEnd
  repeat' split
  · exact finish_sparesLeaked st s
  · exact (finish_sparesLeaked _ _).after rfl rfl
  · exact (finish_sparesLeaked _ _).after rfl rfl

theorem ringEmpty_sparesLeaked (w : Walk) (s : State) : sparesLeaked s (ringEmpty w s) := by
  cases w with
  | acquire => exact finish_sparesLeaked _ s
  | send f => exact sendEnd_sparesLeaked f _ s
  | poll => exact (finish_sparesLeaked _ _).after rfl rfl

theorem dropFrame_sparesLeaked (c : Half) (id : Fin 8) (s : State) : sparesLeaked s (dropFrame c id s) :=
  goto_sparesLeaked_of_none rfl rfl rfl

theorem envelopeRead_sparesLeaked (c : Half) (id : Fin 8) (addr dlen : Word) (b : List Byte) (s : State) :
    sparesLeaked s (envelopeRead c id addr dlen b s) := by
  unfold envelopeRead
  split
  · exact sparesLeaked_of_not_busy rfl rfl rfl
  · exact dropFrame_sparesLeaked c id s

theorem sendBytes_sparesLeaked (hl : s.isLeaked id = false) (f : Frame) (addr : Nat) (bs : List Byte) :
    sparesLeaked s (sendBytes f id addr bs s) := by
  have own : ∀ i, some id = some i → s.isLeaked i = false := fun i hi => by rwa [← Option.some.inj hi]
  cases bs <;> exact goto_sparesLeaked rfl rfl own

theorem availPeek_sparesLeaked (r : Ring) (c a : Half) {k : State → State} (hk : sparesLeaked s (k s)) :
    sparesLeaked s (availPeek r c a k s) := by
  obtain ⟨-, -, e⟩ | ⟨-, e⟩ := availPeek_cases r c a k s <;> rw [e]
  · exact raise_sparesLeaked _ _ s
  · exact hk

theorem waitLoop_sparesLeaked (s : State) : sparesLeaked s (waitLoop s) := by
  unfold waitLoop
  split
  · exact goto_sparesLeaked_of_none rfl rfl rfl
  · exact (finish_sparesLeaked _ _).after rfl rfl

theorem initPeeked_sparesLeaked (a : Half) (s : State) : sparesLeaked s (initPeeked a s) := by
  refine availPeek_sparesLeaked _ _ _ ?_
  simp only
  split
  · exact goto_sparesLeaked_of_none rfl rfl rfl
  · exact (waitLoop_sparesLeaked _).after rfl rfl

/-! ### Taking, leaking and returning an id -/

/-- Every leaked id is held. -/
def State.leaksHeld (s : State) : Prop := ∀ id, s.isLeaked id = true → s.isHeld id = true

/-- t's leaked ids fit, and s's are among them. -/
structure leaksStay (s t : State) : Prop where
  fits : t.leaksFit
  stay : ∀ id, s.isLeaked id = true → t.isLeaked id = true

/-- A procedure that spares the leaked ids of u, where u has leaked what s has. -/
theorem sparesLeaked.leaksStay (h : sparesLeaked u t) (hu : u.leaksHeld)
    (hs : ∀ id, s.isLeaked id = true → u.isLeaked id = true) : leaksStay s t := by
  have leaked (i : Fin 8) : t.isLeaked i = u.isLeaked i := by rw [State.isLeaked, State.isLeaked, h.txLeaked]
  have held (i : Fin 8) : t.isHeld i = u.isHeld i := by rw [State.isHeld, State.isHeld, h.txHeld]
  refine ⟨⟨fun i hi => ?_, fun p o hq i hi => ?_⟩, fun i hi => ?_⟩
  · rw [held]
    exact hu i (by rwa [← leaked])
  · rw [leaked]
    exact h.running p o hq i hi
  · rw [leaked]
    exact hs i hi

/-- A procedure that spares the leaked ids keeps them. -/
theorem leaksStay_of_spares (h : sparesLeaked s t) (hs : s.leaksHeld) : leaksStay s t := h.leaksStay hs fun _ hi => hi

theorem hold_leaksHeld (h : s.leaksHeld) (id : Fin 8) (addr cap : Word) : (s.hold id addr cap).leaksHeld := by
  intro i hi
  rw [isHeld_hold, h i hi, Bool.true_or]

theorem isLeaked_leak (id i : Fin 8) (s : State) : (s.leak id).isLeaked i = (s.isLeaked i || decide (i = id)) := by
  simp [State.isLeaked, State.leak]

theorem leak_leaksHeld (h : s.leaksHeld) (hh : s.isHeld id = true) : (s.leak id).leaksHeld := by
  intro i hi
  rw [isLeaked_leak, Bool.or_eq_true, decide_eq_true_eq] at hi
  obtain hi | rfl := hi
  · exact h i hi
  · exact hh

theorem unhold_leaksHeld (h : s.leaksHeld) (hl : s.isLeaked id = false) : (s.unhold id).leaksHeld := by
  intro i hi
  have ne : i ≠ id := fun e => by simp [← e, show s.isLeaked i = true from hi] at hl
  simpa [State.isHeld, ne] using h i hi

theorem bufferTaken_leaksStay (w : Walk) (c : Half) (cap addr : Word) (h : s.leaksHeld)
    (hl : w.ring = .tx → s.isLeaked id = false) : leaksStay s (bufferTaken w c id cap addr s) := by
  cases w with
  | acquire => exact ((finish_sparesLeaked _ _).after rfl rfl).leaksStay (hold_leaksHeld h id addr cap) fun _ hi => hi
  | send f =>
    have latched : (((s.hold id addr cap).setRes 0 (u32 id.val)).setRes 1 (u32 f.size)).leaksHeld :=
      hold_leaksHeld h id addr cap
    simp only [bufferTaken]
    split
    · refine (sendEnd_sparesLeaked f _ _).leaksStay (leak_leaksHeld latched (by simp [State.isHeld])) fun i hi => ?_
      rw [isLeaked_leak, Bool.or_eq_true]
      exact .inl hi
    · exact (sendBytes_sparesLeaked (by exact hl rfl) f _ _).leaksStay latched fun _ hi => hi
  | poll =>
    simp only [bufferTaken]
    split
    · exact leaksStay_of_spares (goto_sparesLeaked_of_none rfl rfl rfl) h
    · exact leaksStay_of_spares ((dropFrame_sparesLeaked c id _).after rfl rfl) h

theorem pushDone_leaksStay (j : PushJob) (h : s.leaksHeld) (hl : j.kind.ring = .tx → s.isLeaked j.id = false) :
    leaksStay s (pushDone j s) := by
  obtain ⟨k, id, n, u⟩ := j
  cases k with
  | publish => exact (finish_sparesLeaked _ _).leaksStay (unhold_leaksHeld h (hl rfl)) fun _ hi => hi
  | send f => exact (sendEnd_sparesLeaked f _ _).leaksStay (unhold_leaksHeld h (hl rfl)) fun _ hi => hi
  | poll c =>
    exact leaksStay_of_spares (goto_sparesLeaked_of_none rfl rfl rfl) h

/-! ### The block's events -/

theorem resume_leaksStay {p : Pos} {o : Option Suspended} (hq : s.seq = .busy p o) (h : s.leaksFit) (v : Nat) :
    leaksStay s (p.resume v s) := by
  have own : ∀ id, p.txId = some id → s.isLeaked id = false := h.running p o hq
  have spares {t : State} (ht : sparesLeaked s t) : leaksStay s t := leaksStay_of_spares ht h.held
  cases p with
  | initPeek => exact spares (initPeeked_sparesLeaked _ s)
  | peek w c =>
    simp only [Pos.resume]
    refine spares (availPeek_sparesLeaked _ _ _ ?_)
    split
    · exact ringEmpty_sparesLeaked w s
    · exact goto_sparesLeaked_of_none rfl rfl rfl
  | slot w c =>
    simp only [Pos.resume]
    obtain ⟨-, e⟩ | ⟨id, -, ⟨-, -, e⟩ | ⟨hh, e⟩⟩ :=
      takeSlot_cases w.ring (u16 v) (fun id s => (advanceOnTake w c s).goto (.descAddr w c id)) s <;> rw [e]
    · exact spares (raise_sparesLeaked _ _ s)
    · exact spares (raise_sparesLeaked _ _ s)
    · refine spares (goto_sparesLeaked (by cases w <;> rfl) (by cases w <;> rfl) fun i hi => ?_)
      obtain ⟨hr, rfl⟩ : w.ring = .tx ∧ id = i := by simpa [Pos.txId] using hi
      exact Bool.of_not_eq_true fun hl => by simp [hr, h.held id hl] at hh
  | descAddr w c id => exact spares (goto_sparesLeaked rfl rfl own)
  | descLen w c id addr =>
    simp only [Pos.resume]
    obtain ⟨-, e⟩ | ⟨-, e⟩ := readDesc_cases w.ring addr (u32 v) (bufferTaken w c id (u32 v)) s <;> rw [e]
    · exact spares (raise_sparesLeaked _ _ s)
    · exact bufferTaken_leaksStay w c _ _ h.held fun hr => own id (if_pos hr)
  | txByte f id addr b rest => exact spares (sendBytes_sparesLeaked (own id rfl) f _ rest)
  | rxEnv c id addr dlen got =>
    simp only [Pos.resume]
    split
    · exact spares (goto_sparesLeaked_of_none rfl rfl rfl)
    · exact spares (envelopeRead_sparesLeaked c id addr dlen _ s)
  | push ph j =>
    cases ph with
    | id => exact spares (goto_sparesLeaked rfl rfl own)
    | len => exact spares (goto_sparesLeaked rfl rfl own)
    | barrier1 => exact spares (goto_sparesLeaked rfl rfl own)
    | idx => exact spares (goto_sparesLeaked (by simp) (by simp) own)
    | barrier2 => exact pushDone_leaksStay j h.held fun hr => own j.id (if_pos hr)

/-! ### Acceptance -/

theorem startInit_leaks (s : State) :
    sparesLeaked s (startInit s) ∨ s.ch = .uninitialized ∧ (startInit s).leaksFit := by
  unfold startInit
  split
  · next hu =>
    refine .inr ⟨hu, (leaksStay_of_spares (waitLoop_sparesLeaked _) fun i hi => ?_).fits⟩
    simp [State.isLeaked] at hi
  · exact .inl (finish_sparesLeaked _ s)

/-- A command accepted keeps the leaked ids, but for an INIT that begins (R291). -/
theorem startOf_leaks (i : Instr) (hb : s.seq.isBusy = false) :
    sparesLeaked s (startOf i s) ∨ i = .init ∧ s.ch = .uninitialized ∧ (startOf i s).leaksFit := by
  cases i with
  | init => exact (startInit_leaks s).imp_right fun h => ⟨rfl, h⟩
  | shutdown =>
    simp only [startOf, startShutdown]
    split <;> exact .inl ((finish_sparesLeaked _ _).after rfl rfl)
  | acquireTx =>
    simp only [startOf, startAcquireTx]
    split
    · exact .inl (goto_sparesLeaked_of_none rfl rfl rfl)
    · exact .inl (finish_sparesLeaked _ s)
  | publishTx =>
    simp only [startOf, startPublishTx]
    repeat' split
    · exact .inl (raise_sparesLeaked _ _ s)
    · exact .inl (raise_sparesLeaked _ _ s)
    · next hl =>
      refine .inl (goto_sparesLeaked rfl rfl fun i hi => ?_)
      cases hi
      simpa using hl
    · exact .inl (raise_sparesLeaked _ _ s)
    · exact .inl (raise_sparesLeaked _ _ s)
    · exact .inl (finish_sparesLeaked _ s)
  | frameSend =>
    simp only [startOf, startFrameSend]
    repeat' split
    · exact .inl (raise_sparesLeaked _ _ s)
    · exact .inl (goto_sparesLeaked_of_none rfl rfl rfl)
    · exact .inl (finish_sparesLeaked _ s)
  | pollRx =>
    simp only [startOf, startPollRx]
    split
    · exact .inl (goto_sparesLeaked_of_none rfl rfl rfl)
    · exact .inl (finish_sparesLeaked _ s)
  | rxRelease =>
    simp only [startOf, startRxRelease]
    split
    · exact .inl (goto_sparesLeaked_of_none rfl rfl rfl)
    · exact .inl (sparesLeaked_of_not_busy hb rfl rfl)
  | query => exact .inl ((finish_sparesLeaked _ _).after rfl rfl)

theorem accept_leaks (i : Instr) (hb : s.seq.isBusy = false) (h : s.leaksFit) :
    leaksStay s (accept i (startOf i) s) ∨
      i = .init ∧ s.ch = .uninitialized ∧ (accept i (startOf i) s).leaksFit := by
  have spares {t : State} (ht : sparesLeaked s t) : leaksStay s t := leaksStay_of_spares ht h.held
  obtain ⟨-, e⟩ | ⟨-, c, -, e⟩ | ⟨-, -, n, -, e⟩ | ⟨-, -, -, e⟩ := accept_cases i (startOf i) s <;> rw [e]
  · exact .inl (spares (sparesLeaked_of_not_busy hb rfl rfl))
  · exact .inl (spares (raise_sparesLeaked _ _ s))
  · exact .inl (spares (raise_sparesLeaked _ _ s))
  · exact (startOf_leaks i hb).imp_left spares

/-! ### Every step -/

theorem leaksFit_of_sameControl (hc : sameControl s t) (h : s.leaksFit) : t.leaksFit := by
  refine ⟨?_, ?_⟩
  · simpa only [State.isLeaked, State.isHeld, hc.txLeaked, hc.txHeld] using h.held
  · simpa only [State.isLeaked, hc.txLeaked, hc.seq] using h.running

theorem leaksFit_blockInvariant : BlockInvariant State.leaksFit where
  same := leaksFit_of_sameControl
  event v hq h := (resume_leaksStay hq h v).fits
  accepted i hb h := (accept_leaks i hb h).elim (·.fits) fun ⟨_, _, fits⟩ => fits

theorem hardwareReset_leaksFit (s : State) : (hardwareReset s).leaksFit :=
  ⟨fun i hi => by simp [State.isLeaked, hardwareReset] at hi, fun p o hq => by cases hq⟩

theorem leaksStay.trans (h : leaksStay s t) (h' : leaksStay t u) : leaksStay s u :=
  ⟨h'.fits, fun id hi => h'.stay id (h.stay id hi)⟩

theorem leaksStay_of_sameControl (hc : sameControl s t) (h : s.leaksFit) : leaksStay s t :=
  ⟨leaksFit_of_sameControl hc h, fun id hi => by rwa [State.isLeaked, hc.txLeaked]⟩

theorem blockStep_leaksStay (hs : s.leaksFit) (h : blockStep s = .next t) : leaksStay s t := by
  obtain ⟨-, rfl⟩ | ⟨p, o, hq, ⟨x, n, -, -, rfl⟩ | ⟨x, bs, -, -, rfl⟩ | ⟨-, -, rfl⟩ | ⟨-, -, rfl⟩⟩ := blockStep_next h
  · exact ⟨hs, fun _ hi => hi⟩
  · exact resume_leaksStay hq hs _
  · have issued := leaksStay_of_sameControl (issueWrite_sameControl .device x bs s) hs
    exact issued.trans (resume_leaksStay (by simpa using hq) issued.fits 0)
  · exact resume_leaksStay hq hs 0
  · exact ⟨hs, fun _ hi => hi⟩

theorem runAlone_leaksStay (hs : s.leaksFit) (h : runAlone s = .next t) : leaksStay s t := by
  refine drive_induction (P := leaksStay s) (fun u v hu hv => ?_) ⟨hs, fun _ hi => hi⟩ h
  obtain ⟨_, _, -, -, hc⟩ | hb := soloStep_next hv
  · exact hu.trans (leaksStay_of_sameControl (commit_sameControl hc) hu.fits)
  · exact hu.trans (blockStep_leaksStay hu.fits hb)

/-- A word accepted keeps the leaked ids, but for an INIT's in an Uninitialized channel. -/
theorem acceptWord_leaksStay {w : Word} (hb : s.seq.isBusy = false) (hs : s.leaksFit)
    (hw : w = encode .init → s.ch ≠ .uninitialized) : leaksStay s (acceptWord w s) := by
  unfold acceptWord
  split
  · next i hi =>
    refine (accept_leaks i hb hs).resolve_right fun ⟨he, hu, _⟩ => hw ?_ hu
    rw [eq_encode_of_decodeWord hi, he]
  · exact leaksStay_of_sameControl (by constructor <;> rfl) hs

/-- A word run alone is accepted, and what runs then runs alone. -/
theorem runWord_eq_runAlone (w : Word) (hb : s.seq.isBusy = false) : runWord w s = runAlone (acceptWord w s) := by
  unfold runWord acceptWord
  cases decodeWord w with
  | ok i => exact exec_of_not_busy i hb
  | error e => exact (drive_of_not_busy (s := illegalWord s) _ hb).symm

/-- What a step does to the control state: a reset, nothing, the running command's events, or the acceptance of the word in
CMD, with or without the command's events. -/
theorem step_control (h : step s = .next t) :
    (∃ rest, s.acts = .reset :: rest) ∨ sameControl s t ∨
    ∃ u, sameControl s u ∧ (blockStep u = .next t ∨ runAlone u = .next t ∨
      u.seq.isBusy = false ∧ ∃ w, s.cmd = some w ∧ (t = acceptWord w u ∨ runAlone (acceptWord w u) = .next t)) := by
  obtain ⟨-, ⟨m, rest, hm, ha⟩ | ⟨-, -, hq⟩⟩ := step_next h
  · obtain ⟨-, hturn⟩ | ⟨rfl, -⟩ | hc := performAct_control ha
    · obtain ⟨-, hb⟩ | ⟨idle, w, hw, rfl⟩ | ⟨-, -, rfl⟩ := blockTurn_next hturn
      · exact .inr (.inr ⟨_, by constructor <;> rfl, .inl hb⟩)
      · exact .inr (.inr ⟨{ s with acts := rest, cmd := none }, by constructor <;> rfl,
          .inr (.inr ⟨idle, w, hw, .inl rfl⟩)⟩)
      · exact .inr (.inl (by constructor <;> rfl))
    · obtain ⟨_, _, ha, hsch⟩ | ⟨-, -, hsch⟩ | ⟨-, -, hsch⟩ := schedule_cases s <;> simp_all
    · exact .inr (.inl (.trans (by constructor <;> rfl) hc))
  · obtain ⟨-, hr⟩ | ⟨idle, w, hw, hr⟩ | ⟨-, -, a, hd⟩ := quietStep_next hq
    · exact .inr (.inr ⟨s, .refl s, .inr (.inl hr)⟩)
    · rw [runWord_eq_runAlone w (by exact idle)] at hr
      exact .inr (.inr ⟨{ s with cmd := none }, by constructor <;> rfl, .inr (.inr ⟨idle, w, hw, .inr hr⟩)⟩)
    · exact .inr (.inl (drain_sameControl hd))

/-- Every step but a reset and the beginning of an INIT keeps the leaked ids. -/
theorem step_leaksStay (hs : s.leaksFit) (hreset : ∀ rest, s.acts ≠ .reset :: rest)
    (hinit : s.cmd = some (encode .init) → s.ch ≠ .uninitialized) (h : step s = .next t) : leaksStay s t := by
  obtain ⟨rest, hr⟩ | hc | ⟨u, hc, hu⟩ := step_control h
  · exact absurd hr (hreset rest)
  · exact leaksStay_of_sameControl hc hs
  · have before := leaksStay_of_sameControl hc hs
    refine before.trans ?_
    obtain hb | hr | ⟨idle, w, hw, hu⟩ := hu
    · exact blockStep_leaksStay before.fits hb
    · exact runAlone_leaksStay before.fits hr
    · have accepted : leaksStay u (acceptWord w u) := acceptWord_leaksStay idle before.fits fun he => by
        rw [hc.ch]
        exact hinit (by rw [hw, he])
      obtain rfl | hr := hu
      · exact accepted
      · exact accepted.trans (runAlone_leaksStay accepted.fits hr)

/-- Settles O25: a frame that does not fit ends FRAME_SEND with its buffer leaked; and of what a step can do, only the
beginning of an INIT and a reset clear the leaked ids. -/
theorem oversizeFrameLeaksTheBuffer : Obligations.OversizeFrameLeaksTheBuffer := by
  unfold Obligations.OversizeFrameLeaksTheBuffer
  refine ⟨fun s id hc ha hr hp ho hh hb hov => oversizeFrame_leaks hc ha ⟨hr, hp, ho, hh, hb⟩ hov, fun s t hs h => ?_⟩
  have fits : t.leaksFit := leaksFit_blockInvariant.keeps_step (fun _ _ => hardwareReset_leaksFit _) hs h
  refine ⟨fits, fun hreset hinit id hi => ?_⟩
  have leaked : t.isLeaked id = true := (step_leaksStay hs hreset hinit h).stay id hi
  exact ⟨leaked, fits.held id leaked⟩

end Sys2Proof.Machine
end

section
/-! SUPPORT. The frame of FRAME_SEND (41_framing.md R204, R211): what a FrameSendCore leaves as it is, whatever its outcome and
wherever the windows lie. Up to its first write it sees the ring as it was when it began, so the bytes it writes are those at the
offered descriptor's address. -/

namespace Sys2Proof.Machine

variable {s t u v : State} {f : Frame} {p : Pos}

/-! ### The positions of a FrameSendCore -/

/-- The positions of the FrameSendCore of f that began at s, where the block stands at t. -/
inductive Pos.sends (f : Frame) (s t : State) : Pos → Prop where
  | peek (hm : sameMemory s t) (hu : t.txUsed = s.txUsed) : Pos.sends f s t (.peek (.send f) s.txLast)
  | slot (hm : sameMemory s t) (hu : t.txUsed = s.txUsed) : Pos.sends f s t (.slot (.send f) s.txLast)
  | descAddr (hm : sameMemory s t) (hu : t.txUsed = s.txUsed) {id : Fin 8}
      (hid : id.val = (s.slotSeen .tx s.txLast).toNat) : Pos.sends f s t (.descAddr (.send f) s.txLast id)
  | descLen (hm : sameMemory s t) (hu : t.txUsed = s.txUsed) {id : Fin 8}
      (hid : id.val = (s.slotSeen .tx s.txLast).toNat) :
      Pos.sends f s t (.descLen (.send f) s.txLast id (s.descAddrSeen .tx id))
  | txByte (hu : t.txUsed = s.txUsed) {id : Fin 8} (hid : id.val = (s.slotSeen .tx s.txLast).toNat) {a : Nat}
      {b : Byte} {rest : List Byte} (hlo : (s.descAddrSeen .tx id).toNat ≤ a)
      (hhi : a + (rest.length + 1) ≤ (s.descAddrSeen .tx id).toNat + f.size) : Pos.sends f s t (.txByte f id a b rest)
  | push (ph : PushPhase) (id : Fin 8) (n : Word) : Pos.sends f s t (.push ph ⟨.send f, id, n, s.txUsed⟩)

/-- At a position that writes, or at a barrier, memory plays no part. -/
theorem Pos.sends.move (hp : p.sends f s u) (hr : ∀ a n, p.event u.cfg ≠ .read a n) (hu : v.txUsed = u.txUsed) :
    p.sends f s v := by
  cases hp with
  | peek => exact absurd rfl (hr _ _)
  | slot => exact absurd rfl (hr _ _)
  | descAddr => exact absurd rfl (hr _ _)
  | descLen => exact absurd rfl (hr _ _)
  | txByte hu' hid hlo hhi => exact .txByte (hu.trans hu') hid hlo hhi
  | push ph id n => exact .push ph id n

/-! ### The registers -/

/-- The registers that a FRAME_SEND leaves as they are. -/
def sendRegs (s t : State) : Prop :=
  t.cfg = s.cfg ∧ sameRx s t ∧ sameDlv s t ∧ t.ch = s.ch ∧ t.res[2] = s.res[2] ∧ t.res[3] = s.res[3] ∧
  t.waitCnt = s.waitCnt ∧ t.initSeen = s.initSeen

theorem sendRegs.refl (s : State) : sendRegs s s := by simp [sendRegs, sameRx, sameDlv]

/-- The block stands at t in the FrameSendCore of f that began at s, or after it. -/
structure sendKeeps (f : Frame) (s t : State) : Prop where
  regs : sendRegs s t
  runs : t.runsAt (Pos.sends f s t)

theorem goto_sendKeeps (h : sendRegs s u) (hp : p.sends f s (u.goto p)) : sendKeeps f s (u.goto p) :=
  ⟨h, runsAt_goto hp u⟩

theorem finish_sendKeeps (h : sendRegs s u) (st : Status) : sendKeeps f s (u.finish st) :=
  ⟨h, runsAt_of_not_busy (by simp) _⟩

theorem raise_sendKeeps (h : sendRegs s u) (c : FaultCause) (w : Word) : sendKeeps f s (u.raise c w) :=
  ⟨h, runsAt_of_not_busy rfl _⟩

theorem setRes_sendRegs (h : sendRegs s u) (x y : Word) : sendRegs s ((u.setRes 0 x).setRes 1 y) := by
  obtain ⟨cfg, rx, dlv, ch, res2, res3, waitCnt, initSeen⟩ := h
  exact ⟨cfg, rx, dlv, ch, by simpa using res2, by simpa using res3, waitCnt, initSeen⟩

theorem sendBytes_sendKeeps {id : Fin 8} {a : Nat} {bs : List Byte} (h : sendRegs s u) (hu : u.txUsed = s.txUsed)
    (hid : id.val = (s.slotSeen .tx s.txLast).toNat) (hlo : (s.descAddrSeen .tx id).toNat ≤ a)
    (hhi : a + bs.length ≤ (s.descAddrSeen .tx id).toNat + f.size) : sendKeeps f s (sendBytes f id a bs u) := by
  cases bs with
  | nil =>
    have push : sendBytes f id a [] u = u.goto (.push .id ⟨.send f, id, u32 f.size, s.txUsed⟩) := by rw [← hu]; rfl
    rw [push]
    exact goto_sendKeeps h (.push _ _ _)
  | cons b rest => exact goto_sendKeeps h (.txByte (by exact hu) hid hlo hhi)

section
variable (hf : f.origin = .frameSend)
include hf

theorem sendEnd_sendKeeps (h : sendRegs s u) (st : Status) : sendKeeps f s (sendEnd f st u) := by
  rw [sendEnd, hf]
  exact finish_sendKeeps h st

theorem bufferTaken_sendKeeps {id : Fin 8} {addr cap : Word} (c : Half) (h : sendRegs s u) (hu : u.txUsed = s.txUsed)
    (hid : id.val = (s.slotSeen .tx s.txLast).toNat) (ha : addr.toNat = (s.descAddrSeen .tx id).toNat) :
    sendKeeps f s (bufferTaken (.send f) c id cap addr u) := by
  have latched := setRes_sendRegs (u := u.hold id addr cap) h (u32 id.val) (u32 f.size)
  simp only [bufferTaken]
  split
  · exact sendEnd_sendKeeps hf (by exact latched) _
  · exact sendBytes_sendKeeps latched hu hid ha.ge (by rw [ha, Frame.bytes_length])

/-- What follows each event of a FrameSendCore, given the value that the device sees where it reads. -/
theorem resume_sendKeeps {n : Nat} (h : sendRegs s u) (hp : p.sends f s u)
    (hn : ∀ a k, p.event u.cfg = .read a k → n = u.valueSeen .device a k) : sendKeeps f s (p.resume n u) := by
  have hc : u.cfg = s.cfg := h.1
  cases hp with
  | peek hm hu =>
    simp only [Pos.resume]
    obtain ⟨-, -, e⟩ | ⟨-, e⟩ := availPeek_cases (Walk.send f).ring s.txLast (u16 n)
      (fun s' => if u16 n = s.txLast then ringEmpty (.send f) s' else s'.goto (.slot (.send f) s.txLast)) u <;> rw [e]
    · exact raise_sendKeeps h _ _
    · split
      · exact sendEnd_sendKeeps hf h _
      · exact goto_sendKeeps h (.slot hm hu)
  | slot hm hu =>
    have seen : u16 n = s.slotSeen .tx s.txLast := by
      rw [← (sameRing_of_sameMemory .tx hc hm).slot, hn _ _ rfl]
      rfl
    simp only [Pos.resume, seen]
    obtain ⟨-, e⟩ | ⟨id, hid, ⟨-, -, e⟩ | ⟨-, e⟩⟩ := takeSlot_cases (Walk.send f).ring (s.slotSeen .tx s.txLast)
      (fun id s' => (advanceOnTake (.send f) s.txLast s').goto (.descAddr (.send f) s.txLast id)) u <;> rw [e]
    · exact raise_sendKeeps h _ _
    · exact raise_sendKeeps h _ _
    · exact goto_sendKeeps (by exact h) (.descAddr (by exact hm) (by exact hu) hid.symm)
  | @descAddr hm hu id hid =>
    have seen : BitVec.ofNat 64 n = s.descAddrSeen .tx id := by
      rw [← (sameRing_of_sameMemory .tx hc hm).descAddr, hn _ _ rfl]
      rfl
    simp only [Pos.resume, seen]
    exact goto_sendKeeps h (.descLen (by exact hm) (by exact hu) hid)
  | @descLen hm hu id hid =>
    simp only [Pos.resume]
    obtain ⟨-, e⟩ | ⟨hw, e⟩ := readDesc_cases (Walk.send f).ring (s.descAddrSeen .tx id) (u32 n)
      (bufferTaken (.send f) s.txLast id (u32 n)) u <;> rw [e]
    · exact raise_sendKeeps h _ _
    · exact bufferTaken_sendKeeps hf _ h hu hid (bufferInWindow_spec hw).1
  | txByte hu hid hlo hhi => exact sendBytes_sendKeeps h hu hid (by omega) (by omega)
  | push ph id len =>
    cases ph with
    | id => exact goto_sendKeeps h (.push .len id len)
    | len => exact goto_sendKeeps h (.push .barrier1 id len)
    | barrier1 => exact goto_sendKeeps h (.push .idx id len)
    | idx => exact goto_sendKeeps (by exact h) (.push .barrier2 id len)
    | barrier2 => exact sendEnd_sendKeeps hf (by exact h) _

/-! ### The steps of the block alone -/

theorem soloStep_sendKeeps (hu : sendKeeps f s u) (h : soloStep u = .next v) : sendKeeps f s v := by
  obtain ⟨regs, runs⟩ := hu
  obtain ⟨p, o, hq, he, hc⟩ | hb := soloStep_next h
  · obtain ⟨w, -, -, rfl⟩ := commit_some hc
    refine ⟨regs, fun p' o' hq' => ?_⟩
    obtain ⟨rfl, rfl⟩ := Seq.busy.inj (hq.symm.trans hq')
    exact (runs p o hq).move (by simp [he]) rfl
  · obtain ⟨-, rfl⟩ | ⟨p, o, hq, ⟨x, n, he, -, rfl⟩ | ⟨x, bs, he, -, rfl⟩ | ⟨he, -, rfl⟩ | ⟨-, -, rfl⟩⟩ :=
      blockStep_next hb
    · exact ⟨regs, runs⟩
    · refine resume_sendKeeps hf regs (runs p o hq) fun a k hr => ?_
      obtain ⟨rfl, rfl⟩ := Event.read.inj (he.symm.trans hr)
      rfl
    · have issued : p.sends f s (u.issueWrite .device x bs) := (runs p o hq).move (by simp [he]) rfl
      exact resume_sendKeeps hf (by exact regs) issued (by simp [he])
    · exact resume_sendKeeps hf regs (runs p o hq) (by simp [he])
    · exact ⟨regs, runs⟩

end

/-! ### The bytes -/

/-- What FRAME_SEND keeps in memory: every byte outside the offered buffer's first bytes, its used entry and used.idx. -/
def sendView (f : Frame) (s t : State) : Prop :=
  ∀ x, outsideUsed s.cfg .tx s.txUsed x →
    (∀ id : Fin 8, id.val = (s.slotSeen .tx s.txLast).toNat → outside x (s.descAddrSeen .tx id).toNat f.size) →
    t.byteSeen .device x = s.byteSeen .device x

theorem soloStep_sendView (hu : sendKeeps f s u) (hv : sendView f s u) (h : soloStep u = .next v) : sendView f s v := by
  intro x hused hbuf
  obtain ⟨hid, hlen, hidx⟩ := hused
  rw [← hv x ⟨hid, hlen, hidx⟩ hbuf]
  refine soloStep_byteSeen h fun p o a bs hq he => ?_
  have hc : u.cfg = s.cfg := hu.regs.1
  rw [hc] at he
  cases hu.runs p o hq with
  | peek => cases he
  | slot => cases he
  | descAddr => cases he
  | descLen => cases he
  | @txByte _ id hid a b rest hlo hhi =>
    cases he
    exact (hbuf id hid).imp (by omega) (by rw [List.length_singleton]; omega)
  | push ph id n =>
    cases ph with
    | id => cases he; rwa [bytesOf_length]
    | len => cases he; rwa [bytesOf_length]
    | barrier1 => cases he
    | idx => cases he; rwa [bytesOf_length]
    | barrier2 => cases he

theorem frameSend_of_run (hf : f.origin = .frameSend) (hs : sendKeeps f s u) (hv : sendView f s u)
    (h : runAlone u = .next t) : sendKeeps f s t ∧ sendView f s t :=
  drive_induction (P := fun v => sendKeeps f s v ∧ sendView f s v)
    (fun _ _ ⟨keeps, view⟩ hstep => ⟨soloStep_sendKeeps hf keeps hstep, soloStep_sendView keeps view hstep⟩) ⟨hs, hv⟩ h

theorem startOf_frameSend_keeps (s : State) : sendKeeps (frameOfArgs s) s (startOf .frameSend s) := by
  simp only [startOf, startFrameSend]
  repeat' split
  · exact raise_sendKeeps (.refl s) _ _
  · exact goto_sendKeeps (.refl s) (.peek ⟨rfl, rfl⟩ rfl)
  · exact finish_sendKeeps (.refl s) _

/-- Settles O39: FRAME_SEND's events are its walk's reads, the writes of its frame's bytes, and those of its UsedPush. -/
theorem frameSendFrame : Obligations.FrameSendFrame := by
  unfold Obligations.FrameSendFrame
  refine fun s t h => ⟨exec_untouched h, ?_⟩
  obtain rfl | rfl | ⟨c, w, rfl⟩ | h := exec_cases h
  · simp [sameRx, sameDlv, State.byteSeen, State.pending]
  · simp [sameRx, sameDlv, State.byteSeen, State.pending]
  · simp [sameRx, sameDlv, State.byteSeen, State.pending]
  · obtain ⟨⟨⟨-, rx, dlv, ch, res2, res3, waitCnt, initSeen⟩, -⟩, view⟩ := frameSend_of_run rfl (startOf_frameSend_keeps s)
      (fun a _ _ => byteSeen_of_sameMemory (startOf_sameMemory .frameSend s) a) h
    simp only [sendView, frameOfArgs_size] at view
    exact ⟨rx, dlv, ch, res2, res3, waitCnt, initSeen, view⟩

end Sys2Proof.Machine
end

section
/-! SUPPORT. One iteration of POLL_RX (42_transport_rx.md R240): the walk takes an entry, the envelope is read byte by byte, and
the frame is delivered (R252), or is dropped and its descriptor returned (R242); and what an RX_RELEASE returns (R246). -/

namespace Sys2Proof.Machine

variable {s t u : State} {c : Half} {id : Fin 8}

/-! ### The envelope -/

theorem bytesSeen_succ (s : State) (a : Agent) (x n : Nat) :
    s.bytesSeen a x (n + 1) = s.bytesSeen a x n ++ [s.byteSeen a (x + n)] := by
  simp [State.bytesSeen, List.range_succ]

theorem bytesSeen_length (s : State) (a : Agent) (x n : Nat) : (s.bytesSeen a x n).length = n := by
  simp [State.bytesSeen]

theorem ofNat_valueSeen_one (s : State) (a : Agent) (x : Nat) : BitVec.ofNat 8 (s.valueSeen a x 1) = s.byteSeen a x := by
  simp [State.valueSeen, State.bytesSeen, leValue]

theorem envelopeRead_goto (addr dlen : Word) (b : List Byte) (p : Pos) (s : State) :
    envelopeRead c id addr dlen b (s.goto p) = envelopeRead c id addr dlen b s := by
  unfold envelopeRead
  split <;> rfl

/-- The read of the envelope's byte k, and what follows it (R86). -/
theorem envelopeByte_leadsTo {addr dlen : Word} {k : Nat} (hw : s.cfg.inWindow addr.toNat envSize = true) (hk : k < envSize) :
    (s.goto (.rxEnv c id addr dlen (s.bytesSeen .device addr.toNat k))).leadsTo 1
      (if k + 1 < envSize then s.goto (.rxEnv c id addr dlen (s.bytesSeen .device addr.toNat (k + 1)))
        else envelopeRead c id addr dlen (s.bytesSeen .device addr.toNat (k + 1)) s) := by
  have event : (Pos.rxEnv c id addr dlen (s.bytesSeen .device addr.toNat k)).event s.cfg = .read (addr.toNat + k) 1 := by
    rw [Pos.event, bytesSeen_length]
  have read := blockStep_of_read event (inWindow_mono hw (by omega) (by omega))
  simp only [Pos.resume, bytesSeen_length, ofNat_valueSeen_one, ← bytesSeen_succ, envelopeRead_goto] at read
  exact walkStep_leadsTo event read

/-- The rest of the envelope, from its byte k on. -/
theorem envelopeRest_leadsTo {addr dlen : Word} {k n : Nat} (hw : s.cfg.inWindow addr.toNat envSize = true)
    (hk : k + (n + 1) = envSize) :
    (s.goto (.rxEnv c id addr dlen (s.bytesSeen .device addr.toNat k))).leadsTo (n + 1)
      (envelopeRead c id addr dlen (s.bytesSeen .device addr.toNat envSize) s) := by
  induction n generalizing k with
  | zero =>
    have last := envelopeByte_leadsTo (c := c) (id := id) (dlen := dlen) hw (k := k) (by omega)
    rwa [if_neg (by omega), hk] at last
  | succ n ih =>
    have byte := envelopeByte_leadsTo (c := c) (id := id) (dlen := dlen) hw (k := k) (by omega)
    rw [if_pos (by omega)] at byte
    rw [Nat.add_comm]
    exact byte.trans (ih (by omega))

/-! ### The frame of an entry -/

/-- The frame in id's buffer is well-formed (R209), as the device reads it. -/
def State.frameFits (s : State) (id : Fin 8) : Prop :=
  16 + (s.envelopeSeen (s.descAddrSeen .rx id).toNat).len.toNat ≤ (s.descLenSeen .rx id).toNat

/-- s with id as the descriptor in process (R240). -/
def State.rxTaking (s : State) (id : Fin 8) : State := { s with rxCurId := u16 id.val, rxCurDlen := s.descLenSeen .rx id }

/-- s with the frame of id's buffer delivered (R252), the POLL_RX suspended at cursor c. -/
def State.delivered (s : State) (c : Half) (id : Fin 8) : State :=
  deliver c id ((s.descAddrSeen .rx id).setWidth 32) (s.envelopeSeen (s.descAddrSeen .rx id).toNat) (s.rxTaking id)

/-- An entry whose buffer has room for an envelope: it is read. -/
theorem pollEntry_leadsTo_envelope (hc : s.cfg.ok = true) (ho : s.offers .rx c id) (hb : s.bufferOk .rx id = true)
    (hd : 16 ≤ (s.descLenSeen .rx id).toNat) :
    (s.goto (.peek .poll c)).leadsTo 20 (envelopeRead c id ((s.descAddrSeen .rx id).setWidth 32) (s.descLenSeen .rx id)
      (s.bytesSeen .device (s.descAddrSeen .rx id).toNat 16) (s.rxTaking id)) := by
  obtain ⟨addr, window⟩ := bufferInWindow_spec hb
  have walk := walk_leadsTo_bufferTaken (w := .poll) hc ho (.inl rfl) hb
  have env := envelopeRest_leadsTo (s := s.rxTaking id) (c := c) (id := id) (addr := (s.descAddrSeen .rx id).setWidth 32)
    (dlen := s.descLenSeen .rx id) (k := 0) (n := 15) (by rw [addr]; exact inWindow_mono window le_rfl (by simpa using hd)) rfl
  rw [addr] at env
  simp only [bufferTaken, if_pos (show (s.descLenSeen Walk.poll.ring id).toNat ≥ envSize from hd)] at walk
  exact walk.trans env

/-- A well-formed frame is delivered. -/
theorem pollEntry_leadsTo_delivered (hc : s.cfg.ok = true) (ho : s.offers .rx c id) (hb : s.bufferOk .rx id = true)
    (hf : s.frameFits id) : (s.goto (.peek .poll c)).leadsTo 20 (s.delivered c id) := by
  rw [State.frameFits] at hf
  have read := pollEntry_leadsTo_envelope hc ho hb (by omega)
  rwa [envelopeRead, if_pos (by rw [envFits, decide_eq_true_eq]; exact hf)] at read

/-- A malformed one is dropped, its envelope read or not. -/
theorem pollEntry_leadsTo_dropFrame (hc : s.cfg.ok = true) (ho : s.offers .rx c id) (hb : s.bufferOk .rx id = true)
    (hf : ¬ s.frameFits id) : ∃ n ≤ 20, (s.goto (.peek .poll c)).leadsTo n (dropFrame c id (s.rxTaking id)) := by
  rw [State.frameFits] at hf
  by_cases hd : 16 ≤ (s.descLenSeen .rx id).toNat
  · have read := pollEntry_leadsTo_envelope hc ho hb hd
    rw [envelopeRead, if_neg (by rw [envFits, decide_eq_true_eq]; exact hf)] at read
    exact ⟨20, le_rfl, read⟩
  · have walk := walk_leadsTo_bufferTaken (w := .poll) hc ho (.inl rfl) hb
    simp only [bufferTaken, if_neg (show ¬ (s.descLenSeen Walk.poll.ring id).toNat ≥ envSize from hd)] at walk
    exact ⟨4, by omega, walk⟩

/-! ### The return of a descriptor -/

/-- s once id has been returned in the iteration at cursor c (R240), as the next one begins. -/
def State.rxReturned (s : State) (c : Half) (id : Fin 8) : State :=
  { s.pushed .rx id s.rxUsedLen with rxLast := c + 1, rxProcessed := s.rxProcessed + 1 }

theorem pollReturn_leadsTo (hc : s.cfg.ok = true) (c : Half) (id : Fin 8) :
    (pollReturn c id s).leadsTo (s.pwDevice.length + 8) ((s.rxReturned c id).goto (.peek .poll (c + 1))) :=
  usedPush_leadsTo hc _ _ _

theorem sameRing.trans {r : Ring} (h : sameRing r s t) (h' : sameRing r t u) : sameRing r s u where
  cfg := h'.cfg.trans h.cfg
  availIdx := h'.availIdx.trans h.availIdx
  slot c := (h'.slot c).trans (h.slot c)
  descAddr i := (h'.descAddr i).trans (h.descAddr i)
  descLen i := (h'.descLen i).trans (h.descLen i)

theorem sameRing_rxReturned (s : State) (c : Half) (id : Fin 8) : sameRing .rx s (s.rxReturned c id) :=
  have pushed := sameRing_pushed s .rx id s.rxUsedLen
  ⟨pushed.cfg, pushed.availIdx, pushed.slot, pushed.descAddr, pushed.descLen⟩

/-- s with id as the descriptor in process, its frame malformed (R209, R242). -/
def State.rxDropping (s : State) (id : Fin 8) : State := { s.rxTaking id with rxCurFlen := 0 }

/-- s once the malformed frame of id's buffer has been dropped (R242). -/
def State.dropped (s : State) (c : Half) (id : Fin 8) : State := (s.rxDropping id).rxReturned c id

/-- A used entry of the policy's length (R243), the cursors and the count of processed entries advanced. -/
theorem dropped_eq (s : State) (c : Half) (id : Fin 8) : s.dropped c id = { s with
    rxProcessed := s.rxProcessed + 1, rxLast := c + 1, rxUsed := s.rxUsed + 1
    rxCurId := u16 id.val, rxCurDlen := s.descLenSeen .rx id, rxCurFlen := 0
    shm := commitAll s.shm (s.pwDevice ++ usedWrites s.cfg .rx s.rxUsed id (s.rxDropping id).rxUsedLen)
    pwDevice := [] } := by
  rw [State.dropped, State.rxDropping, State.rxTaking]
  generalize s.descLenSeen .rx id = cap
  rfl

theorem dropped_seq (s : State) (c : Half) (id : Fin 8) : (s.dropped c id).seq = s.seq := by rw [dropped_eq]

/-- An RX_RELEASE is such a return (R246). -/
theorem released_eq (s : State) (k : Suspended) :
    s.released k = { s with seq := .idle, rxDelivered := s.rxDelivered + 1 }.rxReturned k.cursor k.id := rfl

theorem sameRing_dropped (s : State) (c : Half) (id : Fin 8) : sameRing .rx s (s.dropped c id) :=
  (sameRing_of_sameMemory .rx rfl ⟨rfl, rfl⟩ : sameRing .rx s (s.rxDropping id)).trans (sameRing_rxReturned _ c id)

/-- The iteration of a malformed frame as a whole. -/
theorem pollEntry_leadsTo_dropped (hc : s.cfg.ok = true) (ho : s.offers .rx c id) (hb : s.bufferOk .rx id = true)
    (hf : ¬ s.frameFits id) : ∃ n ≤ s.pwDevice.length + 28,
      (s.goto (.peek .poll c)).leadsTo n ((s.dropped c id).goto (.peek .poll (c + 1))) := by
  obtain ⟨n, hn, drop⟩ := pollEntry_leadsTo_dropFrame hc ho hb hf
  have back := pollReturn_leadsTo (s := s.rxDropping id) hc c id
  exact ⟨n + (s.pwDevice.length + 8), by omega, drop.trans back⟩

/-! ### The commands -/

/-- POLL_RX is accepted in Idle only, not in a delivery (R247). -/
theorem seq_idle_of_accepts_pollRx (ha : s.accepts .pollRx) : s.seq = .idle := by
  obtain ⟨hb, -, hn, -⟩ := ha
  cases hq : s.seq with
  | idle => rfl
  | busy p o => simp [hq, Seq.isBusy] at hb
  | delivering k => simp [hq, Seq.sub, nestingError, deliveringError] at hn

/-- s with the counts of a POLL_RX at 0 (R240), as its first iteration begins. -/
def State.pollBegun (s : State) : State := { s with rxProcessed := 0, rxDelivered := 0 }

theorem pollRx_leadsTo (hr : s.ch = .ready) :
    (startOf .pollRx s).leadsTo 0 (s.pollBegun.goto (.peek .poll s.rxLast)) := by
  rw [startOf_pollRx hr]
  exact leadsTo_refl _

/-- POLL_RX's end on an empty ring (R240). -/
theorem ringEmpty_poll (hb : s.seq.isBusy = false) :
    ringEmpty .poll s = { s with res := (s.res.set 0 s.rxProcessed).set 1 s.rxDelivered, status := .ok } := by
  simp only [ringEmpty, State.finish, State.setRes, returned_of_not_busy hb]
  rfl

theorem pollBegun_seq (ha : s.accepts .pollRx) : s.pollBegun.seq = .idle := seq_idle_of_accepts_pollRx ha

/-- Settles O28: the first iteration comes to a well-formed frame and delivers it. -/
theorem pollDeliversAWellFormedFrame : Obligations.PollDeliversAWellFormedFrame := by
  unfold Obligations.PollDeliversAWellFormedFrame
  intro s id hc ha hr ho hb hd hf
  have frame := pollEntry_leadsTo_delivered (s := s.pollBegun) hc ho hb hf
  have addr : ((s.pollBegun.descAddrSeen .rx id).setWidth 32 : Word).toNat = (s.descAddrSeen .rx id).toNat :=
    (bufferInWindow_spec hb).1
  rw [exec_of_leadsTo ha ((pollRx_leadsTo hr).trans frame) (by omega) rfl, State.delivered, deliver, addr, setWidth_eq_u32]
  rfl

/-- Settles O29: the first iteration drops the frame, and the next one finds the ring empty. -/
theorem pollDropsAMalformedFrame : Obligations.PollDropsAMalformedFrame := by
  unfold Obligations.PollDropsAMalformedFrame
  intro s id hc ha hr ho hi hb hd
  have malformed : ¬ s.frameFits id := by
    rw [State.frameFits]
    omega
  obtain ⟨n, hn, drop⟩ := pollEntry_leadsTo_dropped (s := s.pollBegun) hc ho hb malformed
  have view := sameRing_dropped s.pollBegun s.rxLast id
  have empty := walkStep_leadsTo rfl (peek_empty (w := .poll) (by rw [view.cfg]; exact hc) (view.availIdx.trans hi))
  have pending : s.pollBegun.pwDevice.length = s.pwDevice.length := rfl
  rw [exec_of_leadsTo ha (((pollRx_leadsTo hr).trans drop).trans empty) (by omega) (by simp [ringEmpty]),
    ringEmpty_poll (by rw [dropped_seq, pollBegun_seq ha]; rfl), dropped_eq]
  rfl

/-- Settles O30: the return of the delivered descriptor, after which the walk finds the ring empty. -/
theorem releaseReturnsTheDescriptor : Obligations.ReleaseReturnsTheDescriptor := by
  unfold Obligations.ReleaseReturnsTheDescriptor
  intro s k hc ha hk hi
  have view := sameRing_released s k
  have empty := walkStep_leadsTo rfl (peek_empty (w := .poll) (by rw [view.cfg]; exact hc) (view.availIdx.trans hi))
  exact exec_of_leadsTo ha ((rxRelease_leadsTo hc hk).trans empty) (by omega) rfl

end Sys2Proof.Machine
end

section
/-! SUPPORT. POLL_RX from an iteration to the end of its run (42_transport_rx.md R240, R241): the malformed frames it drops on the
way, at most as many as the ring has entries, and the three ways in which an iteration stops the block. -/

namespace Sys2Proof.Machine

variable {s t u v : State} {c : Half} {id : Fin 8}

/-! ### Cursors -/

theorem gap_eq_zero_iff {a c : Half} : gap a c = 0 ↔ a = c := by
  rw [gap, show 0 = (0 : Half).toNat from rfl, BitVec.toNat_inj]
  exact sub_eq_zero

/-- The entries left when the cursor has passed j of n (R12, R164). -/
theorem gap_add {a c : Half} {n j : Nat} (hn : gap a c = n) (hj : j ≤ n) : gap a (c + u16 j) = n - j := by
  have := a.isLt
  have := c.isLt
  simp only [gap, BitVec.toNat_sub, BitVec.toNat_add, BitVec.toNat_ofNat] at *
  omega

theorem add_u16_succ (c : Half) (j : Nat) : c + u16 (j + 1) = c + u16 j + 1 := by
  rw [u16_add, ← add_assoc]
  rfl

theorem add_u16_zero (c : Half) : c + u16 0 = c := BitVec.add_zero c

/-! ### How an iteration stops the block -/

/-- t is where the iteration at cursor c stops the block: a fault of the walk, an empty ring, or a delivery (R240, R252). -/
inductive PollStop (s : State) (c : Half) : State → Prop where
  | fault {t : State} (h : WalkFault s .poll c t) : PollStop s c t
  | empty (ha : s.availIdxSeen .rx = c) : PollStop s c (ringEmpty .poll s)
  | delivered {id : Fin 8} (ho : s.offers .rx c id) (hb : s.bufferOk .rx id = true) (hf : s.frameFits id) :
      PollStop s c (s.delivered c id)

theorem PollStop.not_busy (h : PollStop s c t) : t.seq.isBusy = false := by
  cases h with
  | fault h => exact h.not_busy
  | empty ha => simp [ringEmpty]
  | delivered ho hb hf => rfl

theorem PollStop.leadsTo (h : PollStop s c t) (hc : s.cfg.ok = true) (hf : s.fault = .none) :
    ∃ n ≤ 20, (s.goto (.peek .poll c)).leadsTo n t := by
  cases h with
  | fault h =>
    obtain ⟨n, hn, walk⟩ := h.leadsTo hc hf
    exact ⟨n, by omega, walk⟩
  | empty ha => exact ⟨1, by omega, walkStep_leadsTo rfl (peek_empty (w := .poll) hc ha)⟩
  | delivered ho hb hf => exact ⟨20, le_rfl, pollEntry_leadsTo_delivered hc ho hb hf⟩

/-- An iteration stops the block, or its entry's frame is malformed. -/
theorem pollStop_or_malformed (s : State) (c : Half) :
    (∃ t, PollStop s c t) ∨ ∃ id, s.offers .rx c id ∧ s.bufferOk .rx id = true ∧ ¬ s.frameFits id := by
  by_cases ha : s.availIdxSeen .rx = c
  · exact .inl ⟨_, .empty ha⟩
  by_cases hg : ringN < gap (s.availIdxSeen .rx) c
  · exact .inl ⟨_, .fault (.desync (w := .poll) ha hg)⟩
  by_cases hid : 8 ≤ (s.slotSeen .rx c).toNat
  · exact .inl ⟨_, .fault (.badDescId (w := .poll) ha (Nat.le_of_not_lt hg) hid)⟩
  have ho : s.offers .rx c ⟨(s.slotSeen .rx c).toNat, by omega⟩ := ⟨ha, Nat.le_of_not_lt hg, rfl⟩
  cases hb : s.bufferOk .rx ⟨(s.slotSeen .rx c).toNat, by omega⟩ with
  | false => exact .inl ⟨_, .fault (.bounds (w := .poll) ho (.inl rfl) hb)⟩
  | true =>
    by_cases hf : s.frameFits ⟨(s.slotSeen .rx c).toNat, by omega⟩
    · exact .inl ⟨_, .delivered ho hb hf⟩
    · exact .inr ⟨_, ho, hb, hf⟩

/-! ### The malformed frames before it -/

/-- From an iteration on, the block drops i malformed frames and stops: no more than are posted, and none of a ring that is out
of step. What holds as the j-th iteration begins, and is kept by each drop, holds as the last one begins. -/
theorem poll_stops {P : Nat → State → Prop} {j m : Nat} (hc : s.cfg.ok = true) (hf : s.fault = .none) (hs : P j s)
    (hdrop : ∀ j u id, P j u → u.offers .rx (c + u16 j) id → P (j + 1) (u.dropped (c + u16 j) id))
    (hm : gap (s.availIdxSeen .rx) (c + u16 j) ≤ m ∨ ringN < gap (s.availIdxSeen .rx) (c + u16 j)) :
    ∃ i ≤ m, ∃ n ≤ s.pwDevice.length + 28 * i + 20, ∃ v t, P (j + i) v ∧ PollStop v (c + u16 (j + i)) t ∧
      (s.goto (.peek .poll (c + u16 j))).leadsTo n t := by
  induction m generalizing s j with
  | zero =>
    obtain ⟨t, stop⟩ | ⟨id, ⟨ha, hg, -⟩, -, -⟩ := pollStop_or_malformed s (c + u16 j)
    · obtain ⟨n, hn, walk⟩ := stop.leadsTo hc hf
      exact ⟨0, le_rfl, n, by omega, s, t, hs, stop, walk⟩
    · exact absurd (gap_eq_zero_iff.mp (by omega)) ha
  | succ m ih =>
    obtain ⟨t, stop⟩ | ⟨id, ho, hb, hfit⟩ := pollStop_or_malformed s (c + u16 j)
    · obtain ⟨n, hn, walk⟩ := stop.leadsTo hc hf
      exact ⟨0, by omega, n, by omega, s, t, hs, stop, walk⟩
    · obtain ⟨k, hk, drop⟩ := pollEntry_leadsTo_dropped hc ho hb hfit
      have view := sameRing_dropped s (c + u16 j) id
      have left : gap ((s.dropped (c + u16 j) id).availIdxSeen .rx) (c + u16 (j + 1)) ≤ m := by
        obtain ⟨ha, hg, -⟩ := ho
        have posted : gap (s.availIdxSeen .rx) (c + u16 j) ≠ 0 := fun h => ha (gap_eq_zero_iff.mp h)
        have one := gap_add (j := 1) rfl (Nat.pos_of_ne_zero posted)
        rw [view.availIdx, add_u16_succ]
        rw [show u16 1 = (1 : Half) from rfl] at one
        omega
      obtain ⟨i, hi, n, hn, v, t, hv, stop, rest⟩ := ih (s := s.dropped (c + u16 j) id) (j := j + 1)
        (by rw [view.cfg]; exact hc) (by rw [dropped_eq]; exact hf) (hdrop j s id hs ho) (.inl left)
      have empty : (s.dropped (c + u16 j) id).pwDevice.length = 0 := by rw [dropped_eq]; rfl
      rw [← add_u16_succ] at drop
      rw [Nat.add_right_comm, Nat.add_assoc] at hv stop
      exact ⟨i + 1, by omega, k + n, by omega, v, t, hv, stop, drop.trans rest⟩

end Sys2Proof.Machine
end

section
/-! SUPPORT. Receive draining (42_transport_rx.md R249): with K entries of legal ids and buffers posted, a POLL_RX and the
RX_RELEASEs of a client that releases every delivery return them all, in avail order, and then find the ring empty. -/

namespace Sys2Proof.Machine

variable {s t u v : State} {n j : Nat} {id : Fin 8}

/-! ### The entries returned so far -/

/-- The used entries of the other slots stay as they are under the writes of a UsedPush. -/
theorem readBytes_usedWrites_of_slot_ne (m : Memory) (ws : List PendingWrite) (c : Config) (r : Ring) {x y : Half}
    (id : Fin 8) (len : Word) (h : slotOf y ≠ slotOf x) :
    (commitAll m (ws ++ usedWrites c r x id len)).readBytes (usedIdAt c r (slotOf y)) 4 =
      (commitAll m ws).readBytes (usedIdAt c r (slotOf y)) 4 := by
  rw [commitAll_append_usedWrites,
    readBytes_writeBytes_of_disjoint _ (by simp only [bytesOf_length, usedIdAt, usedIdxAt]; omega),
    readBytes_writeBytes_of_disjoint _ (by simp only [bytesOf_length, usedIdAt, usedLenAt]; omega),
    readBytes_writeBytes_of_disjoint _ (by simp only [bytesOf_length, usedIdAt]; omega)]

/-- Fewer than N indices from one on have different slots (R164). -/
theorem slotOf_add_ne {x : Half} {i : Nat} (hi : i < j) (hj : j < 8) : slotOf (x + u16 i) ≠ slotOf (x + u16 j) := by
  have := x.isLt
  simp only [slotOf, ringN, BitVec.toNat_add, BitVec.toNat_ofNat]
  omega

/-- In t, the first j of the entries posted in s have been returned (R240, R249). -/
structure rxDrained (s : State) (j : Nat) (t : State) : Prop where
  ring : sameRing .rx s t
  fault : t.fault = .none
  rxLast : t.rxLast = s.rxLast + u16 j
  rxUsed : t.rxUsed = s.rxUsed + u16 j
  processed : t.rxProcessed = u32 j
  stored : 0 < j → t.pwDevice = []
  usedIdx : 0 < j → leValue (t.shm.readBytes (usedIdxAt s.cfg .rx) 2) = t.rxUsed.toNat
  ids : ∀ i < j, leValue ((commitAll t.shm t.pwDevice).readBytes (usedIdAt s.cfg .rx (slotOf (s.rxUsed + u16 i))) 4) =
    (s.slotSeen .rx (s.rxLast + u16 i)).toNat

/-- Updates of other registers do not matter. -/
theorem rxDrained.after (h : rxDrained s j u) (hm : sameMemory u t) (hc : t.cfg = u.cfg) (hf : t.fault = u.fault)
    (hl : t.rxLast = u.rxLast) (hu : t.rxUsed = u.rxUsed) (hp : t.rxProcessed = u.rxProcessed) : rxDrained s j t := by
  obtain ⟨ring, fault, rxLast, rxUsed, processed, stored, usedIdx, ids⟩ := h
  refine ⟨ring.trans (sameRing_of_sameMemory .rx hc hm), hf.trans fault, hl.trans rxLast, hu.trans rxUsed,
    hp.trans processed, ?_, ?_, ?_⟩
  · rwa [hm.2]
  · rwa [hm.1, hu]
  · rwa [hm.1, hm.2]

/-- The return of the next entry's descriptor. -/
theorem rxDrained.returned (h : rxDrained s j u) (hj : j < 8) (hid : (s.slotSeen .rx (s.rxLast + u16 j)).toNat = id.val) :
    rxDrained s (j + 1) (u.rxReturned (s.rxLast + u16 j) id) := by
  obtain ⟨ring, fault, rxLast, rxUsed, processed, stored, usedIdx, ids⟩ := h
  obtain ⟨idx, entry, -⟩ := usedEntry_in_memory u.shm u.pwDevice u.cfg .rx u.rxUsed id u.rxUsedLen
  constructor
  · exact ring.trans (sameRing_rxReturned u _ id)
  · exact fault
  · exact (add_u16_succ _ _).symm
  · rw [add_u16_succ, ← rxUsed]
    rfl
  · show u.rxProcessed + 1 = u32 (j + 1)
    rw [processed]
    exact (BitVec.ofNat_add j 1).symm
  · exact fun _ => rfl
  · rw [← ring.cfg]
    exact fun _ => idx
  · intro i hi
    rw [← ring.cfg]
    obtain hi | rfl := Nat.lt_succ_iff_lt_or_eq.mp hi
    · rw [← ids i hi, ← ring.cfg]
      refine congrArg leValue (readBytes_usedWrites_of_slot_ne u.shm u.pwDevice u.cfg .rx id u.rxUsedLen ?_)
      rw [State.used, rxUsed]
      exact slotOf_add_ne hi hj
    · rw [← rxUsed, hid]
      exact entry

theorem rxDrained.dropped (h : rxDrained s j u) (hj : j < 8) (hid : (s.slotSeen .rx (s.rxLast + u16 j)).toNat = id.val) :
    rxDrained s (j + 1) (u.dropped (s.rxLast + u16 j) id) :=
  (h.after (t := u.rxDropping id) ⟨rfl, rfl⟩ rfl rfl rfl rfl rfl).returned hj hid

/-! ### A delivery, and the end -/

/-- In t, the frame of the j-th posted entry is delivered (R252). -/
structure rxWaiting (s : State) (j : Nat) (t : State) : Prop where
  drained : rxDrained s j t
  delivering : ∃ id : Fin 8, (s.slotSeen .rx (s.rxLast + u16 j)).toNat = id.val ∧
    t.seq = .delivering ⟨s.rxLast + u16 j, id⟩

/-- In t, the POLL_RX has ended after n iterations (R240). -/
structure rxEnded (s : State) (n : Nat) (t : State) : Prop where
  drained : rxDrained s n t
  seq : t.seq = .idle
  status : t.status = .ok
  res : t.res[0] = u32 n

theorem rxStops_not_busy (h : rxEnded s n t ∨ ∃ i, j ≤ i ∧ i < n ∧ rxWaiting s i t) : t.seq.isBusy = false := by
  obtain ⟨-, seq, -, -⟩ | ⟨i, -, -, -, _, -, seq⟩ := h <;> rw [seq] <;> rfl

section
variable (hn : gap (s.availIdxSeen .rx) s.rxLast = n) (h8 : n ≤ 8)
  (hlegal : ∀ j < n, ∃ id : Fin 8, (s.slotSeen .rx (s.rxLast + u16 j)).toNat = id.val ∧ s.bufferOk .rx id = true)
include hn h8 hlegal

/-- Legal entries do not fault: the iteration delivers, or the ring is empty. -/
theorem rxDrained.stop (h : rxDrained s j v) (hi : v.seq = .idle) (hj : j ≤ n) (hs : PollStop v (s.rxLast + u16 j) t) :
    rxEnded s n t ∨ j < n ∧ rxWaiting s j t := by
  have left : gap (v.availIdxSeen .rx) (s.rxLast + u16 j) = n - j := by rw [h.ring.availIdx, gap_add hn hj]
  have more (ha : v.availIdxSeen .rx ≠ s.rxLast + u16 j) : j < n := by
    rw [ne_eq, ← gap_eq_zero_iff, left] at ha
    omega
  cases hs with
  | fault hw =>
    exfalso
    cases hw with
    | desync ha hg =>
      have hg : 8 < gap (v.availIdxSeen .rx) (s.rxLast + u16 j) := hg
      omega
    | badDescId ha hg hid =>
      obtain ⟨id, slot, -⟩ := hlegal j (more ha)
      have hid : 8 ≤ (v.slotSeen .rx (s.rxLast + u16 j)).toNat := hid
      rw [h.ring.slot] at hid
      omega
    | doubleGrant ho hr hh => cases hr
    | @bounds id' ho hh hb =>
      obtain ⟨ha, -, hid⟩ := ho
      obtain ⟨id, slot, ok⟩ := hlegal j (more ha)
      obtain rfl : id = id' := Fin.ext (slot.symm.trans ((congrArg BitVec.toNat (h.ring.slot _)).symm.trans hid))
      have bad := (h.ring.bufferOk id).symm.trans hb
      simp [ok] at bad
  | empty ha =>
    obtain rfl : j = n := by
      rw [← gap_eq_zero_iff, left] at ha
      omega
    refine .inl ?_
    rw [ringEmpty_poll (by rw [hi]; rfl)]
    exact ⟨h.after ⟨rfl, rfl⟩ rfl rfl rfl rfl rfl, hi, rfl, by simp [h.processed]⟩
  | delivered ho hb hf =>
    obtain ⟨ha, -, hid⟩ := ho
    exact .inr ⟨more ha, h.after ⟨rfl, rfl⟩ rfl rfl rfl rfl rfl, _, by rwa [← h.ring.slot], rfl⟩

/-- From an iteration on, the block drains the ring up to the next delivery, or to the end. -/
theorem rxDrained.leadsTo (hc : s.cfg.ok = true) (h : rxDrained s j u) (hi : u.seq = .idle) (hj : j ≤ n) :
    ∃ k ≤ u.pwDevice.length + 300, ∃ t, (u.goto (.peek .poll (s.rxLast + u16 j))).leadsTo k t ∧
      (rxEnded s n t ∨ ∃ i, j ≤ i ∧ i < n ∧ rxWaiting s i t) := by
  have next (i : Nat) (w : State) (id : Fin 8) (hw : rxDrained s i w ∧ w.seq = .idle ∧ i ≤ n)
      (ho : w.offers .rx (s.rxLast + u16 i) id) : rxDrained s (i + 1) (w.dropped (s.rxLast + u16 i) id) ∧
        (w.dropped (s.rxLast + u16 i) id).seq = .idle ∧ i + 1 ≤ n := by
    obtain ⟨drained, idle, le⟩ := hw
    obtain ⟨ha, -, hid⟩ := ho
    have lt : i < n := by
      rw [drained.ring.availIdx, ne_eq, ← gap_eq_zero_iff, gap_add hn le] at ha
      omega
    exact ⟨drained.dropped (by omega) (by rwa [← drained.ring.slot]), by rw [dropped_seq, idle], lt⟩
  obtain ⟨i, hi8, k, hk, v, t, ⟨drained, idle, le⟩, stop, course⟩ := poll_stops (m := 8)
    (P := fun i w => rxDrained s i w ∧ w.seq = .idle ∧ i ≤ n) (by rw [h.ring.cfg]; exact hc) h.fault ⟨h, hi, hj⟩ next
    (le_or_gt _ _)
  refine ⟨k, by omega, t, course, ?_⟩
  obtain ended | ⟨lt, waiting⟩ := drained.stop hn h8 hlegal idle le stop
  · exact .inl ended
  · exact .inr ⟨j + i, by omega, lt, waiting⟩

/-- An RX_RELEASE in a delivery returns that entry, and the block goes on. -/
theorem rxWaiting.release (hc : s.cfg.ok = true) (h : rxWaiting s j t) (hj : j < n) :
    ∃ t', exec .rxRelease t = .next t' ∧ (rxEnded s n t' ∨ ∃ i, j < i ∧ i < n ∧ rxWaiting s i t') := by
  obtain ⟨drained, id, hid, hk⟩ := h
  have accepted : t.accepts .rxRelease := ⟨by rw [hk]; rfl, drained.fault, by rw [hk]; rfl, rfl⟩
  have hc' : t.cfg.ok = true := by rw [drained.ring.cfg]; exact hc
  have returned : rxDrained s (j + 1) (t.released ⟨s.rxLast + u16 j, id⟩) := by
    rw [released_eq]
    refine rxDrained.returned ?_ (by omega) hid
    exact drained.after ⟨rfl, rfl⟩ rfl rfl rfl rfl rfl
  obtain ⟨k, hk', t', course, ends⟩ := returned.leadsTo hn h8 hlegal hc rfl hj
  rw [add_u16_succ] at course
  have empty : (t.released ⟨s.rxLast + u16 j, id⟩).pwDevice.length = 0 := rfl
  exact ⟨t', exec_of_leadsTo accepted ((rxRelease_leadsTo hc' hk).trans course) (by omega) (rxStops_not_busy ends), ends⟩

/-- A client that releases every delivery comes to the end. -/
theorem releaseAll_ends {m : Nat} (hc : s.cfg.ok = true)
    (h : rxEnded s n t ∨ ∃ i, n ≤ i + m ∧ i < n ∧ rxWaiting s i t) :
    ∃ t', releaseAll m t = .next t' ∧ rxEnded s n t' := by
  induction m generalizing t with
  | zero =>
    obtain ended | ⟨i, hm, hi, -⟩ := h
    · exact ⟨t, rfl, ended⟩
    · omega
  | succ m ih =>
    obtain ended | ⟨i, hm, hi, waiting⟩ := h
    · exact ⟨t, by rw [releaseAll, ended.seq]; rfl, ended⟩
    · obtain ⟨u, hu, next⟩ := waiting.release hn h8 hlegal hc hi
      obtain ⟨_, -, hq⟩ := waiting.delivering
      rw [releaseAll, hq]
      simp only [Seq.sub, if_true, hu]
      exact ih (next.imp_right fun ⟨i', hlt, hi', waiting'⟩ => ⟨i', by omega, hi', waiting'⟩)

end

/-- Settles O32: the POLL_RX drains up to its first delivery, and each RX_RELEASE from there up to the next. -/
theorem receiveDrainsExactlyTheRing : Obligations.ReceiveDrainsExactlyTheRing := by
  unfold Obligations.ReceiveDrainsExactlyTheRing
  intro s n hc ha hr hn h8 hlegal
  have ⟨_, hf, _, _⟩ := ha
  have begun : rxDrained s 0 s.pollBegun :=
    ⟨sameRing_of_sameMemory .rx rfl ⟨rfl, rfl⟩, hf, (add_u16_zero _).symm, (add_u16_zero _).symm, rfl, by omega, by omega,
      by omega⟩
  obtain ⟨k, hk, t0, course, ends⟩ := begun.leadsTo hn h8 hlegal hc (pollBegun_seq ha) (Nat.zero_le n)
  rw [add_u16_zero] at course
  have pending : s.pollBegun.pwDevice.length = s.pwDevice.length := rfl
  have poll := exec_of_leadsTo ha ((pollRx_leadsTo hr).trans course) (by omega) (rxStops_not_busy ends)
  obtain ⟨t, releases, drained, seq, status, res⟩ := releaseAll_ends (m := n) hn h8 hlegal hc
    (ends.imp_right fun ⟨i, _, hi, waiting⟩ => ⟨i, by omega, hi, waiting⟩)
  obtain ⟨-, fault, rxLast, rxUsed, -, stored, usedIdx, ids⟩ := drained
  refine ⟨t0, t, poll, releases, seq, status, fault, rxLast, rxUsed, res, usedIdx, fun j hj => ?_⟩
  have entry := ids j hj
  rwa [stored (by omega)] at entry

end Sys2Proof.Machine
end

section
/-! SUPPORT. The frame of POLL_RX and RX_RELEASE (42_transport_rx.md R240, R241, R246): what they leave as it is, whatever their
outcome. Every used entry they write is one that RX_USED passes, for they write at most nine. -/

namespace Sys2Proof.Machine

variable {s t u v : State} {c : Half} {i j k : Nat} {id : Fin 8}

/-! ### What stays -/

/-- What POLL_RX and RX_RELEASE have left as it was in s when the block stands at t, RX_USED having passed j slots. -/
structure rxKeeps (s : State) (j : Nat) (t : State) : Prop where
  cfg : t.cfg = s.cfg
  tx : sameTx s t
  ch : t.ch = s.ch
  res2 : t.res[2] = s.res[2]
  res3 : t.res[3] = s.res[3]
  waitCnt : t.waitCnt = s.waitCnt
  initSeen : t.initSeen = s.initSeen
  rxUsed : t.rxUsed = s.rxUsed + u16 j
  view : ∀ x, (∀ i < j, outsideUsed s.cfg .rx (s.rxUsed + u16 i) x) → t.byteSeen .device x = s.byteSeen .device x

theorem rxKeeps.trans (h : rxKeeps s j t) (h' : rxKeeps t k u) : rxKeeps s (j + k) u where
  cfg := h'.cfg.trans h.cfg
  tx := by
    obtain ⟨txLast, txUsed, txHeld, heldAddr, heldCap, txLeaked⟩ := h.tx
    obtain ⟨txLast', txUsed', txHeld', heldAddr', heldCap', txLeaked'⟩ := h'.tx
    exact ⟨txLast'.trans txLast, txUsed'.trans txUsed, txHeld'.trans txHeld, heldAddr'.trans heldAddr,
      heldCap'.trans heldCap, txLeaked'.trans txLeaked⟩
  ch := h'.ch.trans h.ch
  res2 := h'.res2.trans h.res2
  res3 := h'.res3.trans h.res3
  waitCnt := h'.waitCnt.trans h.waitCnt
  initSeen := h'.initSeen.trans h.initSeen
  rxUsed := by rw [h'.rxUsed, h.rxUsed, u16_add, add_assoc]
  view x hx := by
    refine (h'.view x fun i hi => ?_).trans (h.view x fun i hi => hx i (by omega))
    rw [h.cfg, h.rxUsed, add_assoc, ← u16_add]
    exact hx (j + i) (by omega)

/-- An update of other registers alone; its parts are shown by `rfl` unless given. -/
theorem rxKeeps_of_update (mem : sameMemory s t := by exact ⟨rfl, rfl⟩) (cfg : t.cfg = s.cfg := by rfl)
    (tx : sameTx s t := by exact ⟨rfl, rfl, rfl, rfl, rfl, rfl⟩) (ch : t.ch = s.ch := by rfl)
    (res2 : t.res[2] = s.res[2] := by rfl) (res3 : t.res[3] = s.res[3] := by rfl) (waitCnt : t.waitCnt = s.waitCnt := by rfl)
    (initSeen : t.initSeen = s.initSeen := by rfl) (rxUsed : t.rxUsed = s.rxUsed := by rfl) : rxKeeps s 0 t :=
  ⟨cfg, tx, ch, res2, res3, waitCnt, initSeen, rxUsed.trans (add_u16_zero _).symm, fun x _ => byteSeen_of_sameMemory mem x⟩

theorem ringEmpty_rxKeeps (s : State) : rxKeeps s 0 (ringEmpty .poll s) :=
  rxKeeps_of_update (res2 := by simp [ringEmpty]) (res3 := by simp [ringEmpty])

/-- The return of a descriptor passes one slot. -/
theorem rxReturned_rxKeeps (s : State) (c : Half) (id : Fin 8) : rxKeeps s 1 (s.rxReturned c id) := by
  constructor
  case view =>
    intro x hx
    have own := hx 0 (by omega)
    rw [add_u16_zero] at own
    exact byteSeen_pushed id s.rxUsedLen own
  all_goals simp [sameTx, State.rxReturned, State.pushed, State.setUsed, State.used]

theorem dropped_rxKeeps (s : State) (c : Half) (id : Fin 8) : rxKeeps s 1 (s.dropped c id) :=
  have dropping : rxKeeps s 0 (s.rxDropping id) := rxKeeps_of_update
  dropping.trans (rxReturned_rxKeeps _ c id)

theorem released_rxKeeps (s : State) (k : Suspended) : rxKeeps s 1 (s.released k) := by
  rw [released_eq]
  exact (rxKeeps_of_update (s := s)).trans (rxReturned_rxKeeps _ k.cursor k.id)

theorem PollStop.rxKeeps (h : PollStop s c t) : rxKeeps s 0 t := by
  cases h with
  | fault hw =>
    cases hw with
    | desync => exact rxKeeps_of_update
    | badDescId => exact rxKeeps_of_update
    | doubleGrant => exact rxKeeps_of_update
    | bounds => exact rxKeeps_of_update
  | empty => exact ringEmpty_rxKeeps s
  | delivered => exact rxKeeps_of_update

/-! ### The two commands -/

/-- The iterations that follow pass at most eight slots more. -/
theorem poll_rxKeeps {u : State} (hc : u.cfg.ok = true) (hf : u.fault = .none) (h : rxKeeps s j u) :
    ∃ i ≤ 8, ∃ n ≤ u.pwDevice.length + 300, ∃ t, rxKeeps s (j + i) t ∧ t.seq.isBusy = false ∧
      (u.goto (.peek .poll (c + u16 j))).leadsTo n t := by
  obtain ⟨i, hi, n, hn, v, t, keeps, stop, course⟩ := poll_stops (P := rxKeeps s) (m := 8) hc hf h
    (fun _ w id hw _ => hw.trans (dropped_rxKeeps w _ id)) (le_or_gt _ _)
  exact ⟨i, hi, n, by omega, t, keeps.trans stop.rxKeeps, stop.not_busy, course⟩

theorem pollRx_rxKeeps (hc : s.cfg.ok = true) (ha : s.accepts .pollRx) :
    ∃ j ≤ 9, ∃ t, exec .pollRx s = .next t ∧ rxKeeps s j t := by
  by_cases hr : s.ch = .ready
  · have ⟨_, hf, _, _⟩ := ha
    obtain ⟨i, hi, n, hn, t, keeps, notBusy, course⟩ := poll_rxKeeps (s := s) (u := s.pollBegun) (c := s.rxLast) hc hf
      rxKeeps_of_update
    have pending : s.pollBegun.pwDevice.length = s.pwDevice.length := rfl
    rw [add_u16_zero] at course
    exact ⟨0 + i, by omega, t, exec_of_leadsTo ha ((pollRx_leadsTo hr).trans course) (by omega) notBusy, keeps⟩
  · have start : startOf .pollRx s = s.finish .notInitialized := by simp [startOf, startPollRx, hr]
    exact ⟨0, by omega, _, exec_of_ended ha (by simp [start]), by rw [start]; exact rxKeeps_of_update⟩

/-- RX_RELEASE is accepted in a delivery only (R371). -/
theorem seq_delivering_of_accepts_rxRelease (ha : s.accepts .rxRelease) : ∃ k, s.seq = .delivering k := by
  obtain ⟨hb, -, hn, -⟩ := ha
  cases hq : s.seq with
  | idle => simp [hq, Seq.sub, nestingError, idleError] at hn
  | busy p o => simp [hq, Seq.isBusy] at hb
  | delivering k => exact ⟨k, rfl⟩

theorem rxRelease_rxKeeps (hc : s.cfg.ok = true) (ha : s.accepts .rxRelease) :
    ∃ j ≤ 9, ∃ t, exec .rxRelease s = .next t ∧ rxKeeps s j t := by
  have ⟨_, hf, _, _⟩ := ha
  obtain ⟨k, hk⟩ := seq_delivering_of_accepts_rxRelease ha
  obtain ⟨i, hi, n, hn, t, keeps, notBusy, course⟩ := poll_rxKeeps (c := k.cursor) (u := s.released k) hc hf
    (released_rxKeeps s k)
  have empty : (s.released k).pwDevice.length = 0 := rfl
  exact ⟨1 + i, by omega, t, exec_of_leadsTo ha ((rxRelease_leadsTo hc hk).trans course) (by omega) notBusy, keeps⟩

/-- A command that is not accepted is held, or ends at its acceptance (R371). -/
theorem exec_of_not_accepts {i : Instr} (ha : ¬ s.accepts i) (h : exec i s = .next t) :
    t = { s with cmd := some (encode i) } ∨ t = { s with status := .faulted } ∨ ∃ c w, t = s.raise c w := by
  cases hb : s.seq.isBusy with
  | true =>
    rw [exec_eq, runCommand, if_pos hb, Host.Outcome.next.injEq] at h
    exact .inl h.symm
  | false =>
    rw [exec_of_not_busy i hb] at h
    obtain ⟨-, e⟩ | ⟨-, c, -, e⟩ | ⟨-, -, n, -, e⟩ | ⟨hf, hn, hu, -⟩ := accept_cases i (startOf i) s
    · rw [e] at h
      exact .inr (.inl (eq_of_runAlone hb h))
    · rw [e] at h
      exact .inr (.inr ⟨_, _, eq_of_runAlone rfl h⟩)
    · rw [e] at h
      exact .inr (.inr ⟨_, _, eq_of_runAlone rfl h⟩)
    · exact absurd ⟨hb, hf, hn, hu⟩ ha

theorem exec_rxKeeps {i : Instr} (hc : s.cfg.ok = true) (hi : i = .pollRx ∨ i = .rxRelease) (h : exec i s = .next t) :
    ∃ j ≤ 9, rxKeeps s j t := by
  by_cases ha : s.accepts i
  · have runs : ∃ j ≤ 9, ∃ t, exec i s = .next t ∧ rxKeeps s j t := by
      obtain rfl | rfl := hi
      · exact pollRx_rxKeeps hc ha
      · exact rxRelease_rxKeeps hc ha
    obtain ⟨j, hj, t', h', keeps⟩ := runs
    rw [h', Host.Outcome.next.injEq] at h
    exact ⟨j, hj, h ▸ keeps⟩
  · refine ⟨0, by omega, ?_⟩
    obtain rfl | rfl | ⟨e, w, rfl⟩ := exec_of_not_accepts ha h
    · exact rxKeeps_of_update
    · exact rxKeeps_of_update
    · exact rxKeeps_of_update

/-- Settles O41: at most nine slots are passed, so the distance RX_USED has gone is their number. -/
theorem receiveFrames : Obligations.ReceiveFrames := by
  unfold Obligations.ReceiveFrames
  intro s t i hc hi h
  obtain ⟨j, hj, -, tx, ch, res2, res3, waitCnt, initSeen, rxUsed, view⟩ := exec_rxKeeps hc hi h
  have passed : gap t.rxUsed s.rxUsed = j := by
    rw [gap, rxUsed, add_sub_cancel_left, BitVec.toNat_ofNat]
    omega
  rw [passed]
  exact ⟨exec_untouched h, tx, ch, res2, res3, waitCnt, initSeen, view⟩

end Sys2Proof.Machine
end

section
/-! SUPPORT. The sequencer and the channel state fit along every step, and CH moves along its edges (10_state.md R32;
43_channel_control.md R290; 42_transport_rx.md R247; 60_exceptions.md R380, R384). A position has one channel state that its
command runs in (`Pos.channel`); a command goes on at a position of that state (`State.hosts`), or ends where CH is Ready, or
Uninitialized with nothing suspended (`State.mayEnd`). -/

namespace Sys2Proof.Machine

variable {s t : State} {p : Pos} {c : Channel}

/-! ### Positions and channel states -/

/-- The channel state that a command at this position runs in (R290). -/
def Pos.channel : Pos → Channel
  | .initPeek => .waitingForHostBuffers
  | p => if p.announces then .announcing else .ready

/-- A block without a fault may run at position p: CH is p's, and what is nested is neither INIT nor POLL_RX (R247). -/
structure State.hosts (s : State) (p : Pos) : Prop where
  fault : s.fault = .none
  ch : s.ch = p.channel
  nested : ∀ k, s.seq.outer = some k → p.channel = .ready ∧ p.pollCursor = none

/-- A block without a fault may end a command: a POLL_RX stays suspended in Ready only. -/
structure State.mayEnd (s : State) : Prop where
  fault : s.fault = .none
  ch : s.ch = .ready ∨ s.ch = .uninitialized ∧ s.seq.outer = none

theorem channel_of_announces (hp : p ≠ .initPeek) (ha : p.announces = true) : p.channel = .announcing := by
  unfold Pos.channel
  split
  · exact absurd rfl hp
  · exact if_pos ha

theorem channel_of_not_announces (hp : p ≠ .initPeek) (ha : p.announces = false) : p.channel = .ready := by
  unfold Pos.channel
  split
  · exact absurd rfl hp
  · exact if_neg (by simp [ha])

theorem channel_eq_ready (h : p.channel = .ready) : p ≠ .initPeek ∧ p.announces = false := by
  unfold Pos.channel at h
  split at h
  · cases h
  · next hp => exact ⟨hp, by simpa using h⟩

theorem channel_of_frame {f : Frame} (h : p.frame? = some f) :
    p.channel = match f.origin with
      | .frameSend => .ready
      | .announce => .announcing := by
  have hp : p ≠ .initPeek := fun e => by simp [e, Pos.frame?] at h
  cases ho : f.origin with
  | frameSend => exact channel_of_not_announces hp (by simp [Pos.announces, h, ho])
  | announce => exact channel_of_announces hp (by simp [Pos.announces, h, ho])

theorem State.hosts.outer (h : s.hosts p) (hp : p.channel ≠ .ready ∨ p.pollCursor ≠ none) : s.seq.outer = none := by
  cases ho : s.seq.outer with
  | none => rfl
  | some k =>
    obtain ⟨hc, hn⟩ := h.nested k ho
    obtain hp | hp := hp
    · exact absurd hc hp
    · exact absurd hn hp

/-- A FrameSendCore goes on in its channel state. -/
theorem State.hosts.move_frame {q : Pos} {f : Frame} (h : s.hosts p) (hp : p.frame? = some f) (hq : q.frame? = some f)
    (hn : q.pollCursor = none) : s.hosts q := by
  have same : p.channel = q.channel := by rw [channel_of_frame hp, channel_of_frame hq]
  exact ⟨h.fault, h.ch.trans same, fun k hk => ⟨same ▸ (h.nested k hk).1, hn⟩⟩

theorem State.hosts.mayEnd (h : s.hosts p) (hp : p.channel = .ready) : s.mayEnd := ⟨h.fault, .inl (h.ch.trans hp)⟩

theorem hosts_of_ready (hf : s.fault = .none) (hr : s.ch = .ready) (hp : p.channel = .ready)
    (hn : p.pollCursor = none ∨ s.seq.outer = none) : s.hosts p where
  fault := hf
  ch := hr.trans hp.symm
  nested k hk := ⟨hp, hn.resolve_right (by simp [hk])⟩

/-! ### The invariant, at a position and between commands -/

theorem State.sequencerFits.hosts {o : Option Suspended} (h : s.sequencerFits) (hq : s.seq = .busy p o) : s.hosts p where
  fault := by
    by_contra hf
    simpa [hq] using h.faulted hf
  ch := by
    by_cases hp : p = .initPeek
    · subst hp
      exact h.waiting o hq
    · cases ha : p.announces with
      | true => rw [channel_of_announces hp ha, h.announcing p o hq ha]
      | false => rw [channel_of_not_announces hp ha, h.ready p o hq hp ha]
  nested k hk := by
    rw [hq, Seq.outer] at hk
    obtain ⟨hp, ha, hn⟩ := h.nested p k (by rw [hq, hk])
    exact ⟨channel_of_not_announces hp ha, hn⟩

theorem State.sequencerFits.mayEnd (h : s.sequencerFits) (hf : s.fault = .none) (hb : s.seq.isBusy = false) : s.mayEnd where
  fault := hf
  ch := by
    cases hq : s.seq with
    | idle => exact (h.idle hf hq).symm.imp_right fun hu => ⟨hu, rfl⟩
    | busy p o => simp [hq, Seq.isBusy] at hb
    | delivering k => exact .inl (h.delivering k hq)

theorem sequencerFits_of_sameControl (hc : sameControl s t) (h : s.sequencerFits) : t.sequencerFits := by
  obtain ⟨faulted, idle, delivering, waiting, announcing, ready, nested⟩ := h
  constructor <;> simpa only [hc.fault, hc.seq, hc.ch]

/-- t's sequencer and channel state fit, and CH has come there from c along an edge, or is still c. -/
structure State.fitsAfter (t : State) (c : Channel) : Prop where
  fits : t.sequencerFits
  edge : channelEdge c t.ch = true

theorem channelEdge_self (c : Channel) : channelEdge c c = true := by cases c <;> rfl

theorem goto_sequencerFits (h : s.hosts p) : (s.goto p).sequencerFits where
  faulted hf := absurd h.fault hf
  idle _ hq := by cases hq
  delivering _ hq := by cases hq
  waiting o hq := by cases hq; exact h.ch
  announcing q o hq ha := by
    cases hq
    exact h.ch.trans (channel_of_announces (fun e => by simp [e, Pos.announces, Pos.frame?] at ha) ha)
  ready q o hq hp ha := by cases hq; exact h.ch.trans (channel_of_not_announces hp ha)
  nested q k hq := by
    obtain ⟨rfl, ho⟩ := Seq.busy.inj hq
    obtain ⟨hc, hn⟩ := h.nested k ho
    obtain ⟨hp, ha⟩ := channel_eq_ready hc
    exact ⟨hp, ha, hn⟩

theorem goto_fitsAfter (h : s.hosts p) : (s.goto p).fitsAfter s.ch := ⟨goto_sequencerFits h, channelEdge_self _⟩

/-- What a block that is not Busy has to meet. -/
theorem sequencerFits_of_not_busy (hb : t.seq.isBusy = false) (hf : t.fault ≠ .none → t.seq = .idle)
    (hi : t.fault = .none → t.seq = .idle → t.ch = .uninitialized ∨ t.ch = .ready)
    (hd : ∀ k, t.seq = .delivering k → t.ch = .ready) : t.sequencerFits where
  faulted := hf
  idle := hi
  delivering := hd
  waiting o hq := absurd hq (seq_ne_busy hb _ o)
  announcing p o hq := absurd hq (seq_ne_busy hb p o)
  ready p o hq := absurd hq (seq_ne_busy hb p o)
  nested p _ hq := absurd hq (seq_ne_busy hb p _)

theorem finish_sequencerFits (h : s.mayEnd) (st : Status) : (s.finish st).sequencerFits := by
  refine sequencerFits_of_not_busy (by simp) (absurd h.fault) (fun _ _ => ?_) fun _ hk => ?_
  · exact h.ch.symm.imp_left And.left
  · refine h.ch.resolve_right fun ⟨_, ho⟩ => ?_
    simp [Seq.returned, ho] at hk

theorem finish_fitsAfter (h : s.mayEnd) (st : Status) : (s.finish st).fitsAfter s.ch :=
  ⟨finish_sequencerFits h st, channelEdge_self _⟩

theorem raise_fitsAfter {e : FaultCause} (he : e ≠ .none) (i : Word) (s : State) : (s.raise e i).fitsAfter s.ch where
  fits := sequencerFits_of_not_busy rfl (fun _ => rfl)
    (fun hf => absurd hf (by rw [State.raise_fault]; split <;> assumption)) fun _ hk => by cases hk
  edge := channelEdge_self _

/-! ### The ends of the procedures -/

/-- INIT's announcement ends in Ready or Uninitialized (R290, R294). -/
theorem announceEnd_fitsAfter (hf : s.fault = .none) (hc : s.ch = .announcing) (ho : s.seq.outer = none) (st : Status) :
    (announceEnd st s).fitsAfter s.ch := by
  unfold announceEnd
  rw [hc]
  split
  · exact ⟨finish_sequencerFits (s := { s.setRes 1 _ with ch := .ready }) ⟨hf, .inl rfl⟩ _, rfl⟩
  · exact ⟨finish_sequencerFits (s := { s.setRes 1 _ with ch := .uninitialized }) ⟨hf, .inr ⟨rfl, ho⟩⟩ _, rfl⟩

theorem sendEnd_fitsAfter {f : Frame} (h : s.hosts p) (hp : p.frame? = some f) (st : Status) :
    (sendEnd f st s).fitsAfter s.ch := by
  have channel := channel_of_frame hp
  unfold sendEnd
  split <;> rename_i origin <;> simp only [origin] at channel
  · exact finish_fitsAfter (h.mayEnd channel) st
  · exact announceEnd_fitsAfter h.fault (h.ch.trans channel) (h.outer (.inl (by simp [channel]))) st

theorem ringEmpty_fitsAfter {w : Walk} {x : Half} (h : s.hosts (.peek w x)) : (ringEmpty w s).fitsAfter s.ch := by
  cases w with
  | acquire => exact finish_fitsAfter (h.mayEnd rfl) _
  | send f => exact sendEnd_fitsAfter h rfl _
  | poll => exact finish_fitsAfter (s := (s.setRes 0 _).setRes 1 _) ⟨h.fault, .inl h.ch⟩ _

theorem sendBytes_fitsAfter {f : Frame} (h : s.hosts p) (hp : p.frame? = some f) (id : Fin 8) (a : Nat) (bs : List Byte) :
    (sendBytes f id a bs s).fitsAfter s.ch := by
  cases bs with
  | nil => exact goto_fitsAfter (h.move_frame hp rfl rfl)
  | cons b rest => exact goto_fitsAfter (h.move_frame hp rfl rfl)

theorem dropFrame_fitsAfter (hf : s.fault = .none) (hr : s.ch = .ready) (ho : s.seq.outer = none) (x : Half) (id : Fin 8) :
    (dropFrame x id s).fitsAfter s.ch :=
  goto_fitsAfter (s := { s with rxCurFlen := 0 }) (hosts_of_ready hf hr rfl (.inr ho))

theorem envelopeRead_fitsAfter (hf : s.fault = .none) (hr : s.ch = .ready) (ho : s.seq.outer = none) (x : Half) (id : Fin 8)
    (addr dlen : Word) (b : List Byte) : (envelopeRead x id addr dlen b s).fitsAfter s.ch := by
  unfold envelopeRead
  split
  · exact ⟨sequencerFits_of_not_busy rfl (absurd hf) (fun _ hq => by cases hq) fun _ _ => hr, channelEdge_self _⟩
  · exact dropFrame_fitsAfter hf hr ho x id

theorem bufferTaken_fitsAfter {w : Walk} {x : Half} {id : Fin 8} {d : Dword} (h : s.hosts (.descLen w x id d))
    (cap addr : Word) : (bufferTaken w x id cap addr s).fitsAfter s.ch := by
  cases w with
  | acquire =>
    exact finish_fitsAfter (s := (((s.hold id addr cap).setRes 0 _).setRes 1 _).setRes 2 _) ⟨h.fault, .inl h.ch⟩ _
  | send f =>
    have held : (((s.hold id addr cap).setRes 0 (u32 id.val)).setRes 1 (u32 f.size)).hosts (.descLen (.send f) x id d) :=
      ⟨h.fault, h.ch, h.nested⟩
    have leaked : ((((s.hold id addr cap).setRes 0 (u32 id.val)).setRes 1 (u32 f.size)).leak id).hosts
        (.descLen (.send f) x id d) := ⟨h.fault, h.ch, h.nested⟩
    simp only [bufferTaken]
    split
    · exact sendEnd_fitsAfter leaked rfl _
    · exact sendBytes_fitsAfter held rfl id _ _
  | poll =>
    have ho : s.seq.outer = none := h.outer (.inr (by simp [Pos.pollCursor]))
    simp only [bufferTaken]
    split
    · exact goto_fitsAfter (s := { s with rxCurId := u16 id.val, rxCurDlen := cap }) (hosts_of_ready h.fault h.ch rfl (.inr ho))
    · exact dropFrame_fitsAfter (s := { s with rxCurId := u16 id.val, rxCurDlen := cap }) h.fault h.ch ho x id

theorem pushDone_fitsAfter {ph : PushPhase} {j : PushJob} (h : s.hosts (.push ph j)) : (pushDone j s).fitsAfter s.ch := by
  obtain ⟨kind, id, len, v⟩ := j
  cases kind with
  | publish => exact finish_fitsAfter (s := s.unhold id) ⟨h.fault, .inl h.ch⟩ _
  | send f => exact sendEnd_fitsAfter (s := s.unhold id) ⟨h.fault, h.ch, h.nested⟩ rfl _
  | poll x =>
    have ho : s.seq.outer = none := h.outer (.inr (by simp [Pos.pollCursor]))
    exact goto_fitsAfter (s := { s with rxLast := _, rxProcessed := _ }) (hosts_of_ready h.fault h.ch rfl (.inr ho))

theorem pushAfter_fitsAfter {ph : PushPhase} {j : PushJob} (h : s.hosts (.push ph j)) :
    (pushAfter ph j (pushDone j) s).fitsAfter s.ch := by
  have next (q : PushPhase) : s.hosts (.push q j) := ⟨h.fault, h.ch, h.nested⟩
  cases ph with
  | id => exact goto_fitsAfter (next _)
  | len => exact goto_fitsAfter (next _)
  | barrier1 => exact goto_fitsAfter (next _)
  | idx =>
    have used : (s.setUsed j.kind.ring (j.u + 1)).hosts (.push .barrier2 j) := by
      cases j.kind.ring <;> exact ⟨h.fault, h.ch, h.nested⟩
    have gone := goto_fitsAfter used
    rwa [State.setUsed_ch] at gone
  | barrier2 => exact pushDone_fitsAfter h

/-! ### The events -/

theorem availPeek_fitsAfter (r : Ring) (x a : Half) {k : State → State} (hk : (k s).fitsAfter s.ch) :
    (availPeek r x a k s).fitsAfter s.ch := by
  obtain ⟨-, -, e⟩ | ⟨-, e⟩ := availPeek_cases r x a k s <;> rw [e]
  · exact raise_fitsAfter (by simp) _ s
  · exact hk

/-- INIT waits on, or ends in Uninitialized (R290, R292). -/
theorem waitLoop_fitsAfter (h : s.hosts .initPeek) (hw : channelEdge c .waitingForHostBuffers = true)
    (hu : channelEdge c .uninitialized = true) : (waitLoop s).fitsAfter c := by
  have ho : s.seq.outer = none := h.outer (.inl (by simp [Pos.channel]))
  have hc : s.ch = .waitingForHostBuffers := h.ch
  unfold waitLoop
  split
  · exact ⟨goto_sequencerFits h, by rwa [State.goto_ch, hc]⟩
  · exact ⟨finish_sequencerFits (s := { s.setRes 1 _ with ch := .uninitialized }) ⟨h.fault, .inr ⟨rfl, ho⟩⟩ _, hu⟩

theorem initPeeked_fitsAfter (h : s.hosts .initPeek) (a : Half) : (initPeeked a s).fitsAfter s.ch := by
  have ho : s.seq.outer = none := h.outer (.inl (by simp [Pos.channel]))
  have hc : s.ch = .waitingForHostBuffers := h.ch
  refine availPeek_fitsAfter _ _ _ ?_
  simp only
  split
  · exact ⟨goto_sequencerFits (s := { s with waitCnt := _, ch := .announcing })
      ⟨h.fault, rfl, fun k hk => by simp [ho] at hk⟩, by rw [hc]; rfl⟩
  · exact waitLoop_fitsAfter (s := { s with waitCnt := s.waitCnt + 1 }) ⟨h.fault, h.ch, h.nested⟩ (by rw [hc]; rfl)
      (by rw [hc]; rfl)

theorem resume_fitsAfter (h : s.hosts p) (v : Nat) : (p.resume v s).fitsAfter s.ch := by
  cases p with
  | initPeek => exact initPeeked_fitsAfter h _
  | peek w x =>
    simp only [Pos.resume]
    refine availPeek_fitsAfter _ _ _ ?_
    split
    · exact ringEmpty_fitsAfter h
    · exact goto_fitsAfter ⟨h.fault, h.ch, h.nested⟩
  | slot w x =>
    simp only [Pos.resume]
    obtain ⟨-, e⟩ | ⟨id, -, ⟨-, -, e⟩ | ⟨-, e⟩⟩ :=
      takeSlot_cases w.ring (u16 v) (fun id s => (advanceOnTake w x s).goto (.descAddr w x id)) s <;> rw [e]
    · exact raise_fitsAfter (by simp) _ s
    · exact raise_fitsAfter (by simp) _ s
    · cases w <;> exact goto_fitsAfter (s := advanceOnTake _ x s) ⟨h.fault, h.ch, h.nested⟩
  | descAddr w x id => exact goto_fitsAfter ⟨h.fault, h.ch, h.nested⟩
  | descLen w x id addr =>
    simp only [Pos.resume]
    obtain ⟨-, e⟩ | ⟨-, e⟩ := readDesc_cases w.ring addr (u32 v) (bufferTaken w x id (u32 v)) s <;> rw [e]
    · exact raise_fitsAfter (by simp) _ s
    · exact bufferTaken_fitsAfter h _ _
  | txByte f id addr b rest => exact sendBytes_fitsAfter h rfl id _ rest
  | rxEnv x id addr dlen got =>
    have ho : s.seq.outer = none := h.outer (.inr (by simp [Pos.pollCursor]))
    simp only [Pos.resume]
    split
    · exact goto_fitsAfter ⟨h.fault, h.ch, h.nested⟩
    · exact envelopeRead_fitsAfter h.fault h.ch ho x id addr dlen _
  | push ph j => exact pushAfter_fitsAfter h

/-! ### Acceptance -/

/-- INIT, SHUTDOWN and POLL_RX begin while nothing is suspended (R247). -/
theorem outer_of_unnested {i : Instr} (hi : i = .init ∨ i = .shutdown ∨ i = .pollRx) (hb : s.seq.isBusy = false)
    (h : nestingError s.seq.sub i = none) : s.seq.outer = none := by
  cases hq : s.seq with
  | idle => rfl
  | busy p o => simp [hq, Seq.isBusy] at hb
  | delivering k => obtain rfl | rfl | rfl := hi <;> simp [hq, Seq.sub, nestingError, deliveringError] at h

theorem startInit_fitsAfter (h : s.mayEnd) (ho : s.seq.outer = none) : (startInit s).fitsAfter s.ch := by
  unfold startInit
  split
  · next hu =>
    rw [hu]
    exact waitLoop_fitsAfter ⟨h.fault, rfl, fun k hk => by simp [ho] at hk⟩ rfl rfl
  · exact finish_fitsAfter h _

theorem startShutdown_fitsAfter (h : s.mayEnd) (ho : s.seq.outer = none) : (startShutdown s).fitsAfter s.ch := by
  unfold startShutdown
  split
  · next hr =>
    rw [hr]
    exact ⟨finish_sequencerFits (s := { s with ch := .uninitialized }) ⟨h.fault, .inr ⟨rfl, ho⟩⟩ _, rfl⟩
  · exact finish_fitsAfter h _

theorem startPublishTx_fitsAfter (h : s.mayEnd) : (startPublishTx s).fitsAfter s.ch := by
  unfold startPublishTx
  repeat' split
  · exact raise_fitsAfter (by simp) _ s
  · exact raise_fitsAfter (by simp) _ s
  · exact goto_fitsAfter (hosts_of_ready h.fault ‹_› rfl (.inl rfl))
  · exact raise_fitsAfter (by simp) _ s
  · exact raise_fitsAfter (by simp) _ s
  · exact finish_fitsAfter h _

theorem startFrameSend_fitsAfter (h : s.mayEnd) : (startFrameSend s).fitsAfter s.ch := by
  unfold startFrameSend
  repeat' split
  · exact raise_fitsAfter (by simp) _ s
  · exact goto_fitsAfter (hosts_of_ready h.fault ‹_› rfl (.inl rfl))
  · exact finish_fitsAfter h _

theorem startOf_fitsAfter (i : Instr) (hs : s.sequencerFits) (hf : s.fault = .none) (hb : s.seq.isBusy = false)
    (hn : nestingError s.seq.sub i = none) : (startOf i s).fitsAfter s.ch := by
  have h := hs.mayEnd hf hb
  cases i with
  | init => exact startInit_fitsAfter h (outer_of_unnested (.inl rfl) hb hn)
  | shutdown => exact startShutdown_fitsAfter h (outer_of_unnested (.inr (.inl rfl)) hb hn)
  | acquireTx =>
    simp only [startOf, startAcquireTx]
    split
    · exact goto_fitsAfter (hosts_of_ready hf ‹_› rfl (.inl rfl))
    · exact finish_fitsAfter h _
  | publishTx => exact startPublishTx_fitsAfter h
  | frameSend => exact startFrameSend_fitsAfter h
  | pollRx =>
    have ho := outer_of_unnested (.inr (.inr rfl)) hb hn
    simp only [startOf, startPollRx]
    split
    · exact goto_fitsAfter (s := { s with rxProcessed := 0, rxDelivered := 0 }) (hosts_of_ready hf ‹_› rfl (.inr ho))
    · exact finish_fitsAfter h _
  | rxRelease =>
    simp only [startOf, startRxRelease]
    split
    · next k hq =>
      exact goto_fitsAfter (s := { s with seq := .idle, rxDelivered := _ })
        (hosts_of_ready hf (hs.delivering k hq) rfl (.inr rfl))
    · exact ⟨hs, channelEdge_self _⟩
  | query => exact finish_fitsAfter (s := s.setRes 0 _) ⟨h.fault, h.ch⟩ _

theorem fitsAfter_of_sameControl (hc : sameControl s t) (h : s.sequencerFits) : t.fitsAfter s.ch :=
  ⟨sequencerFits_of_sameControl hc h, by rw [hc.ch]; exact channelEdge_self _⟩

theorem accept_fitsAfter (i : Instr) (hs : s.sequencerFits) (hb : s.seq.isBusy = false) :
    (accept i (startOf i) s).fitsAfter s.ch := by
  obtain ⟨-, e⟩ | ⟨-, d, -, e⟩ | ⟨-, -, n, -, e⟩ | ⟨hf, hn, -, e⟩ := accept_cases i (startOf i) s <;> rw [e]
  · exact fitsAfter_of_sameControl (by constructor <;> rfl) hs
  · exact raise_fitsAfter (by simp) _ s
  · exact raise_fitsAfter (by simp) _ s
  · exact startOf_fitsAfter i hs hf hb hn

/-! ### Every step -/

theorem sequencerFits_blockInvariant : BlockInvariant State.sequencerFits where
  same := sequencerFits_of_sameControl
  event v hq hs := (resume_fitsAfter (hs.hosts hq) v).fits
  accepted i hb hs := (accept_fitsAfter i hs hb).fits

theorem hardwareReset_sequencerFits (s : State) : (hardwareReset s).sequencerFits :=
  sequencerFits_of_not_busy rfl (fun hf => absurd rfl hf) (fun _ _ => .inl rfl) fun k hk => by cases hk

/-- Settles O50: every event of a running command, every acceptance and a reset keep the sequencer and the channel state fitting,
and no other move touches either. -/
theorem stepsKeepTheSequencerFitting : Obligations.StepsKeepTheSequencerFitting := by
  unfold Obligations.StepsKeepTheSequencerFitting
  intro s t hs h
  exact sequencerFits_blockInvariant.keeps_step (fun _ _ => hardwareReset_sequencerFits _) hs h

/-! ### The edges of CH -/

theorem blockStep_channelEdge (hs : s.sequencerFits) (h : blockStep s = .next t) : channelEdge s.ch t.ch = true := by
  obtain ⟨-, rfl⟩ | ⟨p, o, hq, hp⟩ := blockStep_next h
  · exact channelEdge_self _
  · have host := hs.hosts hq
    obtain ⟨x, n, -, -, rfl⟩ | ⟨x, bs, -, -, rfl⟩ | ⟨-, -, rfl⟩ | ⟨-, -, rfl⟩ := hp
    · exact (resume_fitsAfter host _).edge
    · exact (resume_fitsAfter (s := s.issueWrite .device x bs) ⟨host.fault, host.ch, host.nested⟩ 0).edge
    · exact (resume_fitsAfter host _).edge
    · exact channelEdge_self _

theorem acceptWord_channelEdge (w : Word) (hb : s.seq.isBusy = false) (hs : s.sequencerFits) :
    channelEdge s.ch (acceptWord w s).ch = true := by
  unfold acceptWord
  split
  · exact (accept_fitsAfter _ hs hb).edge
  · exact channelEdge_self _

theorem blockTurn_channelEdge (hs : s.sequencerFits) (h : blockTurn s = .next t) : channelEdge s.ch t.ch = true := by
  obtain ⟨-, hb⟩ | ⟨hb, w, -, rfl⟩ | ⟨-, -, rfl⟩ := blockTurn_next h
  · exact blockStep_channelEdge hs hb
  · exact acceptWord_channelEdge (s := { s with cmd := none }) w hb (sequencerFits_of_sameControl (by constructor <;> rfl) hs)
  · exact channelEdge_self _

/-- Settles O16: the block's turn moves CH along an edge, and every other move but a reset leaves the control state. -/
theorem channelMovesAlongItsEdges : Obligations.ChannelMovesAlongItsEdges := by
  unfold Obligations.ChannelMovesAlongItsEdges
  refine ⟨fun s t hs h => blockTurn_channelEdge hs h, fun s t m hblock hreset h => ?_⟩
  obtain ⟨hm, -⟩ | ⟨hm, -⟩ | hc := performAct_control h
  · exact absurd hm hblock
  · exact absurd hm hreset
  · exact hc.ch

end Sys2Proof.Machine
end

section
/-! SUPPORT. Channel control (43_channel_control.md R290 to R298): an illegal command word, SHUTDOWN and QUERY, which have no event,
and INIT: of a channel that runs already, and alone to each end of its announcement. -/

namespace Sys2Proof.Machine

variable {s t : State} {i : Instr} {id : Fin 8}

/-! ### An illegal word (R298) -/

theorem runWord_of_error {w : Word} {e : DecodeError} (h : decodeWord w = .error e) (s : State) :
    runWord w s = .next (illegalWord s) := by
  simp [runWord, h]

theorem block_of_error {w : Word} {e : DecodeError} (hb : s.seq.isBusy = false) (hw : s.cmd = some w)
    (h : decodeWord w = .error e) : performAct .block s = .next (illegalWord { s with cmd := none }) := by
  simp [performAct, blockTurn, acceptWord, hb, hw, h]

/-- Settles O5: the quiet step runs the word, and the scheduled turn accepts it; either way the decoder's error decides. -/
theorem illegalWordChangesStatusOnly : Obligations.IllegalWordChangesStatusOnly := by
  unfold Obligations.IllegalWordChangesStatusOnly
  refine fun s w e hc hb hw he => ⟨fun ha hy => ?_, fun rest ha => ?_⟩
  · rw [step_of_quiet hc ha hy, quietStep_of_cmd hb hw, runWord_of_error he]
    rfl
  · rw [step_of_acts hc ha, block_of_error (s := { s with acts := rest }) hb hw he]
    rfl

/-! ### The commands without an event -/

/-- A nesting error is what exec answers (R371 step 4). -/
theorem exec_of_nestingError {e : ClientError} (hf : s.fault = .none) (hn : nestingError s.seq.sub i = some e) :
    exec i s = .next (s.stopped (.clientProtocol e) (u32 i.opcode)) := by
  have hb : s.seq.isBusy = false := by
    cases hq : s.seq with
    | idle => rfl
    | busy p o => simp [hq, Seq.sub, nestingError] at hn
    | delivering k => rfl
  have accepted : accept i (startOf i) s = s.stopped (.clientProtocol e) (u32 i.opcode) := by
    simp [accept, State.raise, State.stopped, hf, hn]
  rw [exec_of_not_busy i hb, accepted]
  exact drive_of_not_busy _ rfl

/-- A command whose pseudocode ends before its first event. -/
theorem exec_of_finish {u : State} {st : Status} (ha : s.accepts i) (hs : startOf i s = u.finish st) (hq : u.seq = s.seq) :
    exec i s = .next { u with status := st } := by
  have ⟨hb, _, _, _⟩ := ha
  rw [exec_of_ended ha (by simp [hs]), hs, State.finish, returned_of_not_busy (by rwa [hq])]

/-- Settles O10: accepted, SHUTDOWN ends before any event; in a delivery acceptance faults. -/
theorem shutdownLeavesReady : Obligations.ShutdownLeavesReady := by
  unfold Obligations.ShutdownLeavesReady
  refine fun s => ⟨fun ha => ?_, fun hf hd => ?_⟩
  · split
    · next hr => exact exec_of_finish ha (u := { s with ch := .uninitialized }) (by simp [startOf, startShutdown, hr]) rfl
    · next hr => exact exec_of_finish ha (by simp [startOf, startShutdown, hr]) rfl
  · exact exec_of_nestingError hf (by rw [hd]; rfl)

/-- QUERY is accepted in every state, during Delivering too (R297). -/
theorem accepts_query (hb : s.seq.isBusy = false) (hf : s.fault = .none) : s.accepts .query :=
  ⟨hb, hf, by cases s.seq.sub <;> rfl, rfl⟩

/-- Settles O11: QUERY ends before any event. -/
theorem queryReportsReadiness : Obligations.QueryReportsReadiness := by
  unfold Obligations.QueryReportsReadiness
  exact fun s hb hf => exec_of_finish (accepts_query hb hf) (u := s.setRes 0 _) rfl rfl

/-- Settles O12: INIT ends before any event where CH is not Uninitialized. -/
theorem initOfARunningChannelDoesNothing : Obligations.InitOfARunningChannelDoesNothing := by
  unfold Obligations.InitOfARunningChannelDoesNothing
  exact fun s ha hu => exec_of_finish ha (by simp [startOf, startInit, hu]) rfl

/-! ### The announcement (R116, R293) -/

theorem nameFits_of_ok {c : Config} (hc : c.ok = true) : c.nameFits = true := by simp_all [Config.ok]

theorem announcement_size {c : Config} (hn : c.nameFits = true) : (announcement c).size = 56 := by
  simp [Frame.size, announcement, nsPayload_length c hn]

theorem sendEnd_announcement (c : Config) (st : Status) (s : State) : sendEnd (announcement c) st s = announceEnd st s := rfl

/-- The 56 bytes of the announcement. -/
theorem announcement_bytes {c : Config} (hn : c.nameFits = true) :
    (announcement c).bytes =
      bytesOf c.localAddr.toNat 4 ++ bytesOf c.nsAddr.toNat 4 ++ [0, 0, 0, 0] ++ [40, 0] ++ [0, 0] ++
        (c.serviceName ++ List.replicate (32 - c.serviceName.length) 0 ++ bytesOf c.localAddr.toNat 4 ++ [0, 0, 0, 0]) := by
  rw [Frame.bytes, announcement, nsPayload_length c hn]
  rfl

/-- INIT at the first event of its announcement, n reads after its begin (R291, R292). -/
def State.initAnnouncing (s : State) (n : Nat) : State := { s.initWaiting with waitCnt := n, ch := .announcing }

theorem sameRing_initAnnouncing (s : State) (n : Nat) : sameRing .tx s (s.initAnnouncing n) :=
  sameRing_of_sameMemory .tx rfl ⟨rfl, rfl⟩

theorem sameRing_initWaiting (s : State) : sameRing .tx s s.initWaiting := sameRing_of_sameMemory .tx rfl ⟨rfl, rfl⟩

/-- INIT's announcement has taken id's buffer (R211). -/
def State.announceTaken (s : State) (id : Fin 8) : State :=
  (({ s.initAnnouncing 1 with txLast := 1 }.hold id ((s.descAddrSeen .tx id).setWidth 32) (s.descLenSeen .tx id)).setRes 0
    (u32 id.val)).setRes 1 56

/-- And its bytes are pending behind what was. -/
def State.announceWritten (s : State) (id : Fin 8) : State :=
  { s.announceTaken id with
    pwDevice := s.pwDevice ++ byteWrites (s.descAddrSeen .tx id).toNat (announcement s.cfg).bytes }

section
variable (hc : s.cfg.ok = true) (hu : s.ch = .uninitialized) (ho : s.offers .tx 0 id) (hb : s.bufferOk .tx id = true)
include hc hu ho hb

/-- The first read of the wait finds the grant, and the announcement walks to its buffer. -/
theorem init_leadsTo_taken :
    (startOf .init s).leadsTo 5 (bufferTaken (.send (announcement s.cfg)) 0 id (s.descLenSeen .tx id)
      ((s.descAddrSeen .tx id).setWidth 32) { s.initAnnouncing 1 with txLast := 1 }) := by
  have waiting := sameRing_initWaiting s
  have announcing := sameRing_initAnnouncing s 1
  have ⟨ha, hg, _⟩ := ho
  have wait := initWait_leadsTo (s := s.initWaiting) hc (by rwa [waiting.availIdx]) (by rwa [waiting.availIdx])
  have walk := walk_leadsTo_bufferTaken (s := s.initAnnouncing 1) (w := .send (announcement s.cfg)) hc
    (announcing.offers.mpr ho) (.inr (by simp [State.isHeld, State.initAnnouncing, State.initWaiting]))
    ((announcing.bufferOk id).trans hb)
  rw [show Walk.ring (.send (announcement s.cfg)) = .tx from rfl, announcing.descAddr, announcing.descLen] at walk
  rw [startOf_init hc hu]
  exact wait.trans walk

/-- An announcement that does not fit is the end of INIT: nothing has been stored (R294). -/
theorem init_leadsTo_leaked (hn : (s.descLenSeen .tx id).toNat < 56) :
    (startOf .init s).leadsTo 5 (announceEnd .payloadTooLarge ((s.announceTaken id).leak id)) := by
  have taken := init_leadsTo_taken hc hu ho hb
  rw [bufferTaken, announcement_size (nameFits_of_ok hc), if_pos (.inr hn)] at taken
  exact taken

/-- An announcement that fits is pending behind what was, and is then returned by a UsedPush. -/
theorem init_leadsTo_written (hn : 56 ≤ (s.descLenSeen .tx id).toNat) :
    (startOf .init s).leadsTo (5 + 56) (usedPush (.send (announcement s.cfg)) id 56 (s.announceWritten id)) := by
  have names := nameFits_of_ok hc
  have taken := init_leadsTo_taken hc hu ho hb
  obtain ⟨addr, window⟩ := bufferInWindow_spec hb
  have length : (announcement s.cfg).bytes.length = 56 := by rw [Frame.bytes_length, announcement_size names]
  have payload : (announcement s.cfg).payload.length = 40 := nsPayload_length s.cfg names
  rw [bufferTaken, announcement_size names, payload, if_neg (by omega), addr] at taken
  have bytes := sendBytes_leadsTo (s := s.announceTaken id) (announcement s.cfg) id (a := (s.descAddrSeen .tx id).toNat)
    (bs := (announcement s.cfg).bytes) (inWindow_mono window (by omega) (by omega))
  rw [length, announcement_size names] at bytes
  exact taken.trans bytes

end

/-- Settles O14: the wait's first read, the course of the announcement, its UsedPush, and INIT's end. -/
theorem initAnnouncesTheEndpoint : Obligations.InitAnnouncesTheEndpoint := by
  unfold Obligations.InitAnnouncesTheEndpoint
  intro s id hc ha hu ho hb hn
  have ⟨idle, _, _, _⟩ := ha
  have written := init_leadsTo_written hc hu ho hb hn
  have push := usedPush_leadsTo (s := s.announceWritten id) hc (.send (announcement s.cfg)) id 56
  have held : clearBit (setBit 0 id) id = 0 := clearBit_setBit (by simp)
  have course := written.trans push
  simp only [pushDone, sendEnd_announcement, announceEnd, if_true, State.finish, State.unhold, State.pushed, PushKind.ring,
    State.setUsed, State.used, State.announceWritten, State.announceTaken, State.initAnnouncing, State.initWaiting,
    State.hold, State.setRes, Vector.set_set, returned_of_not_busy idle, held] at course
  rw [← announcement_bytes (nameFits_of_ok hc)]
  refine exec_of_leadsTo ha course ?_ idle
  rw [List.length_append, byteWrites_length, Frame.bytes_length, announcement_size (nameFits_of_ok hc)]
  omega

/-- A read of INIT's wait. -/
theorem blockStep_initPeek (hc : s.cfg.ok = true) :
    blockStep (s.goto .initPeek) = .next (initPeeked (s.availIdxSeen .tx) (s.goto .initPeek)) :=
  blockStep_ringRead hc (by simp) rfl

/-- A TX avail.idx out of range is a fault at the wait's first read (R160). -/
theorem init_leadsTo_desync (hc : s.cfg.ok = true) (hf : s.fault = .none) (hu : s.ch = .uninitialized)
    (hg : ringN < gap (s.availIdxSeen .tx) 0) :
    (startOf .init s).leadsTo 1 (s.initWaiting.stopped (.desync .tx) (u32 ((s.availIdxSeen .tx).toNat * 65536))) := by
  have ne : s.availIdxSeen .tx ≠ 0 := fun e => by simp [e, gap] at hg
  have stops : initPeeked (s.initWaiting.availIdxSeen .tx) (s.initWaiting.goto .initPeek) =
      s.initWaiting.stopped (.desync .tx) (u32 ((s.availIdxSeen .tx).toNat * 65536)) := by
    rw [(sameRing_initWaiting s).availIdx, initPeeked, availPeek, if_pos (by exact ⟨ne, hg⟩),
      raise_goto_eq_stopped (by exact hf), append_eq_u32, Nat.mul_comm]
    simp [State.initWaiting]
  rw [startOf_init hc hu]
  exact walkStep_leadsTo rfl ((blockStep_initPeek (s := s.initWaiting) hc).trans (congrArg _ stops))

/-- Settles O15: a leaked buffer is the end of INIT, and a fault is one at its wait's first read. -/
theorem initFailsWithoutAnnouncing : Obligations.InitFailsWithoutAnnouncing := by
  unfold Obligations.InitFailsWithoutAnnouncing
  intro s hc ha hu
  have ⟨idle, hf, _, _⟩ := ha
  refine ⟨fun id ho hb hn => ?_, fun hg => ?_⟩
  · have leaked := init_leadsTo_leaked hc hu ho hb hn
    simp only [announceEnd, reduceCtorEq, if_false, State.finish, State.announceTaken, State.initAnnouncing, State.initWaiting,
      State.hold, State.setRes, State.leak, Vector.set_set, returned_of_not_busy idle] at leaked
    rw [← hu] at leaked
    exact exec_of_leadsTo ha leaked (by omega) idle
  · exact exec_of_leadsTo ha (init_leadsTo_desync hc hf hu hg) (by omega) rfl

end Sys2Proof.Machine
end

section
/-! SUPPORT. The frame of INIT (43_channel_control.md R291, R293; 41_framing.md R211): what it leaves as it is, whatever its outcome
and wherever the windows lie. Its wait changes WAIT_CNT only, and its announcement is a FrameSendCore (`sendKeeps`) up to its end. -/

namespace Sys2Proof.Machine

variable {s t u v : State} {f : Frame} {p : Pos}

/-! ### A FrameSendCore up to its end -/

/-- t stands in the FrameSendCore of f that began at s, or the core has just ended there. -/
def sendKeepsOrEnds (f : Frame) (s t : State) : Prop :=
  sendKeeps f s t ∨ ∃ w st, sendRegs s w ∧ t = sendEnd f st w

theorem bufferTaken_sendKeepsOrEnds {id : Fin 8} {addr cap : Word} (c : Half) (h : sendRegs s u) (hu : u.txUsed = s.txUsed)
    (hid : id.val = (s.slotSeen .tx s.txLast).toNat) (ha : addr.toNat = (s.descAddrSeen .tx id).toNat) :
    sendKeepsOrEnds f s (bufferTaken (.send f) c id cap addr u) := by
  have latched := setRes_sendRegs (u := u.hold id addr cap) h (u32 id.val) (u32 f.size)
  simp only [bufferTaken]
  split
  · exact .inr ⟨_, _, by exact latched, rfl⟩
  · exact .inl (sendBytes_sendKeeps latched hu hid ha.ge (by rw [ha, Frame.bytes_length]))

/-- What follows each event of a FrameSendCore, given the value that the device sees where it reads. -/
theorem resume_sendKeepsOrEnds {n : Nat} (h : sendRegs s u) (hp : p.sends f s u)
    (hn : ∀ a k, p.event u.cfg = .read a k → n = u.valueSeen .device a k) : sendKeepsOrEnds f s (p.resume n u) := by
  have hc : u.cfg = s.cfg := h.1
  cases hp with
  | peek hm hu =>
    simp only [Pos.resume]
    obtain ⟨-, -, e⟩ | ⟨-, e⟩ := availPeek_cases (Walk.send f).ring s.txLast (u16 n)
      (fun w => if u16 n = s.txLast then ringEmpty (.send f) w else w.goto (.slot (.send f) s.txLast)) u <;> rw [e]
    · exact .inl (raise_sendKeeps h _ _)
    · split
      · exact .inr ⟨u, _, h, rfl⟩
      · exact .inl (goto_sendKeeps h (.slot hm hu))
  | slot hm hu =>
    have seen : u16 n = s.slotSeen .tx s.txLast := by
      rw [← (sameRing_of_sameMemory .tx hc hm).slot, hn _ _ rfl]
      rfl
    simp only [Pos.resume, seen]
    obtain ⟨-, e⟩ | ⟨id, hid, ⟨-, -, e⟩ | ⟨-, e⟩⟩ := takeSlot_cases (Walk.send f).ring (s.slotSeen .tx s.txLast)
      (fun id w => (advanceOnTake (.send f) s.txLast w).goto (.descAddr (.send f) s.txLast id)) u <;> rw [e]
    · exact .inl (raise_sendKeeps h _ _)
    · exact .inl (raise_sendKeeps h _ _)
    · exact .inl (goto_sendKeeps (by exact h) (.descAddr (by exact hm) (by exact hu) hid.symm))
  | @descAddr hm hu id hid =>
    have seen : BitVec.ofNat 64 n = s.descAddrSeen .tx id := by
      rw [← (sameRing_of_sameMemory .tx hc hm).descAddr, hn _ _ rfl]
      rfl
    simp only [Pos.resume, seen]
    exact .inl (goto_sendKeeps h (.descLen (by exact hm) (by exact hu) hid))
  | @descLen hm hu id hid =>
    simp only [Pos.resume]
    obtain ⟨-, e⟩ | ⟨hw, e⟩ := readDesc_cases (Walk.send f).ring (s.descAddrSeen .tx id) (u32 n)
      (bufferTaken (.send f) s.txLast id (u32 n)) u <;> rw [e]
    · exact .inl (raise_sendKeeps h _ _)
    · exact bufferTaken_sendKeepsOrEnds _ h hu hid (bufferInWindow_spec hw).1
  | txByte hu hid hlo hhi => exact .inl (sendBytes_sendKeeps h hu hid (by omega) (by omega))
  | push ph id len =>
    cases ph with
    | id => exact .inl (goto_sendKeeps h (.push .len id len))
    | len => exact .inl (goto_sendKeeps h (.push .barrier1 id len))
    | barrier1 => exact .inl (goto_sendKeeps h (.push .idx id len))
    | idx => exact .inl (goto_sendKeeps (by exact h) (.push .barrier2 id len))
    | barrier2 => exact .inr ⟨u.unhold id, _, by exact h, rfl⟩

/-- A step of the block alone stays in the FrameSendCore or ends it. -/
theorem soloStep_sendKeepsOrEnds (hu : sendKeeps f s u) (h : soloStep u = .next v) : sendKeepsOrEnds f s v := by
  obtain ⟨regs, runs⟩ := hu
  obtain ⟨p, o, hq, he, hc⟩ | hb := soloStep_next h
  · obtain ⟨w, -, -, rfl⟩ := commit_some hc
    refine .inl ⟨regs, fun p' o' hq' => ?_⟩
    obtain ⟨rfl, rfl⟩ := Seq.busy.inj (hq.symm.trans hq')
    exact (runs p o hq).move (by simp [he]) rfl
  · obtain ⟨-, rfl⟩ | ⟨p, o, hq, ⟨x, n, he, -, rfl⟩ | ⟨x, bs, he, -, rfl⟩ | ⟨he, -, rfl⟩ | ⟨-, -, rfl⟩⟩ :=
      blockStep_next hb
    · exact .inl ⟨regs, runs⟩
    · refine resume_sendKeepsOrEnds regs (runs p o hq) fun a k hr => ?_
      obtain ⟨rfl, rfl⟩ := Event.read.inj (he.symm.trans hr)
      rfl
    · have issued : p.sends f s (u.issueWrite .device x bs) := (runs p o hq).move (by simp [he]) rfl
      exact resume_sendKeepsOrEnds (by exact regs) issued (by simp [he])
    · exact resume_sendKeepsOrEnds regs (runs p o hq) (by simp [he])
    · exact .inl ⟨regs, runs⟩

/-! ### INIT -/

/-- The registers that an INIT leaves as they are. -/
def initRegs (s t : State) : Prop :=
  sameDlv s t ∧ t.res[2] = s.res[2] ∧ t.res[3] = s.res[3] ∧ t.rxCurId = s.rxCurId ∧ t.rxCurDlen = s.rxCurDlen ∧
  t.rxCurFlen = s.rxCurFlen ∧ t.rxProcessed = s.rxProcessed ∧ t.rxDelivered = s.rxDelivered

/-- What INIT keeps in memory: every byte outside the first offered buffer's first bytes, the used entry at slot 0 and
used.idx. -/
def initView (s t : State) : Prop := sendView (announcement s.cfg) s.initWaiting t

/-- INIT, begun at s and alone, has come to t: it waits, having counted n reads; its announcement, begun after n reads, runs; or it
has ended. -/
inductive InitRun (s : State) : State → Prop where
  | waits (n : Nat) : InitRun s ({ s.initWaiting with waitCnt := n }.goto .initPeek)
  | announces {n : Nat} {t : State} (keeps : sendKeeps (announcement s.cfg) (s.initAnnouncing n) t) (view : initView s t) :
      InitRun s t
  | ended {t : State} (regs : initRegs s t) (view : initView s t) (ends : t.seq.isBusy = false) : InitRun s t

theorem initRegs_of_sendRegs {n : Nat} (h : sendRegs (s.initAnnouncing n) t) : initRegs s t := by
  obtain ⟨-, ⟨-, -, rxCurId, rxCurDlen, rxCurFlen, rxProcessed, rxDelivered⟩, dlv, -, res2, res3, -, -⟩ := h
  exact ⟨dlv, res2, res3, rxCurId, rxCurDlen, rxCurFlen, rxProcessed, rxDelivered⟩

theorem initView_of_sameMemory (h : sameMemory s t) : initView s t := fun x _ _ => byteSeen_of_sameMemory h x

theorem InitRun.frame (h : InitRun s t) : initRegs s t ∧ initView s t := by
  cases h with
  | waits n => exact ⟨by simp [initRegs, sameDlv, State.initWaiting], initView_of_sameMemory ⟨rfl, rfl⟩⟩
  | announces keeps view => exact ⟨initRegs_of_sendRegs keeps.regs, view⟩
  | ended regs view ends => exact ⟨regs, view⟩

theorem waitLoop_goto (p : Pos) (s : State) : waitLoop (s.goto p) = waitLoop s := by
  unfold waitLoop
  by_cases h : s.waitCnt < s.cfg.initBudget
  · rw [if_pos h, if_pos (by exact h)]
    rfl
  · rw [if_neg h, if_neg (by exact h)]
    rfl

/-- Another read, or the budget is used up (R292). -/
theorem waitLoop_initRun (s : State) (n : Nat) : InitRun s (waitLoop { s.initWaiting with waitCnt := n }) := by
  unfold waitLoop
  split
  · exact .waits n
  · exact .ended (by simp [initRegs, sameDlv, State.initWaiting]) (initView_of_sameMemory ⟨rfl, rfl⟩) (by simp)

/-- What follows a read of the wait. -/
theorem initPeeked_initRun (s : State) (n : Nat) (a : Half) :
    InitRun s (initPeeked a ({ s.initWaiting with waitCnt := n }.goto .initPeek)) := by
  unfold initPeeked
  obtain ⟨-, -, e⟩ | ⟨-, e⟩ := availPeek_cases .tx 0 a (fun w =>
    let w := { w with waitCnt := w.waitCnt + 1 }
    if a ≠ w.txLast then announceStart w else waitLoop w) ({ s.initWaiting with waitCnt := n }.goto .initPeek)
  · refine e ▸ .ended (by simp [initRegs, sameDlv, State.initWaiting]) (initView_of_sameMemory ⟨rfl, rfl⟩) rfl
  · refine e ▸ ?_
    simp only
    split
    · exact .announces (n := n + 1) (goto_sendKeeps (.refl _) (.peek ⟨rfl, rfl⟩ rfl)) (initView_of_sameMemory ⟨rfl, rfl⟩)
    · have again := waitLoop_initRun s (n + 1)
      rwa [← waitLoop_goto .initPeek] at again

theorem announceEnd_initRegs {n : Nat} (h : sendRegs (s.initAnnouncing n) u) (st : Status) :
    initRegs s (announceEnd st u) := by
  have regs := initRegs_of_sendRegs h
  unfold announceEnd
  split <;> simpa [initRegs, sameDlv] using regs

theorem announceEnd_not_busy (st : Status) (s : State) : (announceEnd st s).seq.isBusy = false := by
  unfold announceEnd
  split <;> simp

theorem soloStep_initRun (hu : InitRun s u) (h : soloStep u = .next v) : InitRun s v := by
  cases hu with
  | waits n =>
    have reads (p : Pos) (o : Option Suspended) (hq : (State.goto { s.initWaiting with waitCnt := n } .initPeek).seq = .busy p o) :
        p = .initPeek := (Seq.busy.inj hq).1.symm
    obtain rfl | ⟨p, o, m, hq, rfl⟩ := soloStep_of_reading (fun p o hq => by rw [reads p o hq]; exact ⟨_, _, rfl⟩) h
    · exact .waits n
    · rw [reads p o hq]
      exact initPeeked_initRun s n _
  | announces keeps view =>
    have view' := soloStep_sendView keeps view h
    obtain keeps' | ⟨w, st, regs, rfl⟩ := soloStep_sendKeepsOrEnds keeps h
    · exact .announces keeps' view'
    · exact .ended (announceEnd_initRegs regs st) view' (announceEnd_not_busy st w)
  | ended regs view ends =>
    obtain rfl | ⟨p, o, _, hq, -⟩ := soloStep_of_reading (fun p o hq => absurd hq (seq_ne_busy ends p o)) h
    · exact .ended regs view ends
    · exact absurd hq (seq_ne_busy ends p o)

theorem startOf_init_initRun (s : State) : InitRun s (startOf .init s) := by
  simp only [startOf, startInit]
  split
  · exact waitLoop_initRun s 0
  · exact .ended (by simp [initRegs, sameDlv]) (initView_of_sameMemory ⟨rfl, rfl⟩) (by simp)

theorem exec_init_frame (h : exec .init s = .next t) : initRegs s t ∧ initView s t := by
  obtain rfl | rfl | ⟨c, w, rfl⟩ | h := exec_cases h
  · exact ⟨by simp [initRegs, sameDlv], initView_of_sameMemory ⟨rfl, rfl⟩⟩
  · exact ⟨by simp [initRegs, sameDlv], initView_of_sameMemory ⟨rfl, rfl⟩⟩
  · exact ⟨by simp [initRegs, sameDlv], initView_of_sameMemory ⟨rfl, rfl⟩⟩
  · exact (drive_induction (P := InitRun s) (fun _ _ => soloStep_initRun) (startOf_init_initRun s) h).frame

/-- Settles O40: INIT's events are the reads of its wait and those of one FrameSendCore. -/
theorem initFrame : Obligations.InitFrame := by
  unfold Obligations.InitFrame
  intro s t hn h
  obtain ⟨⟨dlv, res2, res3, rxCurId, rxCurDlen, rxCurFlen, rxProcessed, rxDelivered⟩, view⟩ := exec_init_frame h
  rw [initView, sendView, announcement_size hn] at view
  exact ⟨exec_untouched h, dlv, res2, res3, rxCurId, rxCurDlen, rxCurFlen, rxProcessed, rxDelivered, view⟩

end Sys2Proof.Machine
end

section
/-! SUPPORT. An H_GRANT's events (44_host_agent.md R332, R335): its descriptors, frames and avail entries spare avail.idx and the
used rings, and the one write of avail.idx comes behind the barrier. -/

namespace Sys2Proof.Machine

variable {s : State} {c : Config} {r : Ring}

/-! ### Ring fields apart -/

/-- A part of a range shares no byte with what the whole spares. -/
theorem disjointRanges_mono {a n a' n' b m : Nat} (h : disjointRanges a n b m = true) (ha : a ≤ a') (hn : a' + n' ≤ a + n) :
    disjointRanges a' n' b m = true := by
  simp only [disjointRanges, Bool.or_eq_true, beq_iff_eq, decide_eq_true_eq] at *
  omega

/-- Ring fields share no byte if they do not within one ring: the two rings are apart (R9). -/
theorem ringFields_disjoint {q : Ring} {a n b m : Nat} (hc : c.ok = true)
    (ha : ringBase c r ≤ a ∧ a + n ≤ ringBase c r + 0xE6) (hb : ringBase c q ≤ b ∧ b + m ≤ ringBase c q + 0xE6)
    (h : r = q → a + n ≤ b ∨ b + m ≤ a) : disjointRanges a n b m = true := by
  have apart : c.ringsDisjoint = true := by simp_all [Config.ok]
  simp only [Config.ringsDisjoint, Bool.or_eq_true, decide_eq_true_eq] at apart
  rw [ringBytes] at apart
  simp only [disjointRanges, Bool.or_eq_true, beq_iff_eq, decide_eq_true_eq]
  by_cases hr : r = q
  · have := h hr
    omega
  · cases r <;> cases q <;> simp only [ringBase, not_true_eq_false] at ha hb hr <;> omega

/-! ### The events before the barrier -/

/-- A write that touches neither avail.idx of ring r nor a used ring (R335 items 4 and 6): it publishes nothing. -/
def Event.publishesNothing (c : Config) (r : Ring) (e : Event) : Prop :=
  ∃ a bs, e = .write a bs ∧ disjointRanges a bs.length (availIdxAt c r) 2 = true ∧
    ∀ q, disjointRanges a bs.length (ringBase c q + 0xA0) 70 = true

/-- A write of a ring field before the used part, not on avail.idx. -/
theorem ringWrite_publishesNothing {a : Nat} {bs : List Byte} (hc : c.ok = true)
    (h : ringBase c r ≤ a ∧ a + bs.length ≤ ringBase c r + 0x82 ∨
      ringBase c r + 0x84 ≤ a ∧ a + bs.length ≤ ringBase c r + 0xA0) : (Event.write a bs).publishesNothing c r := by
  refine ⟨a, bs, rfl, ?_, fun q => ?_⟩
  · exact ringFields_disjoint (r := r) (q := r) hc (by omega) (by simp only [availIdxAt]; omega)
      fun _ => by simp only [availIdxAt]; omega
  · exact ringFields_disjoint (r := r) (q := q) hc (by omega) (by omega) (by rintro rfl; omega)

theorem descWrites_publishNothing (hc : c.ok = true) {id : Nat} (hid : id < 8) (addr : Dword) (len : Word) :
    ∀ e ∈ descWrites c r id addr len, e.publishesNothing c r := by
  simp only [descWrites, List.forall_mem_cons, List.not_mem_nil, false_implies, implies_true, and_true]
  exact ⟨ringWrite_publishesNothing hc (by simp only [descAddrAt, bytesOf_length]; omega),
    ringWrite_publishesNothing hc (by simp only [descLenAt, bytesOf_length]; omega)⟩

theorem extraWrites_publishNothing (hc : c.ok = true) {id : Nat} (hid : id < 8) (flags next : Half) :
    ∀ e ∈ extraWrites c r id flags next, e.publishesNothing c r := by
  simp only [extraWrites, List.forall_mem_cons, List.not_mem_nil, false_implies, implies_true, and_true]
  exact ⟨ringWrite_publishesNothing hc (by simp only [descFlagsAt, bytesOf_length]; omega),
    ringWrite_publishesNothing hc (by simp only [descNextAt, bytesOf_length]; omega)⟩

theorem post_publishesNothing (hc : c.ok = true) (avail id : Half) :
    (Event.write (availRingAt c r (slotOf avail)) (bytesOf id.toNat 2)).publishesNothing c r := by
  have := slotOf_lt avail
  exact ringWrite_publishesNothing hc (by simp only [availRingAt, bytesOf_length]; omega)

/-- Legal frame bytes spare the indices, one by one (`State.ringsSpared`). -/
theorem frame_publishesNothing {h : HostRing} {earlier : List GrantEntry} {e : GrantEntry}
    (hf : s.frameOk r h earlier e = true) : ∀ ev ∈ hostBytes e.addr.toNat e.frame, ev.publishesNothing s.cfg r := by
  intro ev hev
  obtain ⟨k, hk, rfl⟩ := List.mem_mapIdx.mp hev
  have spared : (s.setHostRing r h).ringsSpared e.addr.toNat e.frame.length = true := by
    have hne : e.frame ≠ [] := List.ne_nil_of_length_pos (by omega)
    simp only [State.frameOk, Bool.or_eq_true, Bool.and_eq_true, beq_iff_eq, List.length_eq_zero_iff, hne, false_or] at hf
    obtain ⟨⟨⟨-, spared⟩, -⟩, -⟩ := hf
    exact spared
  have part (b m : Nat) (hb : disjointRanges e.addr.toNat e.frame.length b m = true) :
      disjointRanges (e.addr.toNat + k) 1 b m = true := disjointRanges_mono hb (by omega) (by omega)
  have fields (q : Ring) := ringsSpared_disjoint spared q
  simp only [State.setHostRing_cfg] at fields
  exact ⟨_, _, rfl, part _ _ (fields r).2, fun q => part _ _ (fields q).1⟩

/-- An entry's events: its avail entry, and before it the descriptor and a legal frame of an owned id, or nothing (R332). -/
theorem grantEntry_some {h h' : HostRing} {earlier earlier' : List GrantEntry} {e : GrantEntry} {evs : List Event}
    (hg : grantEntry s r h earlier e = some (evs, h', earlier')) :
    ∃ ws, evs = ws ++ [.write (availRingAt s.cfg r (slotOf h.avail)) (bytesOf e.id.toNat 2)] ∧
      (ws = [] ∨ e.id.toNat < 8 ∧ s.frameOk r h earlier e = true ∧ ws = grantWrites s.cfg r e) := by
  simp only [grantEntry] at hg
  split at hg
  · next hid =>
    split at hg
    · split at hg
      · next hf =>
        cases hg
        exact ⟨_, rfl, .inr ⟨hid, hf, rfl⟩⟩
      · cases hg
    · split at hg
      · cases hg
        exact ⟨[], rfl, .inl rfl⟩
      · cases hg
  · split at hg
    · cases hg
      exact ⟨[], rfl, .inl rfl⟩
    · cases hg

theorem grantWrites_publishNothing (hc : s.cfg.ok = true) {h : HostRing} {earlier : List GrantEntry} {e : GrantEntry}
    (hid : e.id.toNat < 8) (hf : s.frameOk r h earlier e = true) :
    ∀ ev ∈ grantWrites s.cfg r e, ev.publishesNothing s.cfg r := by
  intro ev hev
  simp only [grantWrites, List.mem_append] at hev
  obtain (hd | hx) | hb := hev
  · exact descWrites_publishNothing hc hid _ _ ev hd
  · split at hx
    · exact extraWrites_publishNothing hc hid _ _ ev hx
    · cases hx
  · exact frame_publishesNothing hf ev hb

theorem grantEntry_publishesNothing (hc : s.cfg.ok = true) {h h' : HostRing} {earlier earlier' : List GrantEntry}
    {e : GrantEntry} {evs : List Event} (hg : grantEntry s r h earlier e = some (evs, h', earlier')) :
    ∀ ev ∈ evs, ev.publishesNothing s.cfg r := by
  obtain ⟨ws, rfl, hws⟩ := grantEntry_some hg
  refine List.forall_mem_append.mpr ⟨?_, List.forall_mem_singleton.mpr (post_publishesNothing hc _ _)⟩
  obtain rfl | ⟨hid, hf, rfl⟩ := hws
  · simp
  · exact grantWrites_publishNothing hc hid hf

theorem grantEntries_publishNothing (hc : s.cfg.ok = true) {es : List GrantEntry} {h : HostRing} {earlier : List GrantEntry}
    {evs : List Event} (hg : grantEntries s r h earlier es = some evs) : ∀ ev ∈ evs, ev.publishesNothing s.cfg r := by
  induction es generalizing h earlier evs with
  | nil =>
    cases hg
    simp
  | cons e es ih =>
    simp only [grantEntries] at hg
    split at hg
    · cases hg
    · next first h' earlier' he =>
      split at hg
      · cases hg
      · next rest hr =>
        cases hg
        exact List.forall_mem_append.mpr ⟨grantEntry_publishesNothing hc he, ih hr⟩

/-! ### The whole script -/

theorem grantScript_some {es : List GrantEntry} {p : HostPos} (h : grantScript s r es = some p) :
    ∃ evs, grantEntries s r (s.hostRing r) [] es = some evs ∧
      p = .script
        (evs ++ [.barrier, .write (availIdxAt s.cfg r) (bytesOf ((s.hostRing r).avail + u16 es.length).toNat 2)])
        (.granted r es.length (es.map (·.id))) := by
  unfold grantScript at h
  split at h
  · cases h
  · next evs he => exact ⟨evs, he, by cases h; rfl⟩

/-- An owned id without a frame may be granted, whatever its address and capacity (R336). -/
theorem grantScript_owned {id : Fin 8} (ho : (s.hostRing r).owns id = true) (addr : Dword) (len : Word)
    (extra : Option (Half × Half)) :
    grantScript s r [⟨u16 id.val, addr, len, extra, []⟩] =
      some (.script
        (grantWrites s.cfg r ⟨u16 id.val, addr, len, extra, []⟩ ++
          [.write (availRingAt s.cfg r (slotOf (s.hostRing r).avail)) (bytesOf (u16 id.val).toNat 2)] ++
          [.barrier, .write (availIdxAt s.cfg r) (bytesOf ((s.hostRing r).avail + 1).toNat 2)])
        (.granted r 1 [u16 id.val])) := by
  have hid : (u16 id.val).toNat = id.val := by simp; omega
  simp [grantScript, grantEntries, grantEntry, State.frameOk, hid, ho]

theorem hostBegin_owned {id : Fin 8} (hn : s.hostRun = none) (ho : (s.hostRing r).owns id = true) (addr : Dword) (len : Word)
    (extra : Option (Half × Half)) :
    performAct (.hostBegin (.grant r [⟨u16 id.val, addr, len, extra, []⟩])) s =
      .next { s with hostRun := grantScript s r [⟨u16 id.val, addr, len, extra, []⟩] } := by
  simp [performAct, hostBegin, hn, hostProcedure, grantScript_owned ho, HostPos.creating]

/-- Settles O59: every entry's events spare the indices, and a single owned id's grant begins. -/
theorem grantsPublishBehindABarrier : Obligations.GrantsPublishBehindABarrier := by
  unfold Obligations.GrantsPublishBehindABarrier
  refine ⟨fun s r es todo fin hc hg => ?_, fun s r id addr len extra hn ho => ?_⟩
  · obtain ⟨evs, he, hp⟩ := grantScript_some hg
    cases hp
    exact ⟨evs, rfl, rfl, grantEntries_publishNothing hc he⟩
  · exact ⟨_, hostBegin_owned hn ho addr len extra, _, grantScript_owned ho addr len extra⟩

end Sys2Proof.Machine
end

section
/-! SUPPORT. A grant reaches the device (44_host_agent.md R332; 20_memory.md R90, R95): a host whose writes keep off what the device
has runs its procedure to the end, and once the writes are in SHM the device reads them. -/

namespace Sys2Proof.Machine

variable {s t : State} {c : Config} {r : Ring} {id : Fin 8} {m : Memory} {ps ws : List PendingWrite}
  {w i : PendingWrite} {fin : HostEffect}

/-! ### The host alone -/

theorem performActs_cons {m : Act} (h : performAct m s = .next t) (ms : List Act) :
    performActs (m :: ms) s = performActs ms t := by
  simp only [performActs, h]

theorem performActs_append {ms : List Act} (h : performActs ms s = .next t) (ms' : List Act) :
    performActs (ms ++ ms') s = performActs ms' t := by
  induction ms generalizing s with
  | nil =>
    cases h
    rfl
  | cons m ms ih =>
    simp only [List.cons_append, performActs] at h ⊢
    split at h
    · exact ih h
    · cases h
    · cases h

/-- s with SHM, PW[host] and the host's procedure as given: what the host and its memory system change within a procedure. -/
def State.withHost (s : State) (m : Memory) (ws : List PendingWrite) (p : Option HostPos) : State :=
  { s with shm := m, pwHost := ws, hostRun := p }

/-- The event that stores the entry. -/
def PendingWrite.event (w : PendingWrite) : Event := .write w.addr w.bytes

/-- The host may perform the event that stores the entry: it breaks no duty (R337) and has SHM to reach (R70). -/
structure State.hostMayStore (s : State) (w : PendingWrite) : Prop where
  duty : w.event.breaksDuty s = false
  window : s.cfg.inWindow w.addr w.bytes.length = true

/-- What the host may store depends on SHM only, of what its procedure changes. -/
theorem hostMayStore_withHost {p : Option HostPos} (h : (s.withHost m ps p).hostMayStore w) (ps' : List PendingWrite)
    (p' : Option HostPos) : (s.withHost m ps' p').hostMayStore w := by
  obtain ⟨duty, window⟩ := h
  exact ⟨duty, window⟩

theorem creationBroken_withHost {p : Option HostPos} (h : p.any HostPos.creating = false) :
    (s.withHost m ps p).creationBroken = false := by
  simp [State.creationBroken, State.withHost, h]

theorem script_not_creating (hf : fin ≠ .created) (todo : List Event) : (HostPos.script todo fin).creating = false := by
  cases fin <;> simp_all [HostPos.creating]

/-- A store that the host may perform enters PW[host], and its procedure goes on. -/
theorem hostStep_of_store {rest : List Event} (hr : s.hostRun = some (.script (w.event :: rest) fin))
    (hc : s.creationBroken = false) (hw : s.hostMayStore w) :
    performAct .hostStep s =
      .next ((HostPos.script (w.event :: rest) fin).resume 0 (s.issueWrite .host w.addr w.bytes)) := by
  simp only [performAct, hostStep, hr, hc, HostPos.event, hw.duty, Bool.false_eq_true, if_false]
  simp [PendingWrite.event, Event.readsUnmapped, shmEvent, hw.window]

theorem hostStep_withHost {rest : List Event} (hw : (s.withHost m ps none).hostMayStore w) (hf : fin ≠ .created) :
    performAct .hostStep (s.withHost m ps (some (.script (w.event :: rest) fin))) =
      .next ((HostPos.script (w.event :: rest) fin).resume 0
        (s.withHost m (ps ++ [w]) (some (.script (w.event :: rest) fin)))) :=
  hostStep_of_store rfl (creationBroken_withHost (script_not_creating hf _)) (hostMayStore_withHost hw ps _)

/-- The stores at the head of a straight procedure enter PW[host] one by one. -/
theorem hostStores_run {rest : List Event} (hne : rest ≠ []) (hf : fin ≠ .created)
    (hw : ∀ w ∈ ws, (s.withHost m [] none).hostMayStore w) :
    performActs (List.replicate ws.length .hostStep)
        (s.withHost m ps (some (.script (ws.map PendingWrite.event ++ rest) fin))) =
      .next (s.withHost m (ps ++ ws) (some (.script rest fin))) := by
  induction ws generalizing ps with
  | nil => rw [List.append_nil]; rfl
  | cons w ws ih =>
    have first := hostStep_withHost (ps := ps) (rest := ws.map PendingWrite.event ++ rest)
      (hostMayStore_withHost (hw w List.mem_cons_self) ps none) hf
    have more : (ws.map PendingWrite.event ++ rest).isEmpty = false := by simp [hne]
    simp only [HostPos.resume, more, Bool.false_eq_true, if_false] at first
    rw [List.append_cons, List.length_cons, List.replicate_succ, ← ih fun v hv => hw v (List.mem_cons_of_mem w hv)]
    exact performActs_cons first _

/-- The host's memory system commits everything pending, oldest first (R90). -/
theorem hostCommits_run {p : Option HostPos} (hp : p.any HostPos.creating = false) :
    performActs (List.replicate ws.length (.commit .host 0)) (s.withHost m ws p) = .next (s.withHost (commitAll m ws) [] p) := by
  induction ws generalizing m with
  | nil => rfl
  | cons w ws ih =>
    have oldest : performAct (.commit .host 0) (s.withHost m (w :: ws) p) = .next (s.withHost (w.commitTo m) ws p) := by
      simp only [performAct, commitMove, creationBroken_withHost hp, Bool.false_eq_true, and_false, if_false]
      rw [commit_oldest (s := s.withHost m (w :: ws) p) (a := .host) rfl]
      rfl
    rw [List.length_cons, List.replicate_succ, performActs_cons oldest]
    exact ih

theorem hostEffect_withHost (fin : HostEffect) (s : State) (m : Memory) (ps : List PendingWrite) (p : Option HostPos) :
    hostEffect fin (s.withHost m ps p) = (hostEffect fin s).withHost m ps p := by
  cases fin with
  | nothing => rfl
  | created => rfl
  | granted r n ids => cases r <;> rfl
  | wroteIdx r v => cases r <;> rfl

/-- The end of a procedure that publishes: the barrier passes, the last write is stored and the host's own state changes, and the
write commits. -/
theorem publish_run (hf : fin ≠ .created) (hi : (s.withHost m [] none).hostMayStore i) :
    performActs [.hostStep, .hostStep, .commit .host 0] (s.withHost m [] (some (.script [.barrier, i.event] fin))) =
      .next ((hostEffect fin s).withHost (i.commitTo m) [] none) := by
  have barrier : performAct .hostStep (s.withHost m [] (some (.script [.barrier, i.event] fin))) =
      .next (s.withHost m [] (some (.script [i.event] fin))) :=
    hostStep_of_barrier rfl (creationBroken_withHost (p := some _) (script_not_creating hf _))
  rw [performActs_cons barrier]
  have store := hostStep_withHost (rest := []) hi hf
  simp only [HostPos.resume, List.isEmpty_nil, if_true] at store
  rw [performActs_cons (store.trans (congrArg _ (hostEffect_withHost fin s m [i] none)))]
  exact hostCommits_run (ws := [i]) rfl

/-! ### What the device has, under the host's commits -/

theorem pendingByte_eq_none {x : Nat} (h : ∀ w ∈ ws, w.byteAt x = none) : pendingByte ws x = none := by
  induction ws with
  | nil => rfl
  | cons w ws ih =>
    rw [pendingByte, ih fun v hv => h v (List.mem_cons_of_mem w hv), h w List.mem_cons_self]
    rfl

theorem byteAt_eq_none_of_disjoint {b m x : Nat} (h : disjointRanges w.addr w.bytes.length b m = true) (hlo : b ≤ x)
    (hhi : x < b + m) : w.byteAt x = none := by
  rw [← Option.not_isSome_iff_eq_none, byteAt_isSome]
  simp only [disjointRanges, Bool.or_eq_true, beq_iff_eq, decide_eq_true_eq] at h
  omega

/-- Commits that keep off a range leave what the device sees of it. -/
theorem valueSeen_withHost {b l x n : Nat} (h : ∀ w ∈ ws, disjointRanges w.addr w.bytes.length b l = true) (s : State)
    (ps : List PendingWrite) (p : Option HostPos) (hlo : b ≤ x) (hhi : x + n ≤ b + l) :
    (s.withHost (commitAll s.shm ws) ps p).valueSeen .device x n = s.valueSeen .device x n := by
  refine congrArg leValue (List.map_congr_left fun k hk => ?_)
  have hk' := List.mem_range.mp hk
  have off : pendingByte ws (x + k) = none :=
    pendingByte_eq_none fun w hw => byteAt_eq_none_of_disjoint (h w hw) (by omega) (by omega)
  have same : (commitAll s.shm ws).read (x + k) = s.shm.read (x + k) := by rw [read_commitAll, off, Option.getD_none]
  exact congrArg ((pendingByte s.pwDevice (x + k)).getD ·) same

/-- A write that breaks no duty keeps off the descriptor of the RX id in process. -/
theorem disjoint_of_breaksDuty {id : Fin 8} (h : w.event.breaksDuty s = false) (ht : s.rxTaken = some id) :
    disjointRanges w.addr w.bytes.length (descAddrAt s.cfg .rx id.val) 16 = true := by
  simp only [PendingWrite.event, Event.breaksDuty, ht, Option.any_some, Bool.or_eq_false_iff, Bool.not_eq_false'] at h
  exact h.2

/-- Commits of writes that break no duty leave the device the same RX buffer in process. -/
theorem rxTakenBuffer_withHost (h : ∀ w ∈ ws, w.event.breaksDuty s = false) (ps : List PendingWrite) (p : Option HostPos) :
    (s.withHost (commitAll s.shm ws) ps p).rxTakenBuffer = s.rxTakenBuffer := by
  simp only [State.rxTakenBuffer, show (s.withHost (commitAll s.shm ws) ps p).seq = s.seq from rfl,
    show (s.withHost (commitAll s.shm ws) ps p).rxTaken = s.rxTaken from rfl]
  split
  · rfl
  · refine Option.map_congr fun k hk => ?_
    have off := fun w hw => disjoint_of_breaksDuty (h w hw) hk
    have addr := valueSeen_withHost off s ps p (x := descAddrAt s.cfg .rx k.val) (n := 8) (Nat.le_refl _) (by omega)
    have len := valueSeen_withHost off s ps p (x := descLenAt s.cfg .rx k.val) (n := 4)
      (by simp only [descAddrAt, descLenAt]; omega) (by simp only [descAddrAt, descLenAt]; omega)
    exact congrArg₂ (fun a l => ((BitVec.ofNat 64 a).toNat, (u32 l).toNat)) addr len

/-- What the host may store, it may still store after such commits: the device has the same buffers. -/
theorem hostMayStore_committed (h : ∀ w ∈ ws, s.hostMayStore w) (hi : s.hostMayStore i) :
    (s.withHost (commitAll s.shm ws) [] none).hostMayStore i := by
  refine ⟨?_, hi.window⟩
  have duty := hi.duty
  simp only [PendingWrite.event, Event.breaksDuty, State.touchesTaken, State.touchesRxTaken,
    rxTakenBuffer_withHost fun w hw => (h w hw).duty] at duty ⊢
  exact duty

/-- A procedure that publishes, run to its end by the host and its memory system alone. -/
theorem script_run (hf : fin ≠ .created) (hp : s.pwHost = []) (hw : ∀ w ∈ ws, s.hostMayStore w) (hi : s.hostMayStore i) :
    ∃ ms : List Act, ms.all Act.hostOnly = true ∧
      performActs ms { s with hostRun := some (.script (ws.map PendingWrite.event ++ [.barrier, i.event]) fin) } =
        .next ((hostEffect fin s).withHost (commitAll s.shm (ws ++ [i])) [] none) := by
  have start (p : HostPos) : { s with hostRun := some p } = s.withHost s.shm [] (some p) := by rw [← hp]; rfl
  have stores := hostStores_run (s := s) (m := s.shm) (ps := []) (rest := [.barrier, i.event]) (by simp) hf
    fun w hm => ⟨(hw w hm).duty, (hw w hm).window⟩
  have commits := hostCommits_run (s := s) (m := s.shm) (ws := ws) (p := some (.script [.barrier, i.event] fin))
    (script_not_creating hf _)
  refine ⟨.replicate ws.length .hostStep ++ (.replicate ws.length (.commit .host 0) ++ [.hostStep, .hostStep, .commit .host 0]),
    by simp [Act.hostOnly], ?_⟩
  rw [start, performActs_append stores, List.nil_append, performActs_append commits,
    publish_run hf (hostMayStore_committed hw hi)]
  simp [commitAll]

/-! ### The stores of a grant -/

/-- What the grant of an owned id stores before its barrier, without frame, flags and next (R332). -/
def grantStores (c : Config) (r : Ring) (id : Fin 8) (addr : Dword) (len : Word) (avail : Half) : List PendingWrite :=
  [⟨descAddrAt c r id.val, bytesOf addr.toNat 8⟩, ⟨descLenAt c r id.val, bytesOf len.toNat 4⟩,
   ⟨availRingAt c r (slotOf avail), bytesOf id.val 2⟩]

/-- The store of avail.idx (R332). -/
def idxStore (c : Config) (r : Ring) (v : Half) : PendingWrite := ⟨availIdxAt c r, bytesOf v.toNat 2⟩

theorem grantScript_stores (ho : (s.hostRing r).owns id = true) (addr : Dword) (len : Word) :
    grantScript s r [⟨u16 id.val, addr, len, none, []⟩] =
      some (.script
        ((grantStores s.cfg r id addr len (s.hostRing r).avail).map PendingWrite.event ++
          [.barrier, (idxStore s.cfg r ((s.hostRing r).avail + 1)).event]) (.granted r 1 [u16 id.val])) := by
  have hid : (u16 id.val).toNat = id.val := by simp; omega
  rw [grantScript_owned ho, grantWrites, hid]
  rfl

theorem touchesTaken_mono {a n b l : Nat} (h : s.touchesTaken a n = false) (ha : a ≤ b) (hb : b + l ≤ a + n) :
    s.touchesTaken b l = false := by
  simp only [State.touchesTaken, State.touchesTxTaken, State.touchesRxTaken, Bool.or_eq_false_iff, List.any_eq_false,
    Option.any_eq_false, Bool.and_eq_true, Bool.not_eq_true', not_and, Bool.not_eq_false, Bool.not_eq_false'] at h ⊢
  obtain ⟨tx, rx⟩ := h
  exact ⟨fun k hk taken => disjointRanges_mono (tx k hk taken) ha hb, fun k hk => disjointRanges_mono (rx k hk) ha hb⟩

/-- A ring field that lies in no buffer of the device, and not in the descriptor of the RX id in process, is the host's to store. -/
theorem ringField_mayStore (hc : s.cfg.ok = true) (spare : ∀ q, s.touchesTaken (ringBase s.cfg q) ringBytes = false)
    (hw : ringBase s.cfg r ≤ w.addr ∧ w.addr + w.bytes.length ≤ ringBase s.cfg r + 0xE6)
    (hd : ∀ k, r = .rx → s.rxTaken = some k →
      w.addr + w.bytes.length ≤ descAddrAt s.cfg .rx k.val ∨ descAddrAt s.cfg .rx k.val + 16 ≤ w.addr) :
    s.hostMayStore w where
  duty := by
    simp only [PendingWrite.event, Event.breaksDuty, touchesTaken_mono (spare r) hw.1 (by rw [ringBytes]; exact hw.2),
      Bool.false_or, Option.any_eq_false, Bool.not_eq_false']
    intro k hk
    exact ringFields_disjoint hc hw (q := .rx) (by simp only [descAddrAt]; omega) fun hr => hd k hr hk
  window := ringWrite_fits hc r hw

theorem idxStore_mayStore (hc : s.cfg.ok = true) (spare : ∀ q, s.touchesTaken (ringBase s.cfg q) ringBytes = false) (v : Half) :
    s.hostMayStore (idxStore s.cfg r v) := by
  refine ringField_mayStore (r := r) hc spare ?_ fun k hr _ => ?_
  · simp only [idxStore, availIdxAt, bytesOf_length]; omega
  · subst hr
    simp only [idxStore, availIdxAt, descAddrAt, bytesOf_length]
    omega

theorem grantStores_mayStore (hc : s.cfg.ok = true) (spare : ∀ q, s.touchesTaken (ringBase s.cfg q) ringBytes = false)
    (ht : r = .rx → s.rxTaken ≠ some id) (addr : Dword) (len : Word) (avail : Half) :
    ∀ w ∈ grantStores s.cfg r id addr len avail, s.hostMayStore w := by
  have other (k : Fin 8) (hr : r = .rx) (hk : s.rxTaken = some k) : id.val ≠ k.val := by
    intro h
    exact ht hr (by rw [hk, Fin.ext h])
  have slot := slotOf_lt avail
  simp only [grantStores, List.forall_mem_cons, List.not_mem_nil, false_implies, implies_true, and_true]
  refine ⟨ringField_mayStore (r := r) hc spare ?_ fun k hr hk => ?_, ringField_mayStore (r := r) hc spare ?_ fun k hr hk => ?_,
    ringField_mayStore (r := r) hc spare ?_ fun k hr hk => ?_⟩
  · simp only [descAddrAt, bytesOf_length]; omega
  · have := other k hr hk
    subst hr
    simp only [descAddrAt, bytesOf_length]; omega
  · simp only [descLenAt, bytesOf_length]; omega
  · have := other k hr hk
    subst hr
    simp only [descAddrAt, descLenAt, bytesOf_length]; omega
  · simp only [availRingAt, bytesOf_length]; omega
  · subst hr
    simp only [descAddrAt, availRingAt, bytesOf_length]; omega

/-- The grant's four fields, once its stores are in memory. -/
theorem grant_in_memory (m : Memory) (c : Config) (r : Ring) (id : Fin 8) (addr : Dword) (len : Word) (avail v : Half) :
    let m' := commitAll m (grantStores c r id addr len avail ++ [idxStore c r v])
    leValue (m'.readBytes (availIdxAt c r) 2) = v.toNat ∧
    leValue (m'.readBytes (availRingAt c r (slotOf avail)) 2) = id.val ∧
    leValue (m'.readBytes (descAddrAt c r id.val) 8) = addr.toNat ∧
    leValue (m'.readBytes (descLenAt c r id.val) 4) = len.toNat := by
  have slot := slotOf_lt avail
  simp only [grantStores, idxStore, commitAll, PendingWrite.commitTo, List.cons_append, List.nil_append, List.foldl_cons,
    List.foldl_nil]
  refine ⟨leValue_readBytes_bytesOf _ _ v.isLt, ?_, ?_, ?_⟩
  · rw [readBytes_writeBytes_of_disjoint _ (by simp only [bytesOf_length, availRingAt, availIdxAt]; omega)]
    exact leValue_readBytes_bytesOf _ _ (by omega)
  · rw [readBytes_writeBytes_of_disjoint _ (by simp only [bytesOf_length, descAddrAt, availIdxAt]; omega),
      readBytes_writeBytes_of_disjoint _ (by simp only [bytesOf_length, descAddrAt, availRingAt]; omega),
      readBytes_writeBytes_of_disjoint _ (by simp only [bytesOf_length, descAddrAt, descLenAt]; omega)]
    exact leValue_readBytes_bytesOf _ _ addr.isLt
  · rw [readBytes_writeBytes_of_disjoint _ (by simp only [bytesOf_length, descLenAt, availIdxAt]; omega),
      readBytes_writeBytes_of_disjoint _ (by simp only [bytesOf_length, descLenAt, availRingAt]; omega)]
    exact leValue_readBytes_bytesOf _ _ len.isLt

theorem valueSeen_of_drained {a : Agent} (h : s.pending a = []) (x n : Nat) :
    s.valueSeen a x n = leValue (s.shm.readBytes x n) :=
  congrArg leValue (List.map_congr_left fun k _ => byteSeen_of_drained h (x + k))

/-- With nothing pending of its own, the device reads what the grant stored (R53, R95). -/
theorem grant_seen {addr : Dword} {len : Word} {avail v : Half} (hc : t.cfg = c) (hd : t.pwDevice = [])
    (hm : t.shm = commitAll m (grantStores c r id addr len avail ++ [idxStore c r v])) :
    t.availIdxSeen r = v ∧ t.slotSeen r avail = u16 id.val ∧ t.descAddrSeen r id = addr ∧ t.descLenSeen r id = len := by
  have seen (x n : Nat) : t.valueSeen .device x n = _ := valueSeen_of_drained (a := .device) hd x n
  obtain ⟨idx, slot, descAddr, descLen⟩ := grant_in_memory m c r id addr len avail v
  rw [← hm] at idx slot descAddr descLen
  simp only [State.availIdxSeen, State.slotSeen, State.descAddrSeen, State.descLenSeen, seen, hc, idx, slot, descAddr, descLen,
    u16, u32, BitVec.ofNat_toNat, BitVec.setWidth_eq, and_self]

theorem hostEffect_granted (s : State) (r : Ring) (n : Nat) (ids : List Half) :
    (hostEffect (.granted r n ids) s).cfg = s.cfg ∧ (hostEffect (.granted r n ids) s).pwDevice = s.pwDevice ∧
    (hostEffect (.granted r n ids) s).hostRing r =
      { s.hostRing r with avail := (s.hostRing r).avail + u16 n, owned := disown (s.hostRing r).owned ids } := by
  cases r <;> exact ⟨rfl, rfl, rfl⟩

theorem disown_singleton (o : Vector Bool 8) (id : Fin 8) : (disown o [u16 id.val])[id] = false := by
  have hid : (u16 id.val).toNat = id.val := by simp; omega
  simp [disown, hid]

/-- Settles O60: the grant's procedure runs to its end, and its four stores are in SHM, where the device reads them. -/
theorem grantReachesTheDevice : Obligations.GrantReachesTheDevice := by
  unfold Obligations.GrantReachesTheDevice
  intro s r id addr len hc hn hp hd ho ht spare
  obtain ⟨ms, only, run⟩ := script_run (fin := .granted r 1 [u16 id.val]) (by simp) hp
    (grantStores_mayStore hc spare ht addr len (s.hostRing r).avail) (idxStore_mayStore hc spare ((s.hostRing r).avail + 1))
  rw [← grantScript_stores ho] at run
  obtain ⟨cfg, pwDevice, ring⟩ := hostEffect_granted s r 1 [u16 id.val]
  obtain ⟨idx, slot, descAddr, descLen⟩ := grant_seen (t := (hostEffect _ s).withHost _ [] none) (m := s.shm) (r := r) (id := id)
    (addr := addr) (len := len) (avail := (s.hostRing r).avail) (v := (s.hostRing r).avail + 1) cfg (pwDevice.trans hd) rfl
  refine ⟨ms, _, only, (performActs_cons (hostBegin_owned hn ho addr len none) ms).trans run, rfl, rfl, idx, slot, descAddr,
    descLen, congrArg HostRing.avail ring, (congrArg (·.owns id) ring).trans (disown_singleton _ id)⟩

end Sys2Proof.Machine
end

section
/-! SUPPORT. Command acceptance (60_exceptions.md R371, R372, R374, R383): a command held, answered FAULTED, stopped by a fault of
acceptance, or ended by the Ready gate, each before any event. -/

namespace Sys2Proof.Machine

variable {s t : State} {i : Instr} {n : Fin 4}

/-! ### While Busy (R371 step 1, R372) -/

theorem exec_of_busy (i : Instr) (hb : s.seq.isBusy = true) : exec i s = .next { s with cmd := some (encode i) } := by
  rw [exec_eq, runCommand, if_pos hb]

/-- A block step leaves the word waiting in CMD, for it does the same whatever waits there. -/
theorem blockStep_cmd (hb : s.seq.isBusy = true) (h : blockStep s = .next t) : t.cmd = s.cmd := by
  have same := h.symm.trans (blockStep_setCmd s.cmd hb h)
  rw [Host.Outcome.next.injEq] at same
  exact (congrArg State.cmd same :)

/-! ### Ends at acceptance -/

/-- A command that acceptance itself ends has no event. -/
theorem exec_of_accept_ends (hb : s.seq.isBusy = false) (h : accept i (startOf i) s = t) (ht : t.seq.isBusy = false) :
    exec i s = .next t := by
  rw [exec_of_not_busy i hb, h, runAlone, drive_of_not_busy _ ht]

/-- Settles O6: a Busy block holds the word and keeps it, and a recorded fault is the first thing that acceptance looks at. -/
theorem busyHoldsAndFaultedAnswersFaulted : Obligations.BusyHoldsAndFaultedAnswersFaulted := by
  unfold Obligations.BusyHoldsAndFaultedAnswersFaulted
  refine ⟨fun i s hb => exec_of_busy i hb, fun s t hb h => ?_, fun i s hb hf => ?_⟩
  · exact blockStep_cmd hb ((blockTurn_of_busy hb).symm.trans h)
  · exact exec_of_accept_ends hb (if_pos hf) hb

/-- Settles O7: each is the nesting error of its command where SUB is Delivering, or Idle. -/
theorem nestingErrorsFault : Obligations.NestingErrorsFault := by
  unfold Obligations.NestingErrorsFault
  refine fun s hf => ⟨fun k hk => ⟨?_, ?_, ?_⟩, fun hk => ?_⟩ <;> exact exec_of_nestingError hf (by rw [hk]; rfl)

/-! ### Unwritten operands (R44, R371 step 5) -/

/-- An operand never written is what exec answers. -/
theorem exec_of_firstUnwritten (hb : s.seq.isBusy = false) (hf : s.fault = .none) (hn : nestingError s.seq.sub i = none)
    (hu : s.firstUnwritten i = some n) : exec i s = .next (s.stopped (.clientProtocol .unwrittenArg) (u32 n.val)) :=
  exec_of_accept_ends hb (by simp [accept, State.raise, State.stopped, hf, hn, hu]) rfl

theorem operandsOf_rising (i : Instr) : (operandsOf i).Pairwise (· < ·) := by
  cases i <;> decide

/-- A command's operands are looked at in rising order (R123). -/
theorem firstUnwritten_of_lowest (hn : n ∈ operandsOf i) (below : ∀ m < n, s.written m = true) (hw : s.written n = false) :
    s.firstUnwritten i = some n := by
  have rising := operandsOf_rising i
  obtain ⟨before, after, split⟩ := List.append_of_mem hn
  rw [split, List.pairwise_append] at rising
  obtain ⟨-, -, lower⟩ := rising
  rw [State.firstUnwritten, split, List.find?_eq_some_iff_append]
  exact ⟨by simp [hw], before, after, rfl, fun m hm => by simp [below m (lower m hm n List.mem_cons_self)]⟩

/-- Settles O8: the two commands that have operands may be nested, so step 5 decides. -/
theorem unwrittenOperandFaults : Obligations.UnwrittenOperandFaults := by
  unfold Obligations.UnwrittenOperandFaults
  intro s i n hb hf hi below hw
  obtain ⟨rfl, hn⟩ | rfl := hi
  · have operand : ∀ n : Fin 4, n.val < 2 → n ∈ operandsOf .publishTx := by decide
    exact exec_of_firstUnwritten hb hf (by cases s.seq.sub <;> rfl) (firstUnwritten_of_lowest (operand n hn) below hw)
  · have operand : ∀ n : Fin 4, n ∈ operandsOf .frameSend := by decide
    exact exec_of_firstUnwritten hb hf (by cases s.seq.sub <;> rfl) (firstUnwritten_of_lowest (operand n) below hw)

/-! ### The Ready gate (R374) -/

/-- The gate is the first line of these commands' pseudocode. -/
theorem startOf_of_not_ready (hi : i ∈ [Instr.shutdown, .acquireTx, .publishTx, .frameSend, .pollRx]) (hr : s.ch ≠ .ready) :
    startOf i s = s.finish .notInitialized := by
  simp only [List.mem_cons, List.not_mem_nil, or_false] at hi
  obtain rfl | rfl | rfl | rfl | rfl := hi <;> exact if_neg hr

/-- Settles O9: the gate ends the command before any event. -/
theorem notReadyEndsNotInitialized : Obligations.NotReadyEndsNotInitialized := by
  unfold Obligations.NotReadyEndsNotInitialized
  exact fun s i hi ha hr => exec_of_finish ha (startOf_of_not_ready hi hr) rfl

end Sys2Proof.Machine
end

section
/-! SUPPORT. Every command run alone comes to its end or to a delivery (60_exceptions.md R372, R373; 70_reset_and_hazards.md R425):
INIT's wait in at most INIT_BUDGET reads, a frame in at most 65551 byte writes, POLL_RX in as many iterations as entries are
posted, each within the steps that exec gives a command (log 6). -/

namespace Sys2Proof.Machine

variable {s t : State} {i : Instr} {w : Walk} {c : Half} {id : Fin 8} {f : Frame} {n m : Nat}

theorem runAlone_of_leadsTo (h : s.leadsTo n t) (hn : n ≤ soloBound s) (ht : t.seq.isBusy = false) : runAlone s = .next t := by
  obtain ⟨m, hm⟩ := Nat.exists_eq_add_of_le hn
  rw [runAlone, hm, h, drive_of_not_busy m ht]

/-- Acceptance leaves the number of steps that a command run alone is given. -/
theorem soloBound_startOf (i : Instr) (s : State) : soloBound (startOf i s) = soloBound s := by
  rw [soloBound, soloBound, (startOf_untouched i s).cfg, (startOf_sameMemory i s).2]

/-! ### INIT's wait without a grant (R292, R377) -/

/-- INIT's end without a grant. -/
def State.initTimedOut (s : State) : State :=
  { (s.setRes 1 (u32 s.cfg.initBudget)) with waitCnt := s.cfg.initBudget, ch := .uninitialized }.finish .initTimeout

/-- A read that finds nothing new counts, and the wait begins again. -/
theorem initPeek_leadsTo (hc : s.cfg.ok = true) (ha : s.availIdxSeen .tx = s.txLast) :
    (s.goto .initPeek).leadsTo 1 (waitLoop { s with waitCnt := s.waitCnt + 1 }) := by
  have again : initPeeked (s.availIdxSeen .tx) (s.goto .initPeek) = waitLoop { s with waitCnt := s.waitCnt + 1 } := by
    rw [ha, ← waitLoop_goto .initPeek, initPeeked, availPeek, if_neg (fun h => h.1 rfl)]
    exact if_neg (fun h => h rfl)
  exact walkStep_leadsTo rfl ((blockStep_initPeek hc).trans (congrArg _ again))

/-- With n reads left in the budget, the wait is over after n reads. -/
theorem waitLoop_leadsTo_timedOut (hc : s.cfg.ok = true) (ha : s.availIdxSeen .tx = s.txLast)
    (hn : s.waitCnt + n = s.cfg.initBudget) : (waitLoop s).leadsTo n s.initTimedOut := by
  induction n generalizing s with
  | zero =>
    rw [waitLoop, if_neg (by omega), State.initTimedOut, ← hn]
    exact leadsTo_refl _
  | succ n ih =>
    have read := initPeek_leadsTo hc ha
    have rest := ih (s := { s with waitCnt := s.waitCnt + 1 }) hc ha (by simp only; omega)
    rw [waitLoop, if_pos (by omega), Nat.add_comm]
    exact read.trans rest

theorem init_leadsTo_timedOut (hc : s.cfg.ok = true) (hu : s.ch = .uninitialized) (ha : s.availIdxSeen .tx = 0) :
    (startOf .init s).leadsTo s.cfg.initBudget s.initWaiting.initTimedOut := by
  have start : startOf .init s = waitLoop s.initWaiting := if_pos hu
  rw [start]
  exact waitLoop_leadsTo_timedOut hc ((sameRing_initWaiting s).availIdx.trans ha) (Nat.zero_add _)

/-- Settles O13: every read of the budget finds the ring empty, and the block stores nothing. -/
theorem initTimesOutWithoutAGrant : Obligations.InitTimesOutWithoutAGrant := by
  unfold Obligations.InitTimesOutWithoutAGrant
  intro s hc ha hu hempty
  have ⟨idle, _, _, _⟩ := ha
  have bound : s.cfg.initBudget ≤ soloBound (startOf .init s) := by
    rw [soloBound_startOf, soloBound]
    omega
  have ends : s.initWaiting.initTimedOut.seq.isBusy = false := by simp [State.initTimedOut]
  rw [exec_of_not_busy _ idle, accept_start ha, runAlone_of_leadsTo (init_leadsTo_timedOut hc hu hempty) bound ends]
  simp only [State.initTimedOut, State.initWaiting, State.finish, State.setRes, returned_of_not_busy idle, ← hu]
  rfl

/-! ### Courses that end -/

/-- Alone, the block is not Busy any more after at most n steps. -/
def State.endsWithin (s : State) (n : Nat) : Prop := ∃ k ≤ n, ∃ t, t.seq.isBusy = false ∧ s.leadsTo k t

theorem endsWithin_of_not_busy (hb : s.seq.isBusy = false) (n : Nat) : s.endsWithin n :=
  ⟨0, Nat.zero_le n, s, hb, leadsTo_refl s⟩

theorem State.leadsTo.endsWithin {k : Nat} (h : s.leadsTo k t) (ht : t.endsWithin n) (hm : k + n ≤ m) : s.endsWithin m := by
  obtain ⟨j, hj, u, hu, course⟩ := ht
  exact ⟨k + j, by omega, u, hu, h.trans course⟩

theorem runAlone_of_endsWithin (h : s.endsWithin (soloBound s)) : ∃ t, runAlone s = .next t ∧ t.seq.isBusy = false := by
  obtain ⟨k, hk, t, ht, course⟩ := h
  exact ⟨t, runAlone_of_leadsTo course hk ht, ht⟩

/-! ### Walks of the TX ring -/

/-- What an avail ring holds for a walk: nothing, a fault, or a buffer that can be taken (R160 to R162). -/
theorem walk_cases (s : State) (w : Walk) (c : Half) :
    s.availIdxSeen w.ring = c ∨ (∃ t, WalkFault s w c t) ∨
      ∃ id, s.offers w.ring c id ∧ (w.ring = .rx ∨ s.isHeld id = false) ∧ s.bufferOk w.ring id = true := by
  by_cases ha : s.availIdxSeen w.ring = c
  · exact .inl ha
  by_cases hg : ringN < gap (s.availIdxSeen w.ring) c
  · exact .inr (.inl ⟨_, .desync ha hg⟩)
  by_cases hid : 8 ≤ (s.slotSeen w.ring c).toNat
  · exact .inr (.inl ⟨_, .badDescId ha (Nat.le_of_not_lt hg) hid⟩)
  obtain ⟨id, he⟩ : ∃ id : Fin 8, (s.slotSeen w.ring c).toNat = id.val := ⟨⟨_, Nat.lt_of_not_le hid⟩, rfl⟩
  have ho : s.offers w.ring c id := ⟨ha, Nat.le_of_not_lt hg, he⟩
  by_cases hh : w.ring = .tx ∧ s.isHeld id = true
  · exact .inr (.inl ⟨_, .doubleGrant ho hh.1 hh.2⟩)
  have free : w.ring = .rx ∨ s.isHeld id = false := by
    cases hr : w.ring with
    | tx => exact .inr (by simpa [hr] using hh)
    | rx => exact .inl rfl
  cases hb : s.bufferOk w.ring id with
  | false => exact .inr (.inl ⟨_, .bounds ho free hb⟩)
  | true => exact .inr (.inr ⟨id, ho, free, hb⟩)

theorem sendEnd_not_busy (f : Frame) (st : Status) (s : State) : (sendEnd f st s).seq.isBusy = false := by
  unfold sendEnd
  split
  · simp
  · exact announceEnd_not_busy st s

theorem ringEmpty_not_busy (w : Walk) (s : State) : (ringEmpty w s).seq.isBusy = false := by
  cases w with
  | acquire => simp [ringEmpty]
  | send f => exact sendEnd_not_busy f _ s
  | poll => simp [ringEmpty]

/-- A walk ends if what follows a buffer taken does. -/
theorem walk_endsWithin (hc : s.cfg.ok = true) (hf : s.fault = .none)
    (taken : ∀ id cap addr, s.cfg.inWindow addr.toNat cap.toNat = true →
      (bufferTaken w c id cap addr (advanceOnTake w c s)).endsWithin n) (hm : 4 + n ≤ m) :
    (s.goto (.peek w c)).endsWithin m := by
  obtain ha | ⟨t, fault⟩ | ⟨id, ho, hh, hb⟩ := walk_cases s w c
  · exact (walkStep_leadsTo rfl (peek_empty hc ha)).endsWithin (endsWithin_of_not_busy (ringEmpty_not_busy w s) 0) (by omega)
  · obtain ⟨k, hk, course⟩ := fault.leadsTo hc hf
    exact course.endsWithin (endsWithin_of_not_busy fault.not_busy 0) (by omega)
  · obtain ⟨addr, window⟩ := bufferInWindow_spec hb
    exact (walk_leadsTo_bufferTaken hc ho hh hb).endsWithin (taken _ _ _ (by rw [addr]; exact window)) hm

/-- A FrameSendCore with its buffer (R211): it leaks it, or writes no more bytes than an envelope can name and returns it. -/
theorem sendTaken_endsWithin {cap addr : Word} (hc : s.cfg.ok = true) (hw : s.cfg.inWindow addr.toNat cap.toNat = true) :
    (bufferTaken (.send f) c id cap addr s).endsWithin (s.pwDevice.length + 131200) := by
  simp only [bufferTaken]
  split
  · exact endsWithin_of_not_busy (sendEnd_not_busy f _ _) _
  · next fits =>
    have size : f.size = 16 + f.payload.length := rfl
    have bytes := sendBytes_leadsTo (s := ((s.hold id addr cap).setRes 0 (u32 id.val)).setRes 1 (u32 f.size)) f id
      (a := addr.toNat) (bs := f.bytes) (inWindow_mono hw le_rfl (by rw [Frame.bytes_length]; omega))
    have push := usedPush_leadsTo (s := { ((s.hold id addr cap).setRes 0 (u32 id.val)).setRes 1 (u32 f.size) with
      pwDevice := s.pwDevice ++ byteWrites addr.toNat f.bytes }) hc (.send f) id (u32 f.size)
    refine (bytes.trans push).endsWithin (endsWithin_of_not_busy (sendEnd_not_busy f _ _) 0) ?_
    simp only [List.length_append, byteWrites_length, Frame.bytes_length]
    omega

theorem sendWalk_endsWithin (hc : s.cfg.ok = true) (hf : s.fault = .none) :
    (s.goto (.peek (.send f) c)).endsWithin (s.pwDevice.length + 131204) :=
  walk_endsWithin hc hf (fun _ _ _ window => sendTaken_endsWithin (s := advanceOnTake (.send f) c s) hc window)
    (by simp only [advanceOnTake, Walk.ring]; omega)

/-! ### The commands, from their first event -/

theorem pollWalk_endsWithin (hc : s.cfg.ok = true) (hf : s.fault = .none) (c : Half) :
    (s.goto (.peek .poll c)).endsWithin (s.pwDevice.length + 300) := by
  obtain ⟨-, -, k, hk, t, -, notBusy, course⟩ := poll_rxKeeps (c := c) hc hf (rxKeeps_of_update (s := s))
  rw [add_u16_zero] at course
  exact ⟨k, hk, t, notBusy, course⟩

theorem startInit_endsWithin (hc : s.cfg.ok = true) (hf : s.fault = .none) : (startOf .init s).endsWithin (soloBound s) := by
  have view := sameRing_initWaiting s
  by_cases hu : s.ch = .uninitialized
  · by_cases ha : s.availIdxSeen .tx = 0
    · exact (init_leadsTo_timedOut hc hu ha).endsWithin (endsWithin_of_not_busy (by simp [State.initTimedOut]) 0)
        (by rw [soloBound]; omega)
    by_cases hg : ringN < gap (s.availIdxSeen .tx) 0
    · exact (init_leadsTo_desync hc hf hu hg).endsWithin (endsWithin_of_not_busy rfl 0) (by rw [soloBound]; omega)
    · rw [startOf_init hc hu]
      refine (initWait_leadsTo (s := s.initWaiting) hc (by rw [view.availIdx]; exact ha)
        (by rw [view.availIdx]; exact Nat.le_of_not_lt hg)).endsWithin (sendWalk_endsWithin hc hf) ?_
      simp only [State.initWaiting, soloBound]
      omega
  · have start : startOf .init s = s.finish .ok := if_neg hu
    exact endsWithin_of_not_busy (by simp [start]) _

theorem startAcquireTx_endsWithin (hc : s.cfg.ok = true) (hf : s.fault = .none) (hr : s.ch = .ready) :
    (startOf .acquireTx s).endsWithin (soloBound s) := by
  rw [startOf_acquireTx hr]
  exact walk_endsWithin (n := 0) hc hf (fun _ _ _ _ => endsWithin_of_not_busy (by simp [bufferTaken]) 0) (by rw [soloBound]; omega)

theorem startPublishTx_endsWithin (hc : s.cfg.ok = true) (hr : s.ch = .ready) :
    (startOf .publishTx s).endsWithin (soloBound s) := by
  by_cases hid : (s.arg 0).toNat < 8
  · rw [startOf_publishTx (id := ⟨(s.arg 0).toNat, hid⟩) hr rfl]
    repeat' split
    · exact endsWithin_of_not_busy rfl _
    · exact endsWithin_of_not_busy rfl _
    · exact (usedPush_leadsTo hc .publish _ _).endsWithin (endsWithin_of_not_busy (by simp [pushDone]) 0)
        (by rw [soloBound]; omega)
    · exact endsWithin_of_not_busy rfl _
  · rw [startOf_publishTx_argRange hr (Nat.le_of_not_lt hid)]
    exact endsWithin_of_not_busy rfl _

theorem startFrameSend_endsWithin (hc : s.cfg.ok = true) (hf : s.fault = .none) (hr : s.ch = .ready) :
    (startOf .frameSend s).endsWithin (soloBound s) := by
  cases hp : s.privOutside (s.arg 2) (s.arg 3).toNat with
  | true =>
    have start : startOf .frameSend s = s.raise (.bounds .privSrc) (s.arg 2) := by simp [startOf, startFrameSend, hr, hp]
    exact endsWithin_of_not_busy (by rw [start]; rfl) _
  | false =>
    rw [startOf_frameSend hr hp]
    exact (leadsTo_refl _).endsWithin (sendWalk_endsWithin hc hf) (by rw [soloBound]; omega)

theorem startPollRx_endsWithin (hc : s.cfg.ok = true) (hf : s.fault = .none) (hr : s.ch = .ready) :
    (startOf .pollRx s).endsWithin (soloBound s) :=
  (pollRx_leadsTo hr).endsWithin (pollWalk_endsWithin (s := s.pollBegun) hc hf _)
    (by simp only [State.pollBegun, soloBound]; omega)

theorem startRxRelease_endsWithin (hc : s.cfg.ok = true) (ha : s.accepts .rxRelease) :
    (startOf .rxRelease s).endsWithin (soloBound s) := by
  have ⟨_, hf, _, _⟩ := ha
  obtain ⟨k, hk⟩ := seq_delivering_of_accepts_rxRelease ha
  have empty : (s.released k).pwDevice.length = 0 := rfl
  exact (rxRelease_leadsTo hc hk).endsWithin (pollWalk_endsWithin (s := s.released k) hc hf _) (by rw [soloBound]; omega)

/-- Every accepted command ends or delivers. -/
theorem startOf_endsWithin (hc : s.cfg.ok = true) (ha : s.accepts i) : (startOf i s).endsWithin (soloBound s) := by
  have ⟨_, hf, _, _⟩ := ha
  have gate (hi : i ∈ [Instr.shutdown, .acquireTx, .publishTx, .frameSend, .pollRx])
      (ready : s.ch = .ready → (startOf i s).endsWithin (soloBound s)) : (startOf i s).endsWithin (soloBound s) := by
    by_cases hr : s.ch = .ready
    · exact ready hr
    · exact endsWithin_of_not_busy (by simp [startOf_of_not_ready hi hr]) _
  cases i with
  | init => exact startInit_endsWithin hc hf
  | shutdown => exact gate (by simp) fun hr => endsWithin_of_not_busy (by simp [startOf, startShutdown, hr]) _
  | acquireTx => exact gate (by simp) (startAcquireTx_endsWithin hc hf)
  | publishTx => exact gate (by simp) (startPublishTx_endsWithin hc)
  | frameSend => exact gate (by simp) (startFrameSend_endsWithin hc hf)
  | pollRx => exact gate (by simp) (startPollRx_endsWithin hc hf)
  | rxRelease => exact startRxRelease_endsWithin hc ha
  | query => exact endsWithin_of_not_busy (by simp [startOf, startQuery]) _

/-- What acceptance does not let through has ended there. -/
theorem accept_endsWithin (hc : s.cfg.ok = true) (hb : s.seq.isBusy = false) (i : Instr) :
    (accept i (startOf i) s).endsWithin (soloBound (accept i (startOf i) s)) := by
  obtain ⟨-, e⟩ | ⟨-, c, -, e⟩ | ⟨-, -, n, -, e⟩ | ⟨hf, hn, hu, e⟩ := accept_cases i (startOf i) s <;> rw [e]
  · exact endsWithin_of_not_busy (by exact hb) _
  · exact endsWithin_of_not_busy rfl _
  · exact endsWithin_of_not_busy rfl _
  · rw [soloBound_startOf]
    exact startOf_endsWithin hc ⟨hb, hf, hn, hu⟩

/-- Settles O33: a Busy block holds the word, and any other runs its course to the end. -/
theorem everyCommandEndsOrDelivers : Obligations.EveryCommandEndsOrDelivers := by
  unfold Obligations.EveryCommandEndsOrDelivers
  intro i s hc
  cases hb : s.seq.isBusy with
  | true => exact ⟨_, exec_of_busy i hb, nofun⟩
  | false =>
    obtain ⟨t, run, ht⟩ := runAlone_of_endsWithin (accept_endsWithin hc hb i)
    exact ⟨t, (exec_of_not_busy i hb).trans run, fun _ => ht⟩

end Sys2Proof.Machine
end

section
/-! SUPPORT. A hardware reset (70_reset_and_hazards.md R410, R411): one scheduled move, after which SHM holds what the device saw. -/

namespace Sys2Proof.Machine

variable {s t : State} {rest : List Act}

theorem step_reset (hc : s.cfg.ok = true) (ha : s.acts = .reset :: rest) :
    step s = .next (hardwareReset { s with acts := rest }) := step_of_acts hc ha

/-- The drain of R410 step 1 loses no write: SHM reads as the device saw it. -/
theorem hardwareReset_read (s : State) (x : Nat) : (hardwareReset s).shm.read x = s.byteSeen .device x :=
  read_commitAll s.shm s.pwDevice x

theorem hardwareReset_written (s : State) (n : Fin 4) : (hardwareReset s).written n = false :=
  Vector.getElem_replicate n.isLt

theorem hardwareReset_res (s : State) (n : Fin 4) : (hardwareReset s).res[n] = 0 := Vector.getElem_replicate n.isLt

/-- Settles O55: the step is the reset, and each value is a field of the state it leaves. -/
theorem hardwareResetClearsTheBlock : Obligations.HardwareResetClearsTheBlock := by
  unfold Obligations.HardwareResetClearsTheBlock
  intro s t rest hc ha h
  rw [step_reset hc ha] at h
  cases h
  exact ⟨rfl, hardwareReset_read { s with acts := rest }, rfl, rfl, rfl, rfl, rfl, rfl, rfl, rfl, rfl, rfl, rfl,
    hardwareReset_written _, hardwareReset_res _, rfl, rfl, rfl, rfl, rfl, rfl, rfl, rfl, rfl, rfl, rfl⟩

end Sys2Proof.Machine
end

section
/-! SUPPORT. Who writes a buffer (20_memory.md R100, 44_host_agent.md R331, 70_reset_and_hazards.md R248, R417): the client's test,
byte by byte, and the one write that a host step may issue. -/

namespace Sys2Proof.Machine

variable {s t : State} {a n : Nat}

/-! ### Ranges byte by byte -/

/-- Two ranges share no byte iff each byte of the one is outside the other. -/
theorem disjointRanges_iff_outside {b m : Nat} :
    disjointRanges a n b m = true ↔ ∀ x, a ≤ x → x < a + n → outside x b m := by
  simp only [disjointRanges, outside, Bool.or_eq_true, beq_iff_eq, decide_eq_true_eq]
  constructor
  · intro h x
    omega
  · intro h
    have := h (max a b)
    omega

/-! ### What a client may write -/

theorem inHeldBuffer_iff : s.inHeldBuffer a n = true ↔ ∃ id : Fin 8, s.isHeld id = true ∧ s.isLeaked id = false ∧
    s.heldAddr[id].toNat ≤ a ∧ a + n ≤ s.heldAddr[id].toNat + s.heldCap[id].toNat := by
  simp [State.inHeldBuffer, State.acquired, and_assoc]

/-- The bytes of a held buffer lie in a window. -/
theorem inWindow_of_inHeldBuffer (hs : s.buffersFit) (h : s.inHeldBuffer a n = true) : s.cfg.inWindow a n = true := by
  obtain ⟨id, held, -, lo, hi⟩ := inHeldBuffer_iff.mp h
  exact inWindow_mono (hs.held id held) lo hi

/-- With no command running, the RX buffer in process is the delivered one. -/
theorem touchesRxTaken_eq_false_iff (hb : s.seq.isBusy = false) : s.touchesRxTaken a n = false ↔
    ∀ k, s.seq = .delivering k → disjointRanges a n (s.dlvAddr - 16).toNat s.rxCurDlen.toNat = true := by
  cases hq : s.seq with
  | idle => simp [State.touchesRxTaken, State.rxTakenBuffer, State.rxTaken, hq, Seq.outer]
  | busy p o => simp [hq, Seq.isBusy] at hb
  | delivering k => simp [State.touchesRxTaken, State.rxTakenBuffer, hq, Seq.outer]

/-- Address x is in no RX buffer (R248): not in the delivered one, and in none that the host has granted and not reaped. -/
def State.outsideRxBuffers (s : State) (x : Nat) : Prop :=
  (∀ k, s.seq = .delivering k → outside x (s.dlvAddr - 16).toNat s.rxCurDlen.toNat) ∧
  (∀ id : Fin 8, s.hostRx.owns id = false → outside x (s.descAddrSeen .rx id).toNat (s.descLenSeen .rx id).toNat)

theorem touchesRxBuffer_eq_false_iff (hb : s.seq.isBusy = false) :
    s.touchesRxBuffer a n = false ↔ ∀ x, a ≤ x → x < a + n → s.outsideRxBuffers x := by
  have parts : s.touchesRxBuffer a n = false ↔ s.touchesRxTaken a n = false ∧ ∀ id : Fin 8, s.hostRx.owns id = false →
      disjointRanges a n (s.descAddrSeen .rx id).toNat (s.descLenSeen .rx id).toNat = true := by
    simp [State.touchesRxBuffer]
  simp only [parts, touchesRxTaken_eq_false_iff hb, disjointRanges_iff_outside]
  exact ⟨fun ⟨dlv, rx⟩ x lo hi => ⟨fun k hk => dlv k hk x lo hi, fun id ho => rx id ho x lo hi⟩,
    fun h => ⟨fun k hk x lo hi => (h x lo hi).1 k hk, fun id ho x lo hi => (h x lo hi).2 id ho⟩⟩

/-- The client's test (R248, R417), byte by byte; that the bytes lie in a window follows. -/
theorem clientMayWrite_iff (hs : s.buffersFit) : s.clientMayWrite a n = true ↔ s.seq.isBusy = false ∧
    (∃ id : Fin 8, s.isHeld id = true ∧ s.isLeaked id = false ∧
      s.heldAddr[id].toNat ≤ a ∧ a + n ≤ s.heldAddr[id].toNat + s.heldCap[id].toNat) ∧
    ∀ x, a ≤ x → x < a + n → s.outsideRxBuffers x := by
  simp only [State.clientMayWrite, Bool.and_eq_true, Bool.not_eq_true', ← inHeldBuffer_iff]
  constructor
  · rintro ⟨⟨⟨hb, held⟩, -⟩, rx⟩
    exact ⟨hb, held, (touchesRxBuffer_eq_false_iff hb).mp rx⟩
  · rintro ⟨hb, held, rx⟩
    exact ⟨⟨⟨hb, held⟩, inWindow_of_inHeldBuffer hs held⟩, (touchesRxBuffer_eq_false_iff hb).mpr rx⟩

theorem clientMove_of_stalled (hcmd : s.cmd ≠ none) (op : ClientOp) : clientMove op s = .refused .clientStalled :=
  if_pos (Option.isSome_iff_ne_none.mpr hcmd)

theorem clientMove_shmWrite (hcmd : s.cmd = none) (v : Nat) :
    clientMove (.shmWrite a n v) s = clientShmWrite a n v s := by
  simp [clientMove, hcmd]

/-! ### What a host step writes -/

@[simp] theorem noteIfRead_pwHost (e : Event) (v : Nat) (s : State) : (noteIfRead e v s).pwHost = s.pwHost := by cases e <;> rfl

@[simp] theorem reapNext_pwHost (r : Ring) (v : Half) (left : Nat) (id : Word) (s : State) :
    (reapNext r v left id s).pwHost = s.pwHost := by
  simp only [reapNext]
  split <;> exact s.setHostRing_pwHost r _

/-- What follows a host event issues no write. -/
@[simp] theorem HostPos.resume_pwHost (p : HostPos) (v : Nat) (s : State) : (p.resume v s).pwHost = s.pwHost := by
  cases p with
  | script todo fin =>
    cases todo with
    | nil => simp [HostPos.resume]
    | cons e rest => simp only [HostPos.resume]; split <;> simp
  | reapIdx r left => simp only [HostPos.resume]; split <;> simp
  | reapId r w left => rfl
  | reapLen r w left id => simp only [HostPos.resume]; split <;> simp
  | reapByte r w left id a n => simp only [HostPos.resume]; split <;> simp

/-- A write that a host step issues breaks no duty. -/
theorem hostStep_write_keepsDuty {w : PendingWrite} (h : hostStep s = .next t) (hw : t.pwHost = s.pwHost ++ [w]) :
    w.event.breaksDuty s = false := by
  have silent (hq : t.pwHost = s.pwHost) : w.event.breaksDuty s = false := by simp [hq] at hw
  obtain ⟨-, rfl⟩ | ⟨p, -, -, ⟨-, rfl⟩ | ⟨e, -, duty, he⟩⟩ := hostStep_next h
  · exact silent rfl
  · exact silent (p.resume_pwHost 0 s)
  · obtain ⟨x, n, -, -, rfl⟩ | ⟨x, bs, rfl, -, rfl⟩ | ⟨-, -, rfl⟩ | ⟨-, -, rfl⟩ := shmEvent_next he
    · exact silent (p.resume_pwHost _ s)
    · obtain rfl : ⟨x, bs⟩ = w := by simpa using hw
      exact duty
    · exact silent (p.resume_pwHost 0 s)
    · exact silent rfl

theorem touchesTaken_of_breaksDuty {w : PendingWrite} (h : w.event.breaksDuty s = false) :
    s.touchesTaken w.addr w.bytes.length = false :=
  (Bool.or_eq_false_iff.mp h).1

/-- A held id is the device's until a UsedPush of it has committed used.idx. -/
theorem txTaken_of_not_returned {id : Fin 8} (held : s.isHeld id = true)
    (kept : ∀ j o, s.seq = .busy (.push .barrier2 j) o → j.kind.ring = .tx → s.pwDevice = [] → j.id ≠ id) :
    s.txTaken id = true := by
  simp only [State.txTaken, held, Bool.true_and, bne_iff_ne]
  unfold State.returning
  split
  · next j o hq =>
    split
    · next hr => exact fun e => kept j o hq hr.1 hr.2 (Option.some.inj e)
    · nofun
  · nofun

theorem disjointRanges_of_txTaken {id : Fin 8} (h : s.touchesTaken a n = false) (taken : s.txTaken id = true) :
    disjointRanges a n s.heldAddr[id].toNat s.heldCap[id].toNat = true := by
  simp only [State.touchesTaken, State.touchesTxTaken, Bool.or_eq_false_iff, List.any_eq_false, Bool.and_eq_true,
    Bool.not_eq_true', not_and, Bool.not_eq_false] at h
  exact h.1 id (List.mem_finRange id) taken

/-- Settles O58: the client's test and the host's, read byte by byte. -/
theorem clientWritesOnlyHeldBuffers : Obligations.ClientWritesOnlyHeldBuffers := by
  unfold Obligations.ClientWritesOnlyHeldBuffers
  refine ⟨fun s rest a n v hc hs ha => ?_, fun s t w h hw x hx => ?_⟩
  · have fits : State.buffersFit { s with acts := rest } := ⟨hs.held, hs.running, hs.host⟩
    have may := clientMayWrite_iff fits (a := a) (n := n)
    rw [step_of_acts hc ha]
    refine ⟨fun hcmd legal => ?_, fun hcmd illegal => ?_, fun hcmd => ?_⟩
    · exact (clientMove_shmWrite (s := { s with acts := rest }) hcmd v).trans (if_pos (may.mpr legal))
    · exact (clientMove_shmWrite (s := { s with acts := rest }) hcmd v).trans (if_neg (mt may.mp illegal))
    · exact clientMove_of_stalled (s := { s with acts := rest }) hcmd (.shmWrite a n v)
  · have spare := touchesTaken_of_breaksDuty (hostStep_write_keepsDuty h hw)
    obtain ⟨lo, hi⟩ := (byteAt_isSome w x).mp hx
    refine ⟨fun id held kept => ?_, fun k hk => ?_⟩
    · have off := disjointRanges_of_txTaken spare (txTaken_of_not_returned held kept)
      exact disjointRanges_iff_outside.mp off x lo hi
    · have rx : s.touchesRxTaken w.addr w.bytes.length = false := (Bool.or_eq_false_iff.mp spare).2
      have off := (touchesRxTaken_eq_false_iff (by rw [hk]; rfl)).mp rx k hk
      exact disjointRanges_iff_outside.mp off x lo hi

end Sys2Proof.Machine
end

section
/-! SUPPORT. Both memories stay in canonical form along every step (20_memory.md section 1; log 2). SHM changes only where pending
writes are committed to it, and PRIV only where the client writes it; whatever follows an event stores nothing. -/

namespace Sys2Proof.Machine

variable {s t : State}

/-! ### What stores nothing -/

theorem memoryCanonical_of_same (hs : s.memoryCanonical) (hm : sameMemory s t) (hu : untouched s t) : t.memoryCanonical := by
  rw [State.memoryCanonical, hm.1, hu.priv]
  exact hs

/-- Acceptance stores nothing: a command's first event is still to come. -/
theorem accept_sameMemory (i : Instr) (s : State) : sameMemory s (accept i (startOf i) s) :=
  have h := accept_withStores s s.shm s.pwDevice s.cmd i
  ⟨(congrArg State.shm h :), (congrArg State.pwDevice h :)⟩

theorem Pos.resume_memoryCanonical (p : Pos) (v : Nat) (hs : s.memoryCanonical) : (p.resume v s).memoryCanonical :=
  memoryCanonical_of_same hs (resume_sameMemory s p v) (p.resume_untouched v s)

theorem accept_memoryCanonical (i : Instr) (hs : s.memoryCanonical) : (accept i (startOf i) s).memoryCanonical :=
  memoryCanonical_of_same hs (accept_sameMemory i s) (accept_untouched i s)

theorem acceptWord_memoryCanonical (w : Word) (hs : s.memoryCanonical) : (acceptWord w s).memoryCanonical := by
  unfold acceptWord
  split
  · exact accept_memoryCanonical _ hs
  · exact hs

theorem regWrite_memoryCanonical (off : Nat) (v : Word) (hs : s.memoryCanonical) : (s.regWrite off v).memoryCanonical := by
  unfold State.regWrite
  split <;> exact hs

theorem setPending_memoryCanonical (a : Agent) (ws : List PendingWrite) (hs : s.memoryCanonical) :
    (s.setPending a ws).memoryCanonical := by
  cases a <;> exact hs

theorem issueWrite_memoryCanonical (a : Agent) (x : Nat) (bs : List Byte) (hs : s.memoryCanonical) :
    (s.issueWrite a x bs).memoryCanonical :=
  setPending_memoryCanonical a _ hs

theorem setHostRing_memoryCanonical (r : Ring) (h : HostRing) (hs : s.memoryCanonical) :
    (s.setHostRing r h).memoryCanonical := by
  cases r <;> exact hs

theorem hostEffect_memoryCanonical (e : HostEffect) (hs : s.memoryCanonical) : (hostEffect e s).memoryCanonical := by
  cases e with
  | nothing => exact hs
  | created => exact hs
  | granted r n ids => exact setHostRing_memoryCanonical r _ hs
  | wroteIdx r v => exact setHostRing_memoryCanonical r _ hs

theorem noteIfRead_memoryCanonical (e : Event) (v : Nat) (hs : s.memoryCanonical) : (noteIfRead e v s).memoryCanonical := by
  cases e <;> exact hs

theorem reapNext_memoryCanonical (r : Ring) (v : Half) (left : Nat) (id : Word) (hs : s.memoryCanonical) :
    (reapNext r v left id s).memoryCanonical := by
  simp only [reapNext]
  split <;> exact setHostRing_memoryCanonical r _ hs

theorem HostPos.resume_memoryCanonical (p : HostPos) (v : Nat) (hs : s.memoryCanonical) : (p.resume v s).memoryCanonical := by
  have noted : (s.noteHostRead v).memoryCanonical := hs
  cases p with
  | script todo fin =>
    cases todo with
    | nil => exact hostEffect_memoryCanonical fin hs
    | cons e rest =>
      have read := noteIfRead_memoryCanonical e v hs
      simp only [HostPos.resume]
      split
      · exact hostEffect_memoryCanonical fin read
      · exact read
  | reapIdx r left => simp only [HostPos.resume]; split <;> exact noted
  | reapId r w left => exact noted
  | reapLen r w left id =>
    simp only [HostPos.resume]
    split
    · exact noted
    · exact reapNext_memoryCanonical r w left id noted
  | reapByte r w left id a n =>
    simp only [HostPos.resume]
    split
    · exact reapNext_memoryCanonical r w left id noted
    · exact noted

/-- An event stores nothing itself: its write is pending until it is committed (R89). -/
theorem shmEvent_memoryCanonical {a : Agent} {e : Event} {k : Nat → State → State}
    (hk : ∀ v (u : State), u.memoryCanonical → (k v u).memoryCanonical) (hs : s.memoryCanonical)
    (h : shmEvent a e k s = .next t) : t.memoryCanonical := by
  obtain ⟨x, n, -, -, rfl⟩ | ⟨x, bs, -, -, rfl⟩ | ⟨-, -, rfl⟩ | ⟨-, -, rfl⟩ := shmEvent_next h
  · exact hk _ s hs
  · exact hk 0 _ (issueWrite_memoryCanonical a x bs hs)
  · exact hk 0 s hs
  · exact hs

/-! ### What stores -/

theorem commit_memoryCanonical {a : Agent} {k : Nat} (hs : s.memoryCanonical) (h : s.commit a k = some t) :
    t.memoryCanonical := by
  obtain ⟨w, -, -, rfl⟩ := commit_some h
  obtain ⟨shm, priv⟩ := hs
  exact setPending_memoryCanonical a _ ⟨w.wf_commitTo _ shm, priv⟩

theorem drain_memoryCanonical {a : Agent} (hs : s.memoryCanonical) (h : drain a s = .next t) : t.memoryCanonical := by
  obtain ⟨-, rfl⟩ | ⟨-, hc⟩ := drain_next h
  · exact hs
  · exact commit_memoryCanonical hs hc

/-- A reset stores what PW[device] holds (R410 step 1) and leaves PRIV (R411). -/
theorem hardwareReset_memoryCanonical (hs : s.memoryCanonical) : (hardwareReset s).memoryCanonical := by
  obtain ⟨shm, priv⟩ := hs
  exact ⟨wf_commitAll _ _ shm, priv⟩

/-- The client's write into PRIV is the one move that changes PRIV. -/
theorem clientMove_memoryCanonical {op : ClientOp} (hs : s.memoryCanonical) (h : clientMove op s = .next t) :
    t.memoryCanonical := by
  obtain ⟨-, ⟨_, _, v, off, -, -, rfl⟩ | ⟨_, _, _, v, -, -, -, rfl⟩ | ⟨a, n, v, -, -, rfl⟩ | ⟨a, n, -, rfl⟩ |
    ⟨a, bs, -, -, rfl⟩⟩ := clientMove_next h
  · exact regWrite_memoryCanonical off v hs
  · exact hs
  · split
    · exact hs
    · exact issueWrite_memoryCanonical _ _ _ hs
  · exact hs
  · obtain ⟨shm, priv⟩ := hs
    exact ⟨shm, Memory.wf_writeBytes _ a bs priv⟩

/-! ### The block and the host -/

theorem blockStep_memoryCanonical (hs : s.memoryCanonical) (h : blockStep s = .next t) : t.memoryCanonical := by
  unfold blockStep at h
  split at h
  · next p _ _ => exact shmEvent_memoryCanonical (fun v _ hu => p.resume_memoryCanonical v hu) hs h
  · cases h
    exact hs

theorem runAlone_memoryCanonical (hs : s.memoryCanonical) (h : runAlone s = .next t) : t.memoryCanonical := by
  refine drive_induction (fun u v hu hv => ?_) hs h
  obtain ⟨_, _, -, -, hc⟩ | hb := soloStep_next hv
  · exact commit_memoryCanonical hu hc
  · exact blockStep_memoryCanonical hu hb

theorem exec_memoryCanonical {i : Instr} (hs : s.memoryCanonical) (h : exec i s = .next t) : t.memoryCanonical := by
  rw [exec_eq, runCommand] at h
  split at h
  · cases h
    exact hs
  · exact runAlone_memoryCanonical (accept_memoryCanonical i hs) h

theorem runWord_memoryCanonical {w : Word} (hs : s.memoryCanonical) (h : runWord w s = .next t) : t.memoryCanonical := by
  obtain ⟨i, -, hi⟩ | ⟨e, -, rfl⟩ := runWord_next h
  · exact exec_memoryCanonical hs hi
  · exact hs

theorem blockTurn_memoryCanonical (hs : s.memoryCanonical) (h : blockTurn s = .next t) : t.memoryCanonical := by
  obtain ⟨-, hb⟩ | ⟨-, w, -, rfl⟩ | ⟨-, -, rfl⟩ := blockTurn_next h
  · exact blockStep_memoryCanonical hs hb
  · exact acceptWord_memoryCanonical (s := { s with cmd := none }) w hs
  · exact hs

theorem hostStep_memoryCanonical (hs : s.memoryCanonical) (h : hostStep s = .next t) : t.memoryCanonical := by
  obtain ⟨-, rfl⟩ | ⟨p, -, -, ⟨-, rfl⟩ | ⟨e, -, -, he⟩⟩ := hostStep_next h
  · exact hs
  · exact p.resume_memoryCanonical 0 hs
  · exact shmEvent_memoryCanonical (fun v _ hu => p.resume_memoryCanonical v hu) hs he

/-! ### Every step -/

theorem performAct_memoryCanonical {m : Act} (hs : s.memoryCanonical) (h : performAct m s = .next t) :
    t.memoryCanonical := by
  obtain ⟨-, hb⟩ | ⟨a, k, -, -, hc⟩ | ⟨a, rfl, -⟩ | ⟨op, -, -, hc⟩ | ⟨op, p, -, -, -, rfl⟩ | ⟨-, hh⟩ | ⟨-, rfl⟩ :=
    performAct_next h
  · exact blockTurn_memoryCanonical hs hb
  · exact commit_memoryCanonical hs hc
  · exact drain_memoryCanonical hs h
  · exact clientMove_memoryCanonical hs hc
  · exact hs
  · exact hostStep_memoryCanonical hs hh
  · exact hardwareReset_memoryCanonical hs

theorem quietStep_memoryCanonical (hs : s.memoryCanonical) (h : quietStep s = .next t) : t.memoryCanonical := by
  obtain ⟨-, hr⟩ | ⟨-, w, -, hw⟩ | ⟨-, -, a, hd⟩ := quietStep_next h
  · exact runAlone_memoryCanonical hs hr
  · exact runWord_memoryCanonical (s := { s with cmd := none }) hs hw
  · exact drain_memoryCanonical hs hd

/-- Settles O49: a scheduled move and a step of the block alone both keep the form, for every store is a run of byte writes. -/
theorem stepsKeepMemoryCanonical : Obligations.StepsKeepMemoryCanonical := by
  unfold Obligations.StepsKeepMemoryCanonical
  intro s t hs h
  obtain ⟨-, ⟨m, rest, -, hm⟩ | ⟨-, -, hq⟩⟩ := step_next h
  · exact performAct_memoryCanonical (s := { s with acts := rest }) hs hm
  · exact quietStep_memoryCanonical hs hq

end Sys2Proof.Machine
end
